-- ==== Sys2Proof/Word.lean ====
section
/-! DEFINITION. The word types of the part and the index types of its numbered things: channels, slots, lines, outputs,
profiles and ranks (00_scope.md, CONVENTIONS). -/

namespace Sys2Proof

/-- A 32-bit word of the Span link (R89). -/
abbrev Word := BitVec 32

/-- A 24-bit two's-complement audio sample (00_scope.md, Samples). -/
abbrev Sample := BitVec 24

/-- A word of the delay memory: the sample in bits 0 to 23, seven code bits in bits 24 to 30 (R2). -/
abbrev MemWord := BitVec 31

/-- A ring sequence number, modulo 65536 (R89). -/
abbrev Seq := BitVec 16

/-- A line number, 0 to 63 (R1). -/
abbrev Line := Fin 64

/-- An input channel, 0 to 23 (R105). -/
abbrev InCh := Fin 24

/-- An output channel, 0 to 31 (R107). -/
abbrev Output := Fin 32

/-- A frame slot, 0 to 63 (R89). -/
abbrev Slot := Fin 64

/-- A rank position, 0 to 3 (R2). -/
abbrev Rank := Fin 4

end Sys2Proof
end

