-- ==== Sys2Proof/Wire.lean ====
section
/-! DEFINITION. What reaches the part from outside, as data: a span frame of 67 words (R89), an order as its message
carries it (R173), and what the delay-memory devices may do (R4, R15, R16). -/

namespace Sys2Proof

/-- The service kind of a frame's service word (R89, R172): 0 IDLE, 1 HEAD, 2 BODY, 3 END. -/
inductive ServiceKind where
  | idle
  | head
  | body
  | tail
  deriving DecidableEq, Repr

/-- A span frame, by the names of its 67 words (R89): word 0, words 1 to 64, word 65 and word 66. -/
structure Frame where
  head : Word
  slots : Vector Word 64
  service : Word
  check : Word
  deriving DecidableEq, Repr

/-- How an order came to be for this node, as the decoder decided at its HEAD (R115): `direct`, the address equal to
the node pattern; `group`, a group or broadcast address. -/
inductive Via where
  | direct
  | group
  deriving DecidableEq, Repr

/-- An order whose END has arrived in place and passed the message checks (R117): how it was addressed, its tag, and
its body words in order, the first being body word 1 (R173). Section and verb are the command's own. -/
structure Order where
  via : Via
  tag : BitVec 6
  body : List Word
  deriving DecidableEq, Repr

/-- What befalls the delay-memory devices outside the part, given with the frame period in which it shows. -/
inductive Disturbance where
  /-- Bits of the stored word at a word address are turned over, until the word is next written (R15). -/
  | upset (addr : Nat) (mask : MemWord)
  /-- From now on every read of the word at this address shows the bits of the mask turned over; a mask of 0 ends
  that. It stands for a failing cell (R21). -/
  | defect (addr : Nat) (mask : MemWord)
  /-- The rank answers for good (`none`), or `n` more accesses and then no more (`some n`) (R3, R4). -/
  | answers (rank : Rank) (life : Option Nat)
  deriving DecidableEq, Repr

end Sys2Proof
end

