-- ==== Sys2Proof/Syntax.lean ====
section
/-! DEFINITION. The commands of the part, one constructor for each row of spec/opcode_table.json, in the table's
order. A frame-period command carries what arrives and what befalls the delay memory; an event of the part
carries nothing, or the output it concerns; an order carries its message. -/

namespace Sys2Proof

/-- One step of the part (spec/opcode_table.json). -/
inductive Instr where
  /-- RESET_PIN_ASSERTED (R166). -/
  | resetPinAsserted
  /-- PIN_RESET (R166): the release of the reset pin, with the address pins as sampled at the release. -/
  | pinReset (pins : BitVec 6)
  /-- SIZING_END (R3). -/
  | sizingEnd
  /-- RESET_TAKES_EFFECT (R167). -/
  | resetTakesEffect
  /-- START_UP_SEARCH_PERIOD (R93), with the frames that arrived in the period, in order. -/
  | startUpSearchPeriod (arrivals : List Frame) (memory : List Disturbance)
  /-- START_UP_LIMIT (R93). -/
  | startUpLimit
  /-- GOOD_FRAME (R95). -/
  | goodFrame (frame : Frame) (memory : List Disturbance)
  /-- BAD_FRAME (R98). -/
  | badFrame (frame : Frame) (memory : List Disturbance)
  /-- MISSING_FRAME_PERIOD (R99). -/
  | missingFramePeriod (memory : List Disturbance)
  /-- LINK_LOST (R100): the fourth missing frame period in a row. -/
  | linkLost (memory : List Disturbance)
  /-- LOCAL_FRAME (R103), with the frames that arrived in the period, in order. -/
  | localFrame (arrivals : List Frame) (memory : List Disturbance)
  /-- RESUMPTION_FRAME (R104). -/
  | resumptionFrame (frame : Frame) (memory : List Disturbance)
  /-- END_OF_CLEARING (R12). -/
  | endOfClearing
  /-- FIRE_FRAME (R54). -/
  | fireFrame
  /-- FADE_END (R58). -/
  | fadeEnd
  /-- REVERTED_FADE_END (R59). -/
  | revertedFadeEnd
  /-- BLOCK_END (R79). -/
  | blockEnd
  /-- CLIP_RUN_MUTE (R82), for one output. -/
  | clipRunMute (output : Output)
  /-- LEAVING_FOR_STANDBY_END (R163). -/
  | leavingForStandbyEnd
  /-- SWEEP_COMPLETE (R22). -/
  | sweepComplete
  /-- CAPTURE_END (R153). -/
  | captureEnd
  /-- HOLDOFF_EXPIRY (R137). -/
  | holdoffExpiry
  /-- NOTICE_START (R130). -/
  | noticeStart
  /-- RETURN_START (R125). -/
  | returnStart
  /-- UNKNOWN_ORDER (R119): an order naming a section and verb that the table of verbs does not assign. -/
  | unknownOrder (sec : BitVec 4) (verb : BitVec 6) (o : Order)
  /-- IDENT (R170). -/
  | ident (o : Order)
  /-- GO (R161). -/
  | go (o : Order)
  /-- STANDBY (R162). -/
  | standby (o : Order)
  /-- SILENCE (R164). -/
  | silence (o : Order)
  /-- RESUME (R164). -/
  | resume (o : Order)
  /-- SWEEP (R20). -/
  | sweep (o : Order)
  /-- UNLOCK (R123). -/
  | unlock (o : Order)
  /-- SET_ADDRESS (R116). -/
  | setAddress (o : Order)
  /-- RESET (R167). -/
  | reset (o : Order)
  /-- WRITE_IN_MAP (R106). -/
  | writeInMap (o : Order)
  /-- WRITE_OUT_MAP (R107). -/
  | writeOutMap (o : Order)
  /-- READ_MAP (R108). -/
  | readMap (o : Order)
  /-- WRITE_WINDOW (R5). -/
  | writeWindow (o : Order)
  /-- WRITE_FEED (R7). -/
  | writeFeed (o : Order)
  /-- START (R10). -/
  | start (o : Order)
  /-- STOP of section 2 (R13). `faultFirst` says which is taken first where the line's fault and the order meet in one
  frame (R16). -/
  | stop (o : Order) (faultFirst : Bool)
  /-- RESTART (R14), with `faultFirst` as for STOP (R16). -/
  | restart (o : Order) (faultFirst : Bool)
  /-- READ_LINE (R18). -/
  | readLine (o : Order)
  /-- WRITE_HEADER (R28). -/
  | writeHeader (o : Order)
  /-- WRITE_OUTPUT (R29). -/
  | writeOutput (o : Order)
  /-- APPEND_TAP (R30). -/
  | appendTap (o : Order)
  /-- REPLACE_TAP (R31). -/
  | replaceTap (o : Order)
  /-- TRUNCATE (R32). -/
  | truncate (o : Order)
  /-- COPY_LIVE (R33). -/
  | copyLive (o : Order)
  /-- READ_BANK (R34). -/
  | readBank (o : Order)
  /-- COMMIT (R52). -/
  | commit (o : Order)
  /-- CANCEL (R61). -/
  | cancel (o : Order)
  /-- REVERT (R60). -/
  | revert (o : Order)
  /-- WRITE_PROFILE (R71). -/
  | writeProfile (o : Order)
  /-- READ_PROFILE (R72). -/
  | readProfile (o : Order)
  /-- READ_GUARD (R88). -/
  | readGuard (o : Order)
  /-- RELEASE (R84). -/
  | release (o : Order)
  /-- READ_EVENTS (R140). -/
  | readEvents (o : Order)
  /-- CLEAR_EVENTS (R141). -/
  | clearEvents (o : Order)
  /-- READ_AND_CLEAR (R142). -/
  | readAndClear (o : Order)
  /-- WRITE_ENABLES (R138). -/
  | writeEnables (o : Order)
  /-- WRITE_HOLDOFF (R139). -/
  | writeHoldoff (o : Order)
  /-- READ_CHECK (R145). -/
  | readCheck (o : Order)
  /-- CLEAR_CHECK (R145). -/
  | clearCheck (o : Order)
  /-- WRITE_MODE (R144). -/
  | writeMode (o : Order)
  /-- READ_BAD_BLOCKS (R19). -/
  | readBadBlocks (o : Order)
  /-- SET_UP (R147). -/
  | setUp (o : Order)
  /-- ARM (R150). -/
  | arm (o : Order)
  /-- CAPTURE_TRIGGER (R155). -/
  | captureTrigger (o : Order)
  /-- CAPTURE_STOP: STOP of section 7 (R154). -/
  | captureStop (o : Order)
  /-- READ_CAPTURE (R156). -/
  | readCapture (o : Order)
  /-- READ_SAMPLES (R157). -/
  | readSamples (o : Order)
  /-- READ_LINK (R112). -/
  | readLink (o : Order)
  /-- CLEAR_COUNTERS (R112). -/
  | clearCounters (o : Order)
  /-- LOCK_ORDER: the LOCK order (R124). -/
  | lockOrder (o : Order)
  deriving DecidableEq, Repr

end Sys2Proof
end

