-- ==== Sys2Proof/Decode.lean ====
section
/-! DEFINITION. The command a word spells by the table's bits. The part is a block with no instruction decoder: no row of
spec/opcode_table.json has bits, so no word spells a command. The order decoder of R113 to R117 is state of the part and
stands in Machine/DecoderUnit.lean. -/

namespace Sys2Proof

/-- No row of the table gives bits: no word is a command. -/
def decodeTableWord (_nbits _w : Nat) : Option Instr := none

end Sys2Proof
end

