-- ==== Sys2Proof/Machine/Bits.lean ====
section
/-! DEFINITION. Bit fields of link words (R172, R173), the two CRCs, the saturation of samples, and the code of the
delay-memory word (R2). -/

namespace Sys2Proof

/-- Bits `hi` down to `lo` of a word, as a number. -/
def bitsAt (w : Word) (hi lo : Nat) : Nat := w.toNat / 2 ^ lo % 2 ^ (hi + 1 - lo)

/-- One bit of a word. -/
def bitAt (w : Word) (i : Nat) : Bool := w.getLsbD i

/-- A number as a 32-bit word. -/
def word (n : Nat) : Word := BitVec.ofNat 32 n

/-- A flag as a one-bit number. -/
def bit (b : Bool) : Nat := if b then 1 else 0

/-- The low 16 bits of a word, as a two's-complement gain (00_scope.md, gain formats). -/
def gainOf (w : Word) : BitVec 16 := w.setWidth 16

/-! ### Saturation -/

/-- Full scale, upper end. -/
def sampleMax : Int := 8388607

/-- Full scale, lower end. -/
def sampleMin : Int := -8388608

/-- To saturate a value (00_scope.md, Samples). -/
def saturate (x : Int) : Int := if x > sampleMax then sampleMax else if x < sampleMin then sampleMin else x

/-- A saturated value as a 24-bit sample. -/
def toSample (x : Int) : Sample := BitVec.ofInt 24 (saturate x)

/-! ### The two CRCs -/

/-- One bit into a CRC register: shift one place towards the most significant end, and combine with the polynomial if
the bit shifted out differs from the data bit (R172, R173). -/
def crcBit {n : Nat} (poly r : BitVec n) (b : Bool) : BitVec n :=
  if (r.msb != b) = true then (r <<< 1) ^^^ poly else r <<< 1

/-- One word into a CRC register, bit 31 first. -/
def crcWord {n : Nat} (poly r : BitVec n) (w : Word) : BitVec n :=
  (List.range 32).foldl (fun r i => crcBit poly r (w.getMsbD i)) r

/-- Words into a CRC register, in order. The match on the register's number changes nothing: it has the register
worked out before the next word is taken. -/
def crcWords {n : Nat} (poly r : BitVec n) : List Word → BitVec n
  | [] => r
  | w :: ws =>
    match (crcWord poly r w).toNat with
    | 0 => crcWords poly 0 ws
    | k + 1 => crcWords poly (BitVec.ofNat n (k + 1)) ws

/-- The frame check over words 0 to 65 (R172). -/
def crc32 (ws : List Word) : Word := ~~~ (crcWords 0x04C11DB7#32 0xFFFFFFFF#32 ws)

/-- The message check over the HEAD and BODY words (R173). -/
def crc16 (ws : List Word) : BitVec 16 := crcWords 0x1021#16 0xFFFF#16 ws

/-! ### The span frame -/

/-- The code of a service kind (R172). -/
def ServiceKind.code : ServiceKind → Nat
  | .idle => 0
  | .head => 1
  | .body => 2
  | .tail => 3

/-- The service kind of a code of two bits (R172). -/
def ServiceKind.ofCode : Nat → ServiceKind
  | 0 => .idle
  | 1 => .head
  | 2 => .body
  | _ => .tail

/-- The sync of a frame is good (R89). -/
def Frame.syncGood (f : Frame) : Bool := bitsAt f.head 31 24 == 0xA5

/-- The sequence in the frame head (R172). -/
def Frame.seq (f : Frame) : Seq := BitVec.ofNat 16 (bitsAt f.head 23 8)

/-- The service kind in the frame head (R172). -/
def Frame.kind (f : Frame) : ServiceKind := ServiceKind.ofCode (bitsAt f.head 7 6)

/-- The DAMAGED flag (R172). -/
def Frame.damaged (f : Frame) : Bool := bitAt f.head 5

/-- Words 0 to 65 in order. -/
def Frame.checked (f : Frame) : List Word := f.head :: (f.slots.toList ++ [f.service])

/-- The check of a frame is good (R89). -/
def Frame.checkGood (f : Frame) : Bool := f.check == crc32 f.checked

/-- A frame head word (R172). -/
def frameHead (seq : Seq) (kind : ServiceKind) (damaged : Bool) : Word :=
  word (0xA5 * 2 ^ 24 + seq.toNat * 2 ^ 8 + kind.code * 2 ^ 6 + bit damaged * 2 ^ 5)

/-- A frame with its head and its frame check built (R110). -/
def buildFrame (seq : Seq) (damaged : Bool) (slots : Vector Word 64) (kind : ServiceKind) (service : Word) : Frame :=
  let head := frameHead seq kind damaged
  { head, slots, service, check := crc32 (head :: (slots.toList ++ [service])) }

/-- The VALID flag of an audio slot (R172). -/
def slotValid (w : Word) : Bool := bitAt w 31

/-- The sample of an audio slot (R172). -/
def slotSample (w : Word) : Int := (w.setWidth 24 : Sample).toInt

/-- An audio slot with VALID set (R172). -/
def slotWord (x : Sample) : Word := word (2 ^ 31 + x.toNat)

/-! ### The HEAD and END words of a message (R173) -/

/-- The class of a HEAD: 0 ORDER, 1 RETURN, 2 NOTICE, 3 dropped. -/
def headClass (w : Word) : Nat := bitsAt w 31 30

/-- The address of a HEAD. -/
def headAddress (w : Word) : BitVec 8 := BitVec.ofNat 8 (bitsAt w 29 22)

/-- The section of a HEAD. -/
def headSection (w : Word) : BitVec 4 := BitVec.ofNat 4 (bitsAt w 21 18)

/-- The verb of a HEAD. -/
def headVerb (w : Word) : BitVec 6 := BitVec.ofNat 6 (bitsAt w 17 12)

/-- The body length of a HEAD. -/
def headLength (w : Word) : Nat := bitsAt w 11 6

/-- The tag of a HEAD. -/
def headTag (w : Word) : BitVec 6 := BitVec.ofNat 6 (bitsAt w 5 0)

/-- A HEAD word. -/
def headWord (cls : Nat) (address : BitVec 8) (sec : BitVec 4) (verb : BitVec 6) (length : Nat) (tag : BitVec 6) : Word :=
  word (cls * 2 ^ 30 + address.toNat * 2 ^ 22 + sec.toNat * 2 ^ 18 + verb.toNat * 2 ^ 12 + length * 2 ^ 6 + tag.toNat)

/-- The END word of a message of the part: the message check, the high half zero (R128). -/
def endWord (headAndBody : List Word) : Word := (crc16 headAndBody).setWidth 32

/-- A whole message from its HEAD and BODY words. -/
def message (headAndBody : List Word) : List Word := headAndBody ++ [endWord headAndBody]

/-! ### The code of a delay-memory word (R2) -/

/-- The columns of sample bits 0 to 23: the first 24 of the seven-bit values with exactly three bits set, ascending. -/
def columns : List (BitVec 7) :=
  [7, 11, 13, 14, 19, 21, 22, 25, 26, 28, 35, 37, 38, 41, 42, 44, 49, 50, 52, 56, 67, 69, 70, 73]

/-- The exclusive-or of the columns of the sample's set bits, from sample bit `i` on. -/
def codeFrom (x : Sample) : Nat → List (BitVec 7) → BitVec 7
  | _, [] => 0
  | i, c :: cs => if x.getLsbD i then c ^^^ codeFrom x (i + 1) cs else codeFrom x (i + 1) cs

/-- The seven code bits worked out from a sample: code bit j is the exclusive-or of the sample bits whose columns have
bit j set (R2). -/
def codeOf (x : Sample) : BitVec 7 := codeFrom x 0 columns

/-- A sample with the code computed from it (R2). -/
def encodeWord (x : Sample) : MemWord := codeOf x ++ x

/-- The sample bits of a word. -/
def sampleOf (w : MemWord) : Sample := w.extractLsb' 0 24

/-- The syndrome of a word read (R2). -/
def syndrome (w : MemWord) : BitVec 7 := w.extractLsb' 24 7 ^^^ codeOf (sampleOf w)

/-- The word bit that a syndrome names, if it names one: 0 to 23 for a column, 24 to 30 for a single bit set (R2). -/
def namedBit (s : BitVec 7) : Option Nat :=
  match columns.findIdx? (· == s) with
  | some i => some i
  | none => ((List.range 7).find? fun j => s == 1#7 <<< j).map (24 + ·)

/-- What the check of a word read shows (R2, R15, R16). -/
inductive WordCheck where
  /-- Syndrome 0. -/
  | sound (x : Sample)
  /-- The syndrome names a bit; the sample with that bit turned over. -/
  | corrected (x : Sample) (bit : Nat)
  /-- An error the code cannot correct. -/
  | uncorrectable
  deriving DecidableEq, Repr

/-- The check of a word read for a line. A word bit of 24 or above is a code bit: turning it over leaves the sample. -/
def checkWord (w : MemWord) : WordCheck :=
  if syndrome w = 0 then .sound (sampleOf w)
  else match namedBit (syndrome w) with
    | some i => .corrected (sampleOf (w ^^^ 1#31 <<< i)) i
    | none => .uncorrectable

end Sys2Proof
end

