-- ==== Sys2Proof/Config.lean ====
section
/-! DEFINITION. The fixed sizes of the part, and the free values: what the spec leaves open and the model does not
choose. A free value has no body, so nothing can be proved about which value it is. -/

namespace Sys2Proof

/-- Words in a block (R2). -/
def Config.wordsPerBlock : Nat := 1024

/-- Blocks in a rank (R2). -/
def Config.blocksPerRank : Nat := 4096

/-- Words in a rank: 4,194,304 (R2). -/
def Config.wordsPerRank : Nat := 4194304

/-- Blocks of the whole delay memory: 0 to 16383 (R2). -/
def Config.blocks : Nat := 16384

/-- Frame periods of sizing (R3). -/
def Config.sizingFrames : Nat := 96

/-- Frame periods of the start-up search without lock (R93). -/
def Config.startUpLimit : Nat := 480

/-- Samples in the capture ring (R146). -/
def Config.ringSize : Nat := 8192

/-- Returns the return queue holds (R129). -/
def Config.returnRoom : Nat := 8

/-- Words the transit queue has room for (R126). -/
def Config.transitRoom : Nat := 40

/-- FREE VALUE (log 8). Of the checks of one frame period, taken "one at a time in any order" (R143), how far the order
is turned round. -/
opaque Config.checkTurn : Nat → Nat

/-- FREE VALUE (log 9). What a position of the sample ring holds that no sample has been written to since the reset
("undefined", R146). -/
opaque Config.ringResidue : Nat → Sample

end Sys2Proof
end

