-- ==== Sys2Proof/Machine/State.lean ====
section
/-! DEFINITION. The state of the part as plain data, block by block (00_scope.md, BLOCK DIAGRAM), the reasons a step can
stop, and the machine right after reset. -/

namespace Sys2Proof.Machine

/-! ### Line controller (R1) -/

/-- The state of a line (R1). -/
inductive LineState where
  | off
  | clearing
  | running
  | faulted
  deriving DecidableEq, Repr

/-- A feed term (R1): an input channel or a delayed read of a line, with a gain in units of 1/32768. -/
inductive Term where
  | input (channel : InCh) (gain : BitVec 16)
  | line (source : Line) (delay : Nat) (gain : BitVec 16)
  deriving DecidableEq, Repr

/-- A line record (R1). -/
structure LineRec where
  state : LineState
  base : Nat
  length : Nat
  feed : List Term
  damping : Nat
  position : Nat
  damped : Sample
  deriving DecidableEq, Repr

/-! ### Delay-memory devices and memory controller -/

/-- Delay memory: a list of (word address, word), canonical: addresses rising, no word 0, an unlisted word being 0
(R2; log 5). -/
abbrev Memory := List (Nat × MemWord)

/-- The delay-memory devices (R2): the words that are not 0, the cells that fail, and for each rank whether it answers
for good (`none`) or for so many accesses more (`some n`). Failing cells are held as the bits that a read shows wrong. -/
structure Device where
  words : Memory
  defects : Memory
  life : Vector (Option Nat) 4
  deriving DecidableEq, Repr

/-- The outcome in the sweep record (R22). -/
inductive SweepOutcome where
  | none
  | running
  | complete
  | cutShort
  deriving DecidableEq, Repr

/-- The sweep record (R22). -/
structure SweepRec where
  outcome : SweepOutcome
  rank : Rank
  block : Nat
  added : Nat
  deriving DecidableEq, Repr

/-- The memory controller (R3, R11, R15, R19, R22). -/
structure MemCtl where
  present : Vector Bool 4
  badBlocks : List Nat
  corrected : Vector Nat 4
  clearing : List Line
  zeroed : Nat
  sweep : SweepRec
  /-- Frames of the block under test already done, 0 to 31 (R21). -/
  sweepFrame : Nat
  /-- A word of the block under test has failed (R21). -/
  sweepFailed : Bool
  /-- The sweep has nothing left to test: its completion is due (R22). -/
  sweepEnded : Bool
  /-- Frame periods of sizing begun (R3). -/
  sizing : Nat
  deriving DecidableEq, Repr

/-! ### Scene store and tap engine -/

/-- The modulation of a tap (R24). -/
structure Modulation where
  depth : Nat
  period : Nat
  start : Nat
  deriving DecidableEq, Repr

/-- A tap record (R24). -/
structure Tap where
  line : Line
  delay : Nat
  gain : BitVec 16
  output : Output
  modulation : Option Modulation
  deriving DecidableEq, Repr

/-- The polarity of an output record (R23). -/
inductive Polarity where
  | normal
  | inverted
  deriving DecidableEq, Repr

/-- An output record (R23). -/
structure OutputRec where
  enabled : Bool
  gain : BitVec 16
  polarity : Polarity
  profile : Fin 8
  deriving DecidableEq, Repr

/-- A bank: header, output records, tap list (R23). -/
structure Bank where
  tag : Word
  defaultFade : Nat
  outputs : Vector OutputRec 32
  taps : List Tap
  deriving DecidableEq, Repr

/-- The role of a bank (R26). -/
inductive Role where
  | live
  | staged
  | armed
  | incoming
  | outgoing
  deriving DecidableEq, Repr

/-- A bank with its role and, while it is active, the modulation phase of each of its taps, by tap index (R37; 0 stands
for a tap without modulation): the phase that the next processed frame will use (R34). No phase is held while the list is
empty. -/
structure BankSlot where
  bank : Bank
  role : Role
  phases : List Nat
  deriving DecidableEq, Repr

/-- The scene store (R23, R26, R35) with the tap engine's phases (R37). -/
structure Scenes where
  a : BankSlot
  b : BankSlot
  inUse : BitVec 64
  deriving DecidableEq, Repr

/-! ### Scene changer (R47) -/

/-- The changer state. -/
inductive ChangerState where
  | steady
  | armed
  | fading
  deriving DecidableEq, Repr

/-- The direction of a fade. -/
inductive Direction where
  | forward
  | back
  deriving DecidableEq, Repr

/-- The scene changer (R47): `length` is L, `position` is k. -/
structure Changer where
  state : ChangerState
  target : Option Seq
  length : Nat
  position : Nat
  direction : Direction
  deriving DecidableEq, Repr

/-! ### Feedback guard -/

/-- A guard profile (R70). -/
structure Profile where
  ceiling : Nat
  rise : Nat
  strainLimit : Nat
  maxSteps : Nat
  recovery : Nat
  clipRun : Nat
  deriving DecidableEq, Repr

/-- The guard state of an output (R73). -/
inductive GuardState where
  | open_
  | trimmed
  | muted
  deriving DecidableEq, Repr

/-- The cause of a mute (R73). -/
inductive MuteCause where
  | strain
  | clip
  deriving DecidableEq, Repr

/-- The guard record of an output (R73): `trim` is k_c, `ramp` is g. -/
structure GuardRec where
  state : GuardState
  cause : Option MuteCause
  trim : Nat
  strain : Nat
  recovery : Nat
  clip : Nat
  ramp : Nat
  peak : Nat
  deriving DecidableEq, Repr

/-- The feedback guard (R70, R73). -/
structure Guard where
  profiles : Vector Profile 8
  outputs : Vector GuardRec 32
  blockCount : Nat
  deriving DecidableEq, Repr

/-! ### Link receiver and slot maps -/

/-- The receive state (R90). -/
inductive ReceiveState where
  | search
  | locked
  deriving DecidableEq, Repr

/-- The link receiver (R90) and the link counters (R111): `link` and `lost` are the fault causes. -/
structure Link where
  receive : ReceiveState
  startUp : Bool
  startUpCount : Nat
  lockRun : Nat
  /-- The sequence of the previous qualifying arrival (R94). -/
  lockSeq : Seq
  missing : Nat
  expected : Seq
  lec : Nat
  link : Bool
  lost : Bool
  restorePending : Bool
  goodFrames : Nat
  badFrames : Nat
  jumps : Nat
  discarded : Nat
  deriving DecidableEq, Repr

/-- The slot maps (R105, R107). -/
structure Maps where
  input : Vector (Option Slot) 24
  output : Vector (Option Slot) 32
  deriving DecidableEq, Repr

/-! ### Order decoder and service arbiter -/

/-- The disposition of a message (R115). -/
inductive Disposition where
  /-- Direct order: consumed and executed. -/
  | direct
  /-- Group or broadcast order: executed and forwarded. -/
  | group
  | forwardOnly
  | dropped
  deriving DecidableEq, Repr

/-- The open message of IN-MESSAGE (R113), with the number that marks its words in the transit queue (R126). -/
structure OpenMessage where
  head : Word
  disposition : Disposition
  bodies : Nat
  discarded : Bool
  id : Nat
  deriving DecidableEq, Repr

/-- The protection state (R113, R123). -/
inductive Protection where
  | closed
  | opening1
  | opening2
  | opening3
  | open_
  deriving DecidableEq, Repr

/-- An order whose END has arrived in place and passed its checks, waiting for its step (R120, R122). -/
structure ReadyOrder where
  sec : BitVec 4
  verb : BitVec 6
  order : Order
  deriving DecidableEq, Repr

/-- The order decoder (R113). -/
structure Decoder where
  inbound : Option OpenMessage
  buffer : List Word
  pattern : BitVec 8
  mask : BitVec 8
  protection : Protection
  ready : Option ReadyOrder
  nextId : Nat
  deriving DecidableEq, Repr

/-- A queued return: its words, and whether it is the return of a RESET order (R129). -/
structure Return where
  words : List Word
  isReset : Bool
  deriving DecidableEq, Repr

/-- The message the arbiter is sending, by kind, with the position reached (R125). -/
inductive Sending where
  /-- The oldest return of the return queue. -/
  | ownReturn (position : Nat)
  /-- A notice, its words fixed when its HEAD left. -/
  | ownNotice (words : List Word) (position : Nat)
  /-- A forwarded message sent directly. -/
  | direct (message : Nat) (position : Nat)
  /-- A forwarded message sent from the transit queue. -/
  | queued (message : Nat) (position : Nat)
  deriving DecidableEq, Repr

/-- A word with its kind and its message: a word of the transit queue (R126), or a forwarded word as it arrives. -/
structure TransitWord where
  kind : ServiceKind
  word : Word
  message : Nat
  deriving DecidableEq, Repr

/-- The service arbiter (R125). -/
structure Arbiter where
  sending : Option Sending
  transit : List TransitWord
  returns : List Return
  deriving DecidableEq, Repr

/-- The notice slot's state (R130). -/
inductive SlotState where
  | empty
  | waiting
  | sending
  deriving DecidableEq, Repr

/-- The notice slot (R130). -/
structure NoticeSlot where
  state : SlotState
  repeatMark : Bool
  deriving DecidableEq, Repr

/-! ### Event unit and check recorder -/

/-- The result codes (R121). -/
inductive Result where
  | done
  | accepted
  | busy
  | state
  | protection
  | inUse
  | range
  | place
  | budget
  | badTap
  | late
  | unknown
  | length
  deriving DecidableEq, Repr

/-- The event flags, in the order of their numbers (R131). -/
inductive Flag where
  | started
  | linkFault
  | linkLost
  | linkRestored
  | sequenceJump
  | commitDone
  | commitLost
  | guardStep
  | guardMute
  | guardRelease
  | lineReady
  | lineFault
  | memoryCheck
  | captureDone
  | sweepDone
  | orderDropped
  | groupRefused
  deriving DecidableEq, Repr

/-- The notice state (R131). -/
inductive NoticeState where
  | quiet
  | sent
  | holdoff
  deriving DecidableEq, Repr

/-- The commit detail (R131). -/
inductive CommitDetail where
  | none
  | notReverted
  | reverted
  deriving DecidableEq, Repr

/-- The group-refused detail (R131). -/
structure GroupRefused where
  sec : BitVec 4
  verb : BitVec 6
  result : Result
  deriving DecidableEq, Repr

/-- The event unit (R131). Flag n is bit n; a set of outputs or lines has member m as bit m. -/
structure Events where
  flags : BitVec 17
  enables : BitVec 17
  guardOutputs : BitVec 32
  readyLines : BitVec 64
  faultedLines : BitVec 64
  groupRefused : Option GroupRefused
  commitDetail : CommitDetail
  notice : NoticeState
  holdoff : Nat
  timer : Nat
  /-- The timer was set in the frame period in progress: it does not fall at that period's end (R137). -/
  timerFresh : Bool
  deriving DecidableEq, Repr

/-- The kind of a check (R143). -/
inductive CheckKind where
  | corrected
  | uncorrected
  | absent
  deriving DecidableEq, Repr

/-- A check (R143). -/
structure Check where
  kind : CheckKind
  rank : Rank
  block : Nat
  line : Option Line
  bit : Option Nat
  seq : Seq
  deriving DecidableEq, Repr

/-- The reporting mode (R144). -/
inductive ReportingMode where
  | none
  | uncorrectedOnly
  | serious
  | all
  deriving DecidableEq, Repr

/-- The check recorder (R143, R144): the kinds seen by the bit numbers of R174. -/
structure Checks where
  seen : BitVec 3
  record : Option Check
  mode : ReportingMode
  deriving DecidableEq, Repr

/-! ### Capture recorder (R146) -/

/-- The source of a capture. -/
inductive Source where
  | input (channel : InCh)
  | line (line : Line)
  | output (output : Output)
  deriving DecidableEq, Repr

/-- The mode of a capture. -/
inductive CaptureMode where
  | startOnTrigger
  | stopOnTrigger
  deriving DecidableEq, Repr

/-- The trigger of a set-up. -/
inductive Trigger where
  | manual
  | guardStep (output : Output)
  | guardMute (output : Output)
  | anyGuard
  | sequence (s : Seq)
  | linkFault
  deriving DecidableEq, Repr

/-- The capture state. -/
inductive CaptureState where
  | idle
  | waiting
  | rolling
  | post
  | done
  deriving DecidableEq, Repr

/-- The end cause of a capture. -/
inductive EndCause where
  | count
  | stop
  deriving DecidableEq, Repr

/-- The set-up: source, mode, length or post count, trigger (R146). -/
structure SetUp where
  source : Source
  mode : CaptureMode
  extent : Nat
  trigger : Trigger
  deriving DecidableEq, Repr

/-- The capture record (R146). -/
structure CaptureRec where
  held : Nat
  wrapped : Bool
  triggerIndex : Option Nat
  triggerSeq : Option Seq
  endIndex : Option Nat
  endCause : Option EndCause
  deriving DecidableEq, Repr

/-- The capture recorder (R146). The ring lists the positions written since the reset, keys rising. -/
structure Capture where
  setUp : SetUp
  state : CaptureState
  writeIndex : Nat
  remaining : Nat
  ring : List (Nat × Sample)
  record : CaptureRec
  deriving DecidableEq, Repr

/-! ### Node state unit, pins, the frame period in progress -/

/-- The node state (R158). -/
inductive NodeState where
  | sizing
  | standby
  | run
  | silent
  | sweep
  deriving DecidableEq, Repr

/-- The node state unit (R158): `ramp` is p. -/
structure Node where
  state : NodeState
  orderCause : Bool
  ramp : Nat
  leaving : Bool
  resetPending : Bool
  deriving DecidableEq, Repr

/-- The reset pin and the address pins as last sampled (R166). -/
structure Pins where
  resetHeld : Bool
  address : BitVec 6
  deriving DecidableEq, Repr

/-- Which own message starts in a frame period (R125, step 3). -/
inductive OwnStart where
  | notice
  | ret
  deriving DecidableEq, Repr

/-- A frame whose service word is still to be chosen: its sequence, DAMAGED flag and audio slots (R110). -/
structure Draft where
  seq : Seq
  damaged : Bool
  slots : Vector Word 64
  deriving DecidableEq, Repr

/-- The frame period in progress, from the handling of its frame to its end. -/
structure Period where
  /-- The sequence of the period (R92). -/
  seq : Seq
  /-- The engine processed a frame in it (R40). -/
  processed : Bool
  /-- The node was RUN as the processing began, so the frame counts for the guard (R78). -/
  counts : Bool
  /-- Outputs whose clip run count reached the clip run in it: they are muted at its end (R82). -/
  clipDue : List Output
  /-- Outputs that a RELEASE has brought out of MUTED in it: its block end does not judge them (R86). -/
  released : List Output
  /-- Lines of which an uncorrectable word was read in it: they fault at its end (R16). -/
  faultDue : List Line
  /-- The source sample (R148). -/
  sample : Sample
  /-- The own message that starts in it, and the frame waiting for its HEAD (R125, step 3). -/
  ownStart : Option (OwnStart × Draft)
  /-- The END of a return left in it: that return leaves the return queue at its end (R120, R129). -/
  returnLeft : Bool
  /-- The END of a RESET order's return left in it (R129). -/
  resetDue : Bool
  /-- The leaving mark was set as it began: with p at 0, leaving ends only in a period of which this is true (R163). -/
  leaving : Bool
  /-- The node left RUN in it, after its frame was processed in RUN (R78). -/
  leftRun : Bool
  /-- The guard's block end of this period has been taken (R79). -/
  blockDone : Bool
  /-- The node ramp's step of this period has been made (R159). -/
  rampDone : Bool
  /-- Its frame gave its service word to the order decoder: it is a good frame of LOCKED (R95, R113). -/
  gaveWord : Bool
  deriving DecidableEq, Repr

/-- The state of the part. -/
structure State where
  link : Link
  maps : Maps
  lines : Vector LineRec 64
  mem : MemCtl
  device : Device
  scenes : Scenes
  changer : Changer
  guard : Guard
  capture : Capture
  decoder : Decoder
  arbiter : Arbiter
  slot : NoticeSlot
  events : Events
  checks : Checks
  node : Node
  pins : Pins
  /-- The frames sent in the frame period in progress, in order (R93, R109, R110). -/
  sent : List Frame
  /-- The frame period in progress; absent when none is (after a reset, or once it has ended). -/
  period : Option Period
  /-- The MODEL's own mark, set by FIRE_FRAME: the next frame period has begun, with the expected sequence, and whether a
  notice was waiting as it began (log 14). -/
  begun : Option Bool
  /-- The MODEL's own counter: how many free choices have been made (log 8). -/
  fresh : Nat
  /-- The commands waiting, first in, first out. -/
  pending : List Instr
  deriving DecidableEq, Repr

/-- Why the part's model stops with a fault. -/
inductive Fault where
  /-- Raised by the frame-period commands when a line that is not OFF, or the sweep, stands at a block above 16383,
  which does not exist (R2; log 20). Safe: the part never gets there, since START and RESTART place windows (R6). -/
  | noSuchBlock
  deriving DecidableEq, Repr

/-- Why the model refuses a command. -/
inductive Refusal where
  /-- The command of this mnemonic has no meaning in the model. Raised by nothing: every command has one. Safe. -/
  | notModelled (mnemonic : String)
  deriving DecidableEq, Repr

/-! ### Reset values -/

/-- A line record after either reset (R1). -/
def LineRec.initial : LineRec :=
  { state := .off, base := 0, length := 1, feed := [], damping := 0, position := 0, damped := 0 }

/-- The sweep record after either reset (R22). -/
def SweepRec.initial : SweepRec := { outcome := .none, rank := 0, block := 0, added := 0 }

/-- The memory controller after a reset; the RESET order keeps the bad-block map (R3, R11, R15, R19, R22). -/
def MemCtl.initial (badBlocks : List Nat) : MemCtl :=
  { present := Vector.replicate 4 false, badBlocks, corrected := Vector.replicate 4 0, clearing := [], zeroed := 0,
    sweep := SweepRec.initial, sweepFrame := 0, sweepFailed := false, sweepEnded := false, sizing := 0 }

/-- An output record after either reset (R23). -/
def OutputRec.initial : OutputRec := { enabled := false, gain := 16384, polarity := .normal, profile := 0 }

/-- A bank after either reset (R23). -/
def Bank.initial : Bank :=
  { tag := 0, defaultFade := 4800, outputs := Vector.replicate 32 OutputRec.initial, taps := [] }

/-- The scene store after either reset: bank A LIVE, bank B STAGED (R23, R26, R35, R37). -/
def Scenes.initial : Scenes :=
  { a := { bank := Bank.initial, role := .live, phases := [] },
    b := { bank := Bank.initial, role := .staged, phases := [] }, inUse := 0 }

/-- The changer in STEADY, which is also its value after either reset (R47). -/
def Changer.steady : Changer :=
  { state := .steady, target := none, length := 0, position := 0, direction := .forward }

/-- A guard profile after either reset (R70). -/
def Profile.initial : Profile :=
  { ceiling := 4194304, rise := 4, strainLimit := 64, maxSteps := 8, recovery := 2000, clipRun := 16 }

/-- A guard record after either reset (R73). -/
def GuardRec.initial : GuardRec :=
  { state := .open_, cause := none, trim := 0, strain := 0, recovery := 0, clip := 0, ramp := 48, peak := 0 }

/-- The feedback guard after either reset (R70, R73). -/
def Guard.initial : Guard :=
  { profiles := Vector.replicate 8 Profile.initial, outputs := Vector.replicate 32 GuardRec.initial, blockCount := 0 }

/-- The link receiver after either reset (R90, R111). -/
def Link.initial : Link :=
  { receive := .search, startUp := true, startUpCount := 0, lockRun := 0, lockSeq := 0, missing := 0, expected := 0,
    lec := 0, link := false, lost := false, restorePending := false, goodFrames := 0, badFrames := 0, jumps := 0,
    discarded := 0 }

/-- The slot maps after either reset (R105, R107). -/
def Maps.initial : Maps := { input := Vector.replicate 24 none, output := Vector.replicate 32 none }

/-- The capture record when empty (R146). -/
def CaptureRec.empty : CaptureRec :=
  { held := 0, wrapped := false, triggerIndex := none, triggerSeq := none, endIndex := none, endCause := none }

/-- The capture recorder after either reset (R146). -/
def Capture.initial : Capture :=
  { setUp := { source := .input 0, mode := .stopOnTrigger, extent := 4096, trigger := .manual }, state := .idle,
    writeIndex := 0, remaining := 0, ring := [], record := CaptureRec.empty }

/-- The order decoder after a reset; the RESET order keeps pattern and mask (R113). -/
def Decoder.initial (pattern mask : BitVec 8) : Decoder :=
  { inbound := none, buffer := [], pattern, mask, protection := .closed, ready := none, nextId := 0 }

/-- The service arbiter after either reset (R125). -/
def Arbiter.initial : Arbiter := { sending := none, transit := [], returns := [] }

/-- The event unit after either reset, with the placement of R134 made: STARTED set, every flag enabled, SENT. -/
def Events.initial : Events :=
  { flags := 1, enables := 0x1FFFF, guardOutputs := 0, readyLines := 0, faultedLines := 0, groupRefused := none,
    commitDetail := .none, notice := .sent, holdoff := 480, timer := 0, timerFresh := false }

/-- The check recorder after either reset (R143, R144). -/
def Checks.initial : Checks := { seen := 0, record := none, mode := .serious }

/-- The node state unit after either reset (R158). -/
def Node.initial : Node := { state := .sizing, orderCause := false, ramp := 0, leaving := false, resetPending := false }

/-- The machine right after reset: the pin reset with the address pins at 0 (R168; log 10), the delay-memory devices
holding nothing and all answering (log 5, log 6), and no command waiting. -/
def State.reset : State :=
  { link := Link.initial, maps := Maps.initial, lines := Vector.replicate 64 LineRec.initial, mem := MemCtl.initial [],
    device := { words := [], defects := [], life := Vector.replicate 4 none }, scenes := Scenes.initial,
    changer := Changer.steady, guard := Guard.initial, capture := Capture.initial,
    decoder := Decoder.initial 0 0xFF, arbiter := Arbiter.initial,
    slot := { state := .waiting, repeatMark := false }, events := Events.initial, checks := Checks.initial,
    node := Node.initial, pins := { resetHeld := false, address := 0 }, sent := [], period := none, begun := none,
    fresh := 0, pending := [] }

end Sys2Proof.Machine
end

