-- ==== Sys2Proof/Machine/Ops.lean ====
section
/-! DEFINITION. The named operations over the delay memory and the capture ring (sparse lists in one canonical form), over
vectors of records, and over the accesses of the memory controller to a rank (R2, R4). -/

namespace Sys2Proof.Machine

/-! ### Sparse lists -/

/-- What a sparse list holds at an address. -/
def Store.get {α : Type} : List (Nat × α) → Nat → Option α
  | [], _ => none
  | (k, v) :: t, a => if a = k then some v else Store.get t a

/-- A sparse list with an address set, or with no entry for it. Keys stay rising. -/
def Store.put {α : Type} : List (Nat × α) → Nat → Option α → List (Nat × α)
  | [], a, x => (x.map fun w => (a, w)).toList
  | (k, v) :: t, a, x =>
    if a < k then (x.map fun w => (a, w)).toList ++ (k, v) :: t
    else if a = k then (x.map fun w => (a, w)).toList ++ t
    else (k, v) :: Store.put t a x

/-- The keys of a sparse list rise strictly from `lo` on. -/
def Store.rising {α : Type} : Nat → List (Nat × α) → Bool
  | _, [] => true
  | lo, (k, _) :: t => decide (lo ≤ k) && Store.rising (k + 1) t

/-- The canonical form of a memory: addresses strictly rising, no entry equal to what an unlisted word reads as. -/
def Memory.wf (m : Memory) : Bool := Store.rising 0 m && m.all fun c => c.2 ≠ 0

/-- A word of a memory: 0 where none is listed (log 5). -/
def Memory.read (m : Memory) (a : Nat) : MemWord := (Store.get m a).getD 0

/-- A memory with one word written. Writing 0 takes the entry out, so equal memories are equal lists. -/
def Memory.write (m : Memory) (a : Nat) (w : MemWord) : Memory := Store.put m a (if w = 0 then none else some w)

/-! ### Vectors of records -/

/-- A vector with one entry replaced by a function of it. -/
def update {α : Type} {n : Nat} (v : Vector α n) (i : Fin n) (f : α → α) : Vector α n := v.set i (f v[i])

/-- The numbers of the lines, ascending. -/
def allLines : List Line := List.finRange 64

/-- The output channels, ascending. -/
def allOutputs : List Output := List.finRange 32

/-- The rank positions, ascending. -/
def allRanks : List Rank := List.finRange 4

/-! ### The delay-memory devices -/

/-- Whether a word address exists (R2). -/
def wordExists (a : Nat) : Bool := a < Config.blocks * Config.wordsPerBlock

/-- What a read of a word shows: the stored word, with the bits of a failing cell turned over. -/
def Device.shows (d : Device) (a : Nat) : MemWord := d.words.read a ^^^ d.defects.read a

/-- The device with a word written. -/
def Device.store (d : Device) (a : Nat) (w : MemWord) : Device := { d with words := d.words.write a w }

/-- The rank answers an access, and what is left of its life after it. -/
def Device.access (d : Device) (r : Rank) : Bool × Device :=
  match d.life[r] with
  | none => (true, d)
  | some 0 => (false, d)
  | some (n + 1) => (true, { d with life := d.life.set r (some n) })

/-- The rank answers the probe of sizing (R3). -/
def Device.answersProbe (d : Device) (r : Rank) : Bool := d.life[r] ≠ some 0

/-- What befalls the devices (log 6). A word that does not exist is left alone. -/
def Device.disturb (d : Device) : Disturbance → Device
  | .upset a m => if wordExists a then d.store a (d.words.read a ^^^ m) else d
  | .defect a m => if wordExists a then { d with defects := d.defects.write a m } else d
  | .answers r life => { d with life := d.life.set r life }

/-- The rank that a word address lies in (R2). -/
def rankOfWord (a : Nat) : Rank := Fin.ofNat 4 (a / Config.wordsPerRank)

/-- The block that a word address lies in (R2). -/
def blockOfWord (a : Nat) : Nat := a / Config.wordsPerBlock

/-! ### Windows -/

/-- The length of a line's window in samples (R1). -/
def LineRec.samples (l : LineRec) : Nat := l.length * Config.wordsPerBlock

/-- The word address of a position of a line's window (R2). -/
def LineRec.address (l : LineRec) (p : Nat) : Nat :=
  (l.base + p / Config.wordsPerBlock) * Config.wordsPerBlock + p % Config.wordsPerBlock

/-- The line has a block of its window in the rank (R4). -/
def LineRec.inRank (l : LineRec) (r : Rank) : Bool :=
  l.base < (r.val + 1) * Config.blocksPerRank && r.val * Config.blocksPerRank < l.base + l.length

/-- Every window of a line not OFF, and the block of the sweep record, lie in the delay memory (log 20). -/
def memoryExists (s : State) : Bool :=
  s.lines.all (fun l => l.state == .off || decide (l.base + l.length ≤ Config.blocks)) &&
    decide (s.mem.sweep.block < Config.blocks)

/-- The present block count (R3). -/
def presentBlocks (m : MemCtl) : Nat := Config.blocksPerRank * (m.present.toList.count true)

/-! ### Questions every block asks -/

/-- The engine processes a frame in this node state (R40). -/
def engineRuns (n : NodeState) : Bool := n == .standby || n == .run || n == .silent

/-- A silence cause is set (R158). -/
def anyCause (s : State) : Bool := s.link.link || s.link.lost || s.node.orderCause

/-- The silence causes as a detail: LINK 1, LOST 2, ORDER 4 (R158). -/
def causeCode (s : State) : Nat := bit s.link.link + 2 * bit s.link.lost + 4 * bit s.node.orderCause

/-- The fault causes as a detail (R158). -/
def faultCode (s : State) : Nat := bit s.link.link + 2 * bit s.link.lost

/-- The sequence of the frame period in progress, or the expected sequence where none is (log 31). -/
def periodSeq (s : State) : Seq := (s.period.map (·.seq)).getD s.link.expected

/-- The frame period in progress, if one is, gave the order decoder a service word, in which an order can end (R113). -/
def wordGiven (s : State) : Bool := (s.period.map (·.gaveWord)).getD true

/-- Orders reach the part: it is not held in reset (R166); its receiver is LOCKED with LOST clear, since in the start-up
search and under local framing no service word is given to the order decoder, and orders come again only from the resumption
frame (R93, R103, R104, R169); the frame period in progress gave it one, as no search, local, bad or missing one does (R93,
R98, R99, R103); and no frame that has only begun still waits for its handling (log 14). -/
def ordersReach (s : State) : Bool :=
  !s.pins.resetHeld && s.link.receive == .locked && !s.link.lost && s.begun.isNone && wordGiven s

/-- The engine processes a frame in the frame period in progress (R155); where none is, in one begun now (log 31). -/
def periodProcessed (s : State) : Bool := (s.period.map (·.processed)).getD (engineRuns s.node.state)

end Sys2Proof.Machine
end

