-- ==== Sys2Proof/Machine/Flags.lean ====
section
/-! DEFINITION. The event unit: raising flags with their details, placements in the notice slot, clears and the holdoff
(R130 to R137), and the codes of flags. -/

namespace Sys2Proof.Machine

/-- The number of a flag (R131). -/
def Flag.number : Flag → Nat
  | .started => 0
  | .linkFault => 1
  | .linkLost => 2
  | .linkRestored => 3
  | .sequenceJump => 4
  | .commitDone => 5
  | .commitLost => 6
  | .guardStep => 7
  | .guardMute => 8
  | .guardRelease => 9
  | .lineReady => 10
  | .lineFault => 11
  | .memoryCheck => 12
  | .captureDone => 13
  | .sweepDone => 14
  | .orderDropped => 15
  | .groupRefused => 16

/-- The flag as a member of the flag set: flag n in bit n (R174). -/
def Flag.mask (f : Flag) : BitVec 17 := 1#17 <<< f.number

/-- The flag is set (R131). -/
def Events.has (e : Events) (f : Flag) : Bool := e.flags &&& f.mask ≠ 0

/-- The pending set: the flags both set and enabled (R131). -/
def Events.pendingSet (e : Events) : BitVec 17 := e.flags &&& e.enables

/-- A placement in the notice slot (R130). -/
def NoticeSlot.place (n : NoticeSlot) : NoticeSlot :=
  match n.state with
  | .empty => { n with state := .waiting }
  | .waiting => n
  | .sending => { n with repeatMark := true }

/-- In QUIET a pending set that is not empty makes a placement, and the event unit enters SENT (R134). -/
def announce (e : Events) (n : NoticeSlot) : Events × NoticeSlot :=
  if e.notice = .quiet ∧ e.pendingSet ≠ 0 then ({ e with notice := .sent }, n.place) else (e, n)

/-- A raise: the flag becomes set and its detail is added (R132, R133). -/
def raiseWith (f : Flag) (detail : Events → Events) (s : State) : State :=
  { s with
    events := (announce { detail s.events with flags := s.events.flags ||| f.mask } s.slot).1
    slot := (announce { detail s.events with flags := s.events.flags ||| f.mask } s.slot).2 }

/-- A raise of a flag without a detail (R132). -/
def raise (f : Flag) (s : State) : State := raiseWith f id s

/-- A raise made only on a condition. -/
def raiseIf (c : Bool) (f : Flag) (s : State) : State := if c then raise f s else s

/-- The set with lines added. -/
def addLines (set : BitVec 64) (ns : List Line) : BitVec 64 := ns.foldl (fun b n => b ||| 1#64 <<< n.val) set

/-- A guard event for an output: the flag, and the output in the guard-output set (R83, R133). -/
def raiseGuard (f : Flag) (c : Output) (s : State) : State :=
  raiseWith f (fun e => { e with guardOutputs := e.guardOutputs ||| 1#32 <<< c.val }) s

/-- LINE-READY for a line (R12, R133). -/
def raiseReady (n : Line) (s : State) : State :=
  raiseWith .lineReady (fun e => { e with readyLines := addLines e.readyLines [n] }) s

/-- LINE-FAULT for the lines made FAULTED, if there are any (R4, R16, R133). -/
def raiseFault (ns : List Line) (s : State) : State :=
  if ns.isEmpty then s
  else raiseWith .lineFault (fun e => { e with faultedLines := addLines e.faultedLines ns }) s

/-- GROUP-REFUSED with its detail, the latest refusal (R122, R133). -/
def raiseRefused (sec : BitVec 4) (verb : BitVec 6) (r : Result) (s : State) : State :=
  raiseWith .groupRefused (fun e => { e with groupRefused := some { sec, verb, result := r } }) s

/-- COMMIT-DONE with the commit detail (R56, R58, R59, R133). -/
def raiseCommitDone (d : CommitDetail) (s : State) : State :=
  raiseWith .commitDone (fun e => { e with commitDetail := d }) s

/-- The three guard flags, which share the guard-output set (R133). -/
def guardMask : BitVec 17 := Flag.guardStep.mask ||| Flag.guardMute.mask ||| Flag.guardRelease.mask

/-- The flags that a selection clears: those selected and set (R141). -/
def Events.cleared (e : Events) (selection : BitVec 17) : BitVec 17 := e.flags &&& selection

/-- The flags cleared, and every detail item emptied of which the clear names a flag: a clear that names one guard flag
empties the guard-output set whichever of the three are set (R133, R141). The other items hold nothing while their flag is
not set, and the model empties them by the name too (log 19). -/
def Events.clearFlags (e : Events) (selection : BitVec 17) : Events :=
  { e with
    flags := e.flags &&& ~~~ e.cleared selection
    guardOutputs := if selection &&& guardMask ≠ 0 then 0 else e.guardOutputs
    readyLines := if selection &&& Flag.lineReady.mask ≠ 0 then 0 else e.readyLines
    faultedLines := if selection &&& Flag.lineFault.mask ≠ 0 then 0 else e.faultedLines
    groupRefused := if selection &&& Flag.groupRefused.mask ≠ 0 then none else e.groupRefused
    commitDetail := if selection &&& Flag.commitDone.mask ≠ 0 then .none else e.commitDetail }

/-- A clear: the flags with their details, the timer to H, and HOLDOFF (R136). -/
def Events.clear (e : Events) (selection : BitVec 17) : Events :=
  { e.clearFlags selection with notice := .holdoff, timer := e.holdoff, timerFresh := true }

/-- The expiry of the holdoff: a placement and SENT if flags are pending, else QUIET (R137). -/
def expire (e : Events) (n : NoticeSlot) : Events × NoticeSlot :=
  if e.pendingSet ≠ 0 then ({ e with notice := .sent, timer := 0 }, n.place)
  else ({ e with notice := .quiet, timer := 0 }, n)

/-- The timer falls to 0 at the end of the frame period in progress (R137). -/
def Events.expiryDue (e : Events) : Bool := e.notice == .holdoff && !e.timerFresh && decide (e.timer ≤ 1)

/-- The holdoff's expiry, taken (R137). -/
def holdoffExpires (s : State) : State :=
  { s with events := (expire s.events s.slot).1, slot := (expire s.events s.slot).2 }

/-- The holdoff timer at the end of a frame period (R137): it falls by 1 in HOLDOFF, unless it was set in the period. -/
def holdoffTick (s : State) : State :=
  if s.events.expiryDue then holdoffExpires s
  else
    { s with
      events :=
        { s.events with
          timer := if s.events.notice = .holdoff ∧ s.events.timerFresh = false then s.events.timer - 1 else s.events.timer
          timerFresh := false } }

/-- The code of a result (R121). -/
def resultCode : Result → Nat
  | .done => 0
  | .accepted => 1
  | .busy => 2
  | .state => 3
  | .protection => 4
  | .inUse => 5
  | .range => 6
  | .place => 7
  | .budget => 8
  | .badTap => 9
  | .late => 10
  | .unknown => 11
  | .length => 12

/-- The code of the commit detail (R174). -/
def CommitDetail.code : CommitDetail → Nat
  | .none => 0
  | .notReverted => 1
  | .reverted => 2

/-- The code of the notice state (R174). -/
def NoticeState.code : NoticeState → Nat
  | .quiet => 0
  | .sent => 1
  | .holdoff => 2

/-- The group-refused detail as a word: present 31, section 19–16, verb 13–8, result 7–0 (R174). -/
def groupRefusedWord : Option GroupRefused → Word
  | none => 0
  | some g => word (2 ^ 31 + g.sec.toNat * 2 ^ 16 + g.verb.toNat * 2 ^ 8 + resultCode g.result)

/-- The snapshot of eight body words (R135, R174). -/
def Events.snapshot (e : Events) : List Word :=
  [ e.flags.setWidth 32, e.guardOutputs, e.readyLines.setWidth 32, (e.readyLines >>> 32).setWidth 32,
    e.faultedLines.setWidth 32, (e.faultedLines >>> 32).setWidth 32, groupRefusedWord e.groupRefused,
    word e.commitDetail.code ]

end Sys2Proof.Machine
end

