-- ==== Sys2Proof/Machine/DecoderUnit.lean ====
section
/-! DEFINITION. The order decoder over the arriving service words: messages by their kinds, dispositions, assembly, the
message checks, and the abandonment of an open message (R113 to R118). -/

namespace Sys2Proof.Machine

/-- The disposition of the message that a HEAD opens, by class and address, under pattern P and mask M (R115). -/
def dispositionOf (pattern mask : BitVec 8) (head : Word) : Disposition :=
  match headClass head with
  | 0 =>
    if headAddress head = pattern then .direct
    else if headAddress head = 0xFF then .group
    else if (headAddress head ^^^ pattern) &&& mask = 0 then .group
    else .forwardOnly
  | 1 => .forwardOnly
  | 2 => .forwardOnly
  | _ => .dropped

/-- The disposition executes the message here, so it is assembled (R115, R117). -/
def Disposition.executes : Disposition → Bool
  | .direct | .group => true
  | .forwardOnly | .dropped => false

/-- The words of the message are forwarded (R115). -/
def Disposition.forwards : Disposition → Bool
  | .group | .forwardOnly => true
  | .direct | .dropped => false

/-- What the decoder tells of a frame period: its own state, the forwarded word that arrived (`none` where the word is
free), how many messages were discarded, and the forwarded message that was abandoned (R113, R117, R118). -/
structure Heard where
  decoder : Decoder
  arriving : Option TransitWord
  discards : Nat
  abandoned : Option Nat
  deriving DecidableEq, Repr

/-- Nothing is given to the decoder: the word is free (R113). -/
def Decoder.quiet (d : Decoder) : Heard := { decoder := d, arriving := none, discards := 0, abandoned := none }

/-- The open message is being assembled: it executes here and is not discarded (R117). -/
def OpenMessage.assembling (m : OpenMessage) : Bool := m.disposition.executes && !m.discarded

/-- The word of a message as it is forwarded, if it is (R113). -/
def OpenMessage.forward (m : OpenMessage) (k : ServiceKind) (w : Word) : Option TransitWord :=
  if m.disposition.forwards then some { kind := k, word := w, message := m.id } else none

/-- The discard that a HEAD meets at once: class 3, or an assembled message with a body length above 32 (R117). -/
def discardedAtHead (disp : Disposition) (head : Word) : Bool :=
  disp == .dropped || (disp.executes && decide (32 < headLength head))

/-- The message that a HEAD opens (R114, R115, R117). -/
def Decoder.messageOf (d : Decoder) (head : Word) : OpenMessage :=
  { head
    disposition := dispositionOf d.pattern d.mask head
    bodies := 0
    discarded := discardedAtHead (dispositionOf d.pattern d.mask head) head
    id := d.nextId }

/-- A HEAD opens a message (R114, R115, R117). -/
def Decoder.opens (d : Decoder) (head : Word) : Heard :=
  { decoder :=
      { d with
        inbound := some (d.messageOf head)
        buffer := if (d.messageOf head).assembling then [head] else []
        nextId := d.nextId + 1 }
    arriving := (d.messageOf head).forward .head head
    discards := bit (d.messageOf head).discarded
    abandoned := none }

/-- The open message is closed where it stands; the decoder is BETWEEN (R114). -/
def Decoder.closed (d : Decoder) : Decoder := { d with inbound := none, buffer := [] }

/-- The message checks of an END in place pass: the high half is zero and the low half is the CRC-16 of the assembly
buffer (R117). -/
def endGood (buffer : List Word) (w : Word) : Bool := w == endWord buffer

/-- The order that a buffer holds (R173): section, verb and tag from the HEAD, the addressing from the disposition. -/
def readyOf (disp : Disposition) (buffer : List Word) : ReadyOrder :=
  { sec := headSection (buffer.headD 0)
    verb := headVerb (buffer.headD 0)
    order :=
      { via := if disp = .direct then .direct else .group
        tag := headTag (buffer.headD 0)
        body := buffer.tail } }

/-- A BODY word in IN-MESSAGE: in place, surplus (which discards an assembled message and leaves it open), or a word of a
message that is not assembled (R114, R117). -/
def Decoder.body (d : Decoder) (m : OpenMessage) (w : Word) : Heard :=
  if m.assembling then
    if m.bodies < headLength m.head then
      { decoder := { d with inbound := some { m with bodies := m.bodies + 1 }, buffer := d.buffer ++ [w] }
        arriving := m.forward .body w, discards := 0, abandoned := none }
    else
      { decoder := { d with inbound := some { m with bodies := m.bodies + 1, discarded := true }, buffer := [] }
        arriving := m.forward .body w, discards := 1, abandoned := none }
  else
    { decoder := { d with inbound := some { m with bodies := m.bodies + 1 } }
      arriving := m.forward .body w, discards := 0, abandoned := none }

/-- An END word in IN-MESSAGE closes the message. An assembled one is complete where the END is in place and passes the
checks, and is discarded where not (R114, R117). -/
def Decoder.tail (d : Decoder) (m : OpenMessage) (w : Word) : Heard :=
  if m.assembling then
    if m.bodies = headLength m.head ∧ endGood d.buffer w then
      { decoder := { d.closed with ready := some (readyOf m.disposition d.buffer) }
        arriving := m.forward .tail w, discards := 0, abandoned := none }
    else { decoder := d.closed, arriving := m.forward .tail w, discards := 1, abandoned := none }
  else { decoder := d.closed, arriving := m.forward .tail w, discards := 0, abandoned := none }

/-- A service word at the decoder (R113, R114). -/
def Decoder.take (d : Decoder) (k : ServiceKind) (w : Word) : Heard :=
  match d.inbound with
  | none =>
    match k with
    | .head => d.opens w
    | _ => d.quiet
  | some m =>
    match k with
    | .body => d.body m w
    | .tail => d.tail m w
    | .head =>
      { d.closed.opens w with discards := bit m.assembling + (d.closed.opens w).discards }
    | .idle => { d.closed.quiet with discards := bit m.assembling }

/-- The frame period brought no service word: an open message is closed, an assembled one is discarded, and the arbiter
is told which forwarded message was abandoned (R118). -/
def Decoder.abandon (d : Decoder) : Heard :=
  match d.inbound with
  | none => d.quiet
  | some m =>
    { decoder := d.closed
      arriving := none
      discards := bit m.assembling
      abandoned := if m.disposition.forwards then some m.id else none }

end Sys2Proof.Machine
end

