-- ==== Sys2Proof/Machine/ArbiterUnit.lean ====
section
/-! DEFINITION. The service arbiter: the choice of the word that leaves, the transit queue, the abandonment of a forwarded
message, and the start and end of the part's own messages (R125 to R130). -/

namespace Sys2Proof.Machine

/-- The kind of the word at a position of an own message (R128). -/
def kindAt (words : List Word) (p : Nat) : ServiceKind :=
  if p = 0 then .head else if p + 1 < words.length then .body else .tail

/-- The own message in progress, and the position reached in it (R125). -/
def Arbiter.own (a : Arbiter) : Option (List Word × Nat) :=
  match a.sending with
  | some (.ownReturn p) => some (((a.returns.head?).map (·.words)).getD [], p)
  | some (.ownNotice ws p) => some (ws, p)
  | _ => none

/-- The own message in progress one word on (R125, R128). -/
def Sending.advance : Sending → Sending
  | .ownReturn p => .ownReturn (p + 1)
  | .ownNotice ws p => .ownNotice ws (p + 1)
  | .direct m p => .direct m (p + 1)
  | .queued m p => .queued m (p + 1)

/-- The notice's END has left: WAITING where the repeat mark is set, which is cleared; else EMPTY (R130). -/
def NoticeSlot.sent (n : NoticeSlot) : NoticeSlot :=
  { state := if n.repeatMark then .waiting else .empty, repeatMark := false }

/-- What leaves in a frame period: a word with its kind, or the HEAD of an own message that starts (R125). -/
inductive Leaving where
  | word (kind : ServiceKind) (word : Word)
  | start (own : OwnStart)
  deriving DecidableEq, Repr

/-- The arbiter's choice: its state after it, the notice slot, what leaves, whether the END of a return left, and whether it
was that of a RESET order's return (R125, R129). -/
structure Choice where
  arbiter : Arbiter
  slot : NoticeSlot
  leaving : Leaving
  returnLeft : Bool
  resetLeft : Bool
  deriving DecidableEq, Repr

/-- The part's own IDLE word (R113). -/
def Leaving.idle : Leaving := .word .idle 0

/-- The transit queue with an arriving forwarded word at its tail (R126). -/
def joined (transit : List TransitWord) (arriving : Option TransitWord) : List TransitWord := transit ++ arriving.toList

/-- The own message in progress is a return. -/
def Arbiter.sendingReturn (a : Arbiter) : Bool :=
  match a.sending with
  | some (.ownReturn _) => true
  | _ => false

/-- The notice slot as the END of the own message in progress leaves (R130). -/
def Arbiter.slotEnded (a : Arbiter) (n : NoticeSlot) : NoticeSlot :=
  match a.sending with
  | some (.ownNotice _ _) => n.sent
  | _ => n

/-- The own message in progress is the return of a RESET order (R129). -/
def Arbiter.sendingReset (a : Arbiter) : Bool :=
  match a.sending with
  | some (.ownReturn _) => ((a.returns.head?).map (·.isReset)).getD false
  | _ => false

/-- Step 1, own message: its next word leaves, and an arriving forwarded word joins the transit queue (R125, R128). -/
def chooseOwn (words : List Word) (p : Nat) (arriving : Option TransitWord) (a : Arbiter) (n : NoticeSlot) : Choice :=
  if p + 1 < words.length then
    { arbiter := { a with sending := a.sending.map Sending.advance, transit := joined a.transit arriving }
      slot := n
      leaving := .word (kindAt words p) (words.getD p 0)
      returnLeft := false
      resetLeft := false }
  else
    { arbiter := { a with sending := none, transit := joined a.transit arriving }
      slot := a.slotEnded n
      leaving := .word (kindAt words p) (words.getD p 0)
      returnLeft := a.sendingReturn
      resetLeft := a.sendingReset }

/-- What the arbiter is sending after a word of a forwarded message has left; `w` is that word (R125). -/
def sendingAfter (begin_ : Nat → Nat → Sending) (old : Option Sending) (w : TransitWord) : Option Sending :=
  match w.kind with
  | .tail => none
  | .head => some (begin_ w.message 1)
  | _ => old.map Sending.advance

/-- Steps 2 to 5, with no own message in progress and the arriving word not a further word of a message being sent
directly. `waiting` says that a notice was waiting as the frame period began: one placed in its handling may start from
the next frame period (R125). -/
def chooseOther (waiting : Bool) (arriving : Option TransitWord) (a : Arbiter) (n : NoticeSlot) : Choice :=
  match a.transit with
  | t :: ts =>
    { arbiter := { a with transit := joined ts arriving, sending := sendingAfter .queued a.sending t }
      slot := n, leaving := .word t.kind t.word, returnLeft := false, resetLeft := false }
  | [] =>
    match arriving with
    | some w =>
      { arbiter := { a with sending := sendingAfter .direct a.sending w }
        slot := n, leaving := .word w.kind w.word, returnLeft := false, resetLeft := false }
    | none =>
      { arbiter := { a with sending := none }
        slot := n
        leaving :=
          if waiting then .start .notice
          else if a.returns ≠ [] then .start .ret
          else Leaving.idle
        returnLeft := false
        resetLeft := false }

/-- The arriving word is a further word of the message being sent directly (R125, step 1). -/
def Arbiter.continues (a : Arbiter) (arriving : Option TransitWord) : Bool :=
  match a.sending, arriving with
  | some (.direct m _), some w => w.message == m && w.kind != .head
  | _, _ => false

/-- Step 1, direct forwarding: the arriving word leaves (R125). -/
def chooseDirect (waiting : Bool) (arriving : Option TransitWord) (a : Arbiter) (n : NoticeSlot) : Choice :=
  match arriving with
  | some w =>
    { arbiter := { a with sending := sendingAfter .direct a.sending w }
      slot := n, leaving := .word w.kind w.word, returnLeft := false, resetLeft := false }
  | none => chooseOther waiting none a n

/-- The arbiter's choice in a frame period whose arriving word is forwarded (`some`) or free (`none`) (R125). -/
def Arbiter.choose (waiting : Bool) (arriving : Option TransitWord) (a : Arbiter) (n : NoticeSlot) : Choice :=
  match a.own with
  | some (ws, p) => chooseOwn ws p arriving a n
  | none =>
    if a.continues arriving then chooseDirect waiting arriving a n else chooseOther waiting arriving a n

/-- A forwarded message has begun to leave: its HEAD is no longer in the transit queue (R127). -/
def Arbiter.begun (a : Arbiter) (message : Nat) : Bool :=
  !(a.transit.any fun w => w.message == message && w.kind == .head)

/-- The words of an abandoned message removed from the transit queue (R127). -/
def Arbiter.remove (a : Arbiter) (message : Nat) : Arbiter :=
  { a with
    transit := a.transit.filter fun w => w.message != message
    sending :=
      match a.sending with
      | some (.direct m p) => if m = message then none else some (.direct m p)
      | some (.queued m p) => if m = message then none else some (.queued m p)
      | other => other }

/-- The arbiter's choice in a frame period that brought no service word (R127): where an abandoned message had begun to
leave, IDLE leaves, unless an own message is in progress; in every other case the choice is that of R125. -/
def Arbiter.chooseAbandoned (waiting : Bool) (abandoned : Option Nat) (a : Arbiter) (n : NoticeSlot) : Choice :=
  match abandoned with
  | none => a.choose waiting none n
  | some m =>
    if a.begun m ∧ a.own = none then
      { arbiter := a.remove m, slot := n, leaving := Leaving.idle, returnLeft := false, resetLeft := false }
    else (a.remove m).choose waiting none n

/-- The notice as its HEAD leaves (R128, R135). -/
def noticeWords (pattern : BitVec 8) (e : Events) : List Word := message (headWord 2 pattern 5 0 8 0 :: e.snapshot)

/-- The frame sent with a service word (R110). -/
def Draft.frame (d : Draft) (k : ServiceKind) (w : Word) : Frame := buildFrame d.seq d.damaged d.slots k w

/-- The frame period in progress with its own message started. -/
def startTaken (s : State) : State := { s with period := s.period.map fun p => { p with ownStart := none } }

/-- A notice starts: the snapshot is taken as its HEAD leaves in the frame waiting for it (R130, R135). -/
def noticeStarts (d : Draft) (s : State) : State :=
  startTaken
    { s with
      slot := { s.slot with state := .sending }
      arbiter := { s.arbiter with sending := some (.ownNotice (noticeWords s.decoder.pattern s.events) 1) }
      sent := [d.frame .head (headWord 2 s.decoder.pattern 5 0 8 0)] }

/-- The oldest return starts: its HEAD leaves in the frame waiting for it (R125, R129). -/
def returnStarts (d : Draft) (s : State) : State :=
  startTaken
    { s with
      arbiter := { s.arbiter with sending := some (.ownReturn 1) }
      sent := [d.frame .head ((((s.arbiter.returns.head?).map (·.words)).getD []).getD 0 0)] }

/-- The frame waiting for an own message's HEAD, where that message is of a kind. -/
def waitingFor (own : OwnStart) (s : State) : Option Draft :=
  match s.period.bind (·.ownStart) with
  | some (o, d) => if o = own then some d else none
  | none => none

/-- The own message that starts in the frame period in progress, started (R125, step 3). -/
def startOwn (s : State) : State :=
  match waitingFor .notice s with
  | some d => noticeStarts d s
  | none =>
    match waitingFor .ret s with
    | some d => returnStarts d s
    | none => s

end Sys2Proof.Machine
end

