-- ==== Sys2Proof/Machine/CaptureUnit.lean ====
section
/-! DEFINITION. The capture recorder's shared operations: triggers offered and taken, the sampling step, the end of a
capture, and the positions of the recording (R148 to R153, R157). -/

namespace Sys2Proof.Machine

/-- The code of a capture state (R174). -/
def CaptureState.code : CaptureState → Nat
  | .idle => 0
  | .waiting => 1
  | .rolling => 2
  | .post => 3
  | .done => 4

/-- A trigger taken in a frame period of the given sequence (R152). It is taken in WAITING and ROLLING only (R151). -/
def Capture.take (c : Capture) (seq : Seq) : Capture :=
  match c.state with
  | .waiting =>
    { c with
      state := .post, remaining := c.setUp.extent
      record := { c.record with triggerIndex := some c.writeIndex, triggerSeq := some seq } }
  | .rolling =>
    { c with
      state := .post, remaining := c.setUp.extent + 1
      record := { c.record with triggerIndex := some c.writeIndex, triggerSeq := some seq } }
  | _ => c

/-- An event that other blocks offer to the recorder (R151). -/
inductive Offer where
  | guardStep (output : Output)
  | guardMute (output : Output)
  | sequence (s : Seq)
  | linkFault
  deriving DecidableEq, Repr

/-- The offer matches the trigger of the set-up (R151). -/
def Trigger.matches : Trigger → Offer → Bool
  | .guardStep n, .guardStep m => n == m
  | .guardMute n, .guardMute m => n == m
  | .anyGuard, .guardStep _ => true
  | .anyGuard, .guardMute _ => true
  | .sequence a, .sequence b => a == b
  | .linkFault, .linkFault => true
  | _, _ => false

/-- An offer in a frame period: ignored where the engine processes no frame, taken where it matches (R151). -/
def Capture.offer (c : Capture) (processed : Bool) (seq : Seq) (o : Offer) : Capture :=
  if processed && c.setUp.trigger.matches o then c.take seq else c

/-- An offer in the frame period in progress. -/
def offerNow (o : Offer) (s : State) : State :=
  { s with capture := s.capture.offer (periodProcessed s) (periodSeq s) o }

/-- One sample written into the ring at the write index (R149). -/
def Capture.write (c : Capture) (x : Sample) : Capture :=
  { c with
    ring := Store.put c.ring c.writeIndex (some x)
    writeIndex := (c.writeIndex + 1) % Config.ringSize
    record :=
      if c.record.held = Config.ringSize then { c.record with wrapped := true }
      else { c.record with held := c.record.held + 1 } }

/-- The end of a capture whose count has run out (R153). -/
def Capture.finish (c : Capture) : Capture :=
  { c with state := .done, record := { c.record with endIndex := some c.writeIndex, endCause := some .count } }

/-- The sampling step, but for the event of a capture's end (R149, R153). -/
def Capture.sampling (c : Capture) (x : Sample) : Capture :=
  match c.state with
  | .rolling => c.write x
  | .post =>
    let c := { c.write x with remaining := c.remaining - 1 }
    if c.remaining = 0 then c.finish else c
  | _ => c

/-- The frame period in progress has a sampling step at its end: a frame was processed in it (R149). -/
def samplingDue (s : State) : Bool := (s.period.map (·.processed)).getD false

/-- The remaining count falls to 0 at the sampling step of the frame period in progress (R153). -/
def endsAtSampling (s : State) : Bool := samplingDue s && s.capture.state == .post && decide (s.capture.remaining ≤ 1)

/-- The sampling step of the frame period in progress (R149), with CAPTURE-DONE where the capture ends in it (R153). -/
def samplingStep (s : State) : State :=
  if samplingDue s then
    raiseIf (endsAtSampling s) .captureDone
      { s with capture := s.capture.sampling ((s.period.map (·.sample)).getD 0) }
  else s

/-- The ring index of the oldest retained sample (R149). -/
def Capture.oldest (c : Capture) : Nat := if c.record.wrapped then c.writeIndex else 0

/-- The sample at a position counted from the oldest retained one (R157). A position never written holds a free value
(log 9). -/
def Capture.sampleAt (c : Capture) (p : Nat) : Sample :=
  (Store.get c.ring ((c.oldest + p) % Config.ringSize)).getD
    (Config.ringResidue ((c.oldest + p) % Config.ringSize))

/-- The trigger position of a trigger index (R152). -/
def Capture.triggerPosition (c : Capture) (index : Nat) : Nat :=
  (index + Config.ringSize - c.oldest) % Config.ringSize

end Sys2Proof.Machine
end

