-- ==== Sys2Proof/Machine/GuardUnit.lean ====
section
/-! DEFINITION. The feedback guard's shared operations: the profile in force and its adjustments, the measuring of a
frame, the block end, mutes, the trim factor and the mute ramp (R70 to R87). -/

namespace Sys2Proof.Machine

/-- A bank that holds a role (bank B where bank A does not). -/
def Scenes.withRole (sc : Scenes) (r : Role) : BankSlot := if sc.a.role = r then sc.a else sc.b

/-- The profile in force for an output: the LIVE bank's in STEADY and ARMED, the INCOMING bank's in FADING (R74). -/
def profileInForce (ch : ChangerState) (sc : Scenes) (c : Output) : Fin 8 :=
  match ch with
  | .fading => (sc.withRole .incoming).bank.outputs[c].profile
  | _ => (sc.withRole .live).bank.outputs[c].profile

/-- The profile in force for an output, in a state. -/
def inForce (s : State) (c : Output) : Profile := s.guard.profiles[profileInForce s.changer.state s.scenes c]

/-- A guard record brought within a profile: the trim step to at most max steps, the strain count below the strain limit
(R71, R74). -/
def GuardRec.adjust (p : Profile) (g : GuardRec) : GuardRec :=
  { g with
    trim := min g.trim p.maxSteps
    strain := if p.strainLimit ≤ g.strain then p.strainLimit - 1 else g.strain }

/-- The guard with every output brought within its profile where a condition on the output holds. -/
def Guard.adjustWhere (g : Guard) (cond : Output → Bool) (profile : Output → Profile) : Guard :=
  { g with
    outputs := Vector.ofFn fun c => if cond c then (g.outputs[c]).adjust (profile c) else g.outputs[c] }

/-- The trim factors of steps 0 to 16 (R75). -/
def trimFactors : List Nat :=
  [32768, 27554, 23170, 19484, 16384, 13777, 11585, 9742, 8192, 6889, 5793, 4871, 4096, 3444, 2896, 2435, 2048]

/-- The trim factor of a trim step (R75). -/
def trimFactor (k : Nat) : Nat := trimFactors.getD k 0

/-- The trimmed value W(c) (R75). -/
def trimmed (g : GuardRec) (u : Int) : Int := (u * trimFactor g.trim + 16384) / 32768

/-- The output value O(c) before saturation, from W(c), the mute ramp position and the node ramp factor (R76). -/
def outputValue (g : GuardRec) (r : Nat) (w : Int) : Int := (w * g.ramp * r + 786432) / 1572864

/-- A clip sample: an output value outside full scale (R76). -/
def isClip (o : Int) : Bool := decide (o > sampleMax) || decide (o < sampleMin)

/-- One output's record through a frame that counts for the guard (R78, R82): block peak and clip run count. -/
def GuardRec.measure (w o : Int) (g : GuardRec) : GuardRec :=
  if g.state = .muted then g
  else
    { g with
      peak := max g.peak (min w.natAbs 8388608)
      clip := if isClip o then min 255 (g.clip + 1) else 0 }

/-- The clip run count has reached the profile's clip run (R82). -/
def GuardRec.clipReached (p : Profile) (g : GuardRec) : Bool :=
  g.state != .muted && decide (0 < p.clipRun) && decide (p.clipRun ≤ g.clip)

/-- A record muted (R80, R82). -/
def GuardRec.mute (cause : MuteCause) (g : GuardRec) : GuardRec := { g with state := .muted, cause := some cause }

/-- What a block end does to one output's record, and the event it raises (R79, R80, R81). -/
def GuardRec.judge (p : Profile) (g : GuardRec) : GuardRec × Option Flag :=
  if g.state = .muted then (g, none)
  else if p.ceiling < g.peak then
    let g := { g with recovery := 0, strain := g.strain + p.rise }
    if g.strain < p.strainLimit then (g, none)
    else
      let g := { g with strain := 0 }
      if g.trim < p.maxSteps then ({ g with trim := g.trim + 1, state := .trimmed }, some .guardStep)
      else (g.mute .strain, some .guardMute)
  else
    let g := { g with strain := g.strain - 1 }
    if g.state = .trimmed then
      let g := { g with recovery := g.recovery + 1 }
      if p.recovery ≤ g.recovery then
        let g := { g with trim := g.trim - 1, recovery := 0 }
        if g.trim = 0 then ({ g with state := .open_ }, some .guardRelease) else (g, none)
      else (g, none)
    else ({ g with recovery := 0 }, none)

/-- The mute ramp position after a processed frame (R77). -/
def GuardRec.rampStep (g : GuardRec) : GuardRec :=
  { g with ramp := if g.state = .muted then g.ramp - 1 else min 48 (g.ramp + 1) }

/-- A record released: TRIMMED at max steps, the counts and the block peak at 0 (R84). -/
def GuardRec.release (p : Profile) (g : GuardRec) : GuardRec :=
  { g with
    state := .trimmed, cause := none, trim := p.maxSteps, strain := 0, recovery := 0, clip := 0, peak := 0 }

/-- The code of a guard state (R174). -/
def GuardState.code : GuardState → Nat
  | .open_ => 0
  | .trimmed => 1
  | .muted => 2

/-- The code of a mute cause (R174). -/
def muteCauseCode : Option MuteCause → Nat
  | none => 0
  | some .strain => 1
  | some .clip => 2

end Sys2Proof.Machine
end

