-- ==== Sys2Proof/Machine/ChangerUnit.lean ====
section
/-! DEFINITION. The scene changer's shared operations: role changes with everything that goes with them, the fire, the
fade's steps and ends, and the cancellation by a link event (R35, R37, R48, R54 to R63, R74). -/

namespace Sys2Proof.Machine

/-- The role is one whose bank's taps count in the in-use set (R26). -/
def Role.counts : Role → Bool
  | .staged => false
  | _ => true

/-- The bank is active in the role: its taps are heard (R26). -/
def Role.active : Role → Bool
  | .live | .incoming | .outgoing => true
  | _ => false

/-- The code of a role (R173). -/
def Role.code : Role → Nat
  | .live => 0
  | .staged => 1
  | .armed => 2
  | .incoming => 3
  | .outgoing => 4

/-- The lines that a list of taps names. -/
def linesNamed (taps : List Tap) : BitVec 64 := taps.foldl (fun b t => b ||| 1#64 <<< t.line.val) 0

/-- The lines a bank holds in use (R35). -/
def BankSlot.used (b : BankSlot) : BitVec 64 := if b.role.counts then linesNamed b.bank.taps else 0

/-- The in-use set as recomputed from the banks and their roles (R35). -/
def Scenes.recompute (sc : Scenes) : Scenes := { sc with inUse := sc.a.used ||| sc.b.used }

/-- The modulation phases a bank starts with (R37). -/
def startPhases (taps : List Tap) : List Nat := taps.map fun t => (t.modulation.map (·.start)).getD 0

/-- A bank taking a new role: its phases are set when it becomes INCOMING, or LIVE directly from ARMED, discarded when it
becomes STAGED, and kept otherwise (R37). -/
def BankSlot.toRole (r : Role) (b : BankSlot) : BankSlot :=
  { b with
    role := r
    phases :=
      if r = .staged then []
      else if r = .incoming ∨ (r = .live ∧ b.role = .armed) then startPhases b.bank.taps
      else b.phases }

/-- The scene store through a role change of both banks, the in-use set recomputed (R35, R48). -/
def Scenes.changeRoles (f : Role → Role) (sc : Scenes) : Scenes :=
  Scenes.recompute { sc with a := sc.a.toRole (f sc.a.role), b := sc.b.toRole (f sc.b.role) }

/-- A role change: the roles, the in-use set and the phases, the changer's new values, and the guard's adjustment of every
output whose profile in force changes (R47, R48, R74). -/
def roleChange (f : Role → Role) (ch : Changer) (s : State) : State :=
  { s with
    scenes := s.scenes.changeRoles f
    changer := ch
    guard :=
      s.guard.adjustWhere
        (fun c =>
          profileInForce s.changer.state s.scenes c ≠ profileInForce ch.state (s.scenes.changeRoles f) c)
        (fun c => s.guard.profiles[profileInForce ch.state (s.scenes.changeRoles f) c]) }

/-- The roles as a commit is taken: STAGED becomes ARMED (R52). -/
def Role.arm : Role → Role
  | .staged => .armed
  | r => r

/-- The roles as an armed commit is withdrawn: ARMED becomes STAGED (R61, R63). -/
def Role.disarm : Role → Role
  | .armed => .staged
  | r => r

/-- The roles as a commit fires with a fade: ARMED becomes INCOMING, LIVE becomes OUTGOING (R55). -/
def Role.fire : Role → Role
  | .armed => .incoming
  | .live => .outgoing
  | r => r

/-- The roles as a commit fires without a fade: ARMED becomes LIVE, LIVE becomes STAGED (R56). -/
def Role.switch : Role → Role
  | .armed => .live
  | .live => .staged
  | r => r

/-- The roles as a fade ends forward: INCOMING becomes LIVE, OUTGOING becomes STAGED (R58). -/
def Role.endForward : Role → Role
  | .incoming => .live
  | .outgoing => .staged
  | r => r

/-- The roles as a fade ends back: OUTGOING becomes LIVE, INCOMING becomes STAGED (R59). -/
def Role.endBack : Role → Role
  | .outgoing => .live
  | .incoming => .staged
  | r => r

/-- An armed commit withdrawn: the changer is STEADY and the ARMED bank STAGED (R61, R63). -/
def disarm (s : State) : State := roleChange Role.disarm Changer.steady s

/-- A link event reaches the changer: an armed commit is cancelled with COMMIT-LOST; in STEADY and FADING nothing
happens (R63). -/
def linkEvent (s : State) : State :=
  if s.changer.state = .armed then raise .commitLost (disarm s) else s

/-- The commit fires (R55, R56). -/
def fire (s : State) : State :=
  if s.changer.length = 0 then raiseCommitDone .notReverted (roleChange Role.switch Changer.steady s)
  else
    roleChange Role.fire
      { state := .fading, target := none, length := s.changer.length, position := 1, direction := .forward } s

/-- The frame of this sequence is the fire frame (R54). -/
def firesOn (seq : Seq) (s : State) : Bool := s.changer.state == .armed && s.changer.target == some seq

/-- The offer of a frame period's sequence to the changer (R54). -/
def offerSequence (seq : Seq) (s : State) : State := if firesOn seq s then fire s else s

/-- The forward end of a fade (R58). -/
def fadeEnds (s : State) : State := raiseCommitDone .notReverted (roleChange Role.endForward Changer.steady s)

/-- The end of a reverted fade (R59). -/
def revertedFadeEnds (s : State) : State := raiseCommitDone .reverted (roleChange Role.endBack Changer.steady s)

/-- The frame period in progress had a processed frame while the changer is FADING: its fade step is still to come
(R57). -/
def fadeStepDue (s : State) : Bool := s.changer.state == .fading && (s.period.map (·.processed)).getD false

/-- The forward end of the fade is due at the end of the frame period in progress (R58). -/
def fadeEndDue (s : State) : Bool :=
  fadeStepDue s && s.changer.direction == .forward && decide (s.changer.length ≤ s.changer.position)

/-- The end of a reverted fade is due at the end of the frame period in progress (R59). -/
def revertedFadeEndDue (s : State) : Bool :=
  fadeStepDue s && s.changer.direction == .back && decide (s.changer.position = 0)

/-- The fade position one step on, in the direction held (R57). -/
def Changer.step (c : Changer) : Changer :=
  match c.direction with
  | .forward => { c with position := c.position + 1 }
  | .back => { c with position := c.position - 1 }

/-- The fade step at the end of the frame period in progress (R57, R58, R59). -/
def fadeAtEnd (s : State) : State :=
  if fadeEndDue s then fadeEnds s
  else if revertedFadeEndDue s then revertedFadeEnds s
  else if fadeStepDue s then { s with changer := s.changer.step }
  else s

/-- The phases of a bank's taps, each modulated one advanced by 1 and wrapping at its period (R37). -/
def advancePhases : List Tap → List Nat → List Nat
  | t :: ts, p :: ps =>
    (match t.modulation with
      | some m => if p + 1 < m.period then p + 1 else 0
      | none => p) :: advancePhases ts ps
  | _, _ => []

/-- A bank's phases after a processed frame: they advance while the bank is active (R37). -/
def BankSlot.advance (b : BankSlot) : BankSlot :=
  if b.role.active then { b with phases := advancePhases b.bank.taps b.phases } else b

/-- The phases of both banks after a processed frame. The advance belongs to the frame's end (R37); READ-BANK alone sees the
phases before that end, and gives the phase that the next processed frame will use (R34), so it is made with the frame's
processing. -/
def Scenes.advance (sc : Scenes) : Scenes := { sc with a := sc.a.advance, b := sc.b.advance }

/-- The cost of a tap (R25). -/
def Tap.cost (t : Tap) : Nat := if t.modulation.isSome then 2 else 1

/-- The cost of a tap list (R25). -/
def tapsCost (ts : List Tap) : Nat := (ts.map Tap.cost).sum

/-- The code of the changer state (R174). -/
def ChangerState.code : ChangerState → Nat
  | .steady => 0
  | .armed => 1
  | .fading => 2

end Sys2Proof.Machine
end

