-- ==== Sys2Proof/Machine/MemoryUnit.lean ====
section
/-! DEFINITION. The memory controller: serving reads and writes of a frame with the word check and the detection of absent
ranks, making lines FAULTED, clearing, the sweep, and the check recorder (R4, R9, R11, R12, R15, R16, R21, R22, R143,
R144). -/

namespace Sys2Proof.Machine

/-! ### Serving the accesses of one frame -/

/-- The memory controller while it serves the accesses of one frame: the devices, rank presence and the corrected counts
as they move, the checks in the order they arose, the lines of which an uncorrectable word was read, and the ranks found
absent. -/
structure Serve where
  device : Device
  present : Vector Bool 4
  corrected : Vector Nat 4
  checks : List Check
  faulted : List Line
  gone : List Rank
  seq : Seq

/-- The serving of a frame's accesses begins. -/
def Serve.begin_ (s : State) (seq : Seq) : Serve :=
  { device := s.device, present := s.mem.present, corrected := s.mem.corrected, checks := [], faulted := [], gone := [],
    seq }

/-- A check added. -/
def Serve.check (v : Serve) (c : Check) : Serve := { v with checks := v.checks ++ [c] }

/-- A PRESENT rank fails to answer an access: it becomes ABSENT, with an ABSENT check (R4). -/
def Serve.rankFails (v : Serve) (r : Rank) (block : Nat) (line : Option Line) : Serve :=
  { v with
    present := v.present.set r false
    gone := v.gone ++ [r]
    checks := v.checks ++ [{ kind := .absent, rank := r, block, line, bit := none, seq := v.seq }] }

/-- An access to the word at an address, for a line or for the sweep: whether it is answered. No access is made to an
ABSENT rank (R4). -/
def Serve.access (v : Serve) (a : Nat) (line : Option Line) : Bool × Serve :=
  let r := rankOfWord a
  if v.present[r] = false then (false, v)
  else if (v.device.access r).1 then (true, { v with device := (v.device.access r).2 })
  else (false, Serve.rankFails { v with device := (v.device.access r).2 } r (blockOfWord a) line)

/-- A corrected read counted, to at most 65,535 (R15). -/
def countCorrected (v : Vector Nat 4) (r : Rank) : Vector Nat 4 := update v r fun n => min 65535 (n + 1)

/-- A word read for a line, with its check (R15, R16). A read that is not answered returns 0 (R4). -/
def Serve.readWord (v : Serve) (n : Line) (a : Nat) : Int × Serve :=
  let r := rankOfWord a
  let answered := v.access a (some n)
  if answered.1 then
    match checkWord (v.device.shows a) with
    | .sound x => (x.toInt, answered.2)
    | .corrected x b =>
      (x.toInt,
        Serve.check { answered.2 with corrected := countCorrected answered.2.corrected r }
          { kind := .corrected, rank := r, block := blockOfWord a, line := some n, bit := some b, seq := v.seq })
    | .uncorrectable =>
      (0,
        Serve.check { answered.2 with faulted := answered.2.faulted ++ [n] }
          { kind := .uncorrected, rank := r, block := blockOfWord a, line := some n, bit := none, seq := v.seq })
  else (0, answered.2)

/-- A word written, unless it lies in an ABSENT rank (R4). -/
def Serve.writeWord (v : Serve) (line : Option Line) (a : Nat) (w : MemWord) : Serve :=
  let answered := v.access a line
  if answered.1 then { answered.2 with device := answered.2.device.store a w } else answered.2

/-- A read of line n at delay D, on the line records as the frame's processing began (R9). -/
def Serve.readLine (lines : Vector LineRec 64) (v : Serve) (n : Line) (d : Nat) : Int × Serve :=
  let l := lines[n]
  if l.state = .running ∧ 1 ≤ d ∧ d < l.samples then
    v.readWord n (l.address ((l.position + l.samples - d) % l.samples))
  else (0, v)

/-! ### Lines made FAULTED -/

/-- Lines leave the clearing work list; the head's progress is lost when the head leaves (R11). -/
def MemCtl.unlist (m : MemCtl) (gone : Line → Bool) : MemCtl :=
  { m with
    clearing := m.clearing.filter fun n => !gone n
    zeroed := if (m.clearing.head?.map gone).getD false then 0 else m.zeroed }

/-- Lines become FAULTED: they leave the clearing work list, join the faulted-line set, and LINE-FAULT is raised if there
is any (R4, R16). -/
def makeFaulted (ns : List Line) (s : State) : State :=
  raiseFault ns
    { s with
      lines := Vector.ofFn fun n => if n ∈ ns then { s.lines[n] with state := .faulted } else s.lines[n]
      mem := s.mem.unlist fun n => decide (n ∈ ns) }

/-- The lines that a rank's absence makes FAULTED: not OFF, not FAULTED already, with a block in the rank (R4). -/
def linesLost (s : State) (r : Rank) : List Line :=
  allLines.filter fun n =>
    s.lines[n].state != .off && s.lines[n].state != .faulted && (s.lines[n]).inRank r

/-- The line controller is told of ranks found absent (R4). -/
def ranksGone (rs : List Rank) (s : State) : State := rs.foldl (fun s r => makeFaulted (linesLost s r) s) s

/-- The lines whose fault is due at the end of a frame: an uncorrectable word was read of them, and they are still
RUNNING (R16). -/
def faultsNow (s : State) (ns : List Line) : List Line :=
  allLines.filter fun n => decide (n ∈ ns) && s.lines[n].state == .running

/-- The faults due among some lines are taken (R16). -/
def takeFaults (cond : Line → Bool) (s : State) : State :=
  match s.period with
  | some p => makeFaulted ((faultsNow s p.faultDue).filter cond) s
  | none => s

/-! ### The check recorder -/

/-- The precedence of a kind (R143), which is also its bit number (R174). -/
def CheckKind.rank : CheckKind → Nat
  | .corrected => 0
  | .uncorrected => 1
  | .absent => 2

/-- The kind raises MEMORY-CHECK in the mode (R144). -/
def ReportingMode.reports : ReportingMode → CheckKind → Bool
  | .none, _ => false
  | .uncorrectedOnly, k => k == .uncorrected
  | .serious, k => k == .uncorrected || k == .absent
  | .all, _ => true

/-- A check taken, but for its event (R143). -/
def Checks.take (k : Checks) (c : Check) : Checks :=
  { k with
    seen := k.seen ||| 1#3 <<< c.kind.rank
    record :=
      match k.record with
      | none => some c
      | some old => if old.kind.rank ≤ c.kind.rank then some c else some old }

/-- A check taken by the check recorder (R143, R144). -/
def recordCheck (s : State) (c : Check) : State :=
  raiseIf (s.checks.mode.reports c.kind) .memoryCheck { s with checks := s.checks.take c }

/-- The checks of one frame period, taken one at a time in any order (R143): the order they arose in, turned round by a
free value where there is more than one (log 8). -/
def recordChecks (cs : List Check) (s : State) : State :=
  if cs.length ≤ 1 then cs.foldl recordCheck s
  else (cs.rotate (Config.checkTurn s.fresh)).foldl recordCheck { s with fresh := s.fresh + 1 }

/-- What the memory controller served is put back: devices, presence, counts; the ranks gone; the checks (R4, R15). -/
def commitServe (v : Serve) (s : State) : State :=
  recordChecks v.checks
    (ranksGone v.gone
      { s with device := v.device, mem := { s.mem with present := v.present, corrected := v.corrected } })

/-! ### Clearing -/

/-- The writes of one frame's clearing: the next 64 positions of a window, from the count already zeroed on, as zero samples
with their code (R11). -/
def clearingWrites (l : LineRec) (n : Line) (zeroed : Nat) (v : Serve) : Serve :=
  (List.range (min 64 (l.samples - zeroed))).foldl
    (fun v i => v.writeWord (some n) (l.address (zeroed + i)) (encodeWord 0)) v

/-- Clearing in one processed frame (R11). `head` is the head of the work list when the frame's processing began: a line
that has come to the head since begins in the next frame, and a head already zeroed whole is not written again. -/
def clearingStep (head : Option Line) (seq : Seq) (s : State) : State :=
  match s.mem.clearing with
  | n :: _ =>
    if head = some n ∧ s.mem.zeroed < (s.lines[n]).samples then
      commitServe (clearingWrites s.lines[n] n s.mem.zeroed (Serve.begin_ s seq))
        { s with mem := { s.mem with zeroed := s.mem.zeroed + 64 } }
    else s
  | [] => s

/-- The last word of the head line's window has been zeroed: the end of its clearing is due (R12). -/
def endOfClearingDue (s : State) : Bool :=
  match s.mem.clearing with
  | n :: _ => decide ((s.lines[n]).samples ≤ s.mem.zeroed)
  | [] => false

/-- The end of the head line's clearing (R12). -/
def clearingEnds (s : State) : State :=
  match s.mem.clearing with
  | n :: rest =>
    raiseReady n
      { s with
        lines := update s.lines n fun l => { l with state := .running, position := 0, damped := 0 }
        mem := { s.mem with clearing := rest, zeroed := 0 } }
  | [] => s

/-! ### The bad-block map and the sweep -/

/-- A block marked; the map is held ascending, each block at most once (R19). -/
def markBlock : List Nat → Nat → List Nat
  | [], b => [b]
  | x :: xs, b => if b < x then b :: x :: xs else if b = x then x :: xs else x :: markBlock xs b

/-- The lowest PRESENT rank from a rank number on. -/
def nextPresent (present : Vector Bool 4) (from_ : Nat) : Option Rank :=
  allRanks.find? fun r => decide (from_ ≤ r.val) && present[r]

/-- The first block of a rank (R2). -/
def firstBlock (r : Rank) : Nat := r.val * Config.blocksPerRank

/-- The sweep goes on to a rank, or has nothing left to test (R20, R21). -/
def MemCtl.sweepTo (m : MemCtl) (next : Option Rank) : MemCtl :=
  match next with
  | some r =>
    { m with sweep := { m.sweep with rank := r, block := firstBlock r }, sweepFrame := 0, sweepFailed := false }
  | none => { m with sweepEnded := true, sweepFrame := 0, sweepFailed := false }

/-- The next PRESENT rank after the one the sweep stands at. -/
def MemCtl.rankAfter (m : MemCtl) : Option Rank := nextPresent m.present (m.sweep.rank.val + 1)

/-- The sweep goes on to that rank (R20, R21). -/
def MemCtl.sweepOn (m : MemCtl) : MemCtl := m.sweepTo m.rankAfter

/-- The block under test marked if a word of it has failed, the marks added counted (R21, R22). -/
def MemCtl.markTested (m : MemCtl) : MemCtl :=
  if m.sweepFailed then
    { m with
      badBlocks := markBlock m.badBlocks m.sweep.block
      sweep := { m.sweep with added := if m.sweep.block ∈ m.badBlocks then m.sweep.added else m.sweep.added + 1 } }
  else m

/-- The end of a block's second pass (R21). The record names the next block at once (log 39). -/
def MemCtl.blockTested (m : MemCtl) : MemCtl :=
  let m := m.markTested
  if m.sweep.block + 1 < firstBlock m.sweep.rank + Config.blocksPerRank then
    { m with sweep := { m.sweep with block := m.sweep.block + 1 }, sweepFrame := 0, sweepFailed := false }
  else m.sweepOn

/-- The word written in a pass: all ones in the first 16 frames of a block, zeros in the second 16, with the code of the
sample (R21). -/
def sweepPattern (frame : Nat) : MemWord := if frame < 16 then encodeWord 0xFFFFFF else encodeWord 0

/-- One word of the sweep written and read back: what was served, and whether the word fails (R21). Nothing more is
accessed once the rank has stopped answering. R21 gives no order of a block's words: that the frames of a pass take them in
ascending groups of 64, and that each word is written and read back in turn, is the model's (log 42). -/
def sweepWord (frame block : Nat) (i : Nat) (at_ : Serve × Bool) : Serve × Bool :=
  let a := block * Config.wordsPerBlock + frame % 16 * 64 + i
  let w := at_.1.writeWord none a (sweepPattern frame)
  let r := w.access a none
  if r.1 then (r.2, at_.2 || r.2.device.shows a != sweepPattern frame) else (r.2, at_.2)

/-- The 64 words of one frame of the sweep, in ascending order (log 42). -/
def sweepWords (frame block : Nat) (v : Serve) : Serve × Bool :=
  (List.range 64).foldl (fun at_ i => sweepWord frame block i at_) (v, false)

/-- One frame of the block under test done: its words have failed or not, and after the 32nd the block is tested (R21). -/
def MemCtl.frameTested (failed : Bool) (m : MemCtl) : MemCtl :=
  if m.sweepFrame = 31 then MemCtl.blockTested { m with sweepFailed := m.sweepFailed || failed }
  else { m with sweepFailed := m.sweepFailed || failed, sweepFrame := m.sweepFrame + 1 }

/-- The rank under test has stopped answering: the block under test is not marked, and the sweep has nothing left to test
where no PRESENT rank follows. Where one follows, the sweep stands at the failed block for the rest of the frame period
(R21). -/
def MemCtl.rankLost (m : MemCtl) : MemCtl :=
  { m with sweepFrame := 0, sweepFailed := false, sweepEnded := m.rankAfter.isNone }

/-- The sweep record after a frame's words: on with the block, unless the rank has stopped answering (R21). -/
def MemCtl.sweepResult (failed : Bool) (m : MemCtl) : MemCtl :=
  if m.present[m.sweep.rank] then m.frameTested failed else m.rankLost

/-- The words of one frame of the sweep served in a state. -/
def sweepServed (seq : Seq) (s : State) : Serve × Bool :=
  sweepWords s.mem.sweepFrame s.mem.sweep.block (Serve.begin_ s seq)

/-- A state with the memory controller changed. -/
def overMem (f : MemCtl → MemCtl) (s : State) : State := { s with mem := f s.mem }

/-- One frame period of the sweep (R20, R21). -/
def sweepStep (seq : Seq) (s : State) : State :=
  if s.mem.sweepEnded then s
  else if s.mem.present[s.mem.sweep.rank] then
    overMem (MemCtl.sweepResult (sweepServed seq s).2) (commitServe (sweepServed seq s).1 s)
  else overMem MemCtl.sweepOn s

/-- The completion of the sweep is due (R22). -/
def sweepCompleteDue (s : State) : Bool := s.node.state == .sweep && s.mem.sweepEnded

/-- The sweep stands at a rank that has stopped answering, and a PRESENT rank follows it (R21). -/
def sweepMoveDue (s : State) : Bool :=
  s.node.state == .sweep && !s.mem.sweepEnded && !s.mem.present[s.mem.sweep.rank] && s.mem.rankAfter.isSome

/-- As the frame period of a rank's failure ends, the sweep moves to the next PRESENT rank, which the next frame tests
(R21). -/
def sweepMoves (s : State) : State := if sweepMoveDue s then overMem MemCtl.sweepOn s else s

/-- The sweep ends: the outcome, STANDBY, and SWEEP-DONE (R22). -/
def sweepEnds (outcome : SweepOutcome) (s : State) : State :=
  raise .sweepDone
    { s with
      mem :=
        { s.mem with
          sweep := { s.mem.sweep with outcome }, sweepEnded := false, sweepFrame := 0, sweepFailed := false }
      node := { s.node with state := .standby } }

/-- The sweep is complete (R22). -/
def sweepCompletes (s : State) : State := sweepEnds .complete s

/-- The sweep is cut short by a STANDBY order: the block under test is marked if any of its words has failed (R22). -/
def sweepCutShort (s : State) : State := sweepEnds .cutShort { s with mem := s.mem.markTested }

end Sys2Proof.Machine
end

