-- ==== Sys2Proof/Machine/NodeUnit.lean ====
section
/-! DEFINITION. The node state unit's shared operations: the silence causes' hold on the node state, the abandonment of
the guard block on leaving RUN, and the node ramp (R78, R158, R159, R160, R163). -/

namespace Sys2Proof.Machine

/-- The code of a node state (R158). -/
def NodeState.code : NodeState → Nat
  | .sizing => 0
  | .standby => 1
  | .run => 2
  | .silent => 3
  | .sweep => 4

/-- The guard block in progress abandoned: the block frame count and every block peak return to 0 (R78). -/
def Guard.abandon (g : Guard) : Guard :=
  { g with blockCount := 0, outputs := g.outputs.map fun r => { r with peak := 0 } }

/-- The frame period in progress counts for the guard. -/
def periodCounts (s : State) : Bool := (s.period.map (·.counts)).getD false

/-- The node leaves RUN for another state. The guard block is abandoned at the end of the last frame processed in RUN:
at the end of the frame period in progress if that counts for the guard, and at once if not (R78). -/
def leaveRun (dest : NodeState) (s : State) : State :=
  { s with
    node := { s.node with state := dest }
    guard := if periodCounts s then s.guard else s.guard.abandon
    period := s.period.map fun p => { p with leftRun := p.leftRun || p.counts } }

/-- The node state after a silence cause has changed: RUN with a cause set becomes SILENT, SILENT with every cause clear
becomes RUN, and no other state changes (R160). -/
def causesChanged (s : State) : State :=
  if s.node.state = .run ∧ anyCause s then leaveRun .silent s
  else if s.node.state = .silent ∧ anyCause s = false then { s with node := { s.node with state := .run } }
  else s

/-- The ramp position after one step at the end of a processed frame (R159). -/
def Node.rampStep (n : Node) : Nat :=
  match n.state with
  | .run => if n.leaving then n.ramp - 10 else min 480 (n.ramp + 1)
  | .silent => n.ramp - 10
  | _ => 0

/-- The end of leaving is due at the end of the period in progress: with the leaving mark set, the ramp's step brings p to 0,
or p is 0 already and the mark was set before the period's frame was processed (R163). -/
def leavingEndDue (s : State) : Bool :=
  match s.period with
  | some p =>
    p.processed && !p.rampDone && s.node.leaving && (s.node.state == .run || s.node.state == .silent) &&
      decide (s.node.ramp ≤ 10) && (p.leaving || s.node.ramp != 0)
  | none => false

/-- The end of leaving for STANDBY: p is 0, the node is STANDBY and the mark is cleared (R163). -/
def leavingEnds (s : State) : State :=
  let s := if s.node.state = .run then leaveRun .standby s else s
  { s with
    node := { s.node with state := .standby, ramp := 0, leaving := false }
    period := s.period.map fun p => { p with rampDone := true } }

/-- The node ramp at the end of the frame period in progress (R159, R163). It makes no step in a frame period in which no
frame was processed, nor a second one behind the end of a down-ramp; so behind a GO taken in such a period the first frame
in RUN is processed with p = 0, where R161 says p = 1 (log 21). -/
def rampAtEnd (s : State) : State :=
  if leavingEndDue s then leavingEnds s
  else
    match s.period with
    | some p => if p.processed ∧ p.rampDone = false then { s with node := { s.node with ramp := s.node.rampStep } } else s
    | none => s

/-- The abandonment of the guard block at the end of the last frame processed in RUN (R78). -/
def abandonAtEnd (s : State) : State :=
  { s with guard := if (s.period.map (·.leftRun)).getD false then s.guard.abandon else s.guard }

/-- The node ramp factor R (R159). -/
def rampFactor (p : Nat) : Nat := p * 32768 / 480

/-- SIZING ends: rank presence takes the probes' results and the node enters STANDBY (R3). Every rank is asked at this moment
(log 35). -/
def sizingEnds (s : State) : State :=
  { s with
    mem := { s.mem with present := Vector.ofFn fun r => s.device.answersProbe r }
    node := { s.node with state := .standby } }

/-- The end of sizing is due: 96 frame periods have passed (R3). -/
def sizingEndDue (s : State) : Bool := s.node.state == .sizing && decide (Config.sizingFrames ≤ s.mem.sizing)

end Sys2Proof.Machine
end

