-- ==== Sys2Proof/Machine/Engine.lean ====
section
/-! DEFINITION. One frame in the engine (R8, R38 to R46, R75 to R78, R82, R105, R109, R148): the lines' feeds, the taps, the
output sum, the guard's measuring, and the audio slots of the frame sent. -/

namespace Sys2Proof.Machine

/-! ### The lines' feeds -/

/-- The products of a feed list's terms, added, the LINE terms read in list order (R8, steps 1 and 2). -/
def feedSum (lines : Vector LineRec 64) (inputs : Vector Int 24) : List Term → Serve → Int × Serve
  | [], v => (0, v)
  | .input c g :: ts, v =>
    let rest := feedSum lines inputs ts v
    (inputs[c] * g.toInt + rest.1, rest.2)
  | .line n d g :: ts, v =>
    let x := v.readLine lines n d
    let rest := feedSum lines inputs ts x.2
    (x.1 * g.toInt + rest.1, rest.2)

/-- The sum of the products, rounded to S (R8, step 2). -/
def roundFeed (sum : Int) : Int := (sum + 16384) / 32768

/-- The damping filter: y from S, the coefficient and the damping state (R8, step 3). -/
def damp (d : Nat) (z s : Int) : Int := s + d * (z - s) / 32768

/-- The feed sample of a line from its sum of products (R8, steps 2 to 4). -/
def feedSample (l : LineRec) (sum : Int) : Sample := toSample (damp l.damping l.damped.toInt (roundFeed sum))

/-- The line computes and writes a feed sample in a frame (R8). -/
def LineRec.feeds (l : LineRec) : Bool := l.state == .running || l.state == .faulted

/-- The feeds of some lines, in order: each line with its feed sample. -/
def feeds (lines : Vector LineRec 64) (inputs : Vector Int 24) : List Line → Serve → List (Line × Sample) × Serve
  | [], v => ([], v)
  | n :: ns, v =>
    if (lines[n]).feeds then
      let t := feedSum lines inputs lines[n].feed v
      let rest := feeds lines inputs ns t.2
      ((n, feedSample lines[n] t.1) :: rest.1, rest.2)
    else feeds lines inputs ns v

/-- One feed sample written at its line's write position (R8, step 5). A write position outside the window is no word of
it, and nothing is written there (log 34). -/
def writeFeed (lines : Vector LineRec 64) (v : Serve) (w : Line × Sample) : Serve :=
  if (lines[w.1]).position < (lines[w.1]).samples then
    v.writeWord (some w.1) ((lines[w.1]).address (lines[w.1]).position) (encodeWord w.2)
  else v

/-- The feed samples written at the lines' write positions (R8, step 5). -/
def writeFeeds (lines : Vector LineRec 64) (ws : List (Line × Sample)) (v : Serve) : Serve :=
  ws.foldl (writeFeed lines) v

/-- A line record after its feed sample: the damping state, and the write position one on (R8, steps 4 and 5). -/
def LineRec.fed (w : Sample) (l : LineRec) : LineRec :=
  { l with damped := w, position := if l.position + 1 < l.samples then l.position + 1 else 0 }

/-- The line records after the frame's feeds. -/
def linesFed (lines : Vector LineRec 64) (ws : List (Line × Sample)) : Vector LineRec 64 :=
  ws.foldl (fun ls w => update ls w.1 (LineRec.fed w.2)) lines

/-! ### Taps and the output sum -/

/-- The integer delay D and the fraction a of a tap's read at a phase (R38). -/
def tapDelay (t : Tap) (phase : Nat) : Nat × Nat :=
  match t.modulation with
  | none => (t.delay, 0)
  | some m =>
    let f := 2 * m.depth * 256 * min phase (m.period - phase) / m.period
    (t.delay + f / 256, f % 256)

/-- Straight-line interpolation between two reads (R39). -/
def interpolate (v0 v1 : Int) (a : Nat) : Int := (v0 * (256 - a) + v1 * a + 128) / 256

/-- A tap's sample for the frame (R39). -/
def tapSample (lines : Vector LineRec 64) (t : Tap) (phase : Nat) (v : Serve) : Int × Serve :=
  let da := tapDelay t phase
  let x := v.readLine lines t.line da.1
  if da.2 = 0 then x
  else
    let y := x.2.readLine lines t.line (da.1 + 1)
    (interpolate x.1 y.1 da.2, y.2)

/-- The taps of a bank read in list order: for each its output channel and its sample times its gain (R41, R42). -/
def tapProducts (lines : Vector LineRec 64) : List Tap → List Nat → Serve → List (Output × Int) × Serve
  | [], _, v => ([], v)
  | t :: ts, ps, v =>
    let x := tapSample lines t (ps.headD 0) v
    let rest := tapProducts lines ts ps.tail x.2
    ((t.output, x.1 * t.gain.toInt) :: rest.1, rest.2)

/-- The bank sum T(b, c) (R42). -/
def bankSum (products : List (Output × Int)) (c : Output) : Int :=
  ((products.filter fun p => p.1 == c).map (·.2)).sum

/-- The bank term Y(b, c) (R43). -/
def bankTerm (b : Bank) (products : List (Output × Int)) (c : Output) : Int :=
  let r := b.outputs[c]
  if r.enabled then
    let y := bankSum products c * r.gain.toNat
    match r.polarity with
    | .normal => y
    | .inverted => -y
  else 0

/-- The pre-trim value in STEADY and ARMED, from the LIVE bank's term (R45). -/
def steadyValue (y : Int) : Int := (y + 2 ^ 28) / 2 ^ 29

/-- The pre-trim value in FADING, from the OUTGOING and INCOMING banks' terms at position k of length L (R44, R45). -/
def fadingValue (length position : Nat) (out inc : Int) : Int :=
  (out * (length - position) + inc * position + length * 2 ^ 28) / (length * 2 ^ 29)

/-- The products of a bank: its taps are read while it is active (R41). -/
def BankSlot.products (lines : Vector LineRec 64) (b : BankSlot) (v : Serve) : List (Output × Int) × Serve :=
  if b.role.active then tapProducts lines b.bank.taps b.phases v else ([], v)

/-- The bank term of a role, from the products of banks A and B. -/
def roleTerm (sc : Scenes) (pa pb : List (Output × Int)) (r : Role) (c : Output) : Int :=
  if sc.a.role = r then bankTerm sc.a.bank pa c else if sc.b.role = r then bankTerm sc.b.bank pb c else 0

/-- The pre-trim value U(c) (R44, R45). -/
def preTrim (ch : Changer) (sc : Scenes) (pa pb : List (Output × Int)) (c : Output) : Int :=
  match ch.state with
  | .fading =>
    fadingValue ch.length ch.position (roleTerm sc pa pb .outgoing c) (roleTerm sc pa pb .incoming c)
  | _ => steadyValue (roleTerm sc pa pb .live c)

/-! ### A processed frame -/

/-- What the engine reads in a frame: the feeds, the products of both banks, and the memory controller after it. -/
structure FrameReads where
  feeds : List (Line × Sample)
  productsA : List (Output × Int)
  productsB : List (Output × Int)
  served : Serve

/-- Every read of a frame, on the state as its processing began: LINE terms, then the taps of bank A, then of bank B. The
feed writes come after them (R40, log 7). -/
def frameReads (s : State) (inputs : Vector Int 24) (seq : Seq) : FrameReads :=
  let f := feeds s.lines inputs allLines (Serve.begin_ s seq)
  let a := s.scenes.a.products s.lines f.2
  let b := s.scenes.b.products s.lines a.2
  { feeds := f.1, productsA := a.1, productsB := b.1, served := b.2 }

/-- The trimmed value W(c) of a processed frame (R75). -/
def frameTrimmed (s : State) (r : FrameReads) (c : Output) : Int :=
  trimmed s.guard.outputs[c] (preTrim s.changer s.scenes r.productsA r.productsB c)

/-- The output value O(c) of a processed frame, before saturation (R76). -/
def frameOutput (s : State) (r : FrameReads) (c : Output) : Int :=
  outputValue s.guard.outputs[c] (rampFactor s.node.ramp) (frameTrimmed s r c)

/-- The source sample of a processed frame (R148). -/
def sourceSample (s : State) (inputs : Vector Int 24) (r : FrameReads) : Sample :=
  match s.capture.setUp.source with
  | .input n => BitVec.ofInt 24 inputs[n]
  | .line n => ((r.feeds.find? fun w => w.1 == n).map (·.2)).getD 0
  | .output c => toSample (frameOutput s r c)

/-- The guard's records after a frame that counts for the guard (R78, R82). -/
def guardMeasured (s : State) (r : FrameReads) : Guard :=
  { s.guard with
    outputs :=
      Vector.ofFn fun c => (s.guard.outputs[c]).measure (frameTrimmed s r c) (frameOutput s r c) }

/-- The outputs whose clip run count reaches the clip run in a frame that counts for the guard (R82). -/
def clipsReached (s : State) (r : FrameReads) : List Output :=
  allOutputs.filter fun c =>
    ((s.guard.outputs[c]).measure (frameTrimmed s r c) (frameOutput s r c)).clipReached (inForce s c)

/-- The node was RUN as the frame's processing began: the frame counts for the guard (R78). -/
def countsForGuard (s : State) : Bool := s.node.state == .run

/-- What the rest of a frame period needs of its processed frame. -/
structure EngineOut where
  outputs : Vector Sample 32
  sample : Sample
  clipDue : List Output
  faultDue : List Line

/-- The outputs, the source sample, and what falls due at the frame's end. -/
def engineOut (s : State) (inputs : Vector Int 24) (r : FrameReads) : EngineOut :=
  { outputs := Vector.ofFn fun c => toSample (frameOutput s r c)
    sample := sourceSample s inputs r
    clipDue := if countsForGuard s then clipsReached s r else []
    faultDue := r.served.faulted }

/-- The state after a processed frame, from its reads: the feeds written and the lines fed, the phases advanced, the guard's
measuring, the memory controller's findings, then 64 words cleared (R8, R11, R37, R78). The checks of the clearing writes are
taken after those of the reads and the feed writes (log 8). -/
def afterReads (s : State) (seq : Seq) (r : FrameReads) : State :=
  clearingStep s.mem.clearing.head? seq
    (commitServe (writeFeeds s.lines r.feeds r.served)
      { s with
        lines := linesFed s.lines r.feeds
        scenes := s.scenes.advance
        guard := if countsForGuard s then guardMeasured s r else s.guard })

/-- The engine's part in a frame period (R40): a processed frame, a frame of the sweep (R21), or nothing in SIZING. -/
def engineStep (seq : Seq) (inputs : Vector Int 24) (s : State) : State :=
  if engineRuns s.node.state then afterReads s seq (frameReads s inputs seq)
  else if s.node.state = .sweep then sweepStep seq s
  else s

/-- What a frame period without a processed frame leaves for its end: nothing. -/
def EngineOut.none : EngineOut :=
  { outputs := Vector.replicate 32 0, sample := 0, clipDue := [], faultDue := [] }

/-- The engine's output for a frame period. -/
def engineResult (seq : Seq) (inputs : Vector Int 24) (s : State) : EngineOut :=
  if engineRuns s.node.state then engineOut s inputs (frameReads s inputs seq) else EngineOut.none

/-! ### Input samples and output slots -/

/-- No input sample: 0 in every channel (R105). -/
def noInputs : Vector Int 24 := Vector.replicate 24 0

/-- The input samples of a good frame (R97, R105). -/
def inputSamples (m : Maps) (f : Frame) : Vector Int 24 :=
  if f.damaged then noInputs
  else
    Vector.ofFn fun i =>
      match m.input[i] with
      | none => 0
      | some sl => if slotValid f.slots[sl] then slotSample f.slots[sl] else 0

/-- The word written into a mapped slot, by the node state (R109). -/
def outputWord (n : NodeState) (x : Sample) : Word :=
  match n with
  | .run | .silent => slotWord x
  | _ => 0

/-- The slots of a frame with the mapped ones written (R109). -/
def writeSlots (m : Maps) (n : NodeState) (outs : Vector Sample 32) (slots : Vector Word 64) : Vector Word 64 :=
  allOutputs.foldl
    (fun sl c =>
      match m.output[c] with
      | none => sl
      | some i => sl.set i (outputWord n outs[c]))
    slots

/-- Every slot 0 with VALID clear (R99, R103). -/
def emptySlots : Vector Word 64 := Vector.replicate 64 0

end Sys2Proof.Machine
end

