-- ==== Sys2Proof/Machine/Resets.lean ====
section
/-! DEFINITION. What a reset leaves (R166, R167, R168), over the reset values of Machine/State.lean. -/

namespace Sys2Proof.Machine

/-- Every block at its reset values, with the node pattern and mask, the bad-block map and the pins as given. The
delay-memory devices lose their contents (log 5) and keep whether they answer and which cells fail (log 6); the queue of
commands and the model's counter stay. -/
def resetState (pattern mask : BitVec 8) (badBlocks : List Nat) (pins : Pins) (s : State) : State :=
  { State.reset with
    mem := MemCtl.initial badBlocks
    device := { s.device with words := [] }
    decoder := Decoder.initial pattern mask
    pins
    fresh := s.fresh
    pending := s.pending }

/-- The pin reset takes effect at the release, with the address pins as sampled (R166, R168). -/
def pinResetState (pins : BitVec 6) (s : State) : State :=
  resetState (pins.setWidth 8) 0xFF [] { resetHeld := false, address := pins } s

/-- The RESET order takes effect: P, M and the bad-block map are kept (R167, R168). -/
def orderResetState (s : State) : State :=
  resetState s.decoder.pattern s.decoder.mask s.mem.badBlocks s.pins s

/-- The END of a RESET order's return left in the frame period in progress (R129, R167). -/
def resetDue (s : State) : Bool := (s.period.map (·.resetDue)).getD false

end Sys2Proof.Machine
end

