-- ==== Sys2Proof/Machine/Operands.lean ====
section
/-! DEFINITION. The verbs with their numbers, marks and body lengths (R119, R173), and the fields of order bodies. -/

namespace Sys2Proof.Machine

/-- The body length that a verb allows (R173): a number of words, or for WRITE-FEED 1 + 2n with n the term count. -/
inductive BodyLength where
  | words (n : Nat)
  | perTerm
  deriving DecidableEq, Repr

/-- A verb: its section and number, whether it is protected (P) and group-capable (G) (R119), and its body length. -/
structure Verb where
  sec : BitVec 4
  num : BitVec 6
  guarded : Bool
  groupable : Bool
  length : BodyLength
  deriving DecidableEq, Repr

/-- Body word `i` of an order, counted from 1 (R173). -/
def bodyWord (o : Order) (i : Nat) : Word := o.body.getD (i - 1) 0

/-- The term count in word 1 of WRITE-FEED (R173). -/
def feedCount (o : Order) : Nat := bitsAt (bodyWord o 1) 15 8

/-- The body length of the order is allowed for the verb (R119, R173). -/
def Verb.lengthOk (v : Verb) (o : Order) : Bool :=
  match v.length with
  | .words n => o.body.length == n
  | .perTerm => o.body.length == 1 + 2 * feedCount o

/-! ### The verbs (R119) -/

/-- IDENT. -/
def Verb.ident : Verb := ⟨0, 0, false, false, .words 0⟩
/-- GO. -/
def Verb.go : Verb := ⟨0, 1, false, false, .words 0⟩
/-- STANDBY. -/
def Verb.standby : Verb := ⟨0, 2, false, false, .words 0⟩
/-- SILENCE. -/
def Verb.silence : Verb := ⟨0, 3, false, true, .words 0⟩
/-- RESUME. -/
def Verb.resume : Verb := ⟨0, 4, false, true, .words 0⟩
/-- SWEEP. -/
def Verb.sweep : Verb := ⟨0, 5, false, false, .words 0⟩
/-- UNLOCK. -/
def Verb.unlock : Verb := ⟨0, 6, false, false, .words 1⟩
/-- LOCK. -/
def Verb.lock : Verb := ⟨0, 7, false, false, .words 0⟩
/-- SET-ADDRESS. -/
def Verb.setAddress : Verb := ⟨0, 8, true, false, .words 1⟩
/-- RESET. -/
def Verb.reset : Verb := ⟨0, 9, true, false, .words 0⟩
/-- WRITE-IN-MAP. -/
def Verb.writeInMap : Verb := ⟨1, 0, false, false, .words 1⟩
/-- WRITE-OUT-MAP. -/
def Verb.writeOutMap : Verb := ⟨1, 1, true, false, .words 1⟩
/-- READ-MAP. -/
def Verb.readMap : Verb := ⟨1, 2, false, false, .words 0⟩
/-- WRITE-WINDOW. -/
def Verb.writeWindow : Verb := ⟨2, 0, true, false, .words 2⟩
/-- WRITE-FEED. -/
def Verb.writeFeed : Verb := ⟨2, 1, false, false, .perTerm⟩
/-- START. -/
def Verb.start : Verb := ⟨2, 2, false, false, .words 1⟩
/-- STOP of section 2. -/
def Verb.stop : Verb := ⟨2, 3, false, false, .words 1⟩
/-- RESTART. -/
def Verb.restart : Verb := ⟨2, 4, false, false, .words 1⟩
/-- READ-LINE. -/
def Verb.readLine : Verb := ⟨2, 5, false, false, .words 1⟩
/-- WRITE-HEADER. -/
def Verb.writeHeader : Verb := ⟨3, 0, false, false, .words 2⟩
/-- WRITE-OUTPUT. -/
def Verb.writeOutput : Verb := ⟨3, 1, false, false, .words 2⟩
/-- APPEND-TAP. -/
def Verb.appendTap : Verb := ⟨3, 2, false, false, .words 5⟩
/-- REPLACE-TAP. -/
def Verb.replaceTap : Verb := ⟨3, 3, false, false, .words 6⟩
/-- TRUNCATE. -/
def Verb.truncate : Verb := ⟨3, 4, false, false, .words 1⟩
/-- COPY-LIVE. -/
def Verb.copyLive : Verb := ⟨3, 5, false, false, .words 0⟩
/-- READ-BANK. -/
def Verb.readBank : Verb := ⟨3, 6, false, false, .words 1⟩
/-- COMMIT. -/
def Verb.commit : Verb := ⟨3, 7, false, true, .words 2⟩
/-- CANCEL. -/
def Verb.cancel : Verb := ⟨3, 8, false, true, .words 0⟩
/-- REVERT. -/
def Verb.revert : Verb := ⟨3, 9, false, true, .words 0⟩
/-- WRITE-PROFILE. -/
def Verb.writeProfile : Verb := ⟨4, 0, false, false, .words 3⟩
/-- READ-PROFILE. -/
def Verb.readProfile : Verb := ⟨4, 1, false, false, .words 1⟩
/-- READ-GUARD. -/
def Verb.readGuard : Verb := ⟨4, 2, false, false, .words 1⟩
/-- RELEASE. -/
def Verb.release : Verb := ⟨4, 3, false, false, .words 1⟩
/-- READ-EVENTS. -/
def Verb.readEvents : Verb := ⟨5, 0, false, false, .words 0⟩
/-- CLEAR-EVENTS. -/
def Verb.clearEvents : Verb := ⟨5, 1, false, true, .words 1⟩
/-- READ-AND-CLEAR. -/
def Verb.readAndClear : Verb := ⟨5, 2, false, false, .words 0⟩
/-- WRITE-ENABLES. -/
def Verb.writeEnables : Verb := ⟨5, 3, false, false, .words 1⟩
/-- WRITE-HOLDOFF. -/
def Verb.writeHoldoff : Verb := ⟨5, 4, false, false, .words 1⟩
/-- READ-CHECK. -/
def Verb.readCheck : Verb := ⟨6, 0, false, false, .words 0⟩
/-- CLEAR-CHECK. -/
def Verb.clearCheck : Verb := ⟨6, 1, false, false, .words 0⟩
/-- WRITE-MODE. -/
def Verb.writeMode : Verb := ⟨6, 2, false, false, .words 1⟩
/-- READ-BAD-BLOCKS. -/
def Verb.readBadBlocks : Verb := ⟨6, 3, false, false, .words 1⟩
/-- SET-UP. -/
def Verb.setUp : Verb := ⟨7, 0, false, false, .words 3⟩
/-- ARM. -/
def Verb.arm : Verb := ⟨7, 1, false, false, .words 0⟩
/-- CAPTURE-TRIGGER. -/
def Verb.captureTrigger : Verb := ⟨7, 2, false, true, .words 0⟩
/-- STOP of section 7. -/
def Verb.captureStop : Verb := ⟨7, 3, false, false, .words 0⟩
/-- READ-CAPTURE. -/
def Verb.readCapture : Verb := ⟨7, 4, false, false, .words 0⟩
/-- READ-SAMPLES. -/
def Verb.readSamples : Verb := ⟨7, 5, false, false, .words 1⟩
/-- READ-LINK. -/
def Verb.readLink : Verb := ⟨8, 0, false, false, .words 0⟩
/-- CLEAR-COUNTERS. -/
def Verb.clearCounters : Verb := ⟨8, 1, false, false, .words 0⟩

/-! ### Fields of order bodies (R173) -/

/-- A slot entry, FFh being NONE; `some none` is NONE, `none` a slot above 63 that is not NONE (R106, R107). -/
def slotField (n : Nat) : Option (Option Slot) :=
  if n = 0xFF then some none else if h : n < 64 then some (some ⟨n, h⟩) else none

/-- A slot entry on the link: FFh for NONE (R106, R108). -/
def slotByte : Option Slot → Nat
  | none => 0xFF
  | some i => i.val

/-- A number as an index, where it is in range. -/
def index? (n k : Nat) : Option (Fin n) := if h : k < n then some ⟨k, h⟩ else none

/-- A line field of six bits (R173). -/
def lineField (w : Word) : Line := Fin.ofNat 64 (bitsAt w 5 0)

/-- A term of WRITE-FEED from its two words, if its input channel exists: kind 31, channel or source line 29–24, gain
15–0, delay 23–0 (R173). -/
def termField (a b : Word) : Option Term :=
  if bitAt a 31 then some (.line (Fin.ofNat 64 (bitsAt a 29 24)) (bitsAt b 23 0) (gainOf a))
  else (index? 24 (bitsAt a 29 24)).map fun c => .input c (gainOf a)

/-- The terms of a list of words, two to a term. -/
def termFields : List Word → List (Option Term)
  | a :: b :: rest => termField a b :: termFields rest
  | _ => []

/-- The fields of a tap order, from the five words of APPEND-TAP (R30, R173). -/
structure TapFields where
  line : Nat
  output : Nat
  modulated : Bool
  delay : Nat
  depth : Nat
  gain : BitVec 16
  period : Nat
  start : Nat
  deriving DecidableEq, Repr

/-- The tap fields that begin at body word `i` (R173). -/
def tapFields (o : Order) (i : Nat) : TapFields :=
  { line := bitsAt (bodyWord o i) 31 24
    output := bitsAt (bodyWord o i) 23 16
    modulated := bitAt (bodyWord o i) 0
    delay := bitsAt (bodyWord o (i + 1)) 23 0
    depth := bitsAt (bodyWord o (i + 2)) 31 16
    gain := gainOf (bodyWord o (i + 2))
    period := bitsAt (bodyWord o (i + 3)) 23 0
    start := bitsAt (bodyWord o (i + 4)) 23 0 }

/-- Words of a list packed two to a word, the first in bits 31–16 (R174). -/
def packHalves : List Nat → List Word
  | a :: b :: rest => word (a * 2 ^ 16 + b) :: packHalves rest
  | [a] => [word (a * 2 ^ 16)]
  | [] => []

/-- Bytes packed four to a word, the first in bits 31–24 (R174). -/
def packBytes : List Nat → List Word
  | a :: b :: c :: d :: rest => word (a * 2 ^ 24 + b * 2 ^ 16 + c * 2 ^ 8 + d) :: packBytes rest
  | _ => []

/-- Samples as consecutive 24-bit fields from bit 31 on, four in three words, unused bits zero (R174). -/
def packSamples : List Sample → List Word
  | a :: b :: c :: d :: rest =>
    word (a.toNat * 2 ^ 8 + b.toNat / 2 ^ 16) :: word (b.toNat % 2 ^ 16 * 2 ^ 16 + c.toNat / 2 ^ 8) ::
      word (c.toNat % 2 ^ 8 * 2 ^ 24 + d.toNat) :: packSamples rest
  | [a, b, c] =>
    [word (a.toNat * 2 ^ 8 + b.toNat / 2 ^ 16), word (b.toNat % 2 ^ 16 * 2 ^ 16 + c.toNat / 2 ^ 8),
      word (c.toNat % 2 ^ 8 * 2 ^ 24)]
  | [a, b] => [word (a.toNat * 2 ^ 8 + b.toNat / 2 ^ 16), word (b.toNat % 2 ^ 16 * 2 ^ 16)]
  | [a] => [word (a.toNat * 2 ^ 8)]
  | [] => []

end Sys2Proof.Machine
end

