-- ==== Sys2Proof/Machine/Orders.lean ====
section
/-! DEFINITION. The execution of an order, direct or by group, around its owner's checks: the return queue, protection,
UNKNOWN, LENGTH, PROTECTED, the return, GROUP-REFUSED (R119 to R124, R128, R129). -/

namespace Sys2Proof.Machine

/-- What an owner answers: result, detail and the further words of the return body (R120, R121). -/
structure Reply where
  result : Result
  detail : Nat
  more : List Word
  deriving DecidableEq, Repr

/-- The order was executed: its result is DONE or ACCEPTED (R121). -/
def Reply.taken (r : Reply) : Bool := r.result == .done || r.result == .accepted

/-- A refusal: it changes nothing in the state it addresses (R121). -/
def refuse (r : Result) (detail : Nat) (s : State) : Reply × State := ({ result := r, detail, more := [] }, s)

/-- DONE with a detail and the state after. Where the order's rule names no detail, the detail is 0 (log 36). -/
def done (detail : Nat) (s : State) : Reply × State := ({ result := .done, detail, more := [] }, s)

/-- DONE with detail 0 (log 36) and further words; a read changes nothing. -/
def reads (more : List Word) (s : State) : Reply × State := ({ result := .done, detail := 0, more }, s)

/-- ACCEPTED with detail 0 (log 36): a long operation has started (R121). -/
def accepted (s : State) : Reply × State := ({ result := .accepted, detail := 0, more := [] }, s)

/-- The code of a protection state (R123). -/
def Protection.code : Protection → Nat
  | .closed => 0
  | .opening1 => 1
  | .opening2 => 2
  | .opening3 => 3
  | .open_ => 4

/-- A direct order other than UNLOCK breaks an opening sequence (R123). -/
def Protection.break_ : Protection → Protection
  | .open_ => .open_
  | _ => .closed

/-- Protection as it stands when a direct order is executed, before its tests: an UNLOCK moves it in its own execution, and
one of a wrong body length counts as a step that is not 1 to 4 (R123; log 15); every other order breaks the sequence. -/
def protectionBefore (v : Verb) (o : Order) (p : Protection) : Protection :=
  if v = Verb.unlock ∧ v.lengthOk o then p else p.break_

/-- A state with its protection replaced. -/
def withProtection (p : Protection) (s : State) : State := { s with decoder := { s.decoder with protection := p } }

/-- The body of a return: result code in 31–24, detail in 23–0, then the further words (R121, R174). -/
def Reply.body (r : Reply) : List Word := word (resultCode r.result * 2 ^ 24 + r.detail) :: r.more

/-- A return as a message: class RETURN, the node pattern held when it is built, section, verb and tag of the order
(R121, R128). -/
def returnWords (pattern : BitVec 8) (sec : BitVec 4) (verb : BitVec 6) (tag : BitVec 6) (r : Reply) : List Word :=
  message (headWord 1 pattern sec verb r.body.length tag :: r.body)

/-- A return joins the tail of the return queue (R120, R129). -/
def enqueue (sec : BitVec 4) (verb : BitVec 6) (tag : BitVec 6) (isReset : Bool) (r : Reply) (s : State) : State :=
  { s with
    arbiter :=
      { s.arbiter with
        returns := s.arbiter.returns ++ [{ words := returnWords s.decoder.pattern sec verb tag r, isReset }] } }

/-- The return queue is full (R120, R129). -/
def returnsFull (s : State) : Bool := decide (Config.returnRoom ≤ s.arbiter.returns.length)

/-- The return is that of a RESET order that was taken (R129, R167). -/
def Verb.resets (v : Verb) (r : Reply) : Bool := decide (v = Verb.reset) && r.taken

/-- The tests of a direct order after protection has moved, in their order, and its execution by the owner (R120). -/
def answerDirect (v : Verb) (owner : Order → State → Reply × State) (o : Order) (s : State) : Reply × State :=
  if v.lengthOk o = false then refuse .length o.body.length s
  else if v.guarded ∧ s.decoder.protection ≠ .open_ then refuse .protection s.decoder.protection.code s
  else owner o s

/-- A direct order of an assigned verb (R120). -/
def performDirect (v : Verb) (owner : Order → State → Reply × State) (o : Order) (s : State) : State :=
  if returnsFull s then raise .orderDropped s
  else
    let a := answerDirect v owner o (withProtection (protectionBefore v o s.decoder.protection) s)
    enqueue v.sec v.num o.tag (v.resets a.1) a.1 a.2

/-- The tests of a group or broadcast order, in their order, and its execution by the owner (R122). -/
def answerGroup (v : Verb) (owner : Order → State → Reply × State) (o : Order) (s : State) : Reply × State :=
  if v.groupable = false then refuse .state 0 s
  else if v.lengthOk o = false then refuse .length o.body.length s
  else owner o s

/-- A group or broadcast order of an assigned verb: no return; a refusal raises GROUP-REFUSED (R122). -/
def performGroup (v : Verb) (owner : Order → State → Reply × State) (o : Order) (s : State) : State :=
  let a := answerGroup v owner o s
  if a.1.taken then a.2 else raiseRefused v.sec v.num a.1.result a.2

/-- An order of an assigned verb, executed (R120, R122). -/
def perform (v : Verb) (owner : Order → State → Reply × State) (o : Order) (s : State) : State :=
  match o.via with
  | .direct => performDirect v owner o s
  | .group => performGroup v owner o s

/-- The detail of UNKNOWN: 0 for a section of 9 to 15, 1 for a verb not assigned (R119). -/
def unknownDetail (sec : BitVec 4) : Nat := if sec.toNat ≥ 9 then 0 else 1

/-- An order of an unassigned section or verb (R119, R120, R122). -/
def performUnknown (sec : BitVec 4) (verb : BitVec 6) (o : Order) (s : State) : State :=
  match o.via with
  | .direct =>
    if returnsFull s then raise .orderDropped s
    else
      enqueue sec verb o.tag false { result := .unknown, detail := unknownDetail sec, more := [] }
        (withProtection s.decoder.protection.break_ s)
  | .group => raiseRefused sec verb .unknown s

/-- The decoder's completed order is no longer waiting, where it is this one (log 3). -/
def consume (sec : BitVec 4) (verb : BitVec 6) (o : Order) (s : State) : State :=
  { s with
    decoder :=
      { s.decoder with
        ready := if s.decoder.ready = some { sec, verb, order := o } then none else s.decoder.ready } }

/-- An order command: the order is executed (R120, R122). Where orders do not reach the part the command does not come about
(R113, R166, R169; log 3). -/
def orderCommand (v : Verb) (owner : Order → State → Reply × State) (o : Order) (s : State) :
    Host.Outcome State Fault Refusal :=
  if ordersReach s then .next (perform v owner o (consume v.sec v.num o s)) else .next s

end Sys2Proof.Machine
end

