-- ==== Sys2Proof/Machine/CaptureOrders.lean ====
section
/-! DEFINITION. The orders of section 7 CAPTURE (R147, R150, R154 to R157). -/

namespace Sys2Proof.Machine

/-- A capture is in progress (R147, R150). -/
def CaptureState.busy : CaptureState → Bool
  | .waiting | .rolling | .post => true
  | .idle | .done => false

/-! ### SET-UP (R147) -/

/-- The source of a kind and a number: `Sum.inl` is the detail of the refusal (R147, tests 2 and 3). -/
def sourceField (kind number : Nat) : Nat ⊕ Source :=
  match kind with
  | 0 => match index? 24 number with
    | some c => .inr (.input c)
    | none => .inl 1
  | 1 => match index? 64 number with
    | some n => .inr (.line n)
    | none => .inl 1
  | 2 => match index? 32 number with
    | some c => .inr (.output c)
    | none => .inl 1
  | _ => .inl 0

/-- The mode of a code (R173). -/
def captureModeOf : Nat → Option CaptureMode
  | 0 => some .startOnTrigger
  | 1 => some .stopOnTrigger
  | _ => none

/-- The length or post count is in range for the mode (R147, test 5). -/
def CaptureMode.extentOk : CaptureMode → Nat → Bool
  | .startOnTrigger, n => decide (1 ≤ n) && decide (n ≤ 8192)
  | .stopOnTrigger, n => decide (n ≤ 8191)

/-- The trigger of a kind and an argument: `Sum.inl` is the detail of the refusal (R147, tests 6 and 7). -/
def triggerField (kind arg : Nat) : Nat ⊕ Trigger :=
  match kind with
  | 0 => .inr .manual
  | 1 => match index? 32 arg with
    | some c => .inr (.guardStep c)
    | none => .inl 5
  | 2 => match index? 32 arg with
    | some c => .inr (.guardMute c)
    | none => .inl 5
  | 3 => .inr .anyGuard
  | 4 => .inr (.sequence (BitVec.ofNat 16 arg))
  | 5 => .inr .linkFault
  | _ => .inl 4

/-- The set-up that SET-UP carries: source kind 31–24 and number 23–16, mode 15–8, trigger kind 7–0; length or post count
15–0; trigger argument 15–0. `Sum.inl` is the detail of the first check that fails (R147, R173). -/
def setUpField (o : Order) : Nat ⊕ SetUp :=
  match sourceField (bitsAt (bodyWord o 1) 31 24) (bitsAt (bodyWord o 1) 23 16) with
  | .inl detail => .inl detail
  | .inr source =>
    match captureModeOf (bitsAt (bodyWord o 1) 15 8) with
    | none => .inl 2
    | some mode =>
      if mode.extentOk (bitsAt (bodyWord o 2) 15 0) = false then .inl 3
      else
        match triggerField (bitsAt (bodyWord o 1) 7 0) (bitsAt (bodyWord o 3) 15 0) with
        | .inl detail => .inl detail
        | .inr trigger => .inr { source, mode, extent := bitsAt (bodyWord o 2) 15 0, trigger }

/-- SET-UP at its owner (R147). -/
def setUpOwner (o : Order) (s : State) : Reply × State :=
  if s.capture.state.busy then refuse .busy s.capture.state.code s
  else
    match setUpField o with
    | .inl detail => refuse .range detail s
    | .inr u => done 0 { s with capture := { s.capture with setUp := u } }

/-- SET_UP (R147). -/
def execSetUp (o : Order) (s : State) : Host.Outcome State Fault Refusal := orderCommand Verb.setUp setUpOwner o s

/-! ### ARM, CAPTURE-TRIGGER, STOP (R150, R154, R155) -/

/-- The capture state that ARM leads to, by the mode (R150). -/
def CaptureMode.armed : CaptureMode → CaptureState
  | .startOnTrigger => .waiting
  | .stopOnTrigger => .rolling

/-- A capture armed (R150). -/
def Capture.arm (c : Capture) : Capture :=
  { c with state := c.setUp.mode.armed, writeIndex := 0, remaining := 0, record := CaptureRec.empty }

/-- ARM at its owner: the detail is the new capture state (R150). -/
def armOwner (_ : Order) (s : State) : Reply × State :=
  if s.capture.state.busy then refuse .busy s.capture.state.code s
  else done s.capture.setUp.mode.armed.code { s with capture := s.capture.arm }

/-- ARM (R150). -/
def execArm (o : Order) (s : State) : Host.Outcome State Fault Refusal := orderCommand Verb.arm armOwner o s

/-- CAPTURE-TRIGGER at its owner: the detail is the trigger index (R155). The capture state is tested before the frame period
(log 37). -/
def captureTriggerOwner (_ : Order) (s : State) : Reply × State :=
  if s.capture.state = .waiting ∨ s.capture.state = .rolling then
    if periodProcessed s then
      done s.capture.writeIndex { s with capture := s.capture.take (periodSeq s) }
    else refuse .state 5 s
  else refuse .state s.capture.state.code s

/-- CAPTURE_TRIGGER (R155). -/
def execCaptureTrigger (o : Order) (s : State) : Host.Outcome State Fault Refusal :=
  orderCommand Verb.captureTrigger captureTriggerOwner o s

/-- The remaining count that a trigger sets (R152). -/
def SetUp.fullCount (u : SetUp) : Nat :=
  match u.mode with
  | .startOnTrigger => u.extent
  | .stopOnTrigger => u.extent + 1

/-- No sample has been written since the trigger: the trigger sample is not in the ring (R154). -/
def Capture.untriggered (c : Capture) : Bool := decide (c.remaining = c.setUp.fullCount)

/-- A capture ended by STOP (R154). The remaining count stays as it stood (log 38). -/
def Capture.stop (c : Capture) : Capture :=
  match c.state with
  | .waiting => { c with state := .idle }
  | .post =>
    { c with
      state := .done
      record :=
        { c.record with
          endIndex := some c.writeIndex, endCause := some .stop
          triggerIndex := if c.untriggered then none else c.record.triggerIndex
          triggerSeq := if c.untriggered then none else c.record.triggerSeq } }
  | _ => { c with state := .done, record := { c.record with endIndex := some c.writeIndex, endCause := some .stop } }

/-- STOP of section 7 at its owner (R154). -/
def captureStopOwner (_ : Order) (s : State) : Reply × State :=
  match s.capture.state with
  | .waiting => done 0 { s with capture := s.capture.stop }
  | .rolling => done s.capture.record.held { s with capture := s.capture.stop }
  | .post => done s.capture.record.held { s with capture := s.capture.stop }
  | st => refuse .state st.code s

/-- CAPTURE_STOP: STOP of section 7 (R154). -/
def execCaptureStop (o : Order) (s : State) : Host.Outcome State Fault Refusal :=
  orderCommand Verb.captureStop captureStopOwner o s

/-! ### READ-CAPTURE, READ-SAMPLES (R156, R157) -/

/-- The code of a source's kind, and its number (R173). -/
def Source.code : Source → Nat × Nat
  | .input c => (0, c.val)
  | .line n => (1, n.val)
  | .output c => (2, c.val)

/-- The code of a mode (R173). -/
def CaptureMode.code : CaptureMode → Nat
  | .startOnTrigger => 0
  | .stopOnTrigger => 1

/-- The code of a trigger's kind, and its argument; 0 for a kind without one (R173; log 25). -/
def Trigger.code : Trigger → Nat × Nat
  | .manual => (0, 0)
  | .guardStep c => (1, c.val)
  | .guardMute c => (2, c.val)
  | .anyGuard => (3, 0)
  | .sequence q => (4, q.toNat)
  | .linkFault => (5, 0)

/-- A set-up as the three words of SET-UP (R173, R174). -/
def SetUp.words (u : SetUp) : List Word :=
  [ word (u.source.code.1 * 2 ^ 24 + u.source.code.2 * 2 ^ 16 + u.mode.code * 2 ^ 8 + u.trigger.code.1), word u.extent,
    word u.trigger.code.2 ]

/-- The code of an end cause (R174). -/
def endCauseCode : Option EndCause → Nat
  | none => 0
  | some .count => 1
  | some .stop => 2

/-- The words of the READ-CAPTURE return after word 1 (R156, R174). -/
def captureWords (c : Capture) : List Word :=
  word c.state.code :: c.setUp.words ++
    [ word (c.writeIndex * 2 ^ 16 + c.remaining),
      word (c.record.held * 2 ^ 16 + endCauseCode c.record.endCause * 2 ^ 8 + bit c.record.wrapped),
      word (c.record.triggerIndex.getD 0xFFFF * 2 ^ 16 + c.record.endIndex.getD 0xFFFF),
      word (bit c.record.triggerSeq.isSome * 2 ^ 31 + bit c.record.triggerIndex.isSome * 2 ^ 30 +
        ((c.record.triggerIndex.map c.triggerPosition).getD 0) * 2 ^ 16 +
        ((c.record.triggerSeq.map (·.toNat)).getD 0)) ]

/-- READ-CAPTURE at its owner (R156). -/
def readCaptureOwner (_ : Order) (s : State) : Reply × State := reads (captureWords s.capture) s

/-- READ_CAPTURE (R156). -/
def execReadCapture (o : Order) (s : State) : Host.Outcome State Fault Refusal :=
  orderCommand Verb.readCapture readCaptureOwner o s

/-- The positions that READ-SAMPLES returns: from the offset on, below the samples held (R157). -/
def positionsReturned (held offset count : Nat) : List Nat := (List.range (min count (held - offset))).map (offset + ·)

/-- READ-SAMPLES at its owner: offset 31–16, count 15–0 (R157). -/
def readSamplesOwner (o : Order) (s : State) : Reply × State :=
  let offset := bitsAt (bodyWord o 1) 31 16
  let count := bitsAt (bodyWord o 1) 15 0
  if s.capture.state ≠ .done then refuse .state s.capture.state.code s
  else if 8191 < offset then refuse .range 0 s
  else if count = 0 ∨ 32 < count then refuse .range 1 s
  else
    let ps := positionsReturned s.capture.record.held offset count
    reads (word (offset * 2 ^ 16 + ps.length) :: packSamples (ps.map s.capture.sampleAt)) s

/-- READ_SAMPLES (R157). -/
def execReadSamples (o : Order) (s : State) : Host.Outcome State Fault Refusal :=
  orderCommand Verb.readSamples readSamplesOwner o s

end Sys2Proof.Machine
end

