-- ==== Sys2Proof/WellFormed.lean ====
section
/-! DEFINITION. Which commands are well formed: what a command must be for the event it names to be one the spec
describes. An ill-formed command is no event of the part. -/

namespace Sys2Proof

/-- A disturbance concerns a word that exists (R2). -/
def Disturbance.wf : Disturbance → Bool
  | .upset a _ => a < Config.blocks * Config.wordsPerBlock
  | .defect a _ => a < Config.blocks * Config.wordsPerBlock
  | .answers _ _ => true

/-- An order's body has 0 to 32 words (R117). -/
def Order.wf (o : Order) : Bool := o.body.length ≤ 32

/-- The verbs assigned in each section, by their count (R119). -/
def verbCounts : List Nat := [10, 3, 6, 10, 4, 5, 4, 6, 2]

/-- A section and verb are assigned (R119). -/
def assigned (sec : BitVec 4) (verb : BitVec 6) : Bool := verb.toNat < verbCounts.getD sec.toNat 0

/-- The well-formedness of a command. A good frame has good sync and a good check, a bad frame good sync and a failed
check (R91); a resumption frame has good sync (R104); an unknown order names no assigned verb (R119). -/
def Instr.wf : Instr → Bool
  | .resetPinAsserted | .pinReset _ | .sizingEnd | .resetTakesEffect | .startUpLimit => true
  | .startUpSearchPeriod _ d => d.all Disturbance.wf
  | .goodFrame f d => f.syncGood && f.checkGood && d.all Disturbance.wf
  | .badFrame f d => f.syncGood && !f.checkGood && d.all Disturbance.wf
  | .missingFramePeriod d => d.all Disturbance.wf
  | .linkLost d => d.all Disturbance.wf
  | .localFrame _ d => d.all Disturbance.wf
  | .resumptionFrame f d => f.syncGood && d.all Disturbance.wf
  | .endOfClearing | .fireFrame | .fadeEnd | .revertedFadeEnd | .blockEnd | .clipRunMute _ => true
  | .leavingForStandbyEnd | .sweepComplete | .captureEnd | .holdoffExpiry | .noticeStart | .returnStart => true
  | .unknownOrder s v o => !assigned s v && o.wf
  | .ident o | .go o | .standby o | .silence o | .resume o | .sweep o | .unlock o | .setAddress o | .reset o => o.wf
  | .writeInMap o | .writeOutMap o | .readMap o => o.wf
  | .writeWindow o | .writeFeed o | .start o | .stop o _ | .restart o _ | .readLine o => o.wf
  | .writeHeader o | .writeOutput o | .appendTap o | .replaceTap o | .truncate o | .copyLive o | .readBank o => o.wf
  | .commit o | .cancel o | .revert o => o.wf
  | .writeProfile o | .readProfile o | .readGuard o | .release o => o.wf
  | .readEvents o | .clearEvents o | .readAndClear o | .writeEnables o | .writeHoldoff o => o.wf
  | .readCheck o | .clearCheck o | .writeMode o | .readBadBlocks o => o.wf
  | .setUp o | .arm o | .captureTrigger o | .captureStop o | .readCapture o | .readSamples o => o.wf
  | .readLink o | .clearCounters o | .lockOrder o => o.wf

/-- The order that a command carries, if it is an order. -/
def Instr.order : Instr → Option Order
  | .unknownOrder _ _ o => some o
  | .ident o | .go o | .standby o | .silence o | .resume o | .sweep o | .unlock o | .setAddress o | .reset o => some o
  | .writeInMap o | .writeOutMap o | .readMap o => some o
  | .writeWindow o | .writeFeed o | .start o | .stop o _ | .restart o _ | .readLine o => some o
  | .writeHeader o | .writeOutput o | .appendTap o | .replaceTap o | .truncate o | .copyLive o | .readBank o => some o
  | .commit o | .cancel o | .revert o => some o
  | .writeProfile o | .readProfile o | .readGuard o | .release o => some o
  | .readEvents o | .clearEvents o | .readAndClear o | .writeEnables o | .writeHoldoff o => some o
  | .readCheck o | .clearCheck o | .writeMode o | .readBadBlocks o => some o
  | .setUp o | .arm o | .captureTrigger o | .captureStop o | .readCapture o | .readSamples o => some o
  | .readLink o | .clearCounters o | .lockOrder o => some o
  | _ => none

/-- What befalls the delay-memory devices with a command. -/
def Instr.disturbances : Instr → List Disturbance
  | .startUpSearchPeriod _ d | .goodFrame _ d | .badFrame _ d | .missingFramePeriod d | .linkLost d | .localFrame _ d
  | .resumptionFrame _ d => d
  | _ => []

end Sys2Proof
end

