-- ==== Sys2Proof/Machine/NodeOrders.lean ====
section
/-! DEFINITION. The orders of section 0 NODE and the unknown orders: what each owner does, and the command's meaning (R20, R116,
R119, R123, R124, R161, R162, R164, R167, R170). -/

namespace Sys2Proof.Machine

/-! ### UNKNOWN (R119) -/

/-- UNKNOWN_ORDER. A section and verb that are assigned are no unknown order: the command then does not come about. -/
def execUnknownOrder (sec : BitVec 4) (verb : BitVec 6) (o : Order) (s : State) : Host.Outcome State Fault Refusal :=
  if ordersReach s ∧ assigned sec verb = false then .next (performUnknown sec verb o (consume sec verb o s)) else .next s

/-! ### IDENT (R170) -/

/-- Rank presence as four bits, rank r in bit r (R174). -/
def presenceBits (m : MemCtl) : Nat :=
  bit m.present[0] + 2 * bit m.present[1] + 4 * bit m.present[2] + 8 * bit m.present[3]

/-- The words of the IDENT return after word 1 (R69, R170, R174). -/
def identWords (s : State) : List Word :=
  [ word (0x7420 * 2 ^ 16 + 2 * 2 ^ 8 + presenceBits s.mem),
    word (presentBlocks s.mem),
    word (s.decoder.pattern.toNat * 2 ^ 24 + s.decoder.mask.toNat * 2 ^ 16 + s.node.state.code * 2 ^ 8 + causeCode s),
    word (s.node.ramp * 2 ^ 16 + s.decoder.protection.code * 2 ^ 8 + 2 * bit s.node.leaving + bit s.node.resetPending),
    word (s.changer.state.code * 2 ^ 24 + s.scenes.a.role.code * 2 ^ 20 + s.scenes.b.role.code * 2 ^ 16 +
      bit (s.changer.direction == .back)),
    word ((s.changer.target.map (·.toNat)).getD 0),
    word s.changer.length,
    word s.changer.position ]

/-- IDENT at its owner. -/
def identOwner (_ : Order) (s : State) : Reply × State := reads (identWords s) s

/-- IDENT (R170). -/
def execIdent (o : Order) (s : State) : Host.Outcome State Fault Refusal := orderCommand Verb.ident identOwner o s

/-! ### GO and STANDBY (R161, R162) -/

/-- GO at its owner (R161): it is taken in STANDBY alone. -/
def goOwner (_ : Order) (s : State) : Reply × State :=
  if s.node.state = .standby then
    if anyCause s then done NodeState.silent.code { s with node := { s.node with state := .silent } }
    else done NodeState.run.code { s with node := { s.node with state := .run } }
  else refuse .state s.node.state.code s

/-- GO (R161). -/
def execGo (o : Order) (s : State) : Host.Outcome State Fault Refusal := orderCommand Verb.go goOwner o s

/-- STANDBY at its owner (R162). -/
def standbyOwner (_ : Order) (s : State) : Reply × State :=
  match s.node.state with
  | .sizing => refuse .busy 0 s
  | .standby => done NodeState.standby.code s
  | .sweep => done NodeState.sweep.code (sweepCutShort s)
  | .run => done NodeState.run.code { s with node := { s.node with leaving := true } }
  | .silent => done NodeState.silent.code { s with node := { s.node with leaving := true } }

/-- STANDBY (R162). -/
def execStandby (o : Order) (s : State) : Host.Outcome State Fault Refusal :=
  orderCommand Verb.standby standbyOwner o s

/-! ### SILENCE and RESUME (R164) -/

/-- The state with the cause ORDER set or clear, and the node state following the causes (R160, R164). -/
def orderCauseIs (set : Bool) (s : State) : State :=
  causesChanged { s with node := { s.node with orderCause := set } }

/-- SILENCE at its owner: the detail is the causes held after it (R164). -/
def silenceOwner (_ : Order) (s : State) : Reply × State := done (causeCode (orderCauseIs true s)) (orderCauseIs true s)

/-- SILENCE (R164). -/
def execSilence (o : Order) (s : State) : Host.Outcome State Fault Refusal :=
  orderCommand Verb.silence silenceOwner o s

/-- RESUME at its owner: the detail is the causes held after it (R164). -/
def resumeOwner (_ : Order) (s : State) : Reply × State := done (causeCode (orderCauseIs false s)) (orderCauseIs false s)

/-- RESUME (R164). -/
def execResume (o : Order) (s : State) : Host.Outcome State Fault Refusal := orderCommand Verb.resume resumeOwner o s

/-! ### SWEEP (R20) -/

/-- The lowest line that is not OFF. -/
def lowestOn (s : State) : Option Line := allLines.find? fun n => s.lines[n].state != .off

/-- The STATE detail of a refused SWEEP (R20, R174). -/
def sweepDetail (s : State) : Nat :=
  s.node.state.code + (if s.node.state = .standby then (((lowestOn s).map (·.val)).getD 0) * 2 ^ 8 else 0)

/-- The sweep starts: SWEEP, and a record RUNNING at the lowest PRESENT rank and its first block (R20). -/
def sweepStarts (s : State) : State :=
  { s with
    node := { s.node with state := .sweep }
    mem :=
      { s.mem with
        sweep :=
          { outcome := .running
            rank := (nextPresent s.mem.present 0).getD 0
            block := ((nextPresent s.mem.present 0).map firstBlock).getD 0
            added := 0 }
        sweepFrame := 0, sweepFailed := false, sweepEnded := false } }

/-- SWEEP at its owner (R20). R3 and R20 name no detail of the refusal BUSY during sizing: 0 is the model's (log 36). -/
def sweepOwner (_ : Order) (s : State) : Reply × State :=
  if s.node.state = .sizing then refuse .busy 0 s
  else if s.node.state ≠ .standby ∨ lowestOn s ≠ none then refuse .state (sweepDetail s) s
  else accepted (sweepStarts s)

/-- SWEEP (R20). -/
def execSweep (o : Order) (s : State) : Host.Outcome State Fault Refusal := orderCommand Verb.sweep sweepOwner o s

/-! ### UNLOCK and LOCK (R123, R124) -/

/-- Where an UNLOCK with a step leads from a protection state (R123). -/
def Protection.unlock (p : Protection) (step : Nat) : Protection :=
  match p, step with
  | .open_, _ => .open_
  | _, 1 => .opening1
  | .opening1, 2 => .opening2
  | .opening2, 3 => .opening3
  | .opening3, 4 => .open_
  | _, _ => .closed

/-- UNLOCK at its owner: the step is body word 1, 7–0 (R123). -/
def unlockOwner (o : Order) (s : State) : Reply × State :=
  let step := bitsAt (bodyWord o 1) 7 0
  let p := s.decoder.protection.unlock step
  if p ≠ .closed then done p.code (withProtection p s)
  else if 1 ≤ step ∧ step ≤ 4 then refuse .state 0 (withProtection p s)
  else refuse .range 0 (withProtection p s)

/-- UNLOCK (R123). -/
def execUnlock (o : Order) (s : State) : Host.Outcome State Fault Refusal := orderCommand Verb.unlock unlockOwner o s

/-- LOCK at its owner: the detail is the former state (R124; log 16). -/
def lockOwner (_ : Order) (s : State) : Reply × State :=
  done s.decoder.protection.code (withProtection .closed s)

/-- LOCK (R124). -/
def execLockOrder (o : Order) (s : State) : Host.Outcome State Fault Refusal := orderCommand Verb.lock lockOwner o s

/-! ### SET-ADDRESS and RESET (R116, R167) -/

/-- SET-ADDRESS at its owner: pattern 15–8, mask 7–0 (R116). -/
def setAddressOwner (o : Order) (s : State) : Reply × State :=
  if bitsAt (bodyWord o 1) 15 8 = 0xFF then refuse .range 0 s
  else
    done s.decoder.pattern.toNat
      { s with
        decoder :=
          { s.decoder with
            pattern := BitVec.ofNat 8 (bitsAt (bodyWord o 1) 15 8)
            mask := BitVec.ofNat 8 (bitsAt (bodyWord o 1) 7 0) } }

/-- SET-ADDRESS (R116). -/
def execSetAddress (o : Order) (s : State) : Host.Outcome State Fault Refusal :=
  orderCommand Verb.setAddress setAddressOwner o s

/-- RESET at its owner: the reset pending mark is set, and nothing else changes (R167). -/
def resetOwner (_ : Order) (s : State) : Reply × State := done 0 { s with node := { s.node with resetPending := true } }

/-- RESET (R167). -/
def execReset (o : Order) (s : State) : Host.Outcome State Fault Refusal := orderCommand Verb.reset resetOwner o s

end Sys2Proof.Machine
end

