-- ==== Sys2Proof/Machine/CheckOrders.lean ====
section
/-! DEFINITION. The orders of section 6 CHECKS (R19, R144, R145). -/

namespace Sys2Proof.Machine

/-- The code of a reporting mode (R173). -/
def ReportingMode.code : ReportingMode → Nat
  | .none => 0
  | .uncorrectedOnly => 1
  | .serious => 2
  | .all => 3

/-- The reporting mode of a code (R173). -/
def modeOf : Nat → Option ReportingMode
  | 0 => some .none
  | 1 => some .uncorrectedOnly
  | 2 => some .serious
  | 3 => some .all
  | _ => none

/-- The detail record as its two words; an absent record has every field 0 (R174; log 25). -/
def checkWords : Option Check → List Word
  | none => [0, 0]
  | some c =>
    [ word (2 ^ 31 + c.kind.rank * 2 ^ 28 + c.rank.val * 2 ^ 24 + c.bit.getD 0x1F * 2 ^ 16 +
        bit c.line.isNone * 2 ^ 15 + ((c.line.map (·.val)).getD 0) * 2 ^ 8),
      word (c.seq.toNat * 2 ^ 16 + c.block) ]

/-- The words of the READ-CHECK return after word 1 (R145, R174). -/
def readCheckWords (s : State) : List Word :=
  word (s.checks.mode.code * 2 ^ 24 + presenceBits s.mem * 2 ^ 8 + s.checks.seen.toNat) ::
    (checkWords s.checks.record ++
      [ word (s.mem.corrected[0] * 2 ^ 16 + s.mem.corrected[1]),
        word (s.mem.corrected[2] * 2 ^ 16 + s.mem.corrected[3]),
        word (presentBlocks s.mem) ])

/-- READ-CHECK at its owner (R145). -/
def readCheckOwner (_ : Order) (s : State) : Reply × State := reads (readCheckWords s) s

/-- READ_CHECK (R145). -/
def execReadCheck (o : Order) (s : State) : Host.Outcome State Fault Refusal :=
  orderCommand Verb.readCheck readCheckOwner o s

/-- CLEAR-CHECK at its owner: the detail is the former kinds-seen set (R145). -/
def clearCheckOwner (_ : Order) (s : State) : Reply × State :=
  done s.checks.seen.toNat { s with checks := { s.checks with seen := 0, record := none } }

/-- CLEAR_CHECK (R145). -/
def execClearCheck (o : Order) (s : State) : Host.Outcome State Fault Refusal :=
  orderCommand Verb.clearCheck clearCheckOwner o s

/-- WRITE-MODE at its owner: mode 7–0; the detail is the former mode (R144). -/
def writeModeOwner (o : Order) (s : State) : Reply × State :=
  match modeOf (bitsAt (bodyWord o 1) 7 0) with
  | none => refuse .range 0 s
  | some m => done s.checks.mode.code { s with checks := { s.checks with mode := m } }

/-- WRITE_MODE (R144). -/
def execWriteMode (o : Order) (s : State) : Host.Outcome State Fault Refusal :=
  orderCommand Verb.writeMode writeModeOwner o s

/-- The code of a sweep outcome (R174). -/
def SweepOutcome.code : SweepOutcome → Nat
  | .none => 0
  | .running => 1
  | .complete => 2
  | .cutShort => 3

/-- The words of the READ-BAD-BLOCKS return after word 1, from a start index on (R19, R174). -/
def badBlockWords (m : MemCtl) (start : Nat) : List Word :=
  [ word m.badBlocks.length, word (m.sweep.outcome.code * 2 ^ 24 + m.sweep.rank.val * 2 ^ 16 + m.sweep.block),
    word m.sweep.added ] ++ packHalves ((m.badBlocks.drop start).take 32)

/-- READ-BAD-BLOCKS at its owner: start index 15–0 (R19). -/
def readBadBlocksOwner (o : Order) (s : State) : Reply × State :=
  reads (badBlockWords s.mem (bitsAt (bodyWord o 1) 15 0)) s

/-- READ_BAD_BLOCKS (R19). -/
def execReadBadBlocks (o : Order) (s : State) : Host.Outcome State Fault Refusal :=
  orderCommand Verb.readBadBlocks readBadBlocksOwner o s

end Sys2Proof.Machine
end

