-- ==== Sys2Proof/Machine/EventOrders.lean ====
section
/-! DEFINITION. The orders of section 5 EVENTS (R138 to R142). -/

namespace Sys2Proof.Machine

/-- The flags that a body word selects, bits beyond the 17 ignored (R138, R141). -/
def flagField (w : Word) : BitVec 17 := w.setWidth 17

/-- The words of the READ-EVENTS return after word 1 (R140, R174). -/
def eventWords (e : Events) : List Word :=
  e.flags.setWidth 32 :: e.enables.setWidth 32 ::
    word (e.notice.code * 2 ^ 24 + e.holdoff / 48 * 2 ^ 16 + e.timer) :: e.snapshot

/-- READ-EVENTS at its owner (R140). -/
def readEventsOwner (_ : Order) (s : State) : Reply × State := reads (eventWords s.events) s

/-- READ_EVENTS (R140). -/
def execReadEvents (o : Order) (s : State) : Host.Outcome State Fault Refusal :=
  orderCommand Verb.readEvents readEventsOwner o s

/-- A state with a clear taken (R136). -/
def clearTaken (selection : BitVec 17) (s : State) : State := { s with events := s.events.clear selection }

/-- CLEAR-EVENTS at its owner: flag n in bit n; the detail is the flags it cleared (R141). -/
def clearEventsOwner (o : Order) (s : State) : Reply × State :=
  done (s.events.cleared (flagField (bodyWord o 1))).toNat (clearTaken (flagField (bodyWord o 1)) s)

/-- CLEAR_EVENTS (R141). -/
def execClearEvents (o : Order) (s : State) : Host.Outcome State Fault Refusal :=
  orderCommand Verb.clearEvents clearEventsOwner o s

/-- READ-AND-CLEAR at its owner: what READ-EVENTS returns, then a clear of every flag set (R142). -/
def readAndClearOwner (_ : Order) (s : State) : Reply × State :=
  reads (eventWords s.events) (clearTaken s.events.flags s)

/-- READ_AND_CLEAR (R142). -/
def execReadAndClear (o : Order) (s : State) : Host.Outcome State Fault Refusal :=
  orderCommand Verb.readAndClear readAndClearOwner o s

/-- The enable set replaced, with a placement in QUIET if flags are then pending (R134, R138). -/
def enablesWritten (enables : BitVec 17) (s : State) : State :=
  { s with
    events := (announce { s.events with enables } s.slot).1
    slot := (announce { s.events with enables } s.slot).2 }

/-- WRITE-ENABLES at its owner: the detail is the former enable set (R138). -/
def writeEnablesOwner (o : Order) (s : State) : Reply × State :=
  done s.events.enables.toNat (enablesWritten (flagField (bodyWord o 1)) s)

/-- WRITE_ENABLES (R138). -/
def execWriteEnables (o : Order) (s : State) : Host.Outcome State Fault Refusal :=
  orderCommand Verb.writeEnables writeEnablesOwner o s

/-- WRITE-HOLDOFF at its owner: milliseconds 15–0; the detail is the former value in milliseconds (R139). -/
def writeHoldoffOwner (o : Order) (s : State) : Reply × State :=
  let ms := bitsAt (bodyWord o 1) 15 0
  if ms = 0 ∨ 255 < ms then refuse .range 0 s
  else done (s.events.holdoff / 48) { s with events := { s.events with holdoff := 48 * ms } }

/-- WRITE_HOLDOFF (R139). -/
def execWriteHoldoff (o : Order) (s : State) : Host.Outcome State Fault Refusal :=
  orderCommand Verb.writeHoldoff writeHoldoffOwner o s

end Sys2Proof.Machine
end

