-- ==== Sys2Proof/Machine/GuardOrders.lean ====
section
/-! DEFINITION. The orders of section 4 GUARD (R71, R72, R84, R88). -/

namespace Sys2Proof.Machine

/-- The profile that WRITE-PROFILE carries: rise 23–16, max steps 15–8, clip run 7–0; ceiling 23–0; strain limit 31–16,
recovery 15–0 (R173). -/
def profileField (o : Order) : Profile :=
  { ceiling := bitsAt (bodyWord o 2) 23 0
    rise := bitsAt (bodyWord o 1) 23 16
    strainLimit := bitsAt (bodyWord o 3) 31 16
    maxSteps := bitsAt (bodyWord o 1) 15 8
    recovery := bitsAt (bodyWord o 3) 15 0
    clipRun := bitsAt (bodyWord o 1) 7 0 }

/-- The first check of a profile's values that fails, by its detail (R71, tests 2 to 7). -/
def Profile.refused (p : Profile) : Option Nat :=
  if p.ceiling = 0 ∨ 8388607 < p.ceiling then some 1
  else if p.rise = 0 ∨ 15 < p.rise then some 2
  else if p.strainLimit < 16 ∨ 4095 < p.strainLimit then some 3
  else if p.maxSteps = 0 ∨ 16 < p.maxSteps then some 4
  else if p.recovery < 10 ∨ 60000 < p.recovery then some 5
  else if (1 ≤ p.clipRun ∧ p.clipRun ≤ 3) ∨ 255 < p.clipRun then some 6
  else none

/-- The profile replaced, and every output governed by it brought within the new values (R71; log 33). -/
def writeProfile (n : Fin 8) (p : Profile) (s : State) : State :=
  { s with
    guard :=
      { s.guard.adjustWhere (fun c => profileInForce s.changer.state s.scenes c = n) (fun _ => p) with
        profiles := s.guard.profiles.set n p } }

/-- WRITE-PROFILE at its owner: profile 31–24 (R71). -/
def writeProfileOwner (o : Order) (s : State) : Reply × State :=
  match index? 8 (bitsAt (bodyWord o 1) 31 24) with
  | none => refuse .range 0 s
  | some n =>
    match (profileField o).refused with
    | some detail => refuse .range detail s
    | none => done 0 (writeProfile n (profileField o) s)

/-- WRITE_PROFILE (R71). -/
def execWriteProfile (o : Order) (s : State) : Host.Outcome State Fault Refusal :=
  orderCommand Verb.writeProfile writeProfileOwner o s

/-- A profile as the three words of WRITE-PROFILE (R173, R174). -/
def Profile.words (n : Fin 8) (p : Profile) : List Word :=
  [ word (n.val * 2 ^ 24 + p.rise * 2 ^ 16 + p.maxSteps * 2 ^ 8 + p.clipRun), word p.ceiling,
    word (p.strainLimit * 2 ^ 16 + p.recovery) ]

/-- READ-PROFILE at its owner: profile 7–0 (R72). -/
def readProfileOwner (o : Order) (s : State) : Reply × State :=
  match index? 8 (bitsAt (bodyWord o 1) 7 0) with
  | none => refuse .range 0 s
  | some n => reads ((s.guard.profiles[n]).words n) s

/-- READ_PROFILE (R72). -/
def execReadProfile (o : Order) (s : State) : Host.Outcome State Fault Refusal :=
  orderCommand Verb.readProfile readProfileOwner o s

/-- A guard record as its three words, with the profile in force (R88, R174). -/
def GuardRec.words (c : Output) (profile : Fin 8) (g : GuardRec) : List Word :=
  [ word (profile.val * 2 ^ 29 + c.val * 2 ^ 24 + g.peak),
    word (muteCauseCode g.cause * 2 ^ 30 + g.state.code * 2 ^ 28 + g.strain * 2 ^ 16 + g.recovery),
    word (g.trim * 2 ^ 16 + g.clip * 2 ^ 8 + g.ramp) ]

/-- The outputs `first` to `first + count − 1`, as many as lie within 0 to 31 (R88). -/
def outputsFrom (first : Output) (count : Nat) : List Output :=
  allOutputs.filter fun c => decide (first.val ≤ c.val) && decide (c.val < first.val + count)

/-- READ-GUARD at its owner: first channel 15–8, count 7–0 (R88). -/
def readGuardOwner (o : Order) (s : State) : Reply × State :=
  let n := bitsAt (bodyWord o 1) 7 0
  match index? 32 (bitsAt (bodyWord o 1) 15 8) with
  | none => refuse .range 0 s
  | some first =>
    if n = 0 ∨ 8 < n then refuse .range 1 s
    else
      reads
        (word s.guard.blockCount ::
          (outputsFrom first n).flatMap fun c =>
            (s.guard.outputs[c]).words c (profileInForce s.changer.state s.scenes c)) s

/-- READ_GUARD (R88). -/
def execReadGuard (o : Order) (s : State) : Host.Outcome State Fault Refusal :=
  orderCommand Verb.readGuard readGuardOwner o s

/-- An output released (R84). A clip mute of it still due in the frame period finds a clip run count of 0, and the frame
period's block end does not judge it (R86). -/
def releaseOutput (c : Output) (s : State) : State :=
  { s with
    guard := { s.guard with outputs := update s.guard.outputs c fun g => g.release (inForce s c) }
    period :=
      s.period.map fun p => { p with clipDue := p.clipDue.filter fun d => d != c, released := c :: p.released } }

/-- RELEASE at its owner: output channel 7–0 (R84). -/
def releaseOwner (o : Order) (s : State) : Reply × State :=
  match index? 32 (bitsAt (bodyWord o 1) 7 0) with
  | none => refuse .range 0 s
  | some c =>
    if (s.guard.outputs[c]).state = .muted then done (inForce s c).maxSteps (releaseOutput c s)
    else refuse .state (s.guard.outputs[c]).state.code s

/-- RELEASE (R84). -/
def execRelease (o : Order) (s : State) : Host.Outcome State Fault Refusal := orderCommand Verb.release releaseOwner o s

end Sys2Proof.Machine
end

