-- ==== Sys2Proof/Machine/LineOrders.lean ====
section
/-! DEFINITION. The orders of section 2 LINES (R5 to R7, R10, R13, R14, R18). -/

namespace Sys2Proof.Machine

/-- The code of a line state (R174). -/
def LineState.code : LineState → Nat
  | .off => 0
  | .clearing => 1
  | .running => 2
  | .faulted => 3

/-- The line record of a state. -/
def lineOf (s : State) (n : Line) : LineRec := s.lines[n]

/-- A state with one line record changed. -/
def overLine (n : Line) (f : LineRec → LineRec) (s : State) : State := { s with lines := update s.lines n f }

/-! ### WRITE-WINDOW (R5) -/

/-- WRITE-WINDOW at its owner: line 5–0; base block 31–16 and length 15–0 (R5). -/
def writeWindowOwner (o : Order) (s : State) : Reply × State :=
  let n := lineField (bodyWord o 1)
  let base := bitsAt (bodyWord o 2) 31 16
  let length := bitsAt (bodyWord o 2) 15 0
  if s.node.state = .sizing then refuse .busy 0 s
  else if (lineOf s n).state ≠ .off then refuse .inUse (lineOf s n).state.code s
  else if 16383 < base then refuse .range 0 s
  else if length = 0 ∨ 256 < length then refuse .range 1 s
  else done 0 (overLine n (fun l => { l with base, length }) s)

/-- WRITE_WINDOW (R5). -/
def execWriteWindow (o : Order) (s : State) : Host.Outcome State Fault Refusal :=
  orderCommand Verb.writeWindow writeWindowOwner o s

/-! ### WRITE-FEED (R7) -/

/-- The largest recirculation sum (R7). -/
def sumBound : Nat := 31129

/-- The largest damping coefficient (R1, R7). -/
def dampingBound : Nat := 32440

/-- The magnitude of a LINE term's gain; an INPUT term does not count (R7). -/
def Term.weight : Term → Nat
  | .input _ _ => 0
  | .line _ _ g => g.toInt.natAbs

/-- The recirculation sum of a feed list (R7). -/
def recirculation (ts : List Term) : Nat := (ts.map Term.weight).sum

/-- A term that WRITE-FEED carries is in range (R7). -/
def termInRange (s : State) : Option Term → Bool
  | none => false
  | some (.input _ _) => true
  | some (.line n d _) =>
    decide (1 ≤ d) && decide (d ≤ 262143) && (lineOf s n).state != .off && decide (d < (lineOf s n).samples)

/-- The terms that WRITE-FEED carries, from body word 2 on (R173). -/
def carriedTerms (o : Order) : List (Option Term) := termFields o.body.tail

/-- WRITE-FEED at its owner: damping 31–16, term count 15–8, line 5–0, then the terms (R7). R3 and R7 name no detail of the
refusal BUSY during sizing: 0 is the model's (log 36). -/
def writeFeedOwner (o : Order) (s : State) : Reply × State :=
  let n := lineField (bodyWord o 1)
  let d := bitsAt (bodyWord o 1) 31 16
  let ts := carriedTerms o
  if s.node.state = .sizing then refuse .busy 0 s
  else if 6 < feedCount o then refuse .range 6 s
  else if dampingBound < d then refuse .range 7 s
  else
    match ts.findIdx? fun t => !termInRange s t with
    | some i => refuse .range i s
    | none =>
      if sumBound < recirculation (ts.filterMap id) then refuse .range 8 s
      else done 0 (overLine n (fun l => { l with feed := ts.filterMap id, damping := d }) s)

/-- WRITE_FEED (R7). -/
def execWriteFeed (o : Order) (s : State) : Host.Outcome State Fault Refusal :=
  orderCommand Verb.writeFeed writeFeedOwner o s

/-! ### Placement and the feed re-check (R6, R10) -/

/-- The blocks of a line's window, ascending (R1). -/
def LineRec.blocks (l : LineRec) : List Nat := (List.range l.length).map (l.base + ·)

/-- A block lies in the window of a line. -/
def LineRec.covers (l : LineRec) (b : Nat) : Bool := decide (l.base ≤ b) && decide (b < l.base + l.length)

/-- A block lies in the window of another line that is not OFF (R6, reason 4). -/
def sharedWith (s : State) (n : Line) (b : Nat) : Bool :=
  allLines.any fun m => decide (m ≠ n) && (lineOf s m).state != .off && (lineOf s m).covers b

/-- A PLACE detail: reason code 23–20, block 15–0 (R174). -/
def placeDetail (reason block : Nat) : Nat := reason * 2 ^ 20 + block

/-- The rank that a block lies in (R2). -/
def rankOfBlock (b : Nat) : Rank := Fin.ofNat 4 (b / Config.blocksPerRank)

/-- The placement test of a line's window: the detail of the first condition that fails (R6). -/
def placement (s : State) (n : Line) : Option Nat :=
  let l := lineOf s n
  if Config.blocksPerRank < l.base % Config.blocksPerRank + l.length then
    some (placeDetail 1 ((l.base / Config.blocksPerRank + 1) * Config.blocksPerRank))
  else if s.mem.present[rankOfBlock l.base] = false then some (placeDetail 2 l.base)
  else
    match l.blocks.find? fun b => decide (b ∈ s.mem.badBlocks) with
    | some b => some (placeDetail 3 b)
    | none => (l.blocks.find? fun b => sharedWith s n b).map (placeDetail 4)

/-- A term of line n's feed list passes the feed re-check (R10). -/
def termPasses (s : State) (n : Line) : Term → Bool
  | .input _ _ => true
  | .line m d _ => (decide (m = n) || (lineOf s m).state != .off) && decide (d < (lineOf s m).samples)

/-- The index of the first term that fails the feed re-check (R10). -/
def feedRecheck (s : State) (n : Line) : Option Nat := (lineOf s n).feed.findIdx? fun t => !termPasses s n t

/-- The line becomes CLEARING and joins the tail of the clearing work list (R10, R11, R14). -/
def beginClearing (n : Line) (s : State) : State :=
  { s with
    lines := update s.lines n fun l => { l with state := .clearing }
    mem := { s.mem with clearing := s.mem.clearing ++ [n] } }

/-- The last two tests of START and RESTART, and the line's entry to CLEARING (R10, R14). -/
def placeAndClear (n : Line) (s : State) : Reply × State :=
  match placement s n with
  | some detail => refuse .place detail s
  | none =>
    match feedRecheck s n with
    | some i => refuse .range i s
    | none => accepted (beginClearing n s)

/-! ### START, STOP, RESTART (R10, R13, R14) -/

/-- START at its owner (R10). -/
def startOwner (o : Order) (s : State) : Reply × State :=
  let n := lineField (bodyWord o 1)
  if s.node.state = .sizing ∨ s.node.state = .sweep then refuse .busy 0 s
  else if (lineOf s n).state ≠ .off then refuse .state (lineOf s n).state.code s
  else placeAndClear n s

/-- START (R10). -/
def execStart (o : Order) (s : State) : Host.Outcome State Fault Refusal := orderCommand Verb.start startOwner o s

/-- STOP at its owner (R13). -/
def stopOwner (o : Order) (s : State) : Reply × State :=
  let n := lineField (bodyWord o 1)
  if s.node.state = .sizing then refuse .busy 0 s
  else if s.scenes.inUse.getLsbD n.val then refuse .inUse (lineOf s n).state.code s
  else
    done 0
      { s with
        lines := update s.lines n fun l => { l with state := .off }
        mem := s.mem.unlist fun m => m == n }

/-- The fault of the line an order names is taken ahead of the order, where that is the order they are taken in (R16). -/
def faultAhead (faultFirst : Bool) (o : Order) (s : State) : State :=
  if faultFirst ∧ ordersReach s then takeFaults (fun m => m == lineField (bodyWord o 1)) s else s

/-- STOP of section 2 (R13, R16). -/
def execStop (o : Order) (faultFirst : Bool) (s : State) : Host.Outcome State Fault Refusal :=
  orderCommand Verb.stop stopOwner o (faultAhead faultFirst o s)

/-- RESTART at its owner (R14). -/
def restartOwner (o : Order) (s : State) : Reply × State :=
  let n := lineField (bodyWord o 1)
  if s.node.state = .sizing ∨ s.node.state = .sweep then refuse .busy 0 s
  else if (lineOf s n).state = .clearing then refuse .inUse (lineOf s n).state.code s
  else if (lineOf s n).state = .off then refuse .state (lineOf s n).state.code s
  else placeAndClear n s

/-- RESTART (R14, R16). -/
def execRestart (o : Order) (faultFirst : Bool) (s : State) : Host.Outcome State Fault Refusal :=
  orderCommand Verb.restart restartOwner o (faultAhead faultFirst o s)

/-! ### READ-LINE (R18) -/

/-- A term as its two words (R173, R174). -/
def Term.words : Term → List Word
  | .input c g => [word (c.val * 2 ^ 24 + g.toNat), 0]
  | .line n d g => [word (2 ^ 31 + n.val * 2 ^ 24 + g.toNat), word d]

/-- The clearing place of a line: the lines ahead of it, and the words zeroed where it is the head; both 0 for a line that
is not CLEARING (R18). -/
def clearingPlace (s : State) (n : Line) : Nat × Nat :=
  if (lineOf s n).state = .clearing then
    let ahead := s.mem.clearing.idxOf n
    (ahead, if ahead = 0 then s.mem.zeroed else 0)
  else (0, 0)

/-- The words of the READ-LINE return after word 1 (R18, R174). -/
def lineWords (s : State) (n : Line) : List Word :=
  let l := lineOf s n
  let place := clearingPlace s n
  [ word (l.state.code * 2 ^ 24 + bit (s.scenes.inUse.getLsbD n.val) * 2 ^ 16 + l.base),
    word (l.length * 2 ^ 16 + l.damping),
    word l.position,
    l.damped.setWidth 32,
    word (place.1 * 2 ^ 24 + place.2),
    word l.feed.length ] ++ l.feed.flatMap Term.words

/-- READ-LINE at its owner (R18). -/
def readLineOwner (o : Order) (s : State) : Reply × State := reads (lineWords s (lineField (bodyWord o 1))) s

/-- READ_LINE (R18). -/
def execReadLine (o : Order) (s : State) : Host.Outcome State Fault Refusal :=
  orderCommand Verb.readLine readLineOwner o s

end Sys2Proof.Machine
end

