-- ==== Sys2Proof/Machine/LinkOrders.lean ====
section
/-! DEFINITION. The orders of section 8 LINK (R112). -/

namespace Sys2Proof.Machine

/-- The code of a receive state (R174). -/
def ReceiveState.code : ReceiveState → Nat
  | .search => 0
  | .locked => 1

/-- The words of the READ-LINK return after word 1 (R112, R174). -/
def linkWords (s : State) : List Word :=
  [ word (s.link.receive.code * 2 ^ 24 + bit s.link.startUp * 2 ^ 16 + bit s.link.restorePending * 2 ^ 8 + faultCode s),
    word (s.link.lec * 2 ^ 24 + s.link.missing * 2 ^ 16 + s.link.expected.toNat),
    word s.link.goodFrames, word s.link.badFrames, word s.link.jumps, word s.link.discarded ]

/-- READ-LINK at its owner (R112). -/
def readLinkOwner (_ : Order) (s : State) : Reply × State := reads (linkWords s) s

/-- READ_LINK (R112). -/
def execReadLink (o : Order) (s : State) : Host.Outcome State Fault Refusal :=
  orderCommand Verb.readLink readLinkOwner o s

/-- CLEAR-COUNTERS at its owner (R112). -/
def clearCountersOwner (_ : Order) (s : State) : Reply × State :=
  done 0 { s with link := { s.link with goodFrames := 0, badFrames := 0, jumps := 0, discarded := 0 } }

/-- CLEAR_COUNTERS (R112). -/
def execClearCounters (o : Order) (s : State) : Host.Outcome State Fault Refusal :=
  orderCommand Verb.clearCounters clearCountersOwner o s

end Sys2Proof.Machine
end

