-- ==== Sys2Proof/Machine/SceneOrders.lean ====
section
/-! DEFINITION. The orders of section 3 SCENE (R27 to R34, R49 to R53, R60, R61). -/

namespace Sys2Proof.Machine

/-! ### The STAGED bank (R27) -/

/-- A bank has the role STAGED (R27). -/
def Scenes.hasRole (sc : Scenes) (r : Role) : Bool := sc.a.role == r || sc.b.role == r

/-- The STAGED bank's contents (those of bank B where bank A is not STAGED). -/
def staged (s : State) : Bank := (s.scenes.withRole .staged).bank

/-- The scene store with the STAGED bank's contents replaced. -/
def Scenes.writeStaged (sc : Scenes) (k : Bank) : Scenes :=
  if sc.a.role = .staged then { sc with a := { sc.a with bank := k } }
  else { sc with b := { sc.b with bank := k } }

/-- A state with the STAGED bank's contents replaced. -/
def writeStaged (k : Bank) (s : State) : State := { s with scenes := s.scenes.writeStaged k }

/-- A scene-writing order is refused BUSY when no bank is STAGED (R27). -/
def editing (owner : Order → State → Reply × State) (o : Order) (s : State) : Reply × State :=
  if s.scenes.hasRole .staged then owner o s else refuse .busy s.changer.state.code s

/-! ### WRITE-HEADER, WRITE-OUTPUT (R28, R29) -/

/-- The longest fade (R23, R47). -/
def fadeBound : Nat := 96000

/-- WRITE-HEADER on the STAGED bank: scene tag; default fade 23–0 (R28). -/
def writeHeaderOwner (o : Order) (s : State) : Reply × State :=
  if fadeBound < bitsAt (bodyWord o 2) 23 0 then refuse .range 1 s
  else done 0 (writeStaged { staged s with tag := bodyWord o 1, defaultFade := bitsAt (bodyWord o 2) 23 0 } s)

/-- WRITE_HEADER (R28). -/
def execWriteHeader (o : Order) (s : State) : Host.Outcome State Fault Refusal :=
  orderCommand Verb.writeHeader (editing writeHeaderOwner) o s

/-- The output record that WRITE-OUTPUT carries: enabled 23–16, polarity 15–8, profile 7–0; output gain 15–0 (R173). -/
def outputField (o : Order) : OutputRec :=
  { enabled := bitsAt (bodyWord o 1) 23 16 == 1
    gain := gainOf (bodyWord o 2)
    polarity := if bitsAt (bodyWord o 1) 15 8 = 1 then .inverted else .normal
    profile := Fin.ofNat 8 (bitsAt (bodyWord o 1) 7 0) }

/-- WRITE-OUTPUT on the STAGED bank (R29). -/
def writeOutputOwner (o : Order) (s : State) : Reply × State :=
  match index? 32 (bitsAt (bodyWord o 1) 31 24) with
  | none => refuse .range 0 s
  | some c =>
    if 1 < bitsAt (bodyWord o 1) 23 16 then refuse .range 1 s
    else if 1 < bitsAt (bodyWord o 1) 15 8 then refuse .range 3 s
    else if 7 < bitsAt (bodyWord o 1) 7 0 then refuse .range 4 s
    else done 0 (writeStaged { staged s with outputs := (staged s).outputs.set c (outputField o) } s)

/-- WRITE_OUTPUT (R29). -/
def execWriteOutput (o : Order) (s : State) : Host.Outcome State Fault Refusal :=
  orderCommand Verb.writeOutput (editing writeOutputOwner) o s

/-! ### APPEND-TAP, REPLACE-TAP, TRUNCATE, COPY-LIVE (R30 to R33) -/

/-- The largest cost of a bank (R25). -/
def costBound : Nat := 512

/-- The first field check of a tap that fails, by its detail (R30, tests 2 to 7). -/
def TapFields.refused (t : TapFields) : Option Nat :=
  if 63 < t.line then some 1
  else if t.delay = 0 ∨ 262143 < t.delay then some 2
  else if 31 < t.output then some 3
  else if t.modulated = false then none
  else if t.depth = 0 ∨ 255 < t.depth then some 4
  else if t.period < 480 ∨ 480000 < t.period then some 5
  else if t.period ≤ t.start then some 6
  else none

/-- The tap that the fields give; those of an absent modulation are not stored (R30). -/
def TapFields.tap (t : TapFields) : Tap :=
  { line := Fin.ofNat 64 t.line
    delay := t.delay
    gain := t.gain
    output := Fin.ofNat 32 t.output
    modulation := if t.modulated then some { depth := t.depth, period := t.period, start := t.start } else none }

/-- APPEND-TAP on the STAGED bank (R30). -/
def appendTapOwner (o : Order) (s : State) : Reply × State :=
  let t := tapFields o 1
  match t.refused with
  | some detail => refuse .range detail s
  | none =>
    if costBound < tapsCost (staged s).taps + t.tap.cost then refuse .budget (tapsCost (staged s).taps) s
    else done (staged s).taps.length (writeStaged { staged s with taps := (staged s).taps ++ [t.tap] } s)

/-- APPEND_TAP (R30). -/
def execAppendTap (o : Order) (s : State) : Host.Outcome State Fault Refusal :=
  orderCommand Verb.appendTap (editing appendTapOwner) o s

/-- The tap list with the tap at an index replaced. -/
def replaced (ts : List Tap) (i : Nat) (t : Tap) : List Tap := ts.set i t

/-- REPLACE-TAP on the STAGED bank: index 15–0, then the tap (R31). -/
def replaceTapOwner (o : Order) (s : State) : Reply × State :=
  let i := bitsAt (bodyWord o 1) 15 0
  let t := tapFields o 2
  if (staged s).taps.length ≤ i then refuse .range 0 s
  else
    match t.refused with
    | some detail => refuse .range detail s
    | none =>
      if costBound < tapsCost (replaced (staged s).taps i t.tap) then refuse .budget (tapsCost (staged s).taps) s
      else done i (writeStaged { staged s with taps := replaced (staged s).taps i t.tap } s)

/-- REPLACE_TAP (R31). -/
def execReplaceTap (o : Order) (s : State) : Host.Outcome State Fault Refusal :=
  orderCommand Verb.replaceTap (editing replaceTapOwner) o s

/-- TRUNCATE on the STAGED bank: length 15–0 (R32). -/
def truncateOwner (o : Order) (s : State) : Reply × State :=
  let n := bitsAt (bodyWord o 1) 15 0
  if (staged s).taps.length < n then refuse .range 0 s
  else
    done (tapsCost ((staged s).taps.take n)) (writeStaged { staged s with taps := (staged s).taps.take n } s)

/-- TRUNCATE (R32). -/
def execTruncate (o : Order) (s : State) : Host.Outcome State Fault Refusal :=
  orderCommand Verb.truncate (editing truncateOwner) o s

/-- COPY-LIVE: the LIVE bank's contents into the STAGED bank (R33). -/
def copyLiveOwner (_ : Order) (s : State) : Reply × State :=
  let live := (s.scenes.withRole .live).bank
  done (tapsCost live.taps) (writeStaged live s)

/-- COPY_LIVE (R33). -/
def execCopyLive (o : Order) (s : State) : Host.Outcome State Fault Refusal :=
  orderCommand Verb.copyLive (editing copyLiveOwner) o s

/-! ### READ-BANK (R34) -/

/-- The role of a code (R173). -/
def roleOf : Nat → Option Role
  | 0 => some .live
  | 1 => some .staged
  | 2 => some .armed
  | 3 => some .incoming
  | 4 => some .outgoing
  | _ => none

/-- The code of a polarity (R173). -/
def Polarity.code : Polarity → Nat
  | .normal => 0
  | .inverted => 1

/-- An output record as the two words of WRITE-OUTPUT (R173). -/
def OutputRec.words (c : Output) (r : OutputRec) : List Word :=
  [ word (c.val * 2 ^ 24 + bit r.enabled * 2 ^ 16 + r.polarity.code * 2 ^ 8 + r.profile.val), r.gain.setWidth 32 ]

/-- A tap as the TAPS part gives it: words 1 to 3 of APPEND-TAP with the index in bits 15–4 of the first, words 4 and 5
for a modulated tap, and its current phase for a modulated tap of an active bank (R174). A tap without modulation has no
depth (R24, R30), and no rule states what its third word holds in bits 31–16: 0 is the model's (log 25). -/
def Tap.words (active : Bool) (index phase : Nat) (t : Tap) : List Word :=
  let first := t.line.val * 2 ^ 24 + t.output.val * 2 ^ 16 + index * 2 ^ 4 + bit t.modulation.isSome
  match t.modulation with
  | none => [word first, word t.delay, word t.gain.toNat]
  | some m =>
    [word first, word t.delay, word (m.depth * 2 ^ 16 + t.gain.toNat), word m.period, word m.start] ++
      (if active then [word phase] else [])

/-- The taps of a return: from an index on, at most so many taps, while their words fit the room (R34, R174). -/
def tapsReturned (active : Bool) : List Tap → List Nat → (index count room : Nat) → List (List Word)
  | t :: ts, ps, i, n + 1, room =>
    let ws := t.words active i (ps.headD 0)
    if ws.length ≤ room then ws :: tapsReturned active ts ps.tail (i + 1) n (room - ws.length) else []
  | _, _, _, _, _ => []

/-- The first word of a READ-BANK return's part: bank 31–24, role 23–16 (R174). -/
def bankWord (isB : Bool) (b : BankSlot) : Nat := bit isB * 2 ^ 24 + b.role.code * 2 ^ 16

/-- A part of a bank, by its code: HEADER, OUTPUT, TAPS (R34). -/
def readPart (part count index : Nat) (isB : Bool) (b : BankSlot) (s : State) : Reply × State :=
  match part with
  | 0 =>
    reads
      [word (bankWord isB b + b.bank.taps.length), b.bank.tag, word b.bank.defaultFade, word (tapsCost b.bank.taps)] s
  | 1 =>
    match index? 32 index with
    | none => refuse .range 0 s
    | some c => reads (word (bankWord isB b + c.val) :: (b.bank.outputs[c]).words c) s
  | _ =>
    if count = 0 ∨ 10 < count then refuse .range 1 s
    else
      let ts := tapsReturned b.role.active (b.bank.taps.drop index) (b.phases.drop index) index count 29
      reads (word (bankWord isB b + b.bank.taps.length) :: word ts.length :: ts.flatten) s

/-- READ-BANK at its owner: role 31–28, part 27–24, count 23–16, channel or first index 15–0 (R34, R173). -/
def readBankOwner (o : Order) (s : State) : Reply × State :=
  let w := bodyWord o 1
  match roleOf (bitsAt w 31 28) with
  | none => refuse .range 0xFF s
  | some r =>
    if 2 < bitsAt w 27 24 then refuse .range 0xFF s
    else if s.scenes.a.role = r then readPart (bitsAt w 27 24) (bitsAt w 23 16) (bitsAt w 15 0) false s.scenes.a s
    else if s.scenes.b.role = r then readPart (bitsAt w 27 24) (bitsAt w 23 16) (bitsAt w 15 0) true s.scenes.b s
    else refuse .state (s.scenes.a.role.code * 2 ^ 4 + s.scenes.b.role.code) s

/-- READ_BANK (R34). -/
def execReadBank (o : Order) (s : State) : Host.Outcome State Fault Refusal :=
  orderCommand Verb.readBank readBankOwner o s

/-! ### COMMIT, CANCEL, REVERT (R49 to R53, R60, R61) -/

/-- The fade length of a commit: the order's, or the STAGED header's default (R49). -/
def commitLength (o : Order) (s : State) : Nat :=
  if bitAt (bodyWord o 1) 31 then bitsAt (bodyWord o 2) 23 0 else (staged s).defaultFade

/-- The target sequence that a COMMIT carries, if it does (R50). -/
def commitTarget (o : Order) : Option Seq :=
  if bitAt (bodyWord o 1) 30 then some (BitVec.ofNat 16 (bitsAt (bodyWord o 1) 15 0)) else none

/-- A target sequence is not ahead of the expected one: the distance is 0 or above 32767 (R50). -/
def isLate (e target : Seq) : Bool := let d := (target - e).toNat; decide (d = 0) || decide (32767 < d)

/-- The reason code with which a tap fails a commit's check (R51). -/
def tapFails (s : State) (t : Tap) : Option Nat :=
  if (lineOf s t.line).state = .off then some 1
  else if (lineOf s t.line).samples ≤ t.delay + ((t.modulation.map (·.depth)).getD 0) then some 2
  else none

/-- The first tap of a list that fails, by its BADTAP detail: reason code 23–20, tap index 15–0 (R51, R174). -/
def firstBadTap (s : State) : List Tap → Nat → Option Nat
  | [], _ => none
  | t :: ts, i =>
    match tapFails s t with
    | some reason => some (reason * 2 ^ 20 + i)
    | none => firstBadTap s ts (i + 1)

/-- The STAGED bank is armed for a target sequence with a fade length (R52). -/
def armCommit (target : Seq) (length : Nat) (s : State) : State :=
  roleChange Role.arm { state := .armed, target := some target, length, position := 0, direction := .forward } s

/-- COMMIT at its owner: fade length present 31, target present 30, target 15–0; fade length 23–0 (R49 to R52). -/
def commitOwner (o : Order) (s : State) : Reply × State :=
  if s.node.state ≠ .run ∧ s.node.state ≠ .silent then refuse .state s.node.state.code s
  else if s.link.link ∨ s.link.lost then refuse .state (faultCode s) s
  else if s.changer.state ≠ .steady then refuse .busy s.changer.state.code s
  else if bitAt (bodyWord o 1) 31 ∧ fadeBound < bitsAt (bodyWord o 2) 23 0 then refuse .range 0 s
  else if ((commitTarget o).map (isLate s.link.expected)).getD false then refuse .late s.link.expected.toNat s
  else
    match firstBadTap s (staged s).taps 0 with
    | some detail => refuse .badTap detail s
    | none =>
      done ((commitTarget o).getD s.link.expected).toNat
        (armCommit ((commitTarget o).getD s.link.expected) (commitLength o s) s)

/-- COMMIT (R49 to R53). -/
def execCommit (o : Order) (s : State) : Host.Outcome State Fault Refusal := orderCommand Verb.commit commitOwner o s

/-- CANCEL at its owner (R61). -/
def cancelOwner (_ : Order) (s : State) : Reply × State :=
  match s.changer.state with
  | .armed => done ((s.changer.target.map (·.toNat)).getD 0) (disarm s)
  | st => refuse .state st.code s

/-- CANCEL (R61). -/
def execCancel (o : Order) (s : State) : Host.Outcome State Fault Refusal := orderCommand Verb.cancel cancelOwner o s

/-- REVERT at its owner (R60, R171). -/
def revertOwner (_ : Order) (s : State) : Reply × State :=
  match s.changer.state with
  | .fading =>
    match s.changer.direction with
    | .forward => done s.changer.position { s with changer := { s.changer with direction := .back } }
    | .back => refuse .state 3 s
  | st => refuse .state st.code s

/-- REVERT (R60). -/
def execRevert (o : Order) (s : State) : Host.Outcome State Fault Refusal := orderCommand Verb.revert revertOwner o s

end Sys2Proof.Machine
end

