-- ==== Sys2Proof/Machine/SlotOrders.lean ====
section
/-! DEFINITION. The orders of section 1 SLOTS (R106, R107, R108). -/

namespace Sys2Proof.Machine

/-- WRITE-IN-MAP at its owner: channel 15–8, slot 7–0 (R106). -/
def writeInMapOwner (o : Order) (s : State) : Reply × State :=
  match index? 24 (bitsAt (bodyWord o 1) 15 8) with
  | none => refuse .range 0 s
  | some c =>
    match slotField (bitsAt (bodyWord o 1) 7 0) with
    | none => refuse .range 1 s
    | some e =>
      done (slotByte s.maps.input[c]) { s with maps := { s.maps with input := s.maps.input.set c e } }

/-- WRITE_IN_MAP (R106). -/
def execWriteInMap (o : Order) (s : State) : Host.Outcome State Fault Refusal :=
  orderCommand Verb.writeInMap writeInMapOwner o s

/-- The output channel other than `c` that holds a slot (R107). -/
def holder (m : Maps) (c : Output) (e : Option Slot) : Option Output :=
  match e with
  | none => none
  | some i => allOutputs.find? fun d => decide (d ≠ c) && decide (m.output[d] = some i)

/-- WRITE-OUT-MAP at its owner: channel 15–8, slot 7–0 (R107). -/
def writeOutMapOwner (o : Order) (s : State) : Reply × State :=
  match index? 32 (bitsAt (bodyWord o 1) 15 8) with
  | none => refuse .range 0 s
  | some c =>
    match slotField (bitsAt (bodyWord o 1) 7 0) with
    | none => refuse .range 1 s
    | some e =>
      match holder s.maps c e with
      | some d => refuse .range (32 + d.val) s
      | none =>
        done (slotByte s.maps.output[c]) { s with maps := { s.maps with output := s.maps.output.set c e } }

/-- WRITE_OUT_MAP (R107). -/
def execWriteOutMap (o : Order) (s : State) : Host.Outcome State Fault Refusal :=
  orderCommand Verb.writeOutMap writeOutMapOwner o s

/-- The words of the READ-MAP return after word 1: 56 entries, four to a word (R108, R174). -/
def mapWords (m : Maps) : List Word := packBytes (m.input.toList.map slotByte ++ m.output.toList.map slotByte)

/-- READ-MAP at its owner (R108). -/
def readMapOwner (_ : Order) (s : State) : Reply × State := reads (mapWords s.maps) s

/-- READ_MAP (R108). -/
def execReadMap (o : Order) (s : State) : Host.Outcome State Fault Refusal := orderCommand Verb.readMap readMapOwner o s

end Sys2Proof.Machine
end

