-- ==== Sys2Proof/Machine/Runner.lean ====
section
/-! DEFINITION. The order that the decoder has completed, executed when no order command has named it (R117, R119, R120;
log 3). -/

namespace Sys2Proof.Machine

/-- The verb and the owner's operation of a section and verb number, where assigned (R119). -/
def ownerOf (sec verb : Nat) : Option (Verb × (Order → State → Reply × State)) :=
  match sec, verb with
  | 0, 0 => some (Verb.ident, identOwner)
  | 0, 1 => some (Verb.go, goOwner)
  | 0, 2 => some (Verb.standby, standbyOwner)
  | 0, 3 => some (Verb.silence, silenceOwner)
  | 0, 4 => some (Verb.resume, resumeOwner)
  | 0, 5 => some (Verb.sweep, sweepOwner)
  | 0, 6 => some (Verb.unlock, unlockOwner)
  | 0, 7 => some (Verb.lock, lockOwner)
  | 0, 8 => some (Verb.setAddress, setAddressOwner)
  | 0, 9 => some (Verb.reset, resetOwner)
  | 1, 0 => some (Verb.writeInMap, writeInMapOwner)
  | 1, 1 => some (Verb.writeOutMap, writeOutMapOwner)
  | 1, 2 => some (Verb.readMap, readMapOwner)
  | 2, 0 => some (Verb.writeWindow, writeWindowOwner)
  | 2, 1 => some (Verb.writeFeed, writeFeedOwner)
  | 2, 2 => some (Verb.start, startOwner)
  | 2, 3 => some (Verb.stop, stopOwner)
  | 2, 4 => some (Verb.restart, restartOwner)
  | 2, 5 => some (Verb.readLine, readLineOwner)
  | 3, 0 => some (Verb.writeHeader, editing writeHeaderOwner)
  | 3, 1 => some (Verb.writeOutput, editing writeOutputOwner)
  | 3, 2 => some (Verb.appendTap, editing appendTapOwner)
  | 3, 3 => some (Verb.replaceTap, editing replaceTapOwner)
  | 3, 4 => some (Verb.truncate, editing truncateOwner)
  | 3, 5 => some (Verb.copyLive, editing copyLiveOwner)
  | 3, 6 => some (Verb.readBank, readBankOwner)
  | 3, 7 => some (Verb.commit, commitOwner)
  | 3, 8 => some (Verb.cancel, cancelOwner)
  | 3, 9 => some (Verb.revert, revertOwner)
  | 4, 0 => some (Verb.writeProfile, writeProfileOwner)
  | 4, 1 => some (Verb.readProfile, readProfileOwner)
  | 4, 2 => some (Verb.readGuard, readGuardOwner)
  | 4, 3 => some (Verb.release, releaseOwner)
  | 5, 0 => some (Verb.readEvents, readEventsOwner)
  | 5, 1 => some (Verb.clearEvents, clearEventsOwner)
  | 5, 2 => some (Verb.readAndClear, readAndClearOwner)
  | 5, 3 => some (Verb.writeEnables, writeEnablesOwner)
  | 5, 4 => some (Verb.writeHoldoff, writeHoldoffOwner)
  | 6, 0 => some (Verb.readCheck, readCheckOwner)
  | 6, 1 => some (Verb.clearCheck, clearCheckOwner)
  | 6, 2 => some (Verb.writeMode, writeModeOwner)
  | 6, 3 => some (Verb.readBadBlocks, readBadBlocksOwner)
  | 7, 0 => some (Verb.setUp, setUpOwner)
  | 7, 1 => some (Verb.arm, armOwner)
  | 7, 2 => some (Verb.captureTrigger, captureTriggerOwner)
  | 7, 3 => some (Verb.captureStop, captureStopOwner)
  | 7, 4 => some (Verb.readCapture, readCaptureOwner)
  | 7, 5 => some (Verb.readSamples, readSamplesOwner)
  | 8, 0 => some (Verb.readLink, readLinkOwner)
  | 8, 1 => some (Verb.clearCounters, clearCountersOwner)
  | _, _ => none

/-- An order executed, by its section and verb (R119, R120, R122). -/
def runOrder (r : ReadyOrder) (s : State) : State :=
  match ownerOf r.sec.toNat r.verb.toNat with
  | some (v, owner) => perform v owner r.order s
  | none => performUnknown r.sec r.verb r.order s

/-- The completed order, if one is still waiting, executed (R120, R122). -/
def runReady (s : State) : State :=
  match s.decoder.ready with
  | some r => runOrder r { s with decoder := { s.decoder with ready := none } }
  | none => s

end Sys2Proof.Machine
end

