-- ==== Sys2Proof/Machine/Close.lean ====
section
/-! DEFINITION. The end of a frame period: block ends, clip mutes, ramps and everything else that the spec places there, each
as an operation of its own, and all that is still to come of them in one order (log 2). -/

namespace Sys2Proof.Machine

/-! ### The guard's block end and clip mutes -/

/-- The guard's events of a block end that are offered to the capture recorder: steps and mutes (R83). -/
def guardOffer (f : Flag) (c : Output) : Option Offer :=
  match f with
  | .guardStep => some (.guardStep c)
  | .guardMute => some (.guardMute c)
  | _ => none

/-- A guard event raised for an output, and offered to the capture recorder (R83). -/
def guardEvent (f : Flag) (c : Output) (s : State) : State :=
  match guardOffer f c with
  | some o => offerNow o (raiseGuard f c s)
  | none => raiseGuard f c s

/-- The block end of one output: its judgement and the event it raises (R79 to R81, R83). -/
def judgeOutput (s : State) (c : Output) : State :=
  let j := (s.guard.outputs[c]).judge (inForce s c)
  let t := { s with guard := { s.guard with outputs := s.guard.outputs.set c j.1 } }
  match j.2 with
  | some f => guardEvent f c t
  | none => t

/-- The frame period in progress counts for the guard and its block frame count is still to advance (R78). -/
def blockStepDue (s : State) : Bool :=
  match s.period with
  | some p => p.counts && !p.blockDone
  | none => false

/-- The block end is due: the block frame count would reach 48 (R78, R79). -/
def blockEndDue (s : State) : Bool := blockStepDue s && decide (47 ≤ s.guard.blockCount)

/-- The block frame count as the frame period's step leaves it, with the step marked as made. -/
def countBlock (count : Nat) (s : State) : State :=
  { s with
    guard := { s.guard with blockCount := count }
    period := s.period.map fun p => { p with blockDone := true } }

/-- The outputs that a block end judges: all but those that a RELEASE has brought out of MUTED in its frame period (R79,
R86), one that a clip run muted in that same frame among them (log 40). -/
def judgedOutputs (s : State) : List Output :=
  allOutputs.filter fun c => decide (c ∉ (s.period.map (·.released)).getD [])

/-- A block end: the outputs are judged, the block frame count and every block peak return to 0 (R78, R79). -/
def blockEnds (s : State) : State :=
  let s := countBlock 0 ((judgedOutputs s).foldl judgeOutput s)
  { s with guard := s.guard.abandon }

/-- The block frame count at the end of the frame period in progress (R78). -/
def blockAtEnd (s : State) : State :=
  if blockEndDue s then blockEnds s
  else if blockStepDue s then countBlock (s.guard.blockCount + 1) s
  else s

/-- The clip mute of an output is due: its count reached the clip run in the frame, and it is not MUTED (R82). -/
def clipMuteDue (c : Output) (s : State) : Bool :=
  match s.period with
  | some p => decide (c ∈ p.clipDue) && (s.guard.outputs[c]).state != .muted
  | none => false

/-- The clip mute of an output: MUTED with cause CLIP, and GUARD-MUTE (R82, R83). -/
def clipMutes (c : Output) (s : State) : State :=
  guardEvent .guardMute c
    { s with
      guard := { s.guard with outputs := update s.guard.outputs c (GuardRec.mute .clip) }
      period := s.period.map fun p => { p with clipDue := p.clipDue.filter fun d => d != c } }

/-- The clip mutes still due at the end of the frame period in progress. -/
def clipsAtEnd (s : State) : State :=
  allOutputs.foldl (fun s c => if clipMuteDue c s then clipMutes c s else s) s

/-! ### Other ends -/

/-- The end of the head line's clearing, where it is due (R12). -/
def clearingAtEnd (s : State) : State := if endOfClearingDue s then clearingEnds s else s

/-- The mute ramps at the end of a processed frame (R77). -/
def muteRampsAtEnd (s : State) : State :=
  if (s.period.map (·.processed)).getD false then
    { s with guard := { s.guard with outputs := s.guard.outputs.map GuardRec.rampStep } }
  else s

/-- The completion of the sweep, where it is due, or its move away from a rank that has stopped answering (R21, R22). -/
def sweepAtEnd (s : State) : State := if sweepCompleteDue s then sweepCompletes s else sweepMoves s

/-- The start-up limit is reached: 480 frame periods of the start-up search without lock (R93). -/
def startUpLimitDue (s : State) : Bool := s.link.startUp && decide (Config.startUpLimit ≤ s.link.startUpCount)

/-- LOST becomes set: restore pending, LINK-LOST, the changer and the node state unit are told (R63, R93, R100, R160). -/
def lostSet (s : State) : State :=
  causesChanged (linkEvent (raise .linkLost { s with link := { s.link with lost := true, restorePending := true } }))

/-- The start-up search ends at its limit, and local framing begins (R93). -/
def startUpEnds (s : State) : State := lostSet { s with link := { s.link with startUp := false } }

/-- The start-up limit, where it is due. -/
def limitAtEnd (s : State) : State := if startUpLimitDue s then startUpEnds s else s

/-- The end of sizing, where it is due (R3). -/
def sizingAtEnd (s : State) : State := if sizingEndDue s then sizingEnds s else s

/-! ### The end of a frame period -/

/-- The return whose END left in the frame period in progress leaves the return queue as the period ends (R129): the
decoder, which comes first in a frame period, still counted it (R120, R125). -/
def returnLeaves (s : State) : State :=
  if (s.period.map (·.returnLeft)).getD false then
    { s with arbiter := { s.arbiter with returns := s.arbiter.returns.tail } }
  else s

/-- What is still to come of a frame period up to its last step: the own message's HEAD, the completed order, the return
that has left, the guard, the lines, the fade, the ramps, the sweep and start-up, the holdoff (log 2). -/
def beforeSampling (s : State) : State :=
  let s := returnLeaves (runReady (startOwn s))
  let s := clipsAtEnd (blockAtEnd s)
  let s := clearingAtEnd (takeFaults (fun _ => true) s)
  let s := fadeAtEnd s
  let s := rampAtEnd (muteRampsAtEnd s)
  let s := sizingAtEnd (limitAtEnd (sweepAtEnd s))
  holdoffTick (abandonAtEnd s)

/-- The last step of a frame period: a RESET order takes effect, or the sampling step falls; the period is over (R149,
R167). -/
def lastStep (s : State) : State :=
  if resetDue s then orderResetState s else { samplingStep s with period := none }

/-- The end of the frame period in progress; nothing where none is, or while the part is held in reset. -/
def endPeriod (s : State) : State :=
  if s.pins.resetHeld ∨ s.period = none then s else lastStep (beforeSampling s)

/-- The capture ends at the sampling step that closes the frame period in progress (R153). -/
def captureEndDue (s : State) : Bool :=
  s.period.isSome && !resetDue (beforeSampling s) && endsAtSampling (beforeSampling s)

end Sys2Proof.Machine
end

