-- ==== Sys2Proof/Machine/Frames.lean ====
section
/-! DEFINITION. The frame-period commands: the link receiver's judgement of each kind of frame period, the engine, the service
word, and the frame sent (R89 to R104, R109, R110). -/

namespace Sys2Proof.Machine

/-! ### Beginning a frame period -/

/-- A frame period as it begins. -/
def Period.begun (seq : Seq) (processed leaving gaveWord : Bool) : Period :=
  { seq, processed, counts := false, clipDue := [], released := [], faultDue := [], sample := 0, ownStart := none,
    returnLeft := false, resetDue := false, leaving, leftRun := false, blockDone := false, rampDone := false, gaveWord }

/-- A frame period begins with its sequence: what befalls the devices, a frame of sizing counted (R3). `gaveWord`: its frame
gives its service word to the order decoder. -/
def beginPeriod (seq : Seq) (gaveWord : Bool) (memory : List Disturbance) (s : State) : State :=
  { s with
    device := memory.foldl Device.disturb s.device
    mem := { s.mem with sizing := if s.node.state = .sizing then s.mem.sizing + 1 else s.mem.sizing }
    period := some (Period.begun seq (engineRuns s.node.state) s.node.leaving gaveWord)
    begun := none
    sent := [] }

/-- The expected sequence becomes the period's sequence plus 1 (R92). -/
def settle (seq : Seq) (s : State) : State := { s with link := { s.link with expected := seq + 1 } }

/-- The sequence of the frame period offered to the capture recorder (R92, R151). -/
def offerToCapture (seq : Seq) (s : State) : State := offerNow (.sequence seq) s

/-! ### Link errors and the fault causes (R101, R102) -/

/-- A counter of the link one up, staying at its end (R111). -/
def countUp (n : Nat) : Nat := min 4294967295 (n + 1)

/-- LINK becomes set (R101): LINK-FAULT raised and offered, protection closed, the changer and the node state unit told. -/
def linkSet (s : State) : State :=
  causesChanged
    (linkEvent
      (withProtection .closed
        (offerNow .linkFault
          (raise .linkFault { s with link := { s.link with link := true, restorePending := true } }))))

/-- LEC rises by 8, to at most 255, and LINK is set where it becomes 255 while LINK is clear (R101). -/
def errorCounted (s : State) : State :=
  let t := { s with link := { s.link with lec := min 255 (s.link.lec + 8) } }
  if t.link.lec = 255 ∧ s.link.link = false then linkSet t else t

/-- LEC falls by 1, and LINK is cleared where it has fallen to 0 (R95, R101). -/
def errorForgiven (s : State) : State :=
  let t := { s with link := { s.link with lec := s.link.lec - 1 } }
  if t.link.lec = 0 ∧ s.link.link then causesChanged { t with link := { t.link with link := false } } else t

/-- LINK-RESTORED at the end of a frame period's handling (R102). -/
def linkRestored (s : State) : State :=
  if s.link.restorePending ∧ s.link.link = false ∧ s.link.lost = false then
    raise .linkRestored { s with link := { s.link with restorePending := false } }
  else s

/-! ### The service word and the frame sent -/

/-- What a frame period brings the order decoder: a service word, none with the open message abandoned, or nothing (R95,
R98, R103, R113). -/
inductive Service where
  | word (kind : ServiceKind) (word : Word)
  | broken
  | nothing
  deriving DecidableEq, Repr

/-- The decoder's hearing of it (R113, R118). -/
def Decoder.hear (d : Decoder) : Service → Heard
  | .word k w => d.take k w
  | .broken => d.abandon
  | .nothing => d.quiet

/-- The arbiter's choice from what the decoder heard (R125, R127). -/
def chosen (waiting : Bool) (h : Heard) (s : State) : Choice :=
  match h.abandoned with
  | some m => s.arbiter.chooseAbandoned waiting (some m) s.slot
  | none => s.arbiter.choose waiting h.arriving s.slot

/-- The frame period with the arbiter's choice made: the frame leaves, or waits for the HEAD of an own message. -/
def choiceTaken (d : Draft) (c : Choice) (s : State) : State :=
  { s with
    arbiter := c.arbiter
    slot := c.slot
    sent :=
      match c.leaving with
      | .word k w => [d.frame k w]
      | .start _ => []
    period :=
      s.period.map fun p =>
        { p with
          returnLeft := c.returnLeft
          resetDue := c.resetLeft
          ownStart :=
            match c.leaving with
            | .word _ _ => none
            | .start own => some (own, d) } }

/-- What the decoder heard, taken: its state, and the discards counted (R111, R117). -/
def hearingTaken (h : Heard) (s : State) : State :=
  { s with
    decoder := h.decoder
    link := { s.link with discarded := min 4294967295 (s.link.discarded + h.discards) } }

/-- The service word's part of a frame period (R113, R125). `waiting`: a notice was waiting as the period began. -/
def serve (waiting : Bool) (service : Service) (d : Draft) (s : State) : State :=
  let h := s.decoder.hear service
  choiceTaken d (chosen waiting h s) (hearingTaken h s)

/-! ### The engine's part -/

/-- What the frame period keeps of its processed frame, for its end. -/
def noteFrame (counts : Bool) (e : EngineOut) (s : State) : State :=
  { s with
    period :=
      s.period.map fun p =>
        { p with counts, clipDue := e.clipDue, faultDue := e.faultDue, sample := e.sample } }

/-- The engine's part in a frame period (R40). -/
def engineTaken (seq : Seq) (inputs : Vector Int 24) (s : State) : State :=
  noteFrame (countsForGuard s) (engineResult seq inputs s) (engineStep seq inputs s)

/-- The frame that the node sends, but for its service word: the mapped slots written by the node state as the processing
began (R109, R110). -/
def draftOf (seq : Seq) (inputs : Vector Int 24) (slots : Vector Word 64) (damaged : Bool) (s : State) : Draft :=
  { seq, damaged, slots := writeSlots s.maps s.node.state (engineResult seq inputs s).outputs slots }

/-- The rest of a frame period in which the node sends a frame, once the receiver has settled it: the engine, the service
word, the frame sent, and R102. -/
def handle (waiting : Bool) (seq : Seq) (inputs : Vector Int 24) (slots : Vector Word 64) (damaged : Bool)
    (service : Service) (s : State) : State :=
  linkRestored (serve waiting service (draftOf seq inputs slots damaged s) (engineTaken seq inputs s))

/-! ### Frames of LOCKED -/

/-- A notice was waiting as the frame period began (R125; log 14). -/
def noticeWaiting (s : State) : Bool := s.begun.getD (s.slot.state == .waiting)

/-- LOST is cleared as the resumption frame begins (R104). -/
def lostCleared (s : State) : State :=
  if s.link.lost then causesChanged { s with link := { s.link with lost := false } } else s

/-- The receiver's counts of a good frame (R95). -/
def goodCounted (s : State) : State :=
  { s with link := { s.link with missing := 0, goodFrames := countUp s.link.goodFrames } }

/-- A sequence jump (R96): raised, counted, an armed commit cancelled, LEC up by 8. -/
def jumpTaken (s : State) : State :=
  errorCounted (linkEvent (raise .sequenceJump { s with link := { s.link with jumps := countUp s.link.jumps } }))

/-- The receiver's settlement of a good frame (R92, R95, R96): the capture recorder is offered the sequence; a jump is
taken, or the changer is offered the sequence (R54) and LEC falls. -/
def goodSettled (jump : Bool) (seq : Seq) (s : State) : State :=
  if jump then jumpTaken (goodCounted (lostCleared (offerToCapture seq (settle seq s))))
  else errorForgiven (goodCounted (lostCleared (offerSequence seq (offerToCapture seq (settle seq s)))))

/-- A good frame of LOCKED (R95 to R97). A slot that no output channel names passes on as it arrived, bits 30 to 24 with the
rest (R109; log 41). -/
def goodFrame (f : Frame) (memory : List Disturbance) (s : State) : State :=
  handle (noticeWaiting s) f.seq (inputSamples s.maps f) f.slots f.damaged (.word f.kind f.service)
    (goodSettled (f.seq != s.link.expected) f.seq (beginPeriod f.seq true memory s))

/-- The receiver's counts of a bad frame, or of a missing frame period, with the missing count it leaves (R98, R99). -/
def badCounted (missing : Nat) (s : State) : State :=
  { s with link := { s.link with missing, badFrames := countUp s.link.badFrames } }

/-- The receiver's settlement of a frame period on the expected sequence: its offer (R54, R92, R151). -/
def expectedSettled (seq : Seq) (s : State) : State := offerSequence seq (offerToCapture seq (settle seq s))

/-- A bad frame of LOCKED (R98), its unmapped slots as it arrived (R109; log 41). -/
def badFrame (f : Frame) (memory : List Disturbance) (s : State) : State :=
  handle (noticeWaiting s) s.link.expected noInputs f.slots true .broken
    (errorCounted (badCounted 0 (lostCleared (expectedSettled s.link.expected (beginPeriod s.link.expected false memory s)))))

/-- A missing frame period with missing count 1 to 3: a fill frame (R99). -/
def missingFrame (memory : List Disturbance) (s : State) : State :=
  handle (noticeWaiting s) s.link.expected noInputs emptySlots true .broken
    (errorCounted
      (badCounted (s.link.missing + 1) (expectedSettled s.link.expected (beginPeriod s.link.expected false memory s))))

/-- The receiver returns to SEARCH: the link is lost (R100). -/
def searchEntered (s : State) : State := { s with link := { s.link with receive := .search, lockRun := 0, missing := 4 } }

/-- The frame period that loses the link, the first of local framing (R100, R103). -/
def lostFrame (memory : List Disturbance) (s : State) : State :=
  handle (noticeWaiting s) s.link.expected noInputs emptySlots false .nothing
    (lostSet (searchEntered (expectedSettled s.link.expected (beginPeriod s.link.expected false memory s))))

/-! ### SEARCH (R93, R94, R103) -/

/-- The lock run after an arrival whose sync is good (R94). -/
def Link.judge (f : Frame) (l : Link) : Link :=
  if f.checkGood = false then { l with lockRun := 0 }
  else if 0 < l.lockRun ∧ f.seq ≠ l.lockSeq + 1 then { l with lockRun := 1, lockSeq := f.seq }
  else { l with lockRun := l.lockRun + 1, lockSeq := f.seq }

/-- The receiver becomes LOCKED where the lock run is 3: the expected sequence becomes the lock sequence in the start-up
search, and is kept under local framing (R93, R94). -/
def Link.lock (l : Link) : Link :=
  if 3 ≤ l.lockRun then
    { l with
      receive := .locked, lockRun := 0, missing := 0
      expected := if l.startUp then l.lockSeq + 1 else l.expected
      startUp := false }
  else l

/-- Arrivals whose sync is good judged one after another, and those that were: once the receiver is LOCKED an arrival begins a
frame period of its own (R91, R94; log 17). -/
def Link.judgeAll : List Frame → Link → Link × List Frame
  | [], l => (l, [])
  | f :: fs, l =>
    if l.receive = .locked then (l, [])
    else
      let rest := Link.judgeAll fs (l.judge f).lock
      (rest.1, f :: rest.2)

/-- A frame period's arrivals in SEARCH judged, and those that were: an arrival whose sync is not good is none, and a frame
period without an arrival sets the lock run to 0 (R91, R94). -/
def Link.search (arrivals : List Frame) (l : Link) : Link × List Frame :=
  match arrivals.filter Frame.syncGood with
  | [] => ({ l with lockRun := 0 }, [])
  | f :: fs => l.judgeAll (f :: fs)

/-- The arrivals of a frame period of SEARCH judged (R94). -/
def judged (arrivals : List Frame) (s : State) : State := { s with link := (s.link.search arrivals).1 }

/-- A local frame (R103). -/
def localFrame (arrivals : List Frame) (memory : List Disturbance) (s : State) : State :=
  judged arrivals
    (handle (noticeWaiting s) s.link.expected noInputs emptySlots false .nothing
      (expectedSettled s.link.expected (beginPeriod s.link.expected false memory s)))

/-- A frame period of the start-up search: the arrivals whose sync is good are sent on unchanged (R93). -/
def searchPeriod (arrivals : List Frame) (memory : List Disturbance) (s : State) : State :=
  let t := engineTaken s.link.expected noInputs (beginPeriod s.link.expected false memory s)
  let l := { t.link with startUpCount := t.link.startUpCount + 1 }
  judged arrivals { t with link := l, sent := (l.search arrivals).2 }

/-! ### The commands -/

/-- A frame-period command (log 2): the frame period in progress ends first; where the command's condition then holds, its
own is handled, unless a window lies outside the delay memory (log 20). Where the condition does not hold the command
does not come about (log 1), as none does while the part is held in reset (R166). -/
def framePeriod (condition : State → Bool) (handling : State → State) (s : State) : Host.Outcome State Fault Refusal :=
  if s.pins.resetHeld ∨ condition (endPeriod s) = false then .next s
  else if memoryExists (endPeriod s) = false then .fault .noSuchBlock
  else .next (handling (endPeriod s))

/-- LOCKED (R90). -/
def isLocked (s : State) : Bool := s.link.receive == .locked

/-- A good frame that FIRE_FRAME has announced bears the expected sequence (log 14). -/
def asBegun (f : Frame) (s : State) : Bool := s.begun.isNone || f.seq == s.link.expected

/-- START_UP_SEARCH_PERIOD (R93). -/
def execStartUpSearchPeriod (arrivals : List Frame) (memory : List Disturbance) (s : State) :
    Host.Outcome State Fault Refusal :=
  framePeriod (fun t => t.link.startUp && !isLocked t) (searchPeriod arrivals memory) s

/-- GOOD_FRAME (R95). With LOST set it is the resumption frame (R104). -/
def execGoodFrame (frame : Frame) (memory : List Disturbance) (s : State) : Host.Outcome State Fault Refusal :=
  framePeriod (fun t => isLocked t && frame.syncGood && frame.checkGood && asBegun frame t) (goodFrame frame memory) s

/-- BAD_FRAME (R98). With LOST set it is the resumption frame (R104). -/
def execBadFrame (frame : Frame) (memory : List Disturbance) (s : State) : Host.Outcome State Fault Refusal :=
  framePeriod (fun t => isLocked t && frame.syncGood && !frame.checkGood) (badFrame frame memory) s

/-- MISSING_FRAME_PERIOD (R99); the fourth in a row is that of R100. -/
def execMissingFramePeriod (memory : List Disturbance) (s : State) : Host.Outcome State Fault Refusal :=
  framePeriod isLocked (fun t => if t.link.missing < 3 then missingFrame memory t else lostFrame memory t) s

/-- LINK_LOST (R100): the frame period whose missing count reaches 4. -/
def execLinkLost (memory : List Disturbance) (s : State) : Host.Outcome State Fault Refusal :=
  framePeriod (fun t => isLocked t && decide (3 ≤ t.link.missing)) (lostFrame memory) s

/-- LOCAL_FRAME (R103). -/
def execLocalFrame (arrivals : List Frame) (memory : List Disturbance) (s : State) :
    Host.Outcome State Fault Refusal :=
  framePeriod (fun t => t.link.lost && !isLocked t && !t.link.startUp) (localFrame arrivals memory) s

/-- RESUMPTION_FRAME (R104). -/
def execResumptionFrame (frame : Frame) (memory : List Disturbance) (s : State) : Host.Outcome State Fault Refusal :=
  framePeriod (fun t => isLocked t && t.link.lost && frame.syncGood && (asBegun frame t || !frame.checkGood))
    (fun t => if frame.checkGood then goodFrame frame memory t else badFrame frame memory t) s

end Sys2Proof.Machine
end

