-- ==== Sys2Proof/Machine/PeriodEvents.lean ====
section
/-! DEFINITION. The commands that name one event of the part. Each takes its event where it is due, ahead of the commands
that follow it; where it is not due the command does not come about (log 1, log 2). -/

namespace Sys2Proof.Machine

/-- An event taken where it is due, in a part not held in reset. -/
def eventCommand (due : State → Bool) (effect : State → State) (s : State) : Host.Outcome State Fault Refusal :=
  if s.pins.resetHeld = false ∧ due s then .next (effect s) else .next s

/-- A frame period is in progress. -/
def inPeriod (s : State) : Bool := s.period.isSome

/-- RESET_PIN_ASSERTED (R166): the part is in reset; it sends no frame. -/
def execResetPinAsserted (s : State) : Host.Outcome State Fault Refusal :=
  .next { s with pins := { s.pins with resetHeld := true }, sent := [], period := none, begun := none }

/-- PIN_RESET (R166, R168): the pin is released, or the power-on detection lets go (log 23). -/
def execPinReset (pins : BitVec 6) (s : State) : Host.Outcome State Fault Refusal := .next (pinResetState pins s)

/-- SIZING_END (R3). -/
def execSizingEnd (s : State) : Host.Outcome State Fault Refusal :=
  eventCommand (fun s => inPeriod s && sizingEndDue s) sizingEnds s

/-- RESET_TAKES_EFFECT (R167, R168): the frame period's order is executed and its outcome lost, but for P and M. -/
def execResetTakesEffect (s : State) : Host.Outcome State Fault Refusal :=
  eventCommand resetDue (fun s => orderResetState (runReady s)) s

/-- START_UP_LIMIT (R93). -/
def execStartUpLimit (s : State) : Host.Outcome State Fault Refusal :=
  eventCommand (fun s => inPeriod s && startUpLimitDue s) startUpEnds s

/-- END_OF_CLEARING (R12). -/
def execEndOfClearing (s : State) : Host.Outcome State Fault Refusal :=
  eventCommand (fun s => inPeriod s && endOfClearingDue s) clearingEnds s

/-- The next frame period may be the fire frame: the changer is ARMED for the expected sequence, and the node settles
sequences (R54, R92). -/
def fireDue (s : State) : Bool := !s.link.startUp && firesOn s.link.expected s

/-- FIRE_FRAME (R54 to R56): the fire frame begins. The frame period in progress ends first (log 14). -/
def execFireFrame (s : State) : Host.Outcome State Fault Refusal :=
  eventCommand (fun s => fireDue (endPeriod s))
    (fun s => fire { endPeriod s with begun := some (noticeWaiting (endPeriod s)) }) s

/-- FADE_END (R58). -/
def execFadeEnd (s : State) : Host.Outcome State Fault Refusal := eventCommand fadeEndDue fadeEnds s

/-- REVERTED_FADE_END (R59). -/
def execRevertedFadeEnd (s : State) : Host.Outcome State Fault Refusal :=
  eventCommand revertedFadeEndDue revertedFadeEnds s

/-- BLOCK_END (R79). -/
def execBlockEnd (s : State) : Host.Outcome State Fault Refusal := eventCommand blockEndDue blockEnds s

/-- CLIP_RUN_MUTE (R82) of one output. -/
def execClipRunMute (output : Output) (s : State) : Host.Outcome State Fault Refusal :=
  eventCommand (clipMuteDue output) (clipMutes output) s

/-- LEAVING_FOR_STANDBY_END (R163). -/
def execLeavingForStandbyEnd (s : State) : Host.Outcome State Fault Refusal :=
  eventCommand leavingEndDue leavingEnds s

/-- SWEEP_COMPLETE (R22). -/
def execSweepComplete (s : State) : Host.Outcome State Fault Refusal :=
  eventCommand (fun s => inPeriod s && sweepCompleteDue s) sweepCompletes s

/-- CAPTURE_END (R153): it falls at the sampling step, which closes the frame period (R149). -/
def execCaptureEnd (s : State) : Host.Outcome State Fault Refusal := eventCommand captureEndDue endPeriod s

/-- HOLDOFF_EXPIRY (R137). -/
def execHoldoffExpiry (s : State) : Host.Outcome State Fault Refusal :=
  eventCommand (fun s => inPeriod s && s.events.expiryDue) holdoffExpires s

/-- The frame waiting for a notice's HEAD is there. -/
def noticeStartDue (s : State) : Bool := (waitingFor .notice s).isSome

/-- NOTICE_START (R130, R135). -/
def execNoticeStart (s : State) : Host.Outcome State Fault Refusal := eventCommand noticeStartDue startOwn s

/-- The frame waiting for a return's HEAD is there. -/
def returnStartDue (s : State) : Bool := (waitingFor .ret s).isSome

/-- RETURN_START (R125, R129). -/
def execReturnStart (s : State) : Host.Outcome State Fault Refusal := eventCommand returnStartDue startOwn s

end Sys2Proof.Machine
end

