-- ==== Sys2Proof/Machine/Dispatch.lean ====
section
/-! DEFINITION. The meaning of every command, one arm for each constructor. -/

namespace Sys2Proof.Machine

/-- A command's effect on everything but the queue. -/
def exec (i : Instr) (s : State) : Host.Outcome State Fault Refusal :=
  match i with
  | .resetPinAsserted => Sys2Proof.Machine.execResetPinAsserted s
  | .pinReset p => Sys2Proof.Machine.execPinReset p s
  | .sizingEnd => Sys2Proof.Machine.execSizingEnd s
  | .resetTakesEffect => Sys2Proof.Machine.execResetTakesEffect s
  | .startUpSearchPeriod a d => Sys2Proof.Machine.execStartUpSearchPeriod a d s
  | .startUpLimit => Sys2Proof.Machine.execStartUpLimit s
  | .goodFrame f d => Sys2Proof.Machine.execGoodFrame f d s
  | .badFrame f d => Sys2Proof.Machine.execBadFrame f d s
  | .missingFramePeriod d => Sys2Proof.Machine.execMissingFramePeriod d s
  | .linkLost d => Sys2Proof.Machine.execLinkLost d s
  | .localFrame a d => Sys2Proof.Machine.execLocalFrame a d s
  | .resumptionFrame f d => Sys2Proof.Machine.execResumptionFrame f d s
  | .endOfClearing => Sys2Proof.Machine.execEndOfClearing s
  | .fireFrame => Sys2Proof.Machine.execFireFrame s
  | .fadeEnd => Sys2Proof.Machine.execFadeEnd s
  | .revertedFadeEnd => Sys2Proof.Machine.execRevertedFadeEnd s
  | .blockEnd => Sys2Proof.Machine.execBlockEnd s
  | .clipRunMute c => Sys2Proof.Machine.execClipRunMute c s
  | .leavingForStandbyEnd => Sys2Proof.Machine.execLeavingForStandbyEnd s
  | .sweepComplete => Sys2Proof.Machine.execSweepComplete s
  | .captureEnd => Sys2Proof.Machine.execCaptureEnd s
  | .holdoffExpiry => Sys2Proof.Machine.execHoldoffExpiry s
  | .noticeStart => Sys2Proof.Machine.execNoticeStart s
  | .returnStart => Sys2Proof.Machine.execReturnStart s
  | .unknownOrder sec verb o => Sys2Proof.Machine.execUnknownOrder sec verb o s
  | .ident o => Sys2Proof.Machine.execIdent o s
  | .go o => Sys2Proof.Machine.execGo o s
  | .standby o => Sys2Proof.Machine.execStandby o s
  | .silence o => Sys2Proof.Machine.execSilence o s
  | .resume o => Sys2Proof.Machine.execResume o s
  | .sweep o => Sys2Proof.Machine.execSweep o s
  | .unlock o => Sys2Proof.Machine.execUnlock o s
  | .setAddress o => Sys2Proof.Machine.execSetAddress o s
  | .reset o => Sys2Proof.Machine.execReset o s
  | .writeInMap o => Sys2Proof.Machine.execWriteInMap o s
  | .writeOutMap o => Sys2Proof.Machine.execWriteOutMap o s
  | .readMap o => Sys2Proof.Machine.execReadMap o s
  | .writeWindow o => Sys2Proof.Machine.execWriteWindow o s
  | .writeFeed o => Sys2Proof.Machine.execWriteFeed o s
  | .start o => Sys2Proof.Machine.execStart o s
  | .stop o first => Sys2Proof.Machine.execStop o first s
  | .restart o first => Sys2Proof.Machine.execRestart o first s
  | .readLine o => Sys2Proof.Machine.execReadLine o s
  | .writeHeader o => Sys2Proof.Machine.execWriteHeader o s
  | .writeOutput o => Sys2Proof.Machine.execWriteOutput o s
  | .appendTap o => Sys2Proof.Machine.execAppendTap o s
  | .replaceTap o => Sys2Proof.Machine.execReplaceTap o s
  | .truncate o => Sys2Proof.Machine.execTruncate o s
  | .copyLive o => Sys2Proof.Machine.execCopyLive o s
  | .readBank o => Sys2Proof.Machine.execReadBank o s
  | .commit o => Sys2Proof.Machine.execCommit o s
  | .cancel o => Sys2Proof.Machine.execCancel o s
  | .revert o => Sys2Proof.Machine.execRevert o s
  | .writeProfile o => Sys2Proof.Machine.execWriteProfile o s
  | .readProfile o => Sys2Proof.Machine.execReadProfile o s
  | .readGuard o => Sys2Proof.Machine.execReadGuard o s
  | .release o => Sys2Proof.Machine.execRelease o s
  | .readEvents o => Sys2Proof.Machine.execReadEvents o s
  | .clearEvents o => Sys2Proof.Machine.execClearEvents o s
  | .readAndClear o => Sys2Proof.Machine.execReadAndClear o s
  | .writeEnables o => Sys2Proof.Machine.execWriteEnables o s
  | .writeHoldoff o => Sys2Proof.Machine.execWriteHoldoff o s
  | .readCheck o => Sys2Proof.Machine.execReadCheck o s
  | .clearCheck o => Sys2Proof.Machine.execClearCheck o s
  | .writeMode o => Sys2Proof.Machine.execWriteMode o s
  | .readBadBlocks o => Sys2Proof.Machine.execReadBadBlocks o s
  | .setUp o => Sys2Proof.Machine.execSetUp o s
  | .arm o => Sys2Proof.Machine.execArm o s
  | .captureTrigger o => Sys2Proof.Machine.execCaptureTrigger o s
  | .captureStop o => Sys2Proof.Machine.execCaptureStop o s
  | .readCapture o => Sys2Proof.Machine.execReadCapture o s
  | .readSamples o => Sys2Proof.Machine.execReadSamples o s
  | .readLink o => Sys2Proof.Machine.execReadLink o s
  | .clearCounters o => Sys2Proof.Machine.execClearCounters o s
  | .lockOrder o => Sys2Proof.Machine.execLockOrder o s

end Sys2Proof.Machine
end

