-- ==== Sys2Proof/Machine/Step.lean ====
section
/-! DEFINITION. One step of the part: the command at the front of the queue, or, on an empty queue, the end of the frame
period in progress (log 4). -/

namespace Sys2Proof.Machine

/-- The command at the front of the queue is executed on the state with the queue's rest. On an empty queue the frame
period in progress ends; where none is, the part idles (log 4). -/
def step (s : State) : Host.Outcome State Fault Refusal :=
  match s.pending with
  | [] => .next (endPeriod s)
  | c :: rest => exec c { s with pending := rest }

/-- The state with the command that a word spells at the front of the queue. No word spells one (log 27). -/
def State.withFetchWord (s : State) (nbits w : Nat) : State :=
  match decodeTableWord nbits w with
  | some c => { s with pending := c :: s.pending }
  | none => s

end Sys2Proof.Machine
end

