-- ==== Sys2Proof/Safety.lean ====
section
/-! DEFINITION. What statements about the part are said in: an order as it reaches its owner, its return, the conditions of its
execution, and the laws of the device (R6, R7, R13, R25, R48, R51, R57, R73, R107, R126, R129). -/

namespace Sys2Proof.Machine

/-! ### Orders -/

/-- The state that the owner of a direct order sees: the decoder's completed order is no longer waiting where it is this
one, and protection has moved under R123. Nothing else differs from `s`. -/
def opened (v : Verb) (o : Order) (s : State) : State :=
  withProtection (protectionBefore v o s.decoder.protection) (consume v.sec v.num o s)

/-- A state with the return of a direct order at the tail of its return queue (R120, R121). -/
def returned (v : Verb) (o : Order) (r : Reply) (s : State) : State := enqueue v.sec v.num o.tag (v.resets r) r s

/-- Orders reach the part: it is not held in reset (R166); its receiver is LOCKED with LOST clear (R93, R103, R104, R169); no
frame that FIRE_FRAME has begun waits for its handling (log 14); and the frame period in progress, if one is, gave its service
word to the order decoder, in which an order can end (R95, R98, R99, R113). -/
abbrev OrdersReach (s : State) : Prop :=
  s.pins.resetHeld = false ∧ s.link.receive = .locked ∧ s.link.lost = false ∧ s.begun = none ∧
    (s.period.map (·.gaveWord)).getD true = true

/-- A direct order of a verb reaches its owner: orders reach the part, the return queue has room, the body length is allowed,
and for a protected verb protection is OPEN (R120). -/
abbrev DirectReady (v : Verb) (o : Order) (s : State) : Prop :=
  OrdersReach s ∧ o.via = .direct ∧ s.arbiter.returns.length < 8 ∧ v.lengthOk o = true ∧
    (v.guarded = true → s.decoder.protection = .open_)

/-- A group or broadcast order of a verb reaches its owner where the verb is group-capable (R122). -/
abbrev GroupReady (v : Verb) (o : Order) (s : State) : Prop :=
  OrdersReach s ∧ o.via = .group ∧ v.lengthOk o = true

/-- The state that the owner of a group or broadcast order sees: the decoder's completed order is no longer waiting where
it is this one. Nothing else differs from `s`; protection stays (R123). -/
def heard (v : Verb) (o : Order) (s : State) : State := consume v.sec v.num o s

/-- The verb of a command that is an order of an assigned verb (R119). -/
def commandVerb : Instr → Option Verb
  | .ident _ => some Verb.ident
  | .go _ => some Verb.go
  | .standby _ => some Verb.standby
  | .silence _ => some Verb.silence
  | .resume _ => some Verb.resume
  | .sweep _ => some Verb.sweep
  | .unlock _ => some Verb.unlock
  | .lockOrder _ => some Verb.lock
  | .setAddress _ => some Verb.setAddress
  | .reset _ => some Verb.reset
  | .writeInMap _ => some Verb.writeInMap
  | .writeOutMap _ => some Verb.writeOutMap
  | .readMap _ => some Verb.readMap
  | .writeWindow _ => some Verb.writeWindow
  | .writeFeed _ => some Verb.writeFeed
  | .start _ => some Verb.start
  | .stop _ _ => some Verb.stop
  | .restart _ _ => some Verb.restart
  | .readLine _ => some Verb.readLine
  | .writeHeader _ => some Verb.writeHeader
  | .writeOutput _ => some Verb.writeOutput
  | .appendTap _ => some Verb.appendTap
  | .replaceTap _ => some Verb.replaceTap
  | .truncate _ => some Verb.truncate
  | .copyLive _ => some Verb.copyLive
  | .readBank _ => some Verb.readBank
  | .commit _ => some Verb.commit
  | .cancel _ => some Verb.cancel
  | .revert _ => some Verb.revert
  | .writeProfile _ => some Verb.writeProfile
  | .readProfile _ => some Verb.readProfile
  | .readGuard _ => some Verb.readGuard
  | .release _ => some Verb.release
  | .readEvents _ => some Verb.readEvents
  | .clearEvents _ => some Verb.clearEvents
  | .readAndClear _ => some Verb.readAndClear
  | .writeEnables _ => some Verb.writeEnables
  | .writeHoldoff _ => some Verb.writeHoldoff
  | .readCheck _ => some Verb.readCheck
  | .clearCheck _ => some Verb.clearCheck
  | .writeMode _ => some Verb.writeMode
  | .readBadBlocks _ => some Verb.readBadBlocks
  | .setUp _ => some Verb.setUp
  | .arm _ => some Verb.arm
  | .captureTrigger _ => some Verb.captureTrigger
  | .captureStop _ => some Verb.captureStop
  | .readCapture _ => some Verb.readCapture
  | .readSamples _ => some Verb.readSamples
  | .readLink _ => some Verb.readLink
  | .clearCounters _ => some Verb.clearCounters
  | _ => none

/-- The state in which a command meets the decoder: a STOP or a RESTART with `faultFirst` finds the fault of its line
taken (R16). -/
def met : Instr → State → State
  | .stop o faultFirst, s => faultAhead faultFirst o s
  | .restart o faultFirst, s => faultAhead faultFirst o s
  | _, s => s

/-- DONE with a detail and nothing further. -/
def Reply.done (detail : Nat) : Reply := { result := .done, detail, more := [] }

/-- DONE with detail 0 and further words. -/
def Reply.reads (more : List Word) : Reply := { result := .done, detail := 0, more }

/-- A refusal. -/
def Reply.refusal (r : Result) (detail : Nat) : Reply := { result := r, detail, more := [] }

/-- The reply of the first test, in order, whose condition holds. -/
def firstFailing (tests : List (Bool × Reply)) : Option Reply := (tests.find? (·.1)).map (·.2)

/-- How a command of a group-capable verb ends with a reply and an effect of its owner: as a direct order with a return, as
a group or broadcast order with GROUP-REFUSED where it is refused (R120, R122). -/
def Answers (c : Instr) (v : Verb) (o : Order) (s : State) (r : Reply) (effect : State → State) : Prop :=
  (DirectReady v o s → exec c s = .next (returned v o r (effect (opened v o s)))) ∧
    (GroupReady v o s →
      exec c s = .next (if r.taken then effect (heard v o s) else raiseRefused v.sec v.num r.result (heard v o s)))

/-- A bank in role STAGED, with the scene store that holds other contents in it. -/
def StagedIs (sc : Scenes) (b : BankSlot) (edit : Bank → Scenes) : Prop :=
  (sc.a.role = .staged ∧ b = sc.a ∧ edit = fun k => { sc with a := { sc.a with bank := k } }) ∨
    (sc.a.role ≠ .staged ∧ sc.b.role = .staged ∧ b = sc.b ∧ edit = fun k => { sc with b := { sc.b with bank := k } })

/-- The bank that holds a role, and whether it is bank B. -/
def HoldsRole (sc : Scenes) (r : Role) (isB : Bool) (b : BankSlot) : Prop :=
  (sc.a.role = r ∧ b = sc.a ∧ isB = false) ∨ (sc.a.role ≠ r ∧ sc.b.role = r ∧ b = sc.b ∧ isB = true)

/-- `t` is `s` after a role change: both roles replaced, the phases and the in-use set following them, the changer's new
values, and the outputs whose profile in force has changed brought within the new one (R35, R37, R48, R74). Nothing else
differs. -/
def RoleChanged (f : Role → Role) (ch : Changer) (s t : State) : Prop :=
  ∃ (phasesA phasesB : List Nat) (inUse : BitVec 64) (outputs : Vector GuardRec 32),
    t =
      { s with
        scenes :=
          { a := { s.scenes.a with role := f s.scenes.a.role, phases := phasesA }
            b := { s.scenes.b with role := f s.scenes.b.role, phases := phasesB }
            inUse }
        changer := ch
        guard := { s.guard with outputs } } ∧
    (∀ (b : BankSlot) (phases : List Nat), b = s.scenes.a ∧ phases = phasesA ∨ b = s.scenes.b ∧ phases = phasesB →
      phases =
        if f b.role = .staged then []
        else if f b.role = .incoming ∨ f b.role = .live ∧ b.role = .armed then
          b.bank.taps.map fun x => (x.modulation.map (·.start)).getD 0
        else b.phases) ∧
    (∀ n : Line,
      inUse.getLsbD n.val = true ↔
        (f s.scenes.a.role ≠ .staged ∧ ∃ x ∈ s.scenes.a.bank.taps, x.line = n) ∨
          (f s.scenes.b.role ≠ .staged ∧ ∃ x ∈ s.scenes.b.bank.taps, x.line = n)) ∧
    ∀ c : Output,
      let old := profileInForce s.changer.state s.scenes c
      let new := profileInForce ch.state t.scenes c
      let p := s.guard.profiles[new]
      let g := s.guard.outputs[c]
      outputs[c] =
        if old = new then g
        else
          { g with
            trim := if p.maxSteps < g.trim then p.maxSteps else g.trim
            strain := if p.strainLimit ≤ g.strain then p.strainLimit - 1 else g.strain }

/-! ### Scene changes, captures and frame periods -/

/-- The roles after a commit has fired with a fade (R55). -/
def firedRole : Role → Role
  | .armed => .incoming
  | .live => .outgoing
  | r => r

/-- The roles after a commit has fired without a fade (R56). -/
def switchedRole : Role → Role
  | .armed => .live
  | .live => .staged
  | r => r

/-- The roles after the forward end of a fade (R58). -/
def endedRole : Role → Role
  | .incoming => .live
  | .outgoing => .staged
  | r => r

/-- The roles after the end of a reverted fade (R59). -/
def revertedRole : Role → Role
  | .outgoing => .live
  | .incoming => .staged
  | r => r

/-- The roles after an armed commit has been cancelled (R63). -/
def withdrawnRole : Role → Role
  | .armed => .staged
  | r => r

/-- The changer in STEADY (R47). -/
def steadyChanger : Changer :=
  { state := .steady, target := none, length := 0, position := 0, direction := .forward }

/-- A capture after a trigger in a frame period: it is taken in WAITING and ROLLING, and only where the engine processes a
frame (R151, R152). -/
def triggered (processed : Bool) (seq : Seq) (c : Capture) : Capture :=
  if processed = true ∧ (c.state = .waiting ∨ c.state = .rolling) then
    { c with
      state := .post
      remaining := if c.state = .waiting then c.setUp.extent else c.setUp.extent + 1
      record := { c.record with triggerIndex := some c.writeIndex, triggerSeq := some seq } }
  else c

/-- The flags of a list raised, one after another (R132). -/
def raisedAll (fs : List Flag) (s : State) : State := fs.foldl (fun t f => raise f t) s

/-- Every window of a line not OFF, and the block that the sweep stands at, lie in blocks 0 to 16383 (R2). -/
def BlocksExist (s : State) : Prop :=
  (∀ n : Line, (lineOf s n).state ≠ .off → (lineOf s n).base + (lineOf s n).length ≤ 16384) ∧ s.mem.sweep.block < 16384

/-- What the receiver makes of a frame period ahead of the engine's part in it (R92 to R104). -/
structure Settlement where
  seq : Seq
  /-- The receiver's values. -/
  link : Link
  /-- The node state with the silence causes moved (R160). -/
  node : NodeState
  /-- The changer is offered the sequence (R54). -/
  offered : Bool
  /-- A sequence jump (R96). -/
  jump : Bool
  /-- LINK becomes set (R101). -/
  linkSet : Bool
  /-- LOST becomes set (R100). -/
  lostSet : Bool
  /-- RUN is left, so the guard block is abandoned (R78). -/
  leftRun : Bool

/-- `b` is `s` with a frame period begun and settled: what befalls the devices, a frame of sizing counted (R3), the commit
that fires (R54) or that a link event cancels (R63), the flags raised, the capture recorder's offers (R151), protection closed
where LINK becomes set (R101), and the guard block abandoned where RUN is left (R78). Nothing else differs. -/
def Settlement.Gives (x : Settlement) (memory : List Disturbance) (s b : State) : Prop :=
  let armed := s.changer.state == .armed
  let fires := x.offered && armed && s.changer.target == some x.seq
  let cancelled := armed && !fires && (x.jump || x.linkSet || x.lostSet)
  let told :=
    raisedAll
      ((if x.jump then [Flag.sequenceJump] else []) ++ (if x.linkSet then [Flag.linkFault] else []) ++
        (if x.lostSet then [Flag.linkLost] else []) ++ if cancelled then [Flag.commitLost] else [])
      (if fires && s.changer.length == 0 then raiseCommitDone .notReverted s else s)
  let offer (o : Bool) (t : Trigger) (c : Capture) : Capture :=
    if o && c.setUp.trigger == t then triggered (engineRuns s.node.state) x.seq c else c
  ∃ v : State,
    (fires = true → s.changer.length = 0 → RoleChanged switchedRole steadyChanger s v) ∧
    (fires = true → s.changer.length ≠ 0 →
      RoleChanged firedRole
        { state := .fading, target := none, length := s.changer.length, position := 1, direction := .forward } s v) ∧
    (cancelled = true → RoleChanged withdrawnRole steadyChanger s v) ∧
    (fires = false → cancelled = false → v = s) ∧
    b =
      { s with
        link := x.link
        device := memory.foldl Device.disturb s.device
        mem := { s.mem with sizing := if s.node.state = .sizing then s.mem.sizing + 1 else s.mem.sizing }
        scenes := v.scenes
        changer := v.changer
        guard := if x.leftRun then v.guard.abandon else v.guard
        capture := offer x.linkSet .linkFault (offer true (.sequence x.seq) s.capture)
        decoder := if x.linkSet then { s.decoder with protection := .closed } else s.decoder
        events := told.events
        slot := told.slot
        node := { s.node with state := x.node }
        sent := []
        period := b.period
        begun := none }

/-- A frame as a node builds it: sync A5h in bits 31–24 of word 0, the sequence in 23–8, the service kind in 7 and 6,
DAMAGED in 5; the audio slots; the service word; and the CRC-32 of words 0 to 65 (R110, R172). -/
def frameOf (seq : Seq) (damaged : Bool) (slots : Vector Word 64) (kind : ServiceKind) (service : Word) : Frame :=
  let code := match kind with
    | .idle => 0
    | .head => 1
    | .body => 2
    | .tail => 3
  let head := word (0xA5 * 2 ^ 24 + seq.toNat * 2 ^ 8 + code * 2 ^ 6 + bit damaged * 2 ^ 5)
  { head, slots, service, check := crc32 (head :: (slots.toList ++ [service])) }

/-- The audio slots of a frame, from those given: a mapped slot holds VALID with the saturated output value in RUN and SILENT
and 0 in every other node state; an unmapped slot passes on (R109). -/
def SlotsWritten (b : State) (value : Output → Int) (given slots : Vector Word 64) : Prop :=
  (∀ (c : Output) (i : Slot), b.maps.output[c] = some i →
    slots[i] =
      if b.node.state = .run ∨ b.node.state = .silent then word (2 ^ 31 + (toSample (value c)).toNat) else 0) ∧
    ∀ i : Slot, (∀ c : Output, b.maps.output[c] ≠ some i) → slots[i] = given[i]

/-- The record of a frame period as its handling leaves it, on the state `b` ahead of the engine. -/
def handledPeriod (b : State) (seq : Seq) (gaveWord : Bool) (out : EngineOut) : Period :=
  { seq, processed := engineRuns b.node.state, counts := b.node.state == .run, clipDue := out.clipDue, released := []
    faultDue := out.faultDue, sample := out.sample, ownStart := none, returnLeft := false, resetDue := false
    leaving := b.node.leaving, leftRun := false, blockDone := false, rampDone := false, gaveWord }

/-- `b` with what the engine's part of a frame period changes (R40, R20). -/
def engined (seq : Seq) (gaveWord : Bool) (inputs : Vector Int 24) (b : State) : State :=
  let e := engineStep seq inputs b
  { b with
    lines := e.lines, mem := e.mem, device := e.device, scenes := e.scenes, guard := e.guard, events := e.events
    slot := e.slot, checks := e.checks, fresh := e.fresh
    period := some (handledPeriod b seq gaveWord (engineResult seq inputs b)) }

/-- `u` is `b` with a frame period handled in which the node sends a frame: the engine's part; what the decoder heard, its
discards counted (R111); the arbiter's choice (R125, R127); the frame with its service word, or waiting for the HEAD of an own
message; and LINK-RESTORED where the fault causes are clear and restore pending is set (R102). Nothing else differs. -/
def HandledAs (b : State) (waiting gaveWord : Bool) (seq : Seq) (inputs : Vector Int 24) (given : Vector Word 64) (damaged : Bool)
    (h : Heard) (u : State) : Prop :=
  let e := engined seq gaveWord inputs b
  let choice : Choice :=
    match h.abandoned with
    | some m => b.arbiter.chooseAbandoned waiting (some m) e.slot
    | none => b.arbiter.choose waiting h.arriving e.slot
  let restored := b.link.restorePending && !b.link.link && !b.link.lost
  ∃ slots : Vector Word 64,
    SlotsWritten b (frameOutput b (frameReads b inputs seq)) given slots ∧
      let sent : List Frame :=
        match choice.leaving with
        | .word k w => [frameOf seq damaged slots k w]
        | .start _ => []
      let own : Option (OwnStart × Draft) :=
        match choice.leaving with
        | .word _ _ => none
        | .start o => some (o, { seq, damaged, slots })
      let v : State :=
        { e with
          link :=
            { b.link with
              discarded := min 4294967295 (b.link.discarded + h.discards)
              restorePending := b.link.restorePending && !restored }
          decoder := h.decoder
          arbiter := choice.arbiter
          slot := choice.slot
          sent
          period :=
            e.period.map fun p =>
              { p with ownStart := own, returnLeft := choice.returnLeft, resetDue := choice.resetLeft } }
      u = if restored then raise .linkRestored v else v

/-- The receiver's values with an arrival whose sync is good judged in SEARCH: a run of three good arrivals that follow each
other locks it (R93, R94). -/
def arrivalJudged (f : Frame) (l : Link) : Link :=
  let run := if f.checkGood = false then 0 else if 0 < l.lockRun ∧ f.seq ≠ l.lockSeq + 1 then 1 else l.lockRun + 1
  let lockSeq := if f.checkGood then f.seq else l.lockSeq
  if 3 ≤ run then
    { l with
      receive := .locked, lockRun := 0, lockSeq, missing := 0, startUp := false
      expected := if l.startUp then lockSeq + 1 else l.expected }
  else { l with lockRun := run, lockSeq }

/-- A receiver in SEARCH judges the arrivals of a frame period, giving `k`, those of `taken`: every arrival with good sync in
order, up to the one that locks it; where there is none the lock run becomes 0 (R91, R94; log 17). -/
def Judges (arrivals : List Frame) (l k : Link) (taken : List Frame) : Prop :=
  let good := arrivals.filter fun f => bitsAt f.head 31 24 == 0xA5
  (good = [] → taken = [] ∧ k = { l with lockRun := 0 }) ∧
    (good ≠ [] → k = taken.foldl (fun l f => arrivalJudged f l) l) ∧
    (∃ rest, good = taken ++ rest ∧ (rest ≠ [] → k.receive = .locked)) ∧
    ∀ some_ rest, taken = some_ ++ rest → rest ≠ [] →
      (some_.foldl (fun l f => arrivalJudged f l) l).receive = .search

/-- The close of a frame period that is in progress in a part not held in reset: `u` is the state with the own message's HEAD
and the completed order taken (log 3, log 13), `p` the period in it, and `t` the state after the close (log 2). -/
def Closes (s u : State) (p : Period) (t : State) : Prop :=
  s.pins.resetHeld = false ∧ s.period ≠ none ∧ u = runReady (startOwn s) ∧ u.period = some p ∧ t = endPeriod s

/-- A command that brings a frame period (R93 to R104). -/
def framePeriodCommand : Instr → Bool
  | .startUpSearchPeriod _ _ => true
  | .goodFrame _ _ => true
  | .badFrame _ _ => true
  | .missingFramePeriod _ => true
  | .linkLost _ => true
  | .localFrame _ _ => true
  | .resumptionFrame _ _ => true
  | _ => false

/-- What a block end makes of an output's guard record, and the event it raises (R79). An output that a RELEASE has brought
out of MUTED in the frame period is not judged (R86). -/
def judgedAt (s : State) (p : Period) (c : Output) : GuardRec × Option Flag :=
  if c ∈ p.released then (s.guard.outputs[c], none)
  else (s.guard.outputs[c]).judge s.guard.profiles[profileInForce s.changer.state s.scenes c]

/-- The block end of a frame period is due: its frame counts for the guard, and 47 frames of the block have gone before (R78,
R79). -/
abbrev BlockDue (s : State) (p : Period) : Prop := p.counts = true ∧ p.blockDone = false ∧ 47 ≤ s.guard.blockCount

/-- An output's guard record and event as the close of a frame period finds or makes them, ahead of its clip mutes (R79). -/
def blockJudged (s : State) (p : Period) (c : Output) : GuardRec × Option Flag :=
  if BlockDue s p then judgedAt s p c else (s.guard.outputs[c], none)

/-- The close of a frame period mutes the output for its clip run (R82). -/
def clipMutedAt (s : State) (p : Period) (c : Output) : Bool :=
  decide (c ∈ p.clipDue) && (blockJudged s p c).1.state != .muted

/-- Guard events of outputs, the event of each given, meet a trigger (R83, R151). -/
def guardMeets (t : Trigger) (event : Output → Option Flag) : Bool :=
  match t with
  | .guardStep c => event c == some .guardStep
  | .guardMute c => event c == some .guardMute
  | .anyGuard => (List.finRange 32).any fun c => event c == some .guardStep || event c == some .guardMute
  | _ => false

/-- The capture as the close of a frame period brings it to the sampling step: with the trigger taken where a guard event of
the close meets it (R149, R151). -/
def captureAtClose (s : State) (p : Period) : Capture :=
  let t := s.capture.setUp.trigger
  if guardMeets t (fun c => (blockJudged s p c).2) ||
      guardMeets t fun c => if clipMutedAt s p c then some Flag.guardMute else none then
    triggered p.processed p.seq s.capture
  else s.capture

/-- Every PRESENT rank goes on answering (R4; log 6). -/
def Answering (s : State) : Prop := ∀ r : Rank, s.mem.present[r] = true → s.device.life[r] = none

/-- The word that a position of a line's window lies at (R2). -/
def wordAt (l : LineRec) (position : Nat) : Nat := 1024 * l.base + position

/-- What a read of a line at a delay returns where every PRESENT rank answers: the sample `delay` frames back in a RUNNING
line, corrected where one bit is wrong; 0 for a delay outside the window, an uncorrectable word, an ABSENT rank and a line
not RUNNING (R4, R9, R15, R16). -/
def readAt (s : State) (n : Line) (delay : Nat) : Int :=
  let l := lineOf s n
  let size := 1024 * l.length
  let a := wordAt l ((l.position + size - delay) % size)
  if l.state = .running ∧ 1 ≤ delay ∧ delay < size ∧ s.mem.present[Fin.ofNat 4 (a / 4194304)] = true then
    match checkWord (s.device.words.read a ^^^ s.device.defects.read a) with
    | .sound x => x.toInt
    | .corrected x _ => x.toInt
    | .uncorrectable => 0
  else 0

/-- The product that a feed term gives (R8). -/
def termValue (s : State) (inputs : Vector Int 24) : Term → Int
  | .input c g => inputs[c] * g.toInt
  | .line n delay g => readAt s n delay * g.toInt

/-- The sample that a tap gives at a modulation phase (R38, R39). -/
def tapValue (s : State) (t : Tap) (phase : Nat) : Int :=
  let d := tapDelay t phase
  if d.2 = 0 then readAt s t.line d.1
  else interpolate (readAt s t.line d.1) (readAt s t.line (d.1 + 1)) d.2

/-- The products of a bank's taps, in list order, while it is active (R41, R42). -/
def tapsHeard (s : State) (b : BankSlot) : List (Output × Int) :=
  if b.role = .live ∨ b.role = .incoming ∨ b.role = .outgoing then
    b.bank.taps.zipIdx.map fun x => (x.1.output, tapValue s x.1 (b.phases.getD x.2 0) * x.1.gain.toInt)
  else []

/-- The node state goes with the silence causes: RUN with none, SILENT with one or more (R160). -/
def NodeFollows (s : State) : Prop :=
  (s.node.state = .run → s.link.link = false ∧ s.link.lost = false ∧ s.node.orderCause = false) ∧
    (s.node.state = .silent → s.link.link = true ∨ s.link.lost = true ∨ s.node.orderCause = true)

/-- Every block is at its reset values, with the node pattern, the node mask and the bad-block map as given (R166, R168). -/
def AtResetValues (pattern mask : BitVec 8) (bad : List Nat) (t : State) : Prop :=
  t.link = Link.initial ∧ t.maps = Maps.initial ∧ t.lines = Vector.replicate 64 LineRec.initial ∧
    t.mem = MemCtl.initial bad ∧ t.scenes = Scenes.initial ∧ t.changer = Changer.steady ∧ t.guard = Guard.initial ∧
    t.capture = Capture.initial ∧ t.decoder = Decoder.initial pattern mask ∧ t.arbiter = Arbiter.initial ∧
    t.slot = { state := .waiting, repeatMark := false } ∧ t.events = Events.initial ∧ t.checks = Checks.initial ∧
    t.node = Node.initial ∧ t.sent = [] ∧ t.period = none ∧ t.begun = none

/-! ### The laws of the device -/

/-- No line's recirculation sum exceeds 31129, its damping is within range, and it has at most six terms (R1, R7). -/
def FeedLaw (s : State) : Prop :=
  ∀ n : Line,
    recirculation (lineOf s n).feed ≤ 31129 ∧ (lineOf s n).damping ≤ 32440 ∧ (lineOf s n).feed.length ≤ 6

/-- A bank's cost never exceeds 512 (R25). -/
def CostLaw (s : State) : Prop :=
  tapsCost s.scenes.a.bank.taps ≤ 512 ∧ tapsCost s.scenes.b.bank.taps ≤ 512

/-- The role pair of the two banks goes with the changer state (R48). -/
def rolePair (st : ChangerState) (a b : Role) : Bool :=
  match st with
  | .steady => (a == .live && b == .staged) || (a == .staged && b == .live)
  | .armed => (a == .live && b == .armed) || (a == .armed && b == .live)
  | .fading => (a == .outgoing && b == .incoming) || (a == .incoming && b == .outgoing)

/-- What the changer's items are in each of its states (R47, R57). -/
def changerHolds (c : Changer) : Bool :=
  match c.state with
  | .steady => c.target.isNone && c.length == 0 && c.position == 0 && c.direction == .forward
  | .armed => c.target.isSome && decide (c.length ≤ 96000) && c.position == 0 && c.direction == .forward
  | .fading =>
    c.target.isNone && decide (c.length ≤ 96000) && decide (c.position ≤ c.length) &&
      (c.direction == .back || decide (1 ≤ c.position))

/-- Roles and changer agree, the changer's items are in their ranges, and the headers' default fades are in range
(R23, R47, R48, R57). -/
def ChangerLaw (s : State) : Prop :=
  rolePair s.changer.state s.scenes.a.role s.scenes.b.role = true ∧ changerHolds s.changer = true ∧
    s.scenes.a.bank.defaultFade ≤ 96000 ∧ s.scenes.b.bank.defaultFade ≤ 96000

/-- No two output channels of the output map name the same frame slot (R107). -/
def OutputMapLaw (s : State) : Prop :=
  ∀ c d : Output, ∀ i : Slot, s.maps.output[c] = some i → s.maps.output[d] = some i → c = d

/-- The in-use set is the one recomputed from the banks and their roles (R35). -/
def InUseLaw (s : State) : Prop := s.scenes.inUse = s.scenes.recompute.inUse

/-- The lines of the clearing work list are the lines in CLEARING, each once (R11). -/
def ClearingLaw (s : State) : Prop :=
  s.mem.clearing.Nodup ∧ ∀ n : Line, n ∈ s.mem.clearing ↔ (lineOf s n).state = .clearing

/-- In SIZING and SWEEP every line is OFF (R3, R20). -/
def QuietLaw (s : State) : Prop :=
  s.node.state = .sizing ∨ s.node.state = .sweep → ∀ n : Line, (lineOf s n).state = .off

/-- No two lines outside OFF have windows that share a block (R6). -/
def ApartLaw (s : State) : Prop :=
  ∀ m n : Line, m ≠ n → (lineOf s m).state ≠ .off → (lineOf s n).state ≠ .off →
    ∀ b, ¬((lineOf s m).covers b = true ∧ (lineOf s n).covers b = true)

/-- A line's base block and length are in their ranges, and the window of a line outside OFF ends within the rank of its
base block (R1, R6). -/
def WindowLaw (s : State) : Prop :=
  ∀ n : Line,
    (lineOf s n).base ≤ 16383 ∧ 1 ≤ (lineOf s n).length ∧ (lineOf s n).length ≤ 256 ∧
      ((lineOf s n).state ≠ .off → (lineOf s n).base % 4096 + (lineOf s n).length ≤ 4096)

/-- No window of a line in CLEARING or RUNNING contains a marked bad block or a block of an absent rank (R6). -/
def SoundLaw (s : State) : Prop :=
  ∀ n : Line, (lineOf s n).state = .clearing ∨ (lineOf s n).state = .running →
    ∀ b, (lineOf s n).covers b = true → b ∉ s.mem.badBlocks ∧ s.mem.present[rankOfBlock b] = true

/-- The law of placement with what it needs of the lines and the node (R6, R11). -/
def PlacementLaw (s : State) : Prop := ClearingLaw s ∧ QuietLaw s ∧ WindowLaw s ∧ ApartLaw s ∧ SoundLaw s

/-- The law of placement, and the block the sweep stands at lies in the delay memory (R2, R6). -/
def ExistsLaw (s : State) : Prop := PlacementLaw s ∧ s.mem.sweep.block < 16384

/-- The taps that a bank's role puts in service: those of every role but STAGED (R26, R35). -/
def BankSlot.inService (b : BankSlot) : List Tap := if b.role = .staged then [] else b.bank.taps

/-- A tap stands on its line: the line is not OFF, and base delay plus depth is below its length in samples (R13, R51). -/
def tapStands (s : State) (t : Tap) : Prop :=
  (lineOf s t.line).state ≠ .off ∧ t.delay + ((t.modulation.map (·.depth)).getD 0) < (lineOf s t.line).samples

/-- Every tap of a bank in role LIVE, ARMED, INCOMING or OUTGOING stands on its line (R13, R51). -/
def TapLaw (s : State) : Prop :=
  (∀ t ∈ s.scenes.a.inService, tapStands s t) ∧ ∀ t ∈ s.scenes.b.inService, tapStands s t

/-- The laws about banks, roles and lines together: R13 and R51 rest on R35 and R48. -/
def SceneLaw (s : State) : Prop := ChangerLaw s ∧ InUseLaw s ∧ TapLaw s

/-- Each output's trim step is within the max steps of its profile in force and its strain count below the strain limit,
every profile having a strain limit above 0, the roles being a pair of R48 (R70, R73). -/
def TrimLaw (s : State) : Prop :=
  ChangerLaw s ∧ (∀ p : Fin 8, 1 ≤ s.guard.profiles[p].strainLimit) ∧
    ∀ c : Output,
      s.guard.outputs[c].trim ≤ (inForce s c).maxSteps ∧ s.guard.outputs[c].strain < (inForce s c).strainLimit

/-- The ramps and counts of the guard and the node are in their ranges (R73, R158). -/
def RampLaw (s : State) : Prop :=
  s.node.ramp ≤ 480 ∧ ∀ c : Output,
    s.guard.outputs[c].ramp ≤ 48 ∧ s.guard.outputs[c].peak ≤ 8388608 ∧ s.guard.outputs[c].clip ≤ 255

/-- An output carries a mute cause exactly while it is MUTED (R73). -/
def MuteLaw (s : State) : Prop :=
  ∀ c : Output, (s.guard.outputs[c].cause.isSome = true ↔ s.guard.outputs[c].state = .muted)

/-- The link receiver's counts are in their ranges; restore pending is set while LINK or LOST is; the start-up search is
in SEARCH (R90, R102, R111). -/
def LinkLaw (s : State) : Prop :=
  s.link.lec ≤ 255 ∧ s.link.missing ≤ 4 ∧ s.link.lockRun < 3 ∧
    (s.link.link = true ∨ s.link.lost = true → s.link.restorePending = true) ∧
    (s.link.startUp = true → s.link.receive = .search) ∧
    s.link.goodFrames ≤ 4294967295 ∧ s.link.badFrames ≤ 4294967295 ∧ s.link.jumps ≤ 4294967295 ∧
    s.link.discarded ≤ 4294967295

/-- The return queue holds at most 8 returns, and the node pattern is not FFh (R113, R129). -/
def QueueLaw (s : State) : Prop := s.arbiter.returns.length ≤ 8 ∧ s.decoder.pattern ≠ 0xFF

/-- The transit queue holds at most 33 words; a return is a whole message of 3 to 34 words; an own message in progress, at
most 34 words long, has met at most one arriving word a frame period since its HEAD; and it starts with the transit queue
empty. A return whose END has left is the oldest until its frame period ends (R125, R126, R128, R129). -/
def TransitLaw (s : State) : Prop :=
  s.arbiter.transit.length ≤ 33 ∧ (∀ r ∈ s.arbiter.returns, 3 ≤ r.words.length ∧ r.words.length ≤ 34) ∧
    (∀ p : Nat, s.arbiter.sending = some (.ownReturn p) →
      ∃ (r : Return) (rest : List Return),
        s.arbiter.returns = r :: rest ∧ s.arbiter.transit.length < p ∧ p < r.words.length) ∧
    (∀ (ws : List Word) (p : Nat), s.arbiter.sending = some (.ownNotice ws p) →
      ws.length ≤ 34 ∧ s.arbiter.transit.length < p ∧ p < ws.length) ∧
    ∀ p : Period, s.period = some p →
      (∀ (o : OwnStart) (d : Draft), p.ownStart = some (o, d) →
        s.arbiter.transit = [] ∧ s.arbiter.own = none ∧ p.returnLeft = false ∧ (o = .ret → s.arbiter.returns ≠ [])) ∧
      (p.returnLeft = true → s.arbiter.own = none)

/-- A tap is one that APPEND-TAP takes: its base delay and, where it is modulated, its depth, period and start phase are in
their ranges (R24, R30). -/
def Tap.inRange (t : Tap) : Prop :=
  1 ≤ t.delay ∧ t.delay ≤ 262143 ∧
    ∀ m ∈ t.modulation, 1 ≤ m.depth ∧ m.depth ≤ 255 ∧ 480 ≤ m.period ∧ m.period ≤ 480000 ∧ m.start < m.period

/-- A bank's taps are in their ranges, and it holds one phase for each of them, below its period, while it is active, and none
in STAGED and ARMED (R24, R37). -/
def BankSlot.inRange (b : BankSlot) : Prop :=
  (∀ t ∈ b.bank.taps, t.inRange) ∧ (b.role = .staged ∨ b.role = .armed → b.phases = []) ∧
    (b.role ≠ .staged → b.role ≠ .armed → b.phases.length = b.bank.taps.length) ∧
    ∀ x ∈ b.bank.taps.zip b.phases, ∀ m ∈ x.1.modulation, x.2 < m.period

/-- The taps of both banks and their modulation phases are in their ranges (R24, R37). -/
def PhaseLaw (s : State) : Prop := s.scenes.a.inRange ∧ s.scenes.b.inRange

/-- A set-up is one that SET-UP takes: a length of 1 to 8192, or a post count of 0 to 8191 (R146, R147). -/
def SetUp.inRange (u : SetUp) : Prop :=
  (u.mode = .startOnTrigger → 1 ≤ u.extent ∧ u.extent ≤ 8192) ∧ (u.mode = .stopOnTrigger → u.extent ≤ 8191)

/-- The capture recorder's items are in their ranges: the write index, the remaining count, which has not reached 0 in POST,
the samples held, the indexes of the record, and the ring's positions; WAITING and ROLLING go with the mode (R146, R150,
R153). -/
def Capture.inRange (c : Capture) : Prop :=
  c.setUp.inRange ∧ c.writeIndex ≤ 8191 ∧ c.remaining ≤ 8192 ∧ c.record.held ≤ 8192 ∧
    c.record.triggerIndex.getD 0 ≤ 8191 ∧ c.record.endIndex.getD 0 ≤ 8191 ∧
    (c.state = .waiting → c.setUp.mode = .startOnTrigger) ∧ (c.state = .rolling → c.setUp.mode = .stopOnTrigger) ∧
    (c.state = .post → 1 ≤ c.remaining) ∧ Store.rising 0 c.ring = true ∧ ∀ x ∈ c.ring, x.1 ≤ 8191

/-- The capture recorder is in its ranges (R146). -/
def CaptureLaw (s : State) : Prop := s.capture.inRange

/-- The bad-block map holds block numbers of the delay memory, ascending and each at most once, and the sweep stands at a
block of it (R2, R19, R21). -/
def BadBlockLaw (s : State) : Prop :=
  s.mem.badBlocks.Pairwise (· < ·) ∧ (∀ b ∈ s.mem.badBlocks, b < 16384) ∧ s.mem.sweep.block < 16384

/-- In QUIET no enabled flag is set; a detail item is not empty only while its flag is set; the holdoff value is 48 to
12,240 frames in steps of 48 (R131, R133, R134). -/
def EventLaw (s : State) : Prop :=
  (s.events.notice = .quiet → s.events.pendingSet = 0) ∧
    (s.events.guardOutputs ≠ 0 →
      (s.events.has .guardStep || s.events.has .guardMute || s.events.has .guardRelease) = true) ∧
    (s.events.readyLines ≠ 0 → s.events.has .lineReady = true) ∧
    (s.events.faultedLines ≠ 0 → s.events.has .lineFault = true) ∧
    (s.events.groupRefused ≠ none → s.events.has .groupRefused = true) ∧
    (s.events.commitDetail ≠ .none → s.events.has .commitDone = true) ∧
    48 ≤ s.events.holdoff ∧ s.events.holdoff ≤ 12240 ∧ s.events.holdoff % 48 = 0

/-- The delay memory and the list of failing cells are in their canonical form (log 5). -/
def MemoryLaw (s : State) : Prop := Memory.wf s.device.words = true ∧ Memory.wf s.device.defects = true

end Sys2Proof.Machine
end

