-- ==== Sys2Proof/Certificates/Slice0/Obligations.lean ====
section
/-! DEFINITION. The statements for the provers. An order command is stated as it reaches its owner: `opened` and `heard`
(Safety.lean) are the state that the owner sees, `returned` adds the return. Where a statement gives a next state as one
record, everything that the record does not name is unchanged. -/

open Sys2Proof Sys2Proof.Machine

/-! ### The step, the queue and the resets -/

/-- A step runs the command at the front of the queue, on the state with the queue's rest. -/
def Obligations.StepRunsFrontCommand : Prop :=
  ∀ (c : Instr) (rest : List Instr) (s : State), s.pending = c :: rest → step s = exec c { s with pending := rest }

/-- On an empty queue the part idles, or the frame period in progress closes; a frame-period command closes it first too, so
it does the same from the closed state. The close starts an own message that waits and runs a completed order; a reset that
is due leaves the reset values (R167), those of items the spec gives none for being the model's (log 28); else the port, the
maps, the decoder, the checks and the devices stay, the return whose END left goes from the return queue (R129), and no
period is left. The model's choice of time and order (log 1, log 2, log 3, log 4, log 13). -/
def Obligations.EmptyQueueEndsTheFramePeriod : Prop :=
  (∀ s : State, s.pending = [] →
    (s.period = none ∨ s.pins.resetHeld = true → step s = .next s) ∧
      (s.period ≠ none → s.pins.resetHeld = false → step s = .next (endPeriod s) ∧ (endPeriod s).period = none)) ∧
  (∀ (c : Instr) (s : State), framePeriodCommand c = true → s.pins.resetHeld = false →
    exec c s = exec c (endPeriod s) ∨
      (exec c s = .next s ∧ exec c (endPeriod s) = .next (endPeriod s))) ∧
  ∀ (s u : State) (p : Period) (t : State), Closes s u p t →
    (p.resetDue = true →
      AtResetValues u.decoder.pattern u.decoder.mask u.mem.badBlocks t ∧ t.pins = u.pins ∧ t.pending = u.pending) ∧
    (p.resetDue = false →
      t.period = none ∧ t.maps = u.maps ∧ t.device = u.device ∧ t.decoder = u.decoder ∧ t.checks = u.checks ∧
        t.sent = u.sent ∧ t.pins = u.pins ∧ t.begun = u.begun ∧ t.pending = u.pending ∧
        t.mem.badBlocks = u.mem.badBlocks ∧ t.mem.corrected = u.mem.corrected ∧
        t.arbiter =
          { u.arbiter with returns := if p.returnLeft = true then u.arbiter.returns.tail else u.arbiter.returns })

/-- The machine right after reset meets every law that steps keep: of lines, placement and bad blocks (R1, R2, R6, R7, R11,
R19, R20), scenes and taps (R23 to R25, R35, R37), the changer (R47, R48, R51, R57), the guard (R70, R73), the receiver and
the output map (R90, R102, R107, R111), pattern and queues (R113, R126, R128, R129), events (R131, R133, R134), capture
(R146, R150, R153) and the node (R158, R160). The canonical form of the delay memory and of the failing cells is the model's
own law (log 5), as are the rising positions of the written part of the capture ring (log 9). -/
def Obligations.ResetMeetsEveryLaw : Prop :=
  FeedLaw State.reset ∧ CostLaw State.reset ∧ SceneLaw State.reset ∧ OutputMapLaw State.reset ∧
    ExistsLaw State.reset ∧ TrimLaw State.reset ∧ RampLaw State.reset ∧ MuteLaw State.reset ∧ LinkLaw State.reset ∧
    QueueLaw State.reset ∧ TransitLaw State.reset ∧ EventLaw State.reset ∧ BadBlockLaw State.reset ∧
    MemoryLaw State.reset ∧ NodeFollows State.reset ∧ PhaseLaw State.reset ∧ CaptureLaw State.reset

/-- The values that the spec gives each block for after the pin reset (R1, R3, R23, R26, R47, R70, R73, R90, R105, R107,
R111, R113, R125, R130, R131, R134, R143, R144, R146, R158). -/
def Obligations.ResetValuesAreTheSpecs : Prop :=
  let s := State.reset
  (∀ n : Line, lineOf s n =
    { state := .off, base := 0, length := 1, feed := [], damping := 0, position := 0, damped := 0 }) ∧
  ((∀ r : Rank, s.mem.present[r] = false ∧ s.mem.corrected[r] = 0) ∧ presentBlocks s.mem = 0 ∧ s.mem.badBlocks = [] ∧
    s.mem.clearing = [] ∧ s.mem.zeroed = 0 ∧ s.mem.sweep = { outcome := .none, rank := 0, block := 0, added := 0 }) ∧
  (∀ b : BankSlot, b = s.scenes.a ∨ b = s.scenes.b →
    b.bank.tag = 0 ∧ b.bank.defaultFade = 4800 ∧ b.bank.taps = [] ∧ b.phases = [] ∧
      ∀ c : Output, b.bank.outputs[c] = { enabled := false, gain := 16384, polarity := .normal, profile := 0 }) ∧
  (s.scenes.a.role = .live ∧ s.scenes.b.role = .staged ∧ s.scenes.inUse = 0) ∧
  s.changer = { state := .steady, target := none, length := 0, position := 0, direction := .forward } ∧
  (∀ p : Fin 8, s.guard.profiles[p] =
    { ceiling := 4194304, rise := 4, strainLimit := 64, maxSteps := 8, recovery := 2000, clipRun := 16 }) ∧
  (∀ c : Output, s.guard.outputs[c] =
    { state := .open_, cause := none, trim := 0, strain := 0, recovery := 0, clip := 0, ramp := 48, peak := 0 }) ∧
  s.guard.blockCount = 0 ∧
  (s.link.receive = .search ∧ s.link.startUp = true ∧ s.link.startUpCount = 0 ∧ s.link.lockRun = 0 ∧
    s.link.missing = 0 ∧ s.link.expected = 0 ∧ s.link.lec = 0 ∧ s.link.link = false ∧ s.link.lost = false ∧
    s.link.restorePending = false ∧ s.link.goodFrames = 0 ∧ s.link.badFrames = 0 ∧ s.link.jumps = 0 ∧
    s.link.discarded = 0) ∧
  ((∀ i : InCh, s.maps.input[i] = none) ∧ ∀ c : Output, s.maps.output[c] = none) ∧
  (s.capture.setUp = { source := .input 0, mode := .stopOnTrigger, extent := 4096, trigger := .manual } ∧
    s.capture.state = .idle ∧ s.capture.writeIndex = 0 ∧ s.capture.remaining = 0 ∧
    s.capture.record =
      { held := 0, wrapped := false, triggerIndex := none, triggerSeq := none, endIndex := none, endCause := none }) ∧
  (s.decoder.inbound = none ∧ s.decoder.buffer = [] ∧ s.decoder.mask = 0xFF ∧ s.decoder.protection = .closed) ∧
  (s.arbiter.sending = none ∧ s.arbiter.transit = [] ∧ s.arbiter.returns = []) ∧
  s.slot = { state := .waiting, repeatMark := false } ∧
  (s.events.flags = 1 ∧ s.events.enables = 0x1FFFF ∧ s.events.guardOutputs = 0 ∧ s.events.readyLines = 0 ∧
    s.events.faultedLines = 0 ∧ s.events.groupRefused = none ∧ s.events.commitDetail = .none ∧
    s.events.notice = .sent ∧ s.events.holdoff = 480 ∧ s.events.timer = 0) ∧
  (s.checks.seen = 0 ∧ s.checks.record = none ∧ s.checks.mode = .serious) ∧
  s.node = { state := .sizing, orderCause := false, ramp := 0, leaving := false, resetPending := false }

/-- While the reset pin is held the part sends no frame and no command but the pin's own does anything; at its release
every block takes its reset values, the pattern is loaded from the address pins, the mask becomes FFh and the bad-block
map is emptied (R166). That no other command does anything while the pin is held, and that PIN_RESET acts also where it was
not held, is the model's reading (log 23); so are the reset values of items the spec gives none for (log 28). -/
def Obligations.ResetPinHoldsAndReleasesThePart : Prop :=
  ∀ s : State,
    exec .resetPinAsserted s =
        .next { s with pins := { s.pins with resetHeld := true }, sent := [], period := none, begun := none } ∧
      (s.pins.resetHeld = true →
        ∀ c : Instr, c ≠ .resetPinAsserted → (∀ pins, c ≠ .pinReset pins) → exec c s = .next s) ∧
      ∀ pins : BitVec 6,
        ∃ t, exec (.pinReset pins) s = .next t ∧ AtResetValues (pins.setWidth 8) 0xFF [] t ∧
          t.pins = { resetHeld := false, address := pins }

/-- The RESET order: it is answered DONE with detail 0 and sets the reset pending mark and nothing else; its effect comes
at the end of the frame period in which its return's END left, keeps the node pattern, the node mask and the bad-block map
as then written, and gives every other item its reset value (R129, R167, R168), those of items the spec gives none for being
the model's (log 28). A completed order that waits in the decoder is executed first (log 3). -/
def Obligations.ResetOrderWaitsForItsReturn : Prop :=
  (∀ (o : Order) (s : State), DirectReady Verb.reset o s →
    exec (.reset o) s =
      .next
        (enqueue 0 9 o.tag true (Reply.done 0)
          { opened Verb.reset o s with node := { s.node with resetPending := true } })) ∧
    ∀ s : State, s.pins.resetHeld = false → (s.period.map (·.resetDue)) = some true →
      ∃ t, exec .resetTakesEffect s = .next t ∧
        AtResetValues (runReady s).decoder.pattern (runReady s).decoder.mask (runReady s).mem.badBlocks t ∧
        t.pins = s.pins ∧
        (s.decoder.ready = none →
          AtResetValues s.decoder.pattern s.decoder.mask s.mem.badBlocks t)

/-! ### Orders: tests and returns -/

/-- The numbers of the sections and verbs, which verbs are protected and group-capable, and the body lengths, what each
allows of an order's body, and how a body word and its bits are read (R119, R173); the codes that returns give states and
results as (R121, R158, R173, R174); the fields of the span frame and of a HEAD as they are read and built (R89, R110, R172,
R173). -/
def Obligations.VerbsAndCodesAreAsAssigned : Prop :=
  (∀ (o : Order) (b : Bool),
      [Instr.ident o, .go o, .standby o, .silence o, .resume o, .sweep o, .unlock o, .lockOrder o, .setAddress o,
          .reset o].map commandVerb =
        [some ⟨0, 0, false, false, .words 0⟩, some ⟨0, 1, false, false, .words 0⟩, some ⟨0, 2, false, false, .words 0⟩,
          some ⟨0, 3, false, true, .words 0⟩, some ⟨0, 4, false, true, .words 0⟩, some ⟨0, 5, false, false, .words 0⟩,
          some ⟨0, 6, false, false, .words 1⟩, some ⟨0, 7, false, false, .words 0⟩, some ⟨0, 8, true, false, .words 1⟩,
          some ⟨0, 9, true, false, .words 0⟩] ∧
      [Instr.writeInMap o, .writeOutMap o, .readMap o].map commandVerb =
        [some ⟨1, 0, false, false, .words 1⟩, some ⟨1, 1, true, false, .words 1⟩, some ⟨1, 2, false, false, .words 0⟩] ∧
      [Instr.writeWindow o, .writeFeed o, .start o, .stop o b, .restart o b, .readLine o].map commandVerb =
        [some ⟨2, 0, true, false, .words 2⟩, some ⟨2, 1, false, false, .perTerm⟩, some ⟨2, 2, false, false, .words 1⟩,
          some ⟨2, 3, false, false, .words 1⟩, some ⟨2, 4, false, false, .words 1⟩, some ⟨2, 5, false, false, .words 1⟩] ∧
      [Instr.writeHeader o, .writeOutput o, .appendTap o, .replaceTap o, .truncate o, .copyLive o, .readBank o, .commit o,
          .cancel o, .revert o].map commandVerb =
        [some ⟨3, 0, false, false, .words 2⟩, some ⟨3, 1, false, false, .words 2⟩, some ⟨3, 2, false, false, .words 5⟩,
          some ⟨3, 3, false, false, .words 6⟩, some ⟨3, 4, false, false, .words 1⟩, some ⟨3, 5, false, false, .words 0⟩,
          some ⟨3, 6, false, false, .words 1⟩, some ⟨3, 7, false, true, .words 2⟩, some ⟨3, 8, false, true, .words 0⟩,
          some ⟨3, 9, false, true, .words 0⟩] ∧
      [Instr.writeProfile o, .readProfile o, .readGuard o, .release o].map commandVerb =
        [some ⟨4, 0, false, false, .words 3⟩, some ⟨4, 1, false, false, .words 1⟩, some ⟨4, 2, false, false, .words 1⟩,
          some ⟨4, 3, false, false, .words 1⟩] ∧
      [Instr.readEvents o, .clearEvents o, .readAndClear o, .writeEnables o, .writeHoldoff o].map commandVerb =
        [some ⟨5, 0, false, false, .words 0⟩, some ⟨5, 1, false, true, .words 1⟩, some ⟨5, 2, false, false, .words 0⟩,
          some ⟨5, 3, false, false, .words 1⟩, some ⟨5, 4, false, false, .words 1⟩] ∧
      [Instr.readCheck o, .clearCheck o, .writeMode o, .readBadBlocks o].map commandVerb =
        [some ⟨6, 0, false, false, .words 0⟩, some ⟨6, 1, false, false, .words 0⟩, some ⟨6, 2, false, false, .words 1⟩,
          some ⟨6, 3, false, false, .words 1⟩] ∧
      [Instr.setUp o, .arm o, .captureTrigger o, .captureStop o, .readCapture o, .readSamples o].map commandVerb =
        [some ⟨7, 0, false, false, .words 3⟩, some ⟨7, 1, false, false, .words 0⟩, some ⟨7, 2, false, true, .words 0⟩,
          some ⟨7, 3, false, false, .words 0⟩, some ⟨7, 4, false, false, .words 0⟩, some ⟨7, 5, false, false, .words 1⟩] ∧
      [Instr.readLink o, .clearCounters o].map commandVerb =
        [some ⟨8, 0, false, false, .words 0⟩, some ⟨8, 1, false, false, .words 0⟩]) ∧
  (∀ (v : Verb) (o : Order),
    (∀ n : Nat, v.length = .words n → (v.lengthOk o = true ↔ o.body.length = n)) ∧
      (v.length = .perTerm → (v.lengthOk o = true ↔ o.body.length = 1 + 2 * bitsAt (bodyWord o 1) 15 8)) ∧
      (∀ i : Nat, bodyWord o (i + 1) = o.body.getD i 0) ∧
      ∀ (w : Word) (hi lo : Nat), bitsAt w hi lo = w.toNat / 2 ^ lo % 2 ^ (hi + 1 - lo) ∧ bitAt w lo = w.getLsbD lo) ∧
  ([NodeState.sizing, .standby, .run, .silent, .sweep].map NodeState.code = [0, 1, 2, 3, 4] ∧
      [LineState.off, .clearing, .running, .faulted].map LineState.code = [0, 1, 2, 3] ∧
      [ChangerState.steady, .armed, .fading].map ChangerState.code = [0, 1, 2] ∧
      [Role.live, .staged, .armed, .incoming, .outgoing].map Role.code = [0, 1, 2, 3, 4] ∧
      [Protection.closed, .opening1, .opening2, .opening3, .open_].map Protection.code = [0, 1, 2, 3, 4] ∧
      [CaptureState.idle, .waiting, .rolling, .post, .done].map CaptureState.code = [0, 1, 2, 3, 4] ∧
      [GuardState.open_, .trimmed, .muted].map GuardState.code = [0, 1, 2] ∧
      [ReportingMode.none, .uncorrectedOnly, .serious, .all].map ReportingMode.code = [0, 1, 2, 3] ∧
      [NoticeState.quiet, .sent, .holdoff].map NoticeState.code = [0, 1, 2] ∧
      [SweepOutcome.none, .running, .complete, .cutShort].map SweepOutcome.code = [0, 1, 2, 3] ∧
      [Result.done, .accepted, .busy, .state, .protection, .inUse, .range, .place, .budget, .badTap, .late, .unknown,
        .length].map resultCode = [0, 1, 2, 3, 4, 5, 6, 7, 8, 9, 10, 11, 12]) ∧
  (∀ f : Frame,
    f.syncGood = (bitsAt f.head 31 24 == 0xA5) ∧ f.seq.toNat = bitsAt f.head 23 8 ∧ f.damaged = f.head.getLsbD 5 ∧
      bitsAt f.head 7 6 =
        (match f.kind with
          | .idle => 0
          | .head => 1
          | .body => 2
          | .tail => 3) ∧
      (f.checkGood = true ↔ f.check = crc32 (f.head :: (f.slots.toList ++ [f.service])))) ∧
  (∀ (seq : Seq) (damaged : Bool) (slots : Vector Word 64) (kind : ServiceKind) (service : Word),
    let f := frameOf seq damaged slots kind service
    f.syncGood = true ∧ f.seq = seq ∧ f.kind = kind ∧ f.damaged = damaged ∧ f.slots = slots ∧ f.service = service ∧
      f.checkGood = true) ∧
  ∀ w : Word,
    headClass w = w.toNat / 2 ^ 30 ∧ (headAddress w).toNat = w.toNat / 2 ^ 22 % 2 ^ 8 ∧
      (headSection w).toNat = w.toNat / 2 ^ 18 % 2 ^ 4 ∧ (headVerb w).toNat = w.toNat / 2 ^ 12 % 2 ^ 6 ∧
      headLength w = w.toNat / 2 ^ 6 % 2 ^ 6 ∧ (headTag w).toNat = w.toNat % 2 ^ 6

/-- The tests of a direct order ahead of its owner: a full return queue drops it, with ORDER-DROPPED and nothing else; a
wrong body length is refused LENGTH; a protected verb is refused PROTECTED unless protection is OPEN, with detail 0 since an
opening sequence has been broken (R120, R123, R124); an UNLOCK of a wrong length breaks it too (log 15). STOP and RESTART
are taken as they meet the decoder (R16). Where orders do not reach the part the command does not come about: in reset, in
SEARCH, with LOST set, in a frame period that gave the decoder no service word, and ahead of the handling of a frame that
FIRE_FRAME has begun (R93, R95, R98, R99, R103, R104, R113, R166, R169; log 1, log 3, log 14). -/
def Obligations.DirectOrdersAreTestedInOrder : Prop :=
  (∀ (c : Instr) (v : Verb) (o : Order) (s : State), commandVerb c = some v → c.order = some o → o.via = .direct →
    OrdersReach s →
    (8 ≤ s.arbiter.returns.length → exec c s = .next (raise .orderDropped (heard v o (met c s)))) ∧
    (s.arbiter.returns.length < 8 → v.lengthOk o = false →
      exec c s = .next (returned v o (Reply.refusal .length o.body.length) (opened v o (met c s)))) ∧
    (s.arbiter.returns.length < 8 → v.lengthOk o = true → v.guarded = true → s.decoder.protection ≠ .open_ →
      exec c s = .next (returned v o (Reply.refusal .protection 0) (opened v o (met c s))))) ∧
  ∀ (c : Instr) (o : Order) (s : State), c.order = some o → ¬OrdersReach s → exec c s = .next s

/-- The tests of a group or broadcast order ahead of its owner: a verb that is not group-capable is refused STATE and a
wrong body length LENGTH, each with GROUP-REFUSED and no return; neither needs room in the return queue (R122). -/
def Obligations.GroupOrdersAreTestedInOrder : Prop :=
  ∀ (c : Instr) (v : Verb) (o : Order) (s : State), commandVerb c = some v → c.order = some o → o.via = .group →
    OrdersReach s →
    (v.groupable = false → exec c s = .next (raiseRefused v.sec v.num .state (heard v o (met c s)))) ∧
    (v.groupable = true → v.lengthOk o = false →
      exec c s = .next (raiseRefused v.sec v.num .length (heard v o (met c s))))

/-- An order of an unassigned section or verb: UNKNOWN with detail 0 for a section of 9 to 15 and 1 for a verb, by a return
for a direct order and by GROUP-REFUSED for a group order (R119, R120, R122). -/
def Obligations.UnknownOrdersAreRefused : Prop :=
  ∀ (sec : BitVec 4) (verb : BitVec 6) (o : Order) (s : State), OrdersReach s →
    [10, 3, 6, 10, 4, 5, 4, 6, 2].getD sec.toNat 0 ≤ verb.toNat →
    (o.via = .direct → s.arbiter.returns.length < 8 →
      exec (.unknownOrder sec verb o) s =
        .next
          (enqueue sec verb o.tag false (Reply.refusal .unknown (if 9 ≤ sec.toNat then 0 else 1))
            (withProtection s.decoder.protection.break_ (consume sec verb o s)))) ∧
    (o.via = .direct → 8 ≤ s.arbiter.returns.length →
      exec (.unknownOrder sec verb o) s = .next (raise .orderDropped (consume sec verb o s))) ∧
    (o.via = .group →
      exec (.unknownOrder sec verb o) s = .next (raiseRefused sec verb .unknown (consume sec verb o s)))

/-- A direct order that reaches its owner is answered with the owner's own reply, and one whose result is not DONE or ACCEPTED
changes nothing but the protection state (R120, R121, R123): an UNLOCK that is refused closes protection. No order touches the
delay-memory devices. -/
def Obligations.RefusedOrdersChangeNothing : Prop :=
  ∀ (c : Instr) (v : Verb) (o : Order) (s : State), commandVerb c = some v → c.order = some o →
    DirectReady v o (met c s) →
    ∃ owner : Order → State → Reply × State,
      ownerOf v.sec.toNat v.num.toNat = some (v, owner) ∧
        let a := owner o (opened v o (met c s))
        exec c s = .next (returned v o a.1 a.2) ∧ a.2.device = s.device ∧
          (a.1.result ≠ .done → a.1.result ≠ .accepted →
            a.2 = if v = Verb.unlock then withProtection .closed (opened v o (met c s)) else opened v o (met c s))

/-- How orders move protection (LINK becoming set closes it in a frame period): a direct order other than UNLOCK and LOCK
leaves OPEN and CLOSED as they are and breaks an opening sequence to CLOSED; an order that is dropped for a full return queue
and a group order leave it as it is; UNLOCK moves it step by step, and LOCK closes it (R123, R124). LOCK in an opening
sequence finds it broken already, so its detail there is 0 (log 16). What an order's owner sees differs from the state in the
order that waits in the decoder, where it is this one (log 3), and for a direct order in protection, and in nothing else; an
UNLOCK of a wrong length breaks the sequence (log 15). -/
def Obligations.ProtectionMovesStepByStep : Prop :=
  (∀ (v : Verb) (o : Order) (s : State),
    let d := s.decoder
    let ready := if d.ready = some { sec := v.sec, verb := v.num, order := o } then none else d.ready
    let protection : Protection :=
      if v = Verb.unlock ∧ o.body.length = 1 then d.protection
      else if d.protection = .open_ then .open_
      else .closed
    heard v o s = { s with decoder := { d with ready } } ∧
      opened v o s = { s with decoder := { d with ready, protection } }) ∧
  (∀ (c : Instr) (o : Order) (s : State), c.wf = true → c.order = some o → OrdersReach s →
      (o.via = .direct → s.arbiter.returns.length < 8 → (∀ p, c ≠ .unlock p) → (∀ p, c ≠ .lockOrder p) →
        ∃ t, exec c s = .next t ∧
          t.decoder.protection = if s.decoder.protection = .open_ then .open_ else .closed) ∧
      (o.via = .direct → 8 ≤ s.arbiter.returns.length →
        ∃ t, exec c s = .next t ∧ t.decoder.protection = s.decoder.protection) ∧
      (o.via = .group → ∃ t, exec c s = .next t ∧ t.decoder.protection = s.decoder.protection)) ∧
  (∀ (o : Order) (s : State),
      (DirectReady Verb.unlock o s →
        let step := (bodyWord o 1).toNat % 256
        let p := s.decoder.protection
        let gives (r : Reply) (q : Protection) : Prop :=
          exec (.unlock o) s = .next (returned Verb.unlock o r (withProtection q (opened Verb.unlock o s)))
        (p = .open_ → gives (Reply.done 4) .open_) ∧
        (p ≠ .open_ → step = 0 ∨ 4 < step → gives (Reply.refusal .range 0) .closed) ∧
        (p ≠ .open_ → step = 1 → gives (Reply.done 1) .opening1) ∧
        (p = .opening1 → step = 2 → gives (Reply.done 2) .opening2) ∧
        (p = .opening2 → step = 3 → gives (Reply.done 3) .opening3) ∧
        (p = .opening3 → step = 4 → gives (Reply.done 4) .open_) ∧
        (p ≠ .open_ → step = 2 → p ≠ .opening1 → gives (Reply.refusal .state 0) .closed) ∧
        (p ≠ .open_ → step = 3 → p ≠ .opening2 → gives (Reply.refusal .state 0) .closed) ∧
        (p ≠ .open_ → step = 4 → p ≠ .opening3 → gives (Reply.refusal .state 0) .closed)) ∧
      (DirectReady Verb.lock o s →
        exec (.lockOrder o) s =
          .next
            (returned Verb.lock o (Reply.done (if s.decoder.protection = .open_ then 4 else 0))
              (withProtection .closed (opened Verb.lock o s)))))

/-- An order that the decoder has completed and that no command has named is executed as its command would be, one of an
unassigned section or verb too; with none completed nothing is executed (log 3). -/
def Obligations.CompletedOrderRunsAsItsCommand : Prop :=
  (∀ (c : Instr) (v : Verb) (o : Order) (s : State), commandVerb c = some v → c.order = some o → met c s = s →
    OrdersReach s → s.decoder.ready = some { sec := v.sec, verb := v.num, order := o } →
    exec c s = .next (runReady s)) ∧
  (∀ (sec : BitVec 4) (verb : BitVec 6) (o : Order) (s : State),
    [10, 3, 6, 10, 4, 5, 4, 6, 2].getD sec.toNat 0 ≤ verb.toNat → OrdersReach s →
    s.decoder.ready = some { sec, verb, order := o } → exec (.unknownOrder sec verb o) s = .next (runReady s)) ∧
  ∀ s : State, s.decoder.ready = none → runReady s = s

/-- A return joins the tail of the return queue as a whole message: a HEAD of class RETURN with the node pattern, the
order's section, verb and tag and the body length, the result code and the detail, the further words, and an END with the
message check (R120, R121, R128, R173, R174). The message check and the frame check take the words' bits from the most
significant down (R172, R173). -/
def Obligations.ReturnIsAWholeMessage : Prop :=
  (∀ ws : List Word,
    let bits : List Bool := ws.flatMap fun w => (List.range 32).map fun i => w.getLsbD (31 - i)
    crc16 ws =
        bits.foldl (fun (r : BitVec 16) b => if r.getLsbD 15 = b then r <<< 1 else (r <<< 1) ^^^ 0x1021#16) 0xFFFF#16 ∧
      crc32 ws =
        ~~~ bits.foldl (fun (r : Word) b => if r.getLsbD 31 = b then r <<< 1 else (r <<< 1) ^^^ 0x04C11DB7#32) 0xFFFFFFFF#32) ∧
  ∀ (sec : BitVec 4) (verb tag : BitVec 6) (isReset : Bool) (r : Reply) (s : State),
    r.more.length ≤ 31 → r.detail < 2 ^ 24 →
    ∃ (head first : Word),
      enqueue sec verb tag isReset r s =
        { s with
          arbiter :=
            { s.arbiter with
              returns :=
                s.arbiter.returns ++
                  [{ words := head :: first :: r.more ++ [(crc16 (head :: first :: r.more)).setWidth 32], isReset }] } } ∧
      headClass head = 1 ∧ headAddress head = s.decoder.pattern ∧ headSection head = sec ∧ headVerb head = verb ∧
      headLength head = r.more.length + 1 ∧ headTag head = tag ∧
      bitsAt first 31 24 = resultCode r.result ∧ bitsAt first 23 0 = r.detail

/-! ### Orders of section 0 NODE -/

/-- IDENT reports the part, the ranks, P and M, the node, protection and the changer, and changes nothing (R69, R170, R174);
its detail 0 (log 36), and the target sequence 0 where there is none (log 25), are the model's. SET-ADDRESS replaces pattern
and mask, refusing the pattern FFh; its return carries the new pattern in its HEAD and the former in its detail; an open
message keeps its disposition (R116). -/
def Obligations.PartIsIdentifiedAndAddressed : Prop :=
  (∀ (o : Order) (s : State), DirectReady Verb.ident o s →
      let p := s.mem.present
      exec (.ident o) s =
        .next
          (returned Verb.ident o
            (Reply.reads
              [ word (0x7420 * 2 ^ 16 + 2 * 2 ^ 8 + (bit p[0] + 2 * bit p[1] + 4 * bit p[2] + 8 * bit p[3])),
                word (4096 * (bit p[0] + bit p[1] + bit p[2] + bit p[3])),
                word (s.decoder.pattern.toNat * 2 ^ 24 + s.decoder.mask.toNat * 2 ^ 16 + s.node.state.code * 2 ^ 8 +
                  (bit s.link.link + 2 * bit s.link.lost + 4 * bit s.node.orderCause)),
                word (s.node.ramp * 2 ^ 16 + (if s.decoder.protection = .open_ then 4 else 0) * 2 ^ 8 +
                  2 * bit s.node.leaving + bit s.node.resetPending),
                word (s.changer.state.code * 2 ^ 24 + s.scenes.a.role.code * 2 ^ 20 + s.scenes.b.role.code * 2 ^ 16 +
                  bit (s.changer.direction == .back)),
                word ((s.changer.target.map (·.toNat)).getD 0), word s.changer.length, word s.changer.position ])
            (opened Verb.ident o s))) ∧
  (∀ (o : Order) (s : State), DirectReady Verb.setAddress o s →
      let u := opened Verb.setAddress o s
      let pattern := (bodyWord o 1).toNat / 256 % 256
      (pattern = 255 → exec (.setAddress o) s = .next (returned Verb.setAddress o (Reply.refusal .range 0) u)) ∧
        (pattern ≠ 255 →
          exec (.setAddress o) s =
            .next
              (returned Verb.setAddress o (Reply.done s.decoder.pattern.toNat)
                { u with
                  decoder :=
                    { u.decoder with
                      pattern := BitVec.ofNat 8 pattern, mask := BitVec.ofNat 8 ((bodyWord o 1).toNat % 256) } })))

/-- GO and STANDBY, in every node state (R22, R161, R162). Between two blocks the sweep record names the next one, so a
cut-short there marks nothing (log 39). -/
def Obligations.GoAndStandbyMoveTheNode : Prop :=
  ∀ (o : Order) (s : State),
    (DirectReady Verb.go o s →
      let u := opened Verb.go o s
      (s.node.state = .standby → s.link.link = false → s.link.lost = false → s.node.orderCause = false →
        exec (.go o) s =
          .next (returned Verb.go o (Reply.done 2) { u with node := { s.node with state := .run } })) ∧
      (s.node.state = .standby → s.link.link = true ∨ s.link.lost = true ∨ s.node.orderCause = true →
        exec (.go o) s =
          .next (returned Verb.go o (Reply.done 3) { u with node := { s.node with state := .silent } })) ∧
      (s.node.state ≠ .standby →
        exec (.go o) s = .next (returned Verb.go o (Reply.refusal .state s.node.state.code) u))) ∧
    (DirectReady Verb.standby o s →
      let u := opened Verb.standby o s
      (s.node.state = .run ∨ s.node.state = .silent →
        exec (.standby o) s =
          .next
            (returned Verb.standby o (Reply.done s.node.state.code) { u with node := { s.node with leaving := true } })) ∧
      (s.node.state = .standby → exec (.standby o) s = .next (returned Verb.standby o (Reply.done 1) u)) ∧
      (s.node.state = .sizing → exec (.standby o) s = .next (returned Verb.standby o (Reply.refusal .busy 0) u)) ∧
      (s.node.state = .sweep →
        ∃ m : MemCtl,
          exec (.standby o) s =
            .next
              (returned Verb.standby o (Reply.done 4)
                (raise .sweepDone { u with mem := m, node := { s.node with state := .standby } })) ∧
          (∀ b, b ∈ m.badBlocks ↔ b ∈ s.mem.badBlocks ∨ (s.mem.sweepFailed = true ∧ b = s.mem.sweep.block)) ∧
          m.sweep =
            { s.mem.sweep with
              outcome := .cutShort
              added :=
                if s.mem.sweepFailed = true ∧ s.mem.sweep.block ∉ s.mem.badBlocks then s.mem.sweep.added + 1
                else s.mem.sweep.added } ∧
          m =
            { s.mem with
              badBlocks := m.badBlocks, sweep := m.sweep, sweepEnded := false, sweepFrame := 0, sweepFailed := false }))

/-- SILENCE and RESUME set and clear the cause ORDER in every node state, direct and by group; RUN becomes SILENT with a
cause set, SILENT becomes RUN with every cause clear; the return gives the causes held after it. On leaving RUN the guard
block is abandoned: at once, or at the end of a frame period whose frame was processed in RUN (R78, R160, R164). -/
def Obligations.SilenceAndResumeActOnTheNode : Prop :=
  ∀ (o : Order) (s : State),
    let silenced (u : State) : State :=
      { u with
        node :=
          { s.node with orderCause := true, state := if s.node.state = .run then .silent else s.node.state }
        guard := if s.node.state = .run ∧ (s.period.map (·.counts)).getD false = false then s.guard.abandon else s.guard
        period :=
          if s.node.state = .run then s.period.map fun p => { p with leftRun := p.leftRun || p.counts } else s.period }
    let resumed (u : State) : State :=
      { u with
        node :=
          { s.node with
            orderCause := false
            state :=
              if s.node.state = .silent ∧ s.link.link = false ∧ s.link.lost = false then .run else s.node.state } }
    (DirectReady Verb.silence o s →
      exec (.silence o) s =
        .next
          (returned Verb.silence o (Reply.done (bit s.link.link + 2 * bit s.link.lost + 4))
            (silenced (opened Verb.silence o s)))) ∧
    (GroupReady Verb.silence o s → exec (.silence o) s = .next (silenced (heard Verb.silence o s))) ∧
    ((s.node.state = .run → s.link.link = false ∧ s.link.lost = false) →
      (DirectReady Verb.resume o s →
        exec (.resume o) s =
          .next
            (returned Verb.resume o (Reply.done (bit s.link.link + 2 * bit s.link.lost))
              (resumed (opened Verb.resume o s)))) ∧
      (GroupReady Verb.resume o s → exec (.resume o) s = .next (resumed (heard Verb.resume o s))))

/-- SWEEP: BUSY during sizing; STATE unless the node is in STANDBY with every line OFF, with the node state and in STANDBY
the lowest line not OFF; else the node enters SWEEP with a record RUNNING at the lowest PRESENT rank and its first block,
or rank 0 and block 0 (R20, R174). The detail of ACCEPTED and of BUSY is 0 (log 36). -/
def Obligations.SweepStartsWithEveryLineOff : Prop :=
  ∀ (o : Order) (s : State), DirectReady Verb.sweep o s →
    let u := opened Verb.sweep o s
    let started (r : Rank) : State :=
      { u with
        node := { s.node with state := .sweep }
        mem :=
          { s.mem with
            sweep := { outcome := .running, rank := r, block := 4096 * r.val, added := 0 }
            sweepFrame := 0, sweepFailed := false, sweepEnded := false } }
    (s.node.state = .sizing → exec (.sweep o) s = .next (returned Verb.sweep o (Reply.refusal .busy 0) u)) ∧
      (s.node.state ≠ .sizing → s.node.state ≠ .standby →
        exec (.sweep o) s = .next (returned Verb.sweep o (Reply.refusal .state s.node.state.code) u)) ∧
      (∀ n : Line, s.node.state = .standby → (lineOf s n).state ≠ .off → (∀ m < n, (lineOf s m).state = .off) →
        exec (.sweep o) s = .next (returned Verb.sweep o (Reply.refusal .state (1 + 256 * n.val)) u)) ∧
      (s.node.state = .standby → (∀ n : Line, (lineOf s n).state = .off) →
        (∀ r : Rank, s.mem.present[r] = true → (∀ q < r, s.mem.present[q] = false) →
          exec (.sweep o) s = .next (returned Verb.sweep o { result := .accepted, detail := 0, more := [] } (started r))) ∧
        ((∀ r : Rank, s.mem.present[r] = false) →
          exec (.sweep o) s =
            .next (returned Verb.sweep o { result := .accepted, detail := 0, more := [] } (started 0))))

/-! ### Orders of section 1 SLOTS -/

/-- WRITE-IN-MAP and WRITE-OUT-MAP set one entry of a map, with their checks, the detail being the former slot, or FFh for
NONE; READ-MAP returns both maps whole, 24 and 32 entries, four to a word, and changes nothing (R106, R107, R108, R174), its
detail being 0 (log 36). -/
def Obligations.MapsAreWrittenAndRead : Prop :=
  (∀ (o : Order) (s : State),
      let channel := (bodyWord o 1).toNat / 256 % 256
      let slot := (bodyWord o 1).toNat % 256
      (DirectReady Verb.writeInMap o s →
        let u := opened Verb.writeInMap o s
        (24 ≤ channel → exec (.writeInMap o) s = .next (returned Verb.writeInMap o (Reply.refusal .range 0) u)) ∧
        (channel < 24 → 64 ≤ slot → slot ≠ 255 →
          exec (.writeInMap o) s = .next (returned Verb.writeInMap o (Reply.refusal .range 1) u)) ∧
        ∀ (c : InCh) (e : Option Slot), c.val = channel → (e.map (·.val)).getD 255 = slot →
          exec (.writeInMap o) s =
            .next
              (returned Verb.writeInMap o (Reply.done ((s.maps.input[c].map (·.val)).getD 255))
                { u with maps := { s.maps with input := s.maps.input.set c e } })) ∧
      (DirectReady Verb.writeOutMap o s →
        let u := opened Verb.writeOutMap o s
        (32 ≤ channel → exec (.writeOutMap o) s = .next (returned Verb.writeOutMap o (Reply.refusal .range 0) u)) ∧
        (channel < 32 → 64 ≤ slot → slot ≠ 255 →
          exec (.writeOutMap o) s = .next (returned Verb.writeOutMap o (Reply.refusal .range 1) u)) ∧
        (∀ (d : Output) (i : Slot), channel < 32 → i.val = slot → d.val ≠ channel → s.maps.output[d] = some i →
          (∀ e < d, e.val ≠ channel → s.maps.output[e] ≠ some i) →
          exec (.writeOutMap o) s = .next (returned Verb.writeOutMap o (Reply.refusal .range (32 + d.val)) u)) ∧
        ∀ (c : Output) (e : Option Slot), c.val = channel → (e.map (·.val)).getD 255 = slot →
          (∀ (d : Output) (i : Slot), d ≠ c → e = some i → s.maps.output[d] ≠ some i) →
          exec (.writeOutMap o) s =
            .next
              (returned Verb.writeOutMap o (Reply.done ((s.maps.output[c].map (·.val)).getD 255))
                { u with maps := { s.maps with output := s.maps.output.set c e } }))) ∧
  (∀ (o : Order) (s : State), DirectReady Verb.readMap o s →
      let entry (e : Option Slot) : Nat := (e.map (·.val)).getD 255
      let entries : List Nat := s.maps.input.toList.map entry ++ s.maps.output.toList.map entry
      ∃ ws : List Word,
        exec (.readMap o) s = .next (returned Verb.readMap o (Reply.reads ws) (opened Verb.readMap o s)) ∧
          ws.length = 14 ∧
          ∀ k < 56, bitsAt (ws.getD (k / 4) 0) (31 - 8 * (k % 4)) (24 - 8 * (k % 4)) = entries.getD k 0)

/-! ### Orders of section 2 LINES -/

/-- WRITE-WINDOW sets the base block and the length of a line that is OFF, after its checks in order (R5); its detail is 0
(log 36). -/
def Obligations.WriteWindowSetsAnIdleLinesWindow : Prop :=
  ∀ (o : Order) (s : State) (n : Line), DirectReady Verb.writeWindow o s → n.val = bitsAt (bodyWord o 1) 5 0 →
    let u := opened Verb.writeWindow o s
    let base := bitsAt (bodyWord o 2) 31 16
    let length := bitsAt (bodyWord o 2) 15 0
    let tests :=
      [ (s.node.state == .sizing, Reply.refusal .busy 0),
        ((lineOf s n).state != .off, Reply.refusal .inUse (lineOf s n).state.code),
        (decide (16383 < base), Reply.refusal .range 0),
        (decide (length = 0 ∨ 256 < length), Reply.refusal .range 1) ]
    (∀ r, firstFailing tests = some r → exec (.writeWindow o) s = .next (returned Verb.writeWindow o r u)) ∧
      (firstFailing tests = none →
        exec (.writeWindow o) s =
          .next
            (returned Verb.writeWindow o (Reply.done 0)
              { u with lines := s.lines.set n { lineOf s n with base, length } }))

/-- WRITE-FEED replaces the feed list and the damping of a line, after its checks in order; the recirculation sum adds the
magnitudes of the LINE terms' gains (R7). The detail of DONE, and of BUSY during sizing, is 0 (log 36). -/
def Obligations.WriteFeedReplacesListAndDamping : Prop :=
  ∀ (o : Order) (s : State) (n : Line), DirectReady Verb.writeFeed o s → n.val = bitsAt (bodyWord o 1) 5 0 →
    let u := opened Verb.writeFeed o s
    let damping := bitsAt (bodyWord o 1) 31 16
    let count := bitsAt (bodyWord o 1) 15 8
    let first (k : Nat) : Word := bodyWord o (2 + 2 * k)
    let number (k : Nat) : Nat := bitsAt (first k) 29 24
    let delay (k : Nat) : Nat := bitsAt (bodyWord o (3 + 2 * k)) 23 0
    let source (k : Nat) : LineRec := lineOf s (Fin.ofNat 64 (number k))
    let outOfRange (k : Nat) : Prop :=
      if bitAt (first k) 31 = true then
        delay k = 0 ∨ 262143 < delay k ∨ (source k).state = .off ∨ 1024 * (source k).length ≤ delay k
      else 23 < number k
    let term (k : Nat) : Term :=
      if bitAt (first k) 31 = true then .line (Fin.ofNat 64 (number k)) (delay k) (gainOf (first k))
      else .input (Fin.ofNat 24 (number k)) (gainOf (first k))
    let gives (r : Reply) (t : State) : Prop := exec (.writeFeed o) s = .next (returned Verb.writeFeed o r t)
    (s.node.state = .sizing → gives (Reply.refusal .busy 0) u) ∧
      (s.node.state ≠ .sizing →
        (6 < count → gives (Reply.refusal .range 6) u) ∧
        (count ≤ 6 → 32440 < damping → gives (Reply.refusal .range 7) u) ∧
        (count ≤ 6 → damping ≤ 32440 →
          (∀ k < count, outOfRange k → (∀ j < k, ¬outOfRange j) → gives (Reply.refusal .range k) u) ∧
          ((∀ k < count, ¬outOfRange k) →
            let feed := (List.range count).map term
            let magnitude (t : Term) : Nat :=
              match t with
              | .input _ _ => 0
              | .line _ _ g => g.toInt.natAbs
            let sum := (feed.map magnitude).sum
            recirculation feed = sum ∧ (31129 < sum → gives (Reply.refusal .range 8) u) ∧
              (sum ≤ 31129 →
                gives (Reply.done 0) { u with lines := s.lines.set n { lineOf s n with feed, damping } }))))

/-- The placement test takes its conditions in the order of their reason codes; in the feed re-check, the lowest term that
names another line that is OFF, or whose delay is not less than its source's length in samples, fails (R6, R10). -/
def Obligations.PlacementAndFeedRecheckGoInOrder : Prop :=
  (∀ (s : State) (n : Line),
      let l := lineOf s n
      let inWindow (b : Nat) : Prop := l.base ≤ b ∧ b < l.base + l.length
      let shared (b : Nat) : Prop :=
        ∃ m : Line, m ≠ n ∧ (lineOf s m).state ≠ .off ∧ (lineOf s m).base ≤ b ∧
          b < (lineOf s m).base + (lineOf s m).length
      let present : Bool := s.mem.present[Fin.ofNat 4 (l.base / 4096)]
      (4096 < l.base % 4096 + l.length → placement s n = some (1 * 2 ^ 20 + (l.base / 4096 + 1) * 4096)) ∧
        (l.base % 4096 + l.length ≤ 4096 →
          (present = false → placement s n = some (2 * 2 ^ 20 + l.base)) ∧
          (present = true →
            (∀ b, inWindow b → b ∈ s.mem.badBlocks → (∀ c < b, inWindow c → c ∉ s.mem.badBlocks) →
              placement s n = some (3 * 2 ^ 20 + b)) ∧
            ((∀ b, inWindow b → b ∉ s.mem.badBlocks) →
              (∀ b, inWindow b → shared b → (∀ c < b, inWindow c → ¬shared c) →
                placement s n = some (4 * 2 ^ 20 + b)) ∧
              ((∀ b, inWindow b → ¬shared b) → placement s n = none))))) ∧
  (∀ (s : State) (n : Line),
      let fails (t : Term) : Prop :=
        match t with
        | .input _ _ => False
        | .line m d _ => (m ≠ n ∧ (lineOf s m).state = .off) ∨ 1024 * (lineOf s m).length ≤ d
      (∀ (i : Nat) (t : Term), (lineOf s n).feed[i]? = some t → fails t →
          (∀ (j : Nat) (t' : Term), j < i → (lineOf s n).feed[j]? = some t' → ¬fails t') → feedRecheck s n = some i) ∧
        ((∀ t ∈ (lineOf s n).feed, ¬fails t) → feedRecheck s n = none))

/-- START takes an OFF line, and RESTART a RUNNING or FAULTED one, to CLEARING at the tail of the clearing work list, after
their checks in order; the rest of the line's record stays as it was (R10, R14). RESTART meets its line's fault under
R16. The detail of ACCEPTED is 0 (log 36). -/
def Obligations.StartAndRestartBeginClearing : Prop :=
  ∀ (o : Order) (s : State) (n : Line) (b : Bool), n.val = bitsAt (bodyWord o 1) 5 0 →
    let begun (s u : State) : State :=
      { u with
        lines := s.lines.set n { lineOf s n with state := .clearing }
        mem := { s.mem with clearing := s.mem.clearing ++ [n] } }
    let placed (s : State) : List (Bool × Reply) :=
      [ ((placement s n).isSome, Reply.refusal .place ((placement s n).getD 0)),
        ((feedRecheck s n).isSome, Reply.refusal .range ((feedRecheck s n).getD 0)) ]
    (DirectReady Verb.start o s →
      let u := opened Verb.start o s
      let tests :=
        [ (s.node.state == .sizing || s.node.state == .sweep, Reply.refusal .busy 0),
          ((lineOf s n).state != .off, Reply.refusal .state (lineOf s n).state.code) ] ++ placed s
      (∀ r, firstFailing tests = some r → exec (.start o) s = .next (returned Verb.start o r u)) ∧
        (firstFailing tests = none →
          exec (.start o) s =
            .next (returned Verb.start o { result := .accepted, detail := 0, more := [] } (begun s u)))) ∧
    (DirectReady Verb.restart o (met (.restart o b) s) →
      let m := met (.restart o b) s
      let u := opened Verb.restart o m
      let tests :=
        [ (m.node.state == .sizing || m.node.state == .sweep, Reply.refusal .busy 0),
          ((lineOf m n).state == .clearing, Reply.refusal .inUse 1),
          ((lineOf m n).state == .off, Reply.refusal .state 0) ] ++ placed m
      (∀ r, firstFailing tests = some r → exec (.restart o b) s = .next (returned Verb.restart o r u)) ∧
        (firstFailing tests = none →
          exec (.restart o b) s =
            .next (returned Verb.restart o { result := .accepted, detail := 0, more := [] } (begun m u))))

/-- STOP takes a line that is not in use to OFF and out of the clearing work list, whose head's progress is lost when the
head leaves (R11, R13). Where the fault of the line that a STOP or a RESTART names is due in the frame period in progress,
it is taken before the order or after it, as the command says: taken before it, the line becomes FAULTED, joins the
faulted-line set, and LINE-FAULT is raised (R16; log 24). The detail of DONE is 0 (log 36). -/
def Obligations.StopTakesAnUnusedLineOff : Prop :=
  (∀ (o : Order) (s : State) (n : Line) (b : Bool), n.val = bitsAt (bodyWord o 1) 5 0 →
      DirectReady Verb.stop o (met (.stop o b) s) →
      let m := met (.stop o b) s
      let u := opened Verb.stop o m
      let tests :=
        [ (m.node.state == .sizing, Reply.refusal .busy 0),
          (m.scenes.inUse.getLsbD n.val, Reply.refusal .inUse (lineOf m n).state.code) ]
      (∀ r, firstFailing tests = some r → exec (.stop o b) s = .next (returned Verb.stop o r u)) ∧
        (firstFailing tests = none →
          exec (.stop o b) s =
            .next
              (returned Verb.stop o (Reply.done 0)
                { u with
                  lines := m.lines.set n { lineOf m n with state := .off }
                  mem :=
                    { m.mem with
                      clearing := m.mem.clearing.filter fun k => decide (k ≠ n)
                      zeroed := if m.mem.clearing.head? = some n then 0 else m.mem.zeroed } }))) ∧
  (∀ (o : Order) (s : State) (n : Line), n.val = bitsAt (bodyWord o 1) 5 0 →
      (met (.stop o false) s = s ∧ met (.restart o false) s = s) ∧
      (OrdersReach s → ∀ p : Period, s.period = some p → n ∈ p.faultDue → (lineOf s n).state = .running →
        n ∉ s.mem.clearing →
        let faulted :=
          raiseWith .lineFault (fun e => { e with faultedLines := e.faultedLines ||| 1#64 <<< n.val })
            { s with lines := s.lines.set n { lineOf s n with state := .faulted } }
        met (.stop o true) s = faulted ∧ met (.restart o true) s = faulted) ∧
      ((∀ p : Period, s.period = some p → n ∉ p.faultDue ∨ (lineOf s n).state ≠ .running) →
        met (.stop o true) s = s ∧ met (.restart o true) s = s))

/-- READ-LINE reports the record of one line, the in-use flag and the clearing place, and changes nothing (R18, R174); its
detail is 0 (log 36). -/
def Obligations.ReadLineReportsTheRecord : Prop :=
  ∀ (o : Order) (s : State) (n : Line), DirectReady Verb.readLine o s → n.val = bitsAt (bodyWord o 1) 5 0 →
    let l := lineOf s n
    let ahead := if l.state = .clearing then s.mem.clearing.idxOf n else 0
    let zeroed := if l.state = .clearing ∧ s.mem.clearing.idxOf n = 0 then s.mem.zeroed else 0
    let termWords (t : Term) : List Word :=
      match t with
      | .input c g => [word (c.val * 2 ^ 24 + g.toNat), 0]
      | .line m d g => [word (1 * 2 ^ 31 + m.val * 2 ^ 24 + g.toNat), word d]
    exec (.readLine o) s =
      .next
        (returned Verb.readLine o
          (Reply.reads
            ([ word (l.state.code * 2 ^ 24 + bit (s.scenes.inUse.getLsbD n.val) * 2 ^ 16 + l.base),
               word (l.length * 2 ^ 16 + l.damping), word l.position, l.damped.setWidth 32,
               word (ahead * 2 ^ 24 + zeroed), word l.feed.length ] ++ (l.feed.map termWords).flatten))
          (opened Verb.readLine o s))

/-! ### Orders of section 3 SCENE -/

/-- A scene-writing order is refused BUSY with the changer state when no bank is STAGED. TRUNCATE shortens the STAGED bank's
tap list, and COPY-LIVE copies the LIVE bank into the STAGED bank; each returns the new bank cost, which counts a tap as 1
without modulation and as 2 with it (R25, R27, R32, R33). -/
def Obligations.StagedBankIsEditedOrBusy : Prop :=
  (∀ ts : List Tap, tapsCost ts = (ts.map fun t => if t.modulation.isSome then 2 else 1).sum) ∧
  (∀ (c : Instr) (v : Verb) (o : Order) (s : State), commandVerb c = some v → c.order = some o → v.sec = 3 →
      v.num.toNat ≤ 5 → DirectReady v o s → s.scenes.a.role ≠ .staged → s.scenes.b.role ≠ .staged →
      exec c s = .next (returned v o (Reply.refusal .busy s.changer.state.code) (opened v o s))) ∧
  (∀ (o : Order) (s : State) (b : BankSlot) (edit : Bank → Scenes), StagedIs s.scenes b edit →
      (DirectReady Verb.truncate o s →
        let u := opened Verb.truncate o s
        let n := bitsAt (bodyWord o 1) 15 0
        (b.bank.taps.length < n →
          exec (.truncate o) s = .next (returned Verb.truncate o (Reply.refusal .range 0) u)) ∧
        (n ≤ b.bank.taps.length →
          exec (.truncate o) s =
            .next
              (returned Verb.truncate o (Reply.done (tapsCost (b.bank.taps.take n)))
                { u with scenes := edit { b.bank with taps := b.bank.taps.take n } }))) ∧
      (DirectReady Verb.copyLive o s → ∀ (isB : Bool) (live : BankSlot), HoldsRole s.scenes .live isB live →
        exec (.copyLive o) s =
          .next
            (returned Verb.copyLive o (Reply.done (tapsCost live.bank.taps))
              { opened Verb.copyLive o s with scenes := edit live.bank })))

/-- WRITE-HEADER and WRITE-OUTPUT replace the header fields or one output record of the STAGED bank, after their checks
(R28, R29); their detail is 0 (log 36). -/
def Obligations.HeaderAndOutputAreWrittenWhole : Prop :=
  ∀ (o : Order) (s : State) (b : BankSlot) (edit : Bank → Scenes), StagedIs s.scenes b edit →
    (DirectReady Verb.writeHeader o s →
      let u := opened Verb.writeHeader o s
      let fade := bitsAt (bodyWord o 2) 23 0
      (96000 < fade → exec (.writeHeader o) s = .next (returned Verb.writeHeader o (Reply.refusal .range 1) u)) ∧
      (fade ≤ 96000 →
        exec (.writeHeader o) s =
          .next
            (returned Verb.writeHeader o (Reply.done 0)
              { u with scenes := edit { b.bank with tag := bodyWord o 1, defaultFade := fade } }))) ∧
    (DirectReady Verb.writeOutput o s →
      let u := opened Verb.writeOutput o s
      let channel := bitsAt (bodyWord o 1) 31 24
      let enabled := bitsAt (bodyWord o 1) 23 16
      let polarity := bitsAt (bodyWord o 1) 15 8
      let profile := bitsAt (bodyWord o 1) 7 0
      let tests :=
        [ (decide (31 < channel), Reply.refusal .range 0), (decide (1 < enabled), Reply.refusal .range 1),
          (decide (1 < polarity), Reply.refusal .range 3), (decide (7 < profile), Reply.refusal .range 4) ]
      (∀ r, firstFailing tests = some r → exec (.writeOutput o) s = .next (returned Verb.writeOutput o r u)) ∧
      (firstFailing tests = none →
        ∀ (c : Output) (p : Fin 8), c.val = channel → p.val = profile →
          exec (.writeOutput o) s =
            .next
              (returned Verb.writeOutput o (Reply.done 0)
                { u with
                  scenes :=
                    edit
                      { b.bank with
                        outputs :=
                          b.bank.outputs.set c
                            { enabled := decide (enabled = 1), gain := gainOf (bodyWord o 2),
                              polarity := if polarity = 1 then .inverted else .normal, profile := p } } })))

/-- APPEND-TAP adds a tap at the end of the STAGED bank's list and REPLACE-TAP replaces the tap at an index, after their
checks in order, the tap's fields being those of body words 1 to 5, or 2 to 6 behind the index (R30, R31, R173). -/
def Obligations.TapsAreAppendedAndReplaced : Prop :=
  ∀ (o : Order) (s : State) (b : BankSlot) (edit : Bank → Scenes), StagedIs s.scenes b edit →
    let fields (w1 w2 w3 w4 w5 : Word) : TapFields :=
      { line := bitsAt w1 31 24, output := bitsAt w1 23 16, modulated := bitAt w1 0, delay := bitsAt w2 23 0
        depth := bitsAt w3 31 16, gain := w3.setWidth 16, period := bitsAt w4 23 0, start := bitsAt w5 23 0 }
    let checks (f : TapFields) : List (Bool × Reply) :=
      [ (decide (63 < f.line), Reply.refusal .range 1),
        (decide (f.delay = 0 ∨ 262143 < f.delay), Reply.refusal .range 2),
        (decide (31 < f.output), Reply.refusal .range 3),
        (f.modulated && decide (f.depth = 0 ∨ 255 < f.depth), Reply.refusal .range 4),
        (f.modulated && decide (f.period < 480 ∨ 480000 < f.period), Reply.refusal .range 5),
        (f.modulated && decide (f.period ≤ f.start), Reply.refusal .range 6) ]
    let isTap (f : TapFields) (t : Tap) : Prop :=
      t.line.val = f.line ∧ t.delay = f.delay ∧ t.gain = f.gain ∧ t.output.val = f.output ∧
        t.modulation =
          if f.modulated = true then some { depth := f.depth, period := f.period, start := f.start } else none
    let cost (f : TapFields) : Nat := if f.modulated = true then 2 else 1
    let held := tapsCost b.bank.taps
    (DirectReady Verb.appendTap o s →
      let u := opened Verb.appendTap o s
      let f := fields (bodyWord o 1) (bodyWord o 2) (bodyWord o 3) (bodyWord o 4) (bodyWord o 5)
      let tests := checks f ++ [(decide (512 < held + cost f), Reply.refusal .budget held)]
      (∀ r, firstFailing tests = some r → exec (.appendTap o) s = .next (returned Verb.appendTap o r u)) ∧
      (firstFailing tests = none →
        ∃ t : Tap, isTap f t ∧
          exec (.appendTap o) s =
            .next
              (returned Verb.appendTap o (Reply.done b.bank.taps.length)
                { u with scenes := edit { b.bank with taps := b.bank.taps ++ [t] } }))) ∧
    (DirectReady Verb.replaceTap o s →
      let u := opened Verb.replaceTap o s
      let i := bitsAt (bodyWord o 1) 15 0
      let f := fields (bodyWord o 2) (bodyWord o 3) (bodyWord o 4) (bodyWord o 5) (bodyWord o 6)
      let old := ((b.bank.taps[i]?).map fun t => if t.modulation.isSome then 2 else 1).getD 0
      let tests :=
        (decide (b.bank.taps.length ≤ i), Reply.refusal .range 0) :: checks f ++
          [(decide (512 < held - old + cost f), Reply.refusal .budget held)]
      (∀ r, firstFailing tests = some r → exec (.replaceTap o) s = .next (returned Verb.replaceTap o r u)) ∧
      (firstFailing tests = none →
        ∃ t : Tap, isTap f t ∧
          exec (.replaceTap o) s =
            .next
              (returned Verb.replaceTap o (Reply.done i)
                { u with scenes := edit { b.bank with taps := b.bank.taps.set i t } })))

/-- READ-BANK reads the header, one output record, or taps of the bank that holds a role, and changes nothing. The TAPS part
gives the taps from an index on, as many as the list holds, as were asked for, and as fit in 32 body words, each with its
phase, the one that the next processed frame uses, where it is modulated and its bank active (R34, R37, R173, R174). The
depth field of a tap without modulation is sent as 0 (log 25); the detail of DONE is 0 (log 36). -/
def Obligations.ReadBankGivesPartsByRole : Prop :=
  ∀ (o : Order) (s : State), DirectReady Verb.readBank o s →
    let u := opened Verb.readBank o s
    let code := bitsAt (bodyWord o 1) 31 28
    let part := bitsAt (bodyWord o 1) 27 24
    let count := bitsAt (bodyWord o 1) 23 16
    let index := bitsAt (bodyWord o 1) 15 0
    let gives (r : Reply) : Prop := exec (.readBank o) s = .next (returned Verb.readBank o r u)
    (4 < code ∨ 2 < part → gives (Reply.refusal .range 0xFF)) ∧
    ∀ role : Role, role.code = code → part ≤ 2 →
      (s.scenes.a.role ≠ role → s.scenes.b.role ≠ role →
        gives (Reply.refusal .state (s.scenes.a.role.code * 2 ^ 4 + s.scenes.b.role.code))) ∧
      ∀ (isB : Bool) (b : BankSlot), HoldsRole s.scenes role isB b →
        let first (low : Nat) : Word := word (bit isB * 2 ^ 24 + role.code * 2 ^ 16 + low)
        let active := role = .live ∨ role = .incoming ∨ role = .outgoing
        let tapWords (i : Nat) (t : Tap) : List Word :=
          let w := t.line.val * 2 ^ 24 + t.output.val * 2 ^ 16 + i * 2 ^ 4
          match t.modulation with
          | none => [word w, word t.delay, word t.gain.toNat]
          | some m =>
            [word (w + 1), word t.delay, word (m.depth * 2 ^ 16 + t.gain.toNat), word m.period, word m.start] ++
              (if active then [word (b.phases.getD i 0)] else [])
        let all := (b.bank.taps.zipIdx.drop index).map fun x => tapWords x.2 x.1
        (part = 0 →
          gives
            (Reply.reads
              [first b.bank.taps.length, b.bank.tag, word b.bank.defaultFade, word (tapsCost b.bank.taps)])) ∧
        (part = 1 → 31 < index → gives (Reply.refusal .range 0)) ∧
        (part = 1 → ∀ c : Output, c.val = index →
          let r := b.bank.outputs[c]
          gives
            (Reply.reads
              [ first c.val,
                word (c.val * 2 ^ 24 + bit r.enabled * 2 ^ 16 + (if r.polarity = .inverted then 1 else 0) * 2 ^ 8 +
                  r.profile.val),
                r.gain.setWidth 32 ])) ∧
        (part = 2 → count = 0 ∨ 10 < count → gives (Reply.refusal .range 1)) ∧
        (part = 2 → 1 ≤ count → count ≤ 10 →
          ∃ m ≤ count,
            m ≤ all.length ∧ ((all.take m).flatten).length ≤ 29 ∧
              (m = count ∨ m = all.length ∨ 29 < ((all.take (m + 1)).flatten).length) ∧
              gives (Reply.reads (first b.bank.taps.length :: word m :: (all.take m).flatten)))

/-- COMMIT, direct or by group: its checks in order, LATE and BADTAP among them; taken, it makes the STAGED bank ARMED and
the changer ARMED with the target sequence and the fade length, and recomputes the in-use set with the ARMED bank's lines;
nothing else changes (R49 to R53). -/
def Obligations.CommitArmsTheStagedBank : Prop :=
  ∀ (o : Order) (s : State) (b : BankSlot) (edit : Bank → Scenes), ChangerLaw s →
    let given := bitAt (bodyWord o 1) 31
    let length := if given = true then bitsAt (bodyWord o 2) 23 0 else b.bank.defaultFade
    let hasTarget := bitAt (bodyWord o 1) 30
    let target : Seq := if hasTarget = true then BitVec.ofNat 16 (bitsAt (bodyWord o 1) 15 0) else s.link.expected
    let ahead := (target - s.link.expected).toNat
    let early :=
      [ (s.node.state != .run && s.node.state != .silent, Reply.refusal .state s.node.state.code),
        (s.link.link || s.link.lost, Reply.refusal .state (bit s.link.link + 2 * bit s.link.lost)),
        (s.changer.state != .steady, Reply.refusal .busy s.changer.state.code),
        (given && decide (96000 < bitsAt (bodyWord o 2) 23 0), Reply.refusal .range 0),
        (hasTarget && decide (ahead = 0 ∨ 32767 < ahead), Reply.refusal .late s.link.expected.toNat) ]
    let fails (t : Tap) : Nat :=
      if (lineOf s t.line).state = .off then 1
      else if 1024 * (lineOf s t.line).length ≤ t.delay + (t.modulation.map (·.depth)).getD 0 then 2
      else 0
    (∀ r, firstFailing early = some r → Answers (.commit o) Verb.commit o s r id) ∧
      (firstFailing early = none → StagedIs s.scenes b edit →
        (∀ (i : Nat) (t : Tap), b.bank.taps[i]? = some t → fails t ≠ 0 → (∀ t' ∈ b.bank.taps.take i, fails t' = 0) →
          Answers (.commit o) Verb.commit o s (Reply.refusal .badTap (fails t * 2 ^ 20 + i)) id) ∧
        ((∀ t ∈ b.bank.taps, fails t = 0) →
          ∃ inUse : BitVec 64,
            (∀ n : Line,
              inUse.getLsbD n.val = true ↔ ∃ t ∈ s.scenes.a.bank.taps ++ s.scenes.b.bank.taps, t.line = n) ∧
            Answers (.commit o) Verb.commit o s (Reply.done target.toNat) fun u =>
              { u with
                scenes :=
                  { a := { s.scenes.a with role := if s.scenes.a.role = .staged then .armed else s.scenes.a.role }
                    b := { s.scenes.b with role := if s.scenes.b.role = .staged then .armed else s.scenes.b.role }
                    inUse }
                changer :=
                  { state := .armed, target := some target, length, position := 0, direction := .forward } }))

/-- CANCEL and REVERT, direct or by group (R47, R60, R61): CANCEL withdraws an armed commit, the ARMED bank becoming STAGED
and the in-use set again counting the LIVE bank alone; REVERT turns a fade back. Nothing else changes. -/
def Obligations.CancelAndRevertActOnTheChanger : Prop :=
  ∀ (o : Order) (s : State), ChangerLaw s →
    (∀ target : Seq, s.changer.state = .armed → s.changer.target = some target →
      ∃ inUse : BitVec 64,
        (∀ (isB : Bool) (live : BankSlot), HoldsRole s.scenes .live isB live →
          ∀ n : Line, inUse.getLsbD n.val = true ↔ ∃ t ∈ live.bank.taps, t.line = n) ∧
        Answers (.cancel o) Verb.cancel o s (Reply.done target.toNat) fun u =>
          { u with
            scenes :=
              { a := if s.scenes.a.role = .armed then { s.scenes.a with role := .staged, phases := [] } else s.scenes.a
                b := if s.scenes.b.role = .armed then { s.scenes.b with role := .staged, phases := [] } else s.scenes.b
                inUse }
            changer := { state := .steady, target := none, length := 0, position := 0, direction := .forward } }) ∧
    (s.changer.state ≠ .armed →
      Answers (.cancel o) Verb.cancel o s (Reply.refusal .state s.changer.state.code) id) ∧
    (s.changer.state = .fading → s.changer.direction = .forward →
      Answers (.revert o) Verb.revert o s (Reply.done s.changer.position) fun u =>
        { u with changer := { s.changer with direction := .back } }) ∧
    (s.changer.state = .fading → s.changer.direction = .back →
      Answers (.revert o) Verb.revert o s (Reply.refusal .state 3) id) ∧
    (s.changer.state ≠ .fading → Answers (.revert o) Verb.revert o s (Reply.refusal .state s.changer.state.code) id)

/-! ### Orders of section 4 GUARD -/

/-- The profile in force for an output is the LIVE bank's in STEADY and ARMED and the INCOMING bank's in FADING (R74).
WRITE-PROFILE replaces a profile whole, after its checks in order, and brings every output that it governs within the new
values (R71); a MUTED output is adjusted too (log 33), and the detail of DONE is 0 (log 36). -/
def Obligations.ProfilesGovernByRoleAndAreReplaced : Prop :=
  (∀ (s : State) (c : Output) (isB : Bool) (b : BankSlot),
      (s.changer.state ≠ .fading → HoldsRole s.scenes .live isB b →
        profileInForce s.changer.state s.scenes c = b.bank.outputs[c].profile) ∧
      (s.changer.state = .fading → HoldsRole s.scenes .incoming isB b →
        profileInForce s.changer.state s.scenes c = b.bank.outputs[c].profile)) ∧
  (∀ (o : Order) (s : State), DirectReady Verb.writeProfile o s →
      let u := opened Verb.writeProfile o s
      let number := bitsAt (bodyWord o 1) 31 24
      let p : Profile :=
        { ceiling := bitsAt (bodyWord o 2) 23 0, rise := bitsAt (bodyWord o 1) 23 16
          strainLimit := bitsAt (bodyWord o 3) 31 16, maxSteps := bitsAt (bodyWord o 1) 15 8
          recovery := bitsAt (bodyWord o 3) 15 0, clipRun := bitsAt (bodyWord o 1) 7 0 }
      let tests :=
        [ (decide (7 < number), Reply.refusal .range 0),
          (decide (p.ceiling = 0 ∨ 8388607 < p.ceiling), Reply.refusal .range 1),
          (decide (p.rise = 0 ∨ 15 < p.rise), Reply.refusal .range 2),
          (decide (p.strainLimit < 16 ∨ 4095 < p.strainLimit), Reply.refusal .range 3),
          (decide (p.maxSteps = 0 ∨ 16 < p.maxSteps), Reply.refusal .range 4),
          (decide (p.recovery < 10 ∨ 60000 < p.recovery), Reply.refusal .range 5),
          (decide (1 ≤ p.clipRun ∧ p.clipRun ≤ 3), Reply.refusal .range 6) ]
      (∀ r, firstFailing tests = some r → exec (.writeProfile o) s = .next (returned Verb.writeProfile o r u)) ∧
        (firstFailing tests = none → ∀ n : Fin 8, n.val = number →
          ∃ outputs : Vector GuardRec 32,
            (∀ c : Output,
              let g := s.guard.outputs[c]
              outputs[c] =
                if profileInForce s.changer.state s.scenes c = n then
                  { g with
                    trim := if p.maxSteps < g.trim then p.maxSteps else g.trim
                    strain := if p.strainLimit ≤ g.strain then p.strainLimit - 1 else g.strain }
                else g) ∧
            exec (.writeProfile o) s =
              .next
                (returned Verb.writeProfile o (Reply.done 0)
                  { u with guard := { s.guard with profiles := s.guard.profiles.set n p, outputs } })))

/-- READ-PROFILE returns a profile's six fields, or refuses a number above 7, and changes nothing (R72, R174); the detail of
DONE is 0 (log 36). -/
def Obligations.ReadProfileReturnsSixFields : Prop :=
  ∀ (o : Order) (s : State), DirectReady Verb.readProfile o s →
    let u := opened Verb.readProfile o s
    let number := bitsAt (bodyWord o 1) 7 0
    (7 < number → exec (.readProfile o) s = .next (returned Verb.readProfile o (Reply.refusal .range 0) u)) ∧
      ∀ n : Fin 8, n.val = number →
        let p := s.guard.profiles[n]
        exec (.readProfile o) s =
          .next
            (returned Verb.readProfile o
              (Reply.reads
                [ word (n.val * 2 ^ 24 + p.rise * 2 ^ 16 + p.maxSteps * 2 ^ 8 + p.clipRun), word p.ceiling,
                  word (p.strainLimit * 2 ^ 16 + p.recovery) ])
              u)

/-- READ-GUARD returns the block frame count and the guard records from an output on, with the profile in force of each, and
changes nothing (R88, R174), its detail being 0 (log 36). RELEASE of a MUTED output makes it TRIMMED at the max steps of its
profile in force, its counts and its block peak 0, and leaves its mute ramp; a clip mute of it still to come in the frame
period finds a count of 0, and a block end still to come does not judge it (R84, R86), nor one that the frame's own clip run
had muted (log 40). -/
def Obligations.GuardRecordsAreReadAndReleased : Prop :=
  (∀ (o : Order) (s : State), DirectReady Verb.readGuard o s →
      let u := opened Verb.readGuard o s
      let first := bitsAt (bodyWord o 1) 15 8
      let count := bitsAt (bodyWord o 1) 7 0
      let words (c : Output) : List Word :=
        let g := s.guard.outputs[c]
        let cause := match g.cause with
          | none => 0
          | some .strain => 1
          | some .clip => 2
        [ word ((profileInForce s.changer.state s.scenes c).val * 2 ^ 29 + c.val * 2 ^ 24 + g.peak),
          word (cause * 2 ^ 30 + g.state.code * 2 ^ 28 + g.strain * 2 ^ 16 + g.recovery),
          word (g.trim * 2 ^ 16 + g.clip * 2 ^ 8 + g.ramp) ]
      (31 < first → exec (.readGuard o) s = .next (returned Verb.readGuard o (Reply.refusal .range 0) u)) ∧
        (first ≤ 31 → count = 0 ∨ 8 < count →
          exec (.readGuard o) s = .next (returned Verb.readGuard o (Reply.refusal .range 1) u)) ∧
        (first ≤ 31 → 1 ≤ count → count ≤ 8 →
          exec (.readGuard o) s =
            .next
              (returned Verb.readGuard o
                (Reply.reads
                  (word s.guard.blockCount ::
                    (((List.finRange 32).drop first).take count).flatMap words))
                u))) ∧
  (∀ (o : Order) (s : State), DirectReady Verb.release o s →
      let u := opened Verb.release o s
      let channel := bitsAt (bodyWord o 1) 7 0
      (31 < channel → exec (.release o) s = .next (returned Verb.release o (Reply.refusal .range 0) u)) ∧
        ∀ c : Output, c.val = channel →
          let g := s.guard.outputs[c]
          let steps := (s.guard.profiles[profileInForce s.changer.state s.scenes c]).maxSteps
          (g.state ≠ .muted →
            exec (.release o) s = .next (returned Verb.release o (Reply.refusal .state g.state.code) u)) ∧
          (g.state = .muted →
            exec (.release o) s =
              .next
                (returned Verb.release o (Reply.done steps)
                  { u with
                    guard :=
                      { s.guard with
                        outputs :=
                          s.guard.outputs.set c
                            { g with
                              state := .trimmed, cause := none, trim := steps, strain := 0, recovery := 0, clip := 0,
                              peak := 0 } }
                    period :=
                      s.period.map fun p =>
                        { p with clipDue := p.clipDue.filter fun d => decide (d ≠ c), released := c :: p.released } })))

/-! ### Orders of section 5 EVENTS -/

/-- A clear takes the selected flags that are set, empties the details of the flags it names (one that names a guard flag
the guard-output set, even where another of the three is set and it is not), sets the timer to H, and enters HOLDOFF, in
every notice state and also where it clears nothing (R133, R136, R141). READ-EVENTS returns the flags, the enables, the
notice state with H and the timer, and the snapshot of the details, and changes nothing; READ-AND-CLEAR returns the same and
then clears the flags it shows; CLEAR-EVENTS, direct or by group, clears a selection, its detail the flags it cleared (R135,
R140 to R142, R174). That the other details go by the name is the model's choice (log 19); an absent group-refused detail is
sent as 0 (log 25); the detail of the two reads is 0 (log 36). -/
def Obligations.EventsAreReadAndCleared : Prop :=
  (∀ (e : Events) (selection : BitVec 17),
      let named (k : Nat) : Bool := selection.getLsbD k
      let c := e.clear selection
      (∀ k < 17, c.flags.getLsbD k = (e.flags.getLsbD k && !selection.getLsbD k)) ∧
        c.enables = e.enables ∧ c.holdoff = e.holdoff ∧ c.notice = .holdoff ∧ c.timer = e.holdoff ∧
        c.timerFresh = true ∧
        c.guardOutputs = (if (named 7 || named 8 || named 9) = true then 0 else e.guardOutputs) ∧
        c.readyLines = (if named 10 = true then 0 else e.readyLines) ∧
        c.faultedLines = (if named 11 = true then 0 else e.faultedLines) ∧
        c.groupRefused = (if named 16 = true then none else e.groupRefused) ∧
        c.commitDetail = if named 5 = true then .none else e.commitDetail) ∧
  (∀ (o : Order) (s : State),
      let e := s.events
      let refused : Word :=
        match e.groupRefused with
        | none => 0
        | some g => word (2 ^ 31 + g.sec.toNat * 2 ^ 16 + g.verb.toNat * 2 ^ 8 + resultCode g.result)
      let commit : Word :=
        match e.commitDetail with
        | .none => 0
        | .notReverted => 1
        | .reverted => 2
      let snapshot : List Word :=
        [ e.flags.setWidth 32, e.guardOutputs, e.readyLines.extractLsb' 0 32, e.readyLines.extractLsb' 32 32,
          e.faultedLines.extractLsb' 0 32, e.faultedLines.extractLsb' 32 32, refused, commit ]
      let words : List Word :=
        e.flags.setWidth 32 :: e.enables.setWidth 32 ::
          word (e.notice.code * 2 ^ 24 + e.holdoff / 48 * 2 ^ 16 + e.timer) :: snapshot
      (DirectReady Verb.readEvents o s →
        exec (.readEvents o) s =
          .next (returned Verb.readEvents o (Reply.reads words) (opened Verb.readEvents o s))) ∧
      (DirectReady Verb.readAndClear o s →
        exec (.readAndClear o) s =
          .next
            (returned Verb.readAndClear o (Reply.reads words)
              { opened Verb.readAndClear o s with events := e.clear e.flags })) ∧
      Answers (.clearEvents o) Verb.clearEvents o s
        (Reply.done (e.flags &&& (bodyWord o 1).setWidth 17).toNat) fun u =>
          { u with events := e.clear ((bodyWord o 1).setWidth 17) })

/-- WRITE-ENABLES replaces the enable set; in QUIET, where a flag is then pending, it makes a placement and the event unit
enters SENT. WRITE-HOLDOFF replaces H, refusing 0 and values above 255, and leaves a running timer; the next clear uses the
value in force; neither order is protected or group-capable (R130, R134, R136, R138, R139). -/
def Obligations.EnablesAndHoldoffAreWritten : Prop :=
  (∀ v : Verb, v = Verb.writeEnables ∨ v = Verb.writeHoldoff → v.guarded = false ∧ v.groupable = false) ∧
  (∀ (e : Events) (selection : BitVec 17), (e.clear selection).timer = e.holdoff) ∧
  ∀ (o : Order) (s : State),
    (DirectReady Verb.writeEnables o s →
      let u := opened Verb.writeEnables o s
      let enables : BitVec 17 := (bodyWord o 1).setWidth 17
      let placed : NoticeSlot :=
        match s.slot.state with
        | .empty => { s.slot with state := .waiting }
        | .waiting => s.slot
        | .sending => { s.slot with repeatMark := true }
      (s.events.notice = .quiet → s.events.flags &&& enables ≠ 0 →
        exec (.writeEnables o) s =
          .next
            (returned Verb.writeEnables o (Reply.done s.events.enables.toNat)
              { u with events := { s.events with enables, notice := .sent }, slot := placed })) ∧
      (s.events.notice ≠ .quiet ∨ s.events.flags &&& enables = 0 →
        exec (.writeEnables o) s =
          .next
            (returned Verb.writeEnables o (Reply.done s.events.enables.toNat)
              { u with events := { s.events with enables } }))) ∧
    (DirectReady Verb.writeHoldoff o s →
      let u := opened Verb.writeHoldoff o s
      let ms := bitsAt (bodyWord o 1) 15 0
      (ms = 0 ∨ 255 < ms →
        exec (.writeHoldoff o) s = .next (returned Verb.writeHoldoff o (Reply.refusal .range 0) u)) ∧
      (1 ≤ ms → ms ≤ 255 →
        exec (.writeHoldoff o) s =
          .next
            (returned Verb.writeHoldoff o (Reply.done (s.events.holdoff / 48))
              { u with events := { s.events with holdoff := 48 * ms } })))

/-! ### Orders of section 6 CHECKS -/

/-- READ-CHECK reports the check recorder, the corrected counts and the presence of the ranks, and changes nothing;
CLEAR-CHECK empties the kinds seen and the detail record; WRITE-MODE replaces the reporting mode (R144, R145, R174); an
absent record is returned as 0 (log 25). READ-BAD-BLOCKS returns the count of marks, the sweep record, and up to 32 marks
from an index on, two to a word, and changes nothing (R19, R22, R174). The detail of the two reads is 0 (log 36). A check
taken joins the kinds seen, replaces the record unless its kind is lower, and raises MEMORY-CHECK by the mode; the checks of
a frame period are taken one at a time, turned round by a free value (R143, R144; log 8). -/
def Obligations.ChecksAndMarksAreRead : Prop :=
  (∀ (s : State) (c : Check),
    let code (k : CheckKind) : Nat :=
      match k with
      | .corrected => 0
      | .uncorrected => 1
      | .absent => 2
    let reported : Bool :=
      match s.checks.mode with
      | .none => false
      | .uncorrectedOnly => c.kind == .uncorrected
      | .serious => c.kind == .uncorrected || c.kind == .absent
      | .all => true
    let record : Option Check :=
      match s.checks.record with
      | none => some c
      | some old => if code c.kind < code old.kind then some old else some c
    let t := { s with checks := { s.checks with seen := s.checks.seen ||| 1#3 <<< code c.kind, record } }
    recordCheck s c = if reported = true then raise .memoryCheck t else t) ∧
  (∀ (cs : List Check) (s : State),
    ∃ turn fresh : Nat, recordChecks cs s = (cs.rotate turn).foldl recordCheck { s with fresh }) ∧
  (∀ (o : Order) (s : State),
      let k := s.checks
      let m := s.mem
      let record : List Word :=
        match k.record with
        | none => [0, 0]
        | some c =>
          let kind := match c.kind with
            | .corrected => 0
            | .uncorrected => 1
            | .absent => 2
          [ word (2 ^ 31 + kind * 2 ^ 28 + c.rank.val * 2 ^ 24 + c.bit.getD 31 * 2 ^ 16 + bit c.line.isNone * 2 ^ 15 +
              ((c.line.map (·.val)).getD 0) * 2 ^ 8),
            word (c.seq.toNat * 2 ^ 16 + c.block) ]
      (DirectReady Verb.readCheck o s →
        exec (.readCheck o) s =
          .next
            (returned Verb.readCheck o
              (Reply.reads
                ([ word (k.mode.code * 2 ^ 24 +
                     (bit m.present[0] + 2 * bit m.present[1] + 4 * bit m.present[2] + 8 * bit m.present[3]) * 2 ^ 8 +
                     k.seen.toNat) ] ++ record ++
                  [ word (m.corrected[0] * 2 ^ 16 + m.corrected[1]), word (m.corrected[2] * 2 ^ 16 + m.corrected[3]),
                    word (4096 * (bit m.present[0] + bit m.present[1] + bit m.present[2] + bit m.present[3])) ]))
              (opened Verb.readCheck o s))) ∧
      (DirectReady Verb.clearCheck o s →
        exec (.clearCheck o) s =
          .next
            (returned Verb.clearCheck o (Reply.done k.seen.toNat)
              { opened Verb.clearCheck o s with checks := { k with seen := 0, record := none } })) ∧
      (DirectReady Verb.writeMode o s →
        let u := opened Verb.writeMode o s
        let code := bitsAt (bodyWord o 1) 7 0
        (3 < code → exec (.writeMode o) s = .next (returned Verb.writeMode o (Reply.refusal .range 0) u)) ∧
        ∀ mode : ReportingMode, mode.code = code →
          exec (.writeMode o) s =
            .next (returned Verb.writeMode o (Reply.done k.mode.code) { u with checks := { k with mode } }))) ∧
  (∀ (o : Order) (s : State), DirectReady Verb.readBadBlocks o s →
      let part := (s.mem.badBlocks.drop (bitsAt (bodyWord o 1) 15 0)).take 32
      exec (.readBadBlocks o) s =
        .next
          (returned Verb.readBadBlocks o
            (Reply.reads
              ([ word s.mem.badBlocks.length,
                 word (s.mem.sweep.outcome.code * 2 ^ 24 + s.mem.sweep.rank.val * 2 ^ 16 + s.mem.sweep.block),
                 word s.mem.sweep.added ] ++
                (List.range ((part.length + 1) / 2)).map fun k =>
                  word (part.getD (2 * k) 0 * 2 ^ 16 + part.getD (2 * k + 1) 0)))
            (opened Verb.readBadBlocks o s)))

/-! ### Orders of section 7 CAPTURE -/

/-- SET-UP replaces the set-up whole, after its checks in order, unless a capture is in progress; it is neither protected nor
group-capable (R147). The detail of DONE is 0 (log 36). -/
def Obligations.SetUpReplacesTheSetUp : Prop :=
  (Verb.setUp.guarded = false ∧ Verb.setUp.groupable = false) ∧
  ∀ (o : Order) (s : State), DirectReady Verb.setUp o s →
    let u := opened Verb.setUp o s
    let kind := bitsAt (bodyWord o 1) 31 24
    let number := bitsAt (bodyWord o 1) 23 16
    let mode := bitsAt (bodyWord o 1) 15 8
    let trigger := bitsAt (bodyWord o 1) 7 0
    let extent := bitsAt (bodyWord o 2) 15 0
    let arg := bitsAt (bodyWord o 3) 15 0
    let busy := s.capture.state == .waiting || s.capture.state == .rolling || s.capture.state == .post
    let tests :=
      [ (busy, Reply.refusal .busy s.capture.state.code), (decide (2 < kind), Reply.refusal .range 0),
        (decide ([24, 64, 32].getD kind 0 ≤ number), Reply.refusal .range 1),
        (decide (1 < mode), Reply.refusal .range 2),
        (decide ((mode = 0 ∧ (extent = 0 ∨ 8192 < extent)) ∨ (mode = 1 ∧ 8191 < extent)), Reply.refusal .range 3),
        (decide (5 < trigger), Reply.refusal .range 4),
        (decide ((trigger = 1 ∨ trigger = 2) ∧ 31 < arg), Reply.refusal .range 5) ]
    (∀ r, firstFailing tests = some r → exec (.setUp o) s = .next (returned Verb.setUp o r u)) ∧
      (firstFailing tests = none →
        ∀ (source : Source) (m : CaptureMode) (t : Trigger),
          (match source with
            | .input c => kind = 0 ∧ c.val = number
            | .line n => kind = 1 ∧ n.val = number
            | .output c => kind = 2 ∧ c.val = number) →
          (match m with
            | .startOnTrigger => mode = 0
            | .stopOnTrigger => mode = 1) →
          (match t with
            | .manual => trigger = 0
            | .guardStep c => trigger = 1 ∧ c.val = arg
            | .guardMute c => trigger = 2 ∧ c.val = arg
            | .anyGuard => trigger = 3
            | .sequence q => trigger = 4 ∧ q.toNat = arg
            | .linkFault => trigger = 5) →
          exec (.setUp o) s =
            .next
              (returned Verb.setUp o (Reply.done 0)
                { u with capture := { s.capture with setUp := { source, mode := m, extent, trigger := t } } }))

/-- ARM, the CAPTURE-TRIGGER order (direct or by group) and the STOP of section 7, in every capture state (R150, R152, R154,
R155). A CAPTURE-TRIGGER with no frame period in progress takes the expected sequence and the node state (log 31); it is
tested for the capture state first (log 37). A STOP in POST leaves the remaining count as it stands (log 38). -/
def Obligations.CapturesAreArmedTriggeredAndStopped : Prop :=
  ∀ (o : Order) (s : State),
    let c := s.capture
    let busy := c.state = .waiting ∨ c.state = .rolling ∨ c.state = .post
    let empty : CaptureRec :=
      { held := 0, wrapped := false, triggerIndex := none, triggerSeq := none, endIndex := none, endCause := none }
    (DirectReady Verb.arm o s →
      let u := opened Verb.arm o s
      let next : CaptureState := if c.setUp.mode = .startOnTrigger then .waiting else .rolling
      (busy → exec (.arm o) s = .next (returned Verb.arm o (Reply.refusal .busy c.state.code) u)) ∧
      (¬busy →
        exec (.arm o) s =
          .next
            (returned Verb.arm o (Reply.done (if c.setUp.mode = .startOnTrigger then 1 else 2))
              { u with capture := { c with state := next, writeIndex := 0, remaining := 0, record := empty } }))) ∧
    (c.state = .idle ∨ c.state = .post ∨ c.state = .done →
      Answers (.captureTrigger o) Verb.captureTrigger o s (Reply.refusal .state c.state.code) id) ∧
    (c.state = .waiting ∨ c.state = .rolling →
      let processed :=
        match s.period with
        | some p => p.processed
        | none => s.node.state == .standby || s.node.state == .run || s.node.state == .silent
      let sequence :=
        match s.period with
        | some p => p.seq
        | none => s.link.expected
      (processed = false → Answers (.captureTrigger o) Verb.captureTrigger o s (Reply.refusal .state 5) id) ∧
      (processed = true →
        Answers (.captureTrigger o) Verb.captureTrigger o s (Reply.done c.writeIndex) fun u =>
          { u with
            capture :=
              { c with
                state := .post
                remaining := if c.state = .waiting then c.setUp.extent else c.setUp.extent + 1
                record := { c.record with triggerIndex := some c.writeIndex, triggerSeq := some sequence } } })) ∧
    (DirectReady Verb.captureStop o s →
      let u := opened Verb.captureStop o s
      let gives (r : Reply) (c' : Capture) : Prop :=
        exec (.captureStop o) s = .next (returned Verb.captureStop o r { u with capture := c' })
      let written :=
        c.remaining ≠ (if c.setUp.mode = .startOnTrigger then c.setUp.extent else c.setUp.extent + 1)
      (c.state = .idle ∨ c.state = .done → gives (Reply.refusal .state c.state.code) c) ∧
      (c.state = .waiting → gives (Reply.done 0) { c with state := .idle }) ∧
      (c.state = .rolling →
        gives (Reply.done c.record.held)
          { c with
            state := .done, record := { c.record with endIndex := some c.writeIndex, endCause := some .stop } }) ∧
      (c.state = .post → written →
        gives (Reply.done c.record.held)
          { c with
            state := .done, record := { c.record with endIndex := some c.writeIndex, endCause := some .stop } }) ∧
      (c.state = .post → ¬written →
        gives (Reply.done c.record.held)
          { c with
            state := .done
            record :=
              { c.record with
                triggerIndex := none, triggerSeq := none, endIndex := some c.writeIndex, endCause := some .stop } }))

/-- READ-CAPTURE reports the capture state, the set-up, the counts and the record, and changes nothing (R152, R156, R174).
READ-SAMPLES, in DONE alone, returns samples from a position on, as many as were asked for and lie below the samples held,
as consecutive fields of 24 bits; position p lies p places after the oldest retained sample (R149, R157, R174). A sample
written since the reset is returned as written; any other is a free value (log 9). The fields of an absent trigger and of a
trigger without an argument are sent as 0 (log 25), and the detail of DONE is 0 (log 36). -/
def Obligations.RecordingsAreReadOut : Prop :=
  (∀ (o : Order) (s : State), DirectReady Verb.readCapture o s →
      let c := s.capture
      let r := c.record
      let source : Nat × Nat :=
        match c.setUp.source with
        | .input n => (0, n.val)
        | .line n => (1, n.val)
        | .output n => (2, n.val)
      let trigger : Nat × Nat :=
        match c.setUp.trigger with
        | .manual => (0, 0)
        | .guardStep n => (1, n.val)
        | .guardMute n => (2, n.val)
        | .anyGuard => (3, 0)
        | .sequence q => (4, q.toNat)
        | .linkFault => (5, 0)
      let mode := if c.setUp.mode = .startOnTrigger then 0 else 1
      let cause :=
        match r.endCause with
        | none => 0
        | some .count => 1
        | some .stop => 2
      let oldest := if r.wrapped = true then c.writeIndex else 0
      let position := (r.triggerIndex.map fun i => (i + 8192 - oldest) % 8192).getD 0
      exec (.readCapture o) s =
        .next
          (returned Verb.readCapture o
            (Reply.reads
              [ word c.state.code, word (source.1 * 2 ^ 24 + source.2 * 2 ^ 16 + mode * 2 ^ 8 + trigger.1),
                word c.setUp.extent, word trigger.2, word (c.writeIndex * 2 ^ 16 + c.remaining),
                word (r.held * 2 ^ 16 + cause * 2 ^ 8 + bit r.wrapped),
                word (r.triggerIndex.getD 65535 * 2 ^ 16 + r.endIndex.getD 65535),
                word (bit r.triggerSeq.isSome * 2 ^ 31 + bit r.triggerIndex.isSome * 2 ^ 30 + position * 2 ^ 16 +
                  ((r.triggerSeq.map (·.toNat)).getD 0)) ])
            (opened Verb.readCapture o s))) ∧
  (∀ (o : Order) (s : State), DirectReady Verb.readSamples o s →
      let u := opened Verb.readSamples o s
      let c := s.capture
      let offset := bitsAt (bodyWord o 1) 31 16
      let count := bitsAt (bodyWord o 1) 15 0
      let tests :=
        [ (c.state != .done, Reply.refusal .state c.state.code), (decide (8191 < offset), Reply.refusal .range 0),
          (decide (count = 0 ∨ 32 < count), Reply.refusal .range 1) ]
      let oldest := if c.record.wrapped = true then c.writeIndex else 0
      (∀ r, firstFailing tests = some r → exec (.readSamples o) s = .next (returned Verb.readSamples o r u)) ∧
        (firstFailing tests = none →
          ∃ (samples : List Sample) (ws : List Word),
            samples.length = min count (c.record.held - offset) ∧
            (∀ (k : Nat) (x : Sample), k < samples.length →
              Store.get c.ring ((oldest + (offset + k)) % 8192) = some x → samples[k]? = some x) ∧
            ws.length = (24 * samples.length + 31) / 32 ∧
            (∀ k < 32 * ws.length,
              (ws.getD (k / 32) 0).getLsbD (31 - k % 32) = (samples.getD (k / 24) 0).getLsbD (23 - k % 24)) ∧
            exec (.readSamples o) s =
              .next
                (returned Verb.readSamples o (Reply.reads (word (offset * 2 ^ 16 + samples.length) :: ws)) u)))

/-! ### Orders of section 8 LINK -/

/-- READ-LINK reports the link receiver and its counters, and changes nothing; CLEAR-COUNTERS sets the four counters to 0
and changes nothing else; neither is protected or group-capable (R112, R174). The detail of DONE is 0 (log 36). -/
def Obligations.LinkIsReadAndItsCountersCleared : Prop :=
  (∀ v : Verb, v = Verb.readLink ∨ v = Verb.clearCounters → v.guarded = false ∧ v.groupable = false) ∧
  ∀ (o : Order) (s : State),
    let l := s.link
    (DirectReady Verb.readLink o s →
      exec (.readLink o) s =
        .next
          (returned Verb.readLink o
            (Reply.reads
              [ word ((if l.receive = .locked then 1 else 0) * 2 ^ 24 + bit l.startUp * 2 ^ 16 +
                  bit l.restorePending * 2 ^ 8 + (bit l.link + 2 * bit l.lost)),
                word (l.lec * 2 ^ 24 + l.missing * 2 ^ 16 + l.expected.toNat), word l.goodFrames, word l.badFrames,
                word l.jumps, word l.discarded ])
            (opened Verb.readLink o s))) ∧
    (DirectReady Verb.clearCounters o s →
      exec (.clearCounters o) s =
        .next
          (returned Verb.clearCounters o (Reply.done 0)
            { opened Verb.clearCounters o s with
              link := { l with goodFrames := 0, badFrames := 0, jumps := 0, discarded := 0 } }))

/-! ### Raises and the events of the part -/

/-- The flags' numbers, and every kind of raise: the flag becomes set, the detail that goes with it is added, and in QUIET,
where an enabled flag is then set, a placement is made and the event unit enters SENT (R130 to R134). -/
def Obligations.RaisesSetFlagsAndPlaceNotices : Prop :=
  [Flag.started, .linkFault, .linkLost, .linkRestored, .sequenceJump, .commitDone, .commitLost, .guardStep, .guardMute,
      .guardRelease, .lineReady, .lineFault, .memoryCheck, .captureDone, .sweepDone, .orderDropped,
      .groupRefused].map Flag.number = List.range 17 ∧
  ∀ s : State,
    let placed : NoticeSlot :=
      match s.slot.state with
      | .empty => { s.slot with state := .waiting }
      | .waiting => s.slot
      | .sending => { s.slot with repeatMark := true }
    let raised (f : Flag) (e : Events) : State :=
      let flags := e.flags ||| 1#17 <<< f.number
      if e.notice = .quiet ∧ flags &&& e.enables ≠ 0 then
        { s with events := { e with flags, notice := .sent }, slot := placed }
      else { s with events := { e with flags } }
    let e := s.events
    (∀ f : Flag, raise f s = raised f e) ∧
      (∀ (f : Flag) (c : Output),
        raiseGuard f c s = raised f { e with guardOutputs := e.guardOutputs ||| 1#32 <<< c.val }) ∧
      (∀ n : Line, raiseReady n s = raised .lineReady { e with readyLines := e.readyLines ||| 1#64 <<< n.val }) ∧
      raiseFault [] s = s ∧
      (∀ ns : List Line, ns ≠ [] →
        ∃ set : BitVec 64,
          (∀ m : Line, set.getLsbD m.val = true ↔ e.faultedLines.getLsbD m.val = true ∨ m ∈ ns) ∧
            raiseFault ns s = raised .lineFault { e with faultedLines := set }) ∧
      (∀ (sec : BitVec 4) (verb : BitVec 6) (r : Result),
        raiseRefused sec verb r s = raised .groupRefused { e with groupRefused := some { sec, verb, result := r } }) ∧
      ∀ d : CommitDetail, raiseCommitDone d s = raised .commitDone { e with commitDetail := d }

/-- SIZING_END, END_OF_CLEARING, SWEEP_COMPLETE and START_UP_LIMIT where they are due, and what the close of a frame period
does in their place (log 2): rank presence takes the probes' results, all asked then (log 35), and the node enters STANDBY;
the head line is RUNNING from position 0, with LINE-READY; the sweep record is COMPLETE, with SWEEP-DONE, or the sweep goes
on to the next PRESENT rank; LOST is set with LINK-LOST, an armed commit is cancelled, and RUN becomes SILENT; a RUNNING
line of which an uncorrectable word was read is FAULTED, with LINE-FAULT (R3, R12, R16, R21, R22, R63, R93, R160). The
record's place at completion rests on log 26; the counts of sizing and of the sweep are the model's items (log 28). -/
def Obligations.StartUpClearingAndSweepEnd : Prop :=
  (∀ (s : State) (p : Period), s.pins.resetHeld = false → s.period = some p →
    (s.node.state = .sizing → 96 ≤ s.mem.sizing →
      ∃ present : Vector Bool 4,
        (∀ r : Rank, present[r] = decide (s.device.life[r] ≠ some 0)) ∧
          exec .sizingEnd s =
            .next { s with mem := { s.mem with present }, node := { s.node with state := .standby } }) ∧
    (∀ (n : Line) (rest : List Line), s.mem.clearing = n :: rest → 1024 * (lineOf s n).length ≤ s.mem.zeroed →
      exec .endOfClearing s =
        .next
          (raiseReady n
            { s with
              lines := s.lines.set n { lineOf s n with state := .running, position := 0, damped := 0 }
              mem := { s.mem with clearing := rest, zeroed := 0 } })) ∧
    (s.node.state = .sweep → s.mem.sweepEnded = true →
      exec .sweepComplete s =
        .next
          (raise .sweepDone
            { s with
              mem :=
                { s.mem with
                  sweep := { s.mem.sweep with outcome := .complete }
                  sweepEnded := false, sweepFrame := 0, sweepFailed := false }
              node := { s.node with state := .standby } })) ∧
    (s.link.startUp = true → 480 ≤ s.link.startUpCount →
      let told := raisedAll ([Flag.linkLost] ++ if s.changer.state = .armed then [Flag.commitLost] else []) s
      ∃ v : State,
        (s.changer.state = .armed → RoleChanged withdrawnRole steadyChanger s v) ∧
          (s.changer.state ≠ .armed → v = s) ∧
          exec .startUpLimit s =
            .next
              { s with
                link := { s.link with startUp := false, lost := true, restorePending := true }
                scenes := v.scenes
                changer := v.changer
                guard := if s.node.state = .run ∧ p.counts = false then v.guard.abandon else v.guard
                events := told.events
                slot := told.slot
                node := { s.node with state := if s.node.state = .run then .silent else s.node.state }
                period :=
                  some { p with leftRun := p.leftRun || (decide (s.node.state = .run) && p.counts) } })) ∧
  ∀ (s u : State) (p : Period) (t : State), Closes s u p t → p.resetDue = false →
    (if u.node.state = .sizing ∧ 96 ≤ u.mem.sizing then
      ∀ r : Rank, t.mem.present[r] = decide (u.device.life[r] ≠ some 0)
    else t.mem.present = u.mem.present) ∧
    ((∀ n ∈ u.mem.clearing, (lineOf u n).state ≠ .running) →
      let faulted (n : Line) : Prop := n ∈ p.faultDue ∧ (lineOf u n).state = .running
      let cleared (n : Line) : Prop := u.mem.clearing.head? = some n ∧ 1024 * (lineOf u n).length ≤ u.mem.zeroed
      (∀ n : Line,
        (faulted n → lineOf t n = { lineOf u n with state := .faulted }) ∧
          (cleared n → lineOf t n = { lineOf u n with state := .running, position := 0, damped := 0 }) ∧
          (¬faulted n → ¬cleared n → lineOf t n = lineOf u n) ∧
          (t.events.faultedLines.getLsbD n.val = true ↔ u.events.faultedLines.getLsbD n.val = true ∨ faulted n) ∧
          (t.events.readyLines.getLsbD n.val = true ↔ u.events.readyLines.getLsbD n.val = true ∨ cleared n)) ∧
        ((∃ n, cleared n) → t.mem.clearing = u.mem.clearing.tail ∧ t.mem.zeroed = 0) ∧
        ((∀ n, ¬cleared n) → t.mem.clearing = u.mem.clearing ∧ t.mem.zeroed = u.mem.zeroed) ∧
        (t.events.flags.getLsbD 11 = true ↔ u.events.flags.getLsbD 11 = true ∨ ∃ n, faulted n) ∧
        (t.events.flags.getLsbD 10 = true ↔ u.events.flags.getLsbD 10 = true ∨ ∃ n, cleared n)) ∧
    (u.node.state = .sweep → u.mem.sweepEnded = true →
      t.mem.sweep = { u.mem.sweep with outcome := .complete } ∧ t.mem.sweepEnded = false ∧ t.node.state = .standby) ∧
    (u.node.state = .sweep → u.mem.sweepEnded = false → ∀ r : Rank, u.mem.present[u.mem.sweep.rank] = false →
      u.mem.sweep.rank < r → u.mem.present[r] = true →
      (∀ q : Rank, u.mem.sweep.rank < q → q < r → u.mem.present[q] = false) →
      t.mem.sweep = { u.mem.sweep with rank := r, block := 4096 * r.val } ∧ t.mem.sweepFrame = 0 ∧
        t.mem.sweepFailed = false) ∧
    ((u.node.state ≠ .sweep ∨ u.mem.sweepEnded = false ∧ u.mem.present[u.mem.sweep.rank] = true) →
      t.mem.sweep = u.mem.sweep) ∧
    (t.events.flags.getLsbD 14 = true ↔
      u.events.flags.getLsbD 14 = true ∨ (u.node.state = .sweep ∧ u.mem.sweepEnded = true)) ∧
    t.link =
      (if u.link.startUp = true ∧ 480 ≤ u.link.startUpCount then
        { u.link with startUp := false, lost := true, restorePending := true }
      else u.link) ∧
    (t.events.flags.getLsbD 2 = true ↔
      u.events.flags.getLsbD 2 = true ∨ (u.link.startUp = true ∧ 480 ≤ u.link.startUpCount))

/-- FIRE_FRAME, FADE_END and REVERTED_FADE_END where they are due, and the step or the end of a fade at the close of a
processed frame's period (R47, R48, R54 to R59, R74; log 2). The frame period in progress ends before the fire frame begins
(log 14). -/
def Obligations.CommitsFireAndFadesEnd : Prop :=
  (∀ s : State, s.pins.resetHeld = false →
    let t := endPeriod s
    t.link.startUp = false → t.changer.state = .armed → t.changer.target = some t.link.expected →
      let m := { t with begun := some (t.begun.getD (decide (t.slot.state = .waiting))) }
      (t.changer.length = 0 →
        ∃ v, RoleChanged switchedRole steadyChanger m v ∧ exec .fireFrame s = .next (raiseCommitDone .notReverted v)) ∧
      (t.changer.length ≠ 0 →
        ∃ v,
          RoleChanged firedRole
              { state := .fading, target := none, length := t.changer.length, position := 1, direction := .forward }
              m v ∧
            exec .fireFrame s = .next v)) ∧
  (∀ (s : State) (p : Period), s.pins.resetHeld = false → s.period = some p → p.processed = true →
    s.changer.state = .fading →
      (s.changer.direction = .forward → s.changer.length ≤ s.changer.position →
        ∃ v, RoleChanged endedRole steadyChanger s v ∧ exec .fadeEnd s = .next (raiseCommitDone .notReverted v)) ∧
      (s.changer.direction = .back → s.changer.position = 0 →
        ∃ v, RoleChanged revertedRole steadyChanger s v ∧ exec .revertedFadeEnd s = .next (raiseCommitDone .reverted v))) ∧
  ∀ (s u : State) (p : Period) (t : State), Closes s u p t → p.resetDue = false →
    let ended (roles : Role → Role) (detail : CommitDetail) : Prop :=
      (∃ v, RoleChanged roles steadyChanger u v ∧ t.scenes = v.scenes ∧ t.changer = v.changer) ∧
        t.events.flags.getLsbD 5 = true ∧ t.events.commitDetail = detail
    let unended : Prop :=
      t.events.flags.getLsbD 5 = u.events.flags.getLsbD 5 ∧ t.events.commitDetail = u.events.commitDetail
    let limited : Prop := u.link.startUp = true ∧ 480 ≤ u.link.startUpCount
    (p.processed = true → u.changer.state = .fading →
      (u.changer.direction = .forward → u.changer.length ≤ u.changer.position → ended endedRole .notReverted) ∧
      (u.changer.direction = .back → u.changer.position = 0 → ended revertedRole .reverted) ∧
      (u.changer.direction = .forward → u.changer.position < u.changer.length →
        t.changer = { u.changer with position := u.changer.position + 1 } ∧ t.scenes = u.scenes ∧ unended) ∧
      (u.changer.direction = .back → u.changer.position ≠ 0 →
        t.changer = { u.changer with position := u.changer.position - 1 } ∧ t.scenes = u.scenes ∧ unended)) ∧
    (p.processed = false ∨ u.changer.state ≠ .fading →
      unended ∧
        (limited → u.changer.state = .armed →
          (∃ v, RoleChanged withdrawnRole steadyChanger u v ∧ t.scenes = v.scenes ∧ t.changer = v.changer) ∧
            t.events.flags.getLsbD 6 = true) ∧
        (¬limited ∨ u.changer.state ≠ .armed → t.scenes = u.scenes ∧ t.changer = u.changer))

/-- The guard's measuring of a frame that counts for it: block peaks, clip run counts and the clip mutes that fall due (R78,
R82); the judgement of one output at a block end (R79, R80, R81); BLOCK_END, which judges every output but those released in
its frame period, and CLIP_RUN_MUTE, where they are due; and what the close of a frame period does in their place, with the
mute ramps and the abandonment of the block on leaving RUN (R77, R78, R82, R83, R86, R151; log 2). An output released in the
frame whose clip run had muted it is not judged either (log 40). -/
def Obligations.GuardJudgesBlocksAndMutes : Prop :=
  (∀ (g : GuardRec) (w o : Int),
    g.measure w o =
      if g.state = .muted then g
      else
        { g with
          peak := max g.peak (min w.natAbs 8388608)
          clip := if 8388607 < o ∨ o < -8388608 then min 255 (g.clip + 1) else 0 }) ∧
  (∀ (b : State) (seq : Seq) (inputs : Vector Int 24), engineRuns b.node.state = true →
    let r := frameReads b inputs seq
    let e := engineStep seq inputs b
    let x := engineResult seq inputs b
    e.guard.profiles = b.guard.profiles ∧ e.guard.blockCount = b.guard.blockCount ∧
      (b.node.state = .run → ∀ c : Output,
        let p := b.guard.profiles[profileInForce b.changer.state b.scenes c]
        let g := (b.guard.outputs[c]).measure (frameTrimmed b r c) (frameOutput b r c)
        e.guard.outputs[c] = g ∧ (c ∈ x.clipDue ↔ g.state ≠ .muted ∧ 0 < p.clipRun ∧ p.clipRun ≤ g.clip)) ∧
      (b.node.state ≠ .run → e.guard = b.guard ∧ x.clipDue = [])) ∧
  (∀ (g : GuardRec) (p : Profile),
    (g.state = .muted → g.judge p = (g, none)) ∧
    (g.state ≠ .muted → p.ceiling < g.peak →
      (g.strain + p.rise < p.strainLimit →
        g.judge p = ({ g with recovery := 0, strain := g.strain + p.rise }, none)) ∧
      (p.strainLimit ≤ g.strain + p.rise → g.trim < p.maxSteps →
        g.judge p = ({ g with recovery := 0, strain := 0, trim := g.trim + 1, state := .trimmed }, some .guardStep)) ∧
      (p.strainLimit ≤ g.strain + p.rise → p.maxSteps ≤ g.trim →
        g.judge p = ({ g with recovery := 0, strain := 0, state := .muted, cause := some .strain }, some .guardMute))) ∧
    (g.state = .open_ → g.peak ≤ p.ceiling → g.judge p = ({ g with strain := g.strain - 1, recovery := 0 }, none)) ∧
    (g.state = .trimmed → g.peak ≤ p.ceiling →
      (g.recovery + 1 < p.recovery →
        g.judge p = ({ g with strain := g.strain - 1, recovery := g.recovery + 1 }, none)) ∧
      (p.recovery ≤ g.recovery + 1 → 2 ≤ g.trim →
        g.judge p = ({ g with strain := g.strain - 1, recovery := 0, trim := g.trim - 1 }, none)) ∧
      (p.recovery ≤ g.recovery + 1 → g.trim ≤ 1 →
        g.judge p =
          ({ g with strain := g.strain - 1, recovery := 0, trim := 0, state := .open_ }, some .guardRelease)))) ∧
  (∀ (s : State) (p : Period), s.pins.resetHeld = false → s.period = some p →
    (BlockDue s p →
      ∃ u : State,
        exec .blockEnd s = .next u ∧
          (∀ c : Output, u.guard.outputs[c] = { (judgedAt s p c).1 with peak := 0 }) ∧
          u.guard.profiles = s.guard.profiles ∧ u.guard.blockCount = 0 ∧
          (∀ f : Flag,
            u.events.flags.getLsbD f.number = true ↔
              s.events.flags.getLsbD f.number = true ∨ ∃ c : Output, (judgedAt s p c).2 = some f) ∧
          (∀ c : Output,
            u.events.guardOutputs.getLsbD c.val = true ↔
              s.events.guardOutputs.getLsbD c.val = true ∨ (judgedAt s p c).2 ≠ none) ∧
          u.capture =
            (if guardMeets s.capture.setUp.trigger (fun c => (judgedAt s p c).2) = true then
              triggered p.processed p.seq s.capture
            else s.capture) ∧
          u.period = some { p with blockDone := true } ∧ u.link = s.link ∧ u.maps = s.maps ∧ u.lines = s.lines ∧
          u.mem = s.mem ∧ u.device = s.device ∧ u.scenes = s.scenes ∧ u.changer = s.changer ∧
          u.decoder = s.decoder ∧ u.arbiter = s.arbiter ∧ u.checks = s.checks ∧ u.node = s.node) ∧
    ∀ c : Output, c ∈ p.clipDue → (s.guard.outputs[c]).state ≠ .muted →
      exec (.clipRunMute c) s =
        .next
          { raiseGuard .guardMute c
              { s with
                guard :=
                  { s.guard with
                    outputs := s.guard.outputs.set c { s.guard.outputs[c] with state := .muted, cause := some .clip } }
                period := some { p with clipDue := p.clipDue.filter fun d => decide (d ≠ c) } } with
            capture :=
              if s.capture.setUp.trigger = .guardMute c ∨ s.capture.setUp.trigger = .anyGuard then
                triggered p.processed p.seq s.capture
              else s.capture }) ∧
  ∀ (s u : State) (p : Period) (t : State), Closes s u p t → p.resetDue = false →
    let left : Prop := p.leftRun = true ∨ (u.node.state = .run ∧ t.node.state ≠ .run)
    t.guard.profiles = u.guard.profiles ∧
      (BlockDue u p ∨ left → t.guard.blockCount = 0) ∧
      (¬BlockDue u p → ¬left →
        t.guard.blockCount =
          if p.counts = true ∧ p.blockDone = false then u.guard.blockCount + 1 else u.guard.blockCount) ∧
      (∀ c : Output,
        let a := blockJudged u p c
        let g := t.guard.outputs[c]
        let old := profileInForce u.changer.state u.scenes c
        let new := profileInForce t.changer.state t.scenes c
        let q := u.guard.profiles[new]
        g.state = (if clipMutedAt u p c = true then .muted else a.1.state) ∧
          g.cause = (if clipMutedAt u p c = true then some .clip else a.1.cause) ∧
          g.clip = a.1.clip ∧ g.recovery = a.1.recovery ∧
          g.trim = (if old ≠ new ∧ q.maxSteps < a.1.trim then q.maxSteps else a.1.trim) ∧
          g.strain = (if old ≠ new ∧ q.strainLimit ≤ a.1.strain then q.strainLimit - 1 else a.1.strain) ∧
          g.ramp =
            (if p.processed = false then a.1.ramp
            else if g.state = .muted then a.1.ramp - 1
            else if a.1.ramp + 1 ≤ 48 then a.1.ramp + 1
            else 48) ∧
          (BlockDue u p ∨ left → g.peak = 0) ∧ (¬BlockDue u p → ¬left → g.peak = a.1.peak) ∧
          (t.events.guardOutputs.getLsbD c.val = true ↔
            u.events.guardOutputs.getLsbD c.val = true ∨ a.2 ≠ none ∨ clipMutedAt u p c = true)) ∧
      ∀ f : Flag, f = .guardStep ∨ f = .guardMute ∨ f = .guardRelease →
        (t.events.flags.getLsbD f.number = true ↔
          u.events.flags.getLsbD f.number = true ∨ (∃ c, (blockJudged u p c).2 = some f) ∨
            (f = .guardMute ∧ ∃ c, clipMutedAt u p c = true))

/-- LEAVING_FOR_STANDBY_END and HOLDOFF_EXPIRY where they are due: the ramp is 0, the node STANDBY and the mark cleared; the
timer is 0, with a placement and SENT if a flag is pending, and QUIET if none is (R78, R137, R163). With the ramp at 0
already, leaving ends only in a period that began with the mark set (R163). What the close of a frame period does: the node
ramp's step (R159), the node state, and the timer's fall by 1 (log 2). The mark rampDone keeps the ramp from rising in the
period of a GO that follows, and the ramp makes no step in a period without a processed frame, a GO taken in it or not
(log 21). -/
def Obligations.LeavingAndHoldoffEnd : Prop :=
  (∀ (s : State) (p : Period), s.pins.resetHeld = false → s.period = some p →
    (p.processed = true → p.rampDone = false → s.node.leaving = true → s.node.state = .run ∨ s.node.state = .silent →
      s.node.ramp ≤ 10 → (s.node.ramp = 0 → p.leaving = true) →
      exec .leavingForStandbyEnd s =
        .next
          { s with
            node := { s.node with state := .standby, ramp := 0, leaving := false }
            guard := if s.node.state = .run ∧ p.counts = false then s.guard.abandon else s.guard
            period :=
              some
                { p with rampDone := true, leftRun := p.leftRun || (decide (s.node.state = .run) && p.counts) } }) ∧
    (s.node.ramp = 0 → p.leaving = false → exec .leavingForStandbyEnd s = .next s) ∧
    (s.events.notice = .holdoff → s.events.timerFresh = false → s.events.timer ≤ 1 →
      let placed : NoticeSlot :=
        match s.slot.state with
        | .empty => { s.slot with state := .waiting }
        | .waiting => s.slot
        | .sending => { s.slot with repeatMark := true }
      (s.events.flags &&& s.events.enables ≠ 0 →
        exec .holdoffExpiry s =
          .next { s with events := { s.events with notice := .sent, timer := 0 }, slot := placed }) ∧
      (s.events.flags &&& s.events.enables = 0 →
        exec .holdoffExpiry s = .next { s with events := { s.events with notice := .quiet, timer := 0 } }))) ∧
  ∀ (s u : State) (p : Period) (t : State), Closes s u p t → p.resetDue = false →
    let n := u.node
    let leaves : Prop :=
      p.processed = true ∧ p.rampDone = false ∧ n.leaving = true ∧ (n.state = .run ∨ n.state = .silent) ∧
        n.ramp ≤ 10 ∧ (n.ramp = 0 → p.leaving = true)
    let limited : Prop := u.link.startUp = true ∧ 480 ≤ u.link.startUpCount
    let ended : Prop :=
      (n.state = .sizing ∧ 96 ≤ u.mem.sizing) ∨ (n.state = .sweep ∧ u.mem.sweepEnded = true)
    let stepped : Nat :=
      match n.state with
      | .run => if n.leaving = true then n.ramp - 10 else if n.ramp + 1 ≤ 480 then n.ramp + 1 else 480
      | .silent => n.ramp - 10
      | _ => 0
    let kept : Nat := if p.processed = true ∧ p.rampDone = false then stepped else n.ramp
    let e := u.events
    (leaves → t.node = { n with state := .standby, ramp := 0, leaving := false }) ∧
      (¬leaves → limited → n.state = .run → t.node = { n with state := .silent, ramp := kept }) ∧
      (¬leaves → ended → t.node = { n with state := .standby, ramp := kept }) ∧
      (¬leaves → ¬limited ∨ n.state ≠ .run → ¬ended → t.node = { n with ramp := kept }) ∧
      t.events.timerFresh = false ∧ t.events.enables = e.enables ∧ t.events.holdoff = e.holdoff ∧
      (e.notice ≠ .holdoff → t.events.timer = e.timer) ∧
      (e.notice = .holdoff → e.timerFresh = true → t.events.timer = e.timer ∧ t.events.notice = .holdoff) ∧
      (e.notice = .holdoff → e.timerFresh = false → 2 ≤ e.timer →
        t.events.timer = e.timer - 1 ∧ t.events.notice = .holdoff) ∧
      (e.notice = .holdoff → e.timerFresh = false → e.timer ≤ 1 →
        t.events.timer = 0 ∧
          (t.events.flags &&& e.enables ≠ 0 → t.events.notice = .sent ∧ t.slot.state ≠ .empty) ∧
          (t.events.flags &&& e.enables = 0 → t.events.notice = .quiet ∧ t.slot = u.slot))

/-- CAPTURE_END, NOTICE_START and RETURN_START where they are due. The sampling step closes a frame period: in ROLLING and
POST the sample is written at the write index, in POST the remaining count falls, and at 0 the capture is DONE, with
CAPTURE-DONE; a guard event of the close may take the trigger before it (R149, R151, R153; log 2). That an own message's frame
waits in its period as a draft and leaves at NOTICE_START or RETURN_START, the notice's snapshot being of that moment, is the
model's choice of time (log 13); the words that leave are those of R125, R128, R130 and R135. -/
def Obligations.CaptureEndsAndOwnMessagesStart : Prop :=
  (∀ (s u : State) (p : Period) (t : State), Closes s u p t → p.resetDue = false →
    let c := captureAtClose u p
    let last : Bool := c.state == .post && decide (c.remaining ≤ 1)
    (p.processed = false ∨ (c.state ≠ .rolling ∧ c.state ≠ .post) →
      t.capture = c ∧ t.events.flags.getLsbD 13 = u.events.flags.getLsbD 13) ∧
    (p.processed = true → c.state = .rolling ∨ c.state = .post →
      let next := (c.writeIndex + 1) % 8192
      let full : Bool := c.record.held == 8192
      (∀ k : Nat, Store.get t.capture.ring k = if k = c.writeIndex then some p.sample else Store.get c.ring k) ∧
        t.capture =
          { c with
            ring := t.capture.ring
            writeIndex := next
            state := if last then .done else c.state
            remaining := if c.state = .post then c.remaining - 1 else c.remaining
            record :=
              { c.record with
                held := if full then 8192 else c.record.held + 1
                wrapped := c.record.wrapped || full
                endIndex := if last then some next else c.record.endIndex
                endCause := if last then some .count else c.record.endCause } } ∧
        (t.events.flags.getLsbD 13 = true ↔ u.events.flags.getLsbD 13 = true ∨ last = true) ∧
        (last = true → exec .captureEnd s = .next t))) ∧
  ∀ (s : State) (p : Period), s.pins.resetHeld = false → s.period = some p →
    (∀ d : Draft, p.ownStart = some (.notice, d) →
      let head := headWord 2 s.decoder.pattern 5 0 8 0
      let body := head :: s.events.snapshot
      exec .noticeStart s =
        .next
          { s with
            slot := { s.slot with state := .sending }
            arbiter :=
              { s.arbiter with sending := some (.ownNotice (body ++ [(crc16 body).setWidth 32]) 1) }
            sent := [frameOf d.seq d.damaged d.slots .head head]
            period := some { p with ownStart := none } }) ∧
    ∀ (d : Draft) (r : Return) (rest : List Return), p.ownStart = some (.ret, d) → s.arbiter.returns = r :: rest →
      exec .returnStart s =
        .next
          { s with
            arbiter := { s.arbiter with sending := some (.ownReturn 1) }
            sent := [frameOf d.seq d.damaged d.slots .head (r.words.getD 0 0)]
            period := some { p with ownStart := none } }

/-! ### Frame periods -/

/-- GOOD_FRAME, and RESUMPTION_FRAME with a good check, in LOCKED, with no frame period in progress (one that is ends first:
log 2): the receiver's values, a sequence jump included, which cancels an armed commit, and LINK set or cleared by it; the
node state that follows the causes; the input samples, none where the frame is DAMAGED; and the period handled: the engine,
the decoder's hearing of the service word, the arbiter's choice, and the frame sent (R54, R63, R92, R95 to R97, R101, R102,
R104, R105, R109 to R111, R113, R125, R160). A frame that FIRE_FRAME has begun bears the expected sequence (log 14); the
receiver settles ahead of the engine (log 11, log 12); an own message that starts waits for its HEAD (log 13); a slot that
no output channel names passes on with bits 30 to 24 as they arrived (log 41). -/
def Obligations.GoodFramesMoveTheReceiver : Prop :=
  ∀ (s : State) (f : Frame) (memory : List Disturbance),
    let l := s.link
    s.pins.resetHeld = false → s.period = none → BlocksExist s → OutputMapLaw s → NodeFollows s → l.receive = .locked →
      f.syncGood = true → f.checkGood = true → (s.begun = none ∨ f.seq = l.expected) →
      let jump : Bool := f.seq != l.expected
      let count := if jump then min 255 (l.lec + 8) else l.lec - 1
      let linkSet : Bool := jump && count == 255 && !l.link
      let fault : Bool := linkSet || (l.link && (jump || count != 0))
      let heard : Bool := s.node.state == .run || s.node.state == .silent
      let x : Settlement :=
        { seq := f.seq
          link :=
            { l with
              expected := f.seq + 1, missing := 0, lost := false, lec := count, link := fault
              restorePending := l.restorePending || linkSet
              goodFrames := min 4294967295 (l.goodFrames + 1)
              jumps := if jump then min 4294967295 (l.jumps + 1) else l.jumps }
          node :=
            if heard = false then s.node.state else if fault = true ∨ s.node.orderCause = true then .silent else .run
          offered := !jump, jump, linkSet, lostSet := false
          leftRun := linkSet && heard && !s.node.orderCause }
      ∃ (inputs : Vector Int 24) (b u : State),
        (∀ i : InCh,
          inputs[i] =
            if f.damaged = true then 0
            else
              match s.maps.input[i] with
              | none => 0
              | some j => if f.slots[j].getLsbD 31 = true then ((f.slots[j]).setWidth 24 : Sample).toInt else 0) ∧
          x.Gives memory s b ∧
          HandledAs b (s.begun.getD (s.slot.state == .waiting)) true f.seq inputs f.slots f.damaged
            (b.decoder.take f.kind f.service) u ∧
          exec (.goodFrame f memory) s = .next u ∧ (l.lost = true → exec (.resumptionFrame f memory) s = .next u)

/-- BAD_FRAME (and RESUMPTION_FRAME with a failed check), MISSING_FRAME_PERIOD and LINK_LOST in LOCKED, with no frame period
in progress (one that is ends first: log 2), each on the expected sequence: the receiver's values, LINK set by the link
error count, LOST set by the fourth missing frame period in a row; the node state; and the period handled, with no input
sample: an open message is abandoned, the frame leaves DAMAGED, a missing one as a fill frame, the frame of local framing
undamaged (R54, R63, R92, R98 to R104, R109 to R111, R118, R125, R127, R160). The order within the period, the HEAD of an own
message, a period begun by FIRE_FRAME and bits 30 to 24 of a slot that no output channel names are as log 11, log 12, log 13,
log 14 and log 41 say. -/
def Obligations.BadAndMissingFramesMoveTheReceiver : Prop :=
  ∀ (s : State) (f : Frame) (memory : List Disturbance),
    let l := s.link
    s.pins.resetHeld = false → s.period = none → BlocksExist s → OutputMapLaw s → NodeFollows s → l.receive = .locked →
      let waiting := s.begun.getD (s.slot.state == .waiting)
      let count := min 255 (l.lec + 8)
      let linkSet : Bool := count == 255 && !l.link
      let fault : Bool := l.link || linkSet
      let heard : Bool := s.node.state == .run || s.node.state == .silent
      let counted : Link :=
        { l with
          expected := l.expected + 1, lec := count, link := fault, restorePending := l.restorePending || linkSet
          badFrames := min 4294967295 (l.badFrames + 1) }
      (f.syncGood = true → f.checkGood = false →
        let x : Settlement :=
          { seq := l.expected, link := { counted with missing := 0, lost := false }
            node :=
              if heard = false then s.node.state else if fault = true ∨ s.node.orderCause = true then .silent else .run
            offered := true, jump := false, linkSet, lostSet := false
            leftRun := linkSet && heard && !s.node.orderCause }
        ∃ b u : State,
          x.Gives memory s b ∧
            HandledAs b waiting false l.expected (Vector.replicate 24 0) f.slots true b.decoder.abandon u ∧
            exec (.badFrame f memory) s = .next u ∧ (l.lost = true → exec (.resumptionFrame f memory) s = .next u)) ∧
      (l.missing < 3 →
        let x : Settlement :=
          { seq := l.expected, link := { counted with missing := l.missing + 1 }
            node := if s.node.state = .run ∧ linkSet = true then .silent else s.node.state
            offered := true, jump := false, linkSet, lostSet := false
            leftRun := linkSet && s.node.state == .run }
        ∃ b u : State,
          x.Gives memory s b ∧
            HandledAs b waiting false l.expected (Vector.replicate 24 0) (Vector.replicate 64 0) true b.decoder.abandon u ∧
            exec (.missingFramePeriod memory) s = .next u) ∧
      (3 ≤ l.missing →
        let x : Settlement :=
          { seq := l.expected
            link :=
              { l with
                receive := .search, lockRun := 0, missing := 4, expected := l.expected + 1, lost := true
                restorePending := true }
            node := if s.node.state = .run then .silent else s.node.state
            offered := true, jump := false, linkSet := false, lostSet := true, leftRun := s.node.state == .run }
        ∃ b u : State,
          x.Gives memory s b ∧
            HandledAs b waiting false l.expected (Vector.replicate 24 0) (Vector.replicate 64 0) false
              { decoder := b.decoder, arriving := none, discards := 0, abandoned := none } u ∧
            exec (.linkLost memory) s = .next u ∧ exec (.missingFramePeriod memory) s = .next u)

/-- START_UP_SEARCH_PERIOD and LOCAL_FRAME in SEARCH, with no frame period in progress (one that is ends first: log 2): each
arrival whose sync is good is judged, in order, for a run of three that follow each other, at which the receiver locks. The
start-up search counts its periods, runs the engine with no input sample, gives the decoder and the arbiter nothing, settles
no sequence (log 18), and repeats the arrivals judged unchanged; local framing sends a frame of its own on the expected
sequence and keeps counting it (R54, R91 to R94, R103, R109, R110, R125). What comes after the arrival that locks begins a
frame period of its own (log 17); the order within a period is as log 11, log 13 and log 14 say. -/
def Obligations.SearchPeriodsJudgeArrivals : Prop :=
  ∀ (s : State) (arrivals : List Frame) (memory : List Disturbance),
    let l := s.link
    s.pins.resetHeld = false → s.period = none → BlocksExist s → l.receive = .search →
      (l.startUp = true →
        ∃ (b : State) (k : Link) (taken : List Frame),
          b =
              { s with
                device := memory.foldl Device.disturb s.device
                mem := { s.mem with sizing := if s.node.state = .sizing then s.mem.sizing + 1 else s.mem.sizing }
                sent := [], period := b.period, begun := none } ∧
            Judges arrivals { l with startUpCount := l.startUpCount + 1 } k taken ∧
            exec (.startUpSearchPeriod arrivals memory) s =
              .next { engined l.expected false (Vector.replicate 24 0) b with link := k, sent := taken }) ∧
      (l.startUp = false → l.lost = true → OutputMapLaw s →
        let x : Settlement :=
          { seq := l.expected, link := { l with expected := l.expected + 1 }, node := s.node.state, offered := true
            jump := false, linkSet := false, lostSet := false, leftRun := false }
        ∃ (b v : State) (k : Link) (taken : List Frame),
          x.Gives memory s b ∧
            HandledAs b (s.begun.getD (s.slot.state == .waiting)) false l.expected (Vector.replicate 24 0)
              (Vector.replicate 64 0) false { decoder := b.decoder, arriving := none, discards := 0, abandoned := none } v ∧
            Judges arrivals v.link k taken ∧ exec (.localFrame arrivals memory) s = .next { v with link := k })

/-- A frame period writes the delay memory nowhere but in the windows of lines that are not OFF or wait for clearing and, in
SWEEP, in the block under test, with nothing befalling the devices (R8, R11, R17, R21). A processed frame writes, where
every PRESENT rank answers (log 6), each RUNNING or FAULTED line's feed sample with its code at its write position, which
moves one on with the damping state (R8; a write position outside its window: log 34), and 64 zeroed words of the head line,
counted (R11), in PRESENT ranks, and no other word. A frame of the sweep writes 64 words of the block under test in its
pass's pattern and no other word, marks the block after its last frame if a word of it has failed, and goes on (R19, R21);
that the frames take ascending groups of 64 is the model's choice (log 42), as is the record's next block (log 39). A rank
that fails in the sweep is ABSENT, its block unmarked, though marks of it made before stay, and the record keeps its place
to the frame's end (R4, R21; log 26). Where the record's rank is not PRESENT nothing is tested, and the sweep goes on to the
next PRESENT rank or ends (R20, R22). -/
def Obligations.FramesWriteOnlyWindowsAndTheBlockUnderTest : Prop :=
  (∀ (s u : State) (c : Instr) (address : Nat),
    let t := endPeriod s
    framePeriodCommand c = true → c.disturbances = [] → exec c s = .next u →
    (∀ n : Line, (lineOf t n).state ≠ .off ∨ n ∈ t.mem.clearing →
      address / 1024 < (lineOf t n).base ∨ (lineOf t n).base + (lineOf t n).length ≤ address / 1024) →
    (t.node.state = .sweep → address / 1024 ≠ t.mem.sweep.block) →
    u.device.words.read address = t.device.words.read address ∨ u = s) ∧
  (∀ (b : State) (seq : Seq) (inputs : Vector Int 24), engineRuns b.node.state = true → Answering b → MemoryLaw b →
    PlacementLaw b →
    let e := engineStep seq inputs b
    let fed := (frameReads b inputs seq).feeds
    let there (a : Nat) : Prop := b.mem.present[(Fin.ofNat 4 (a / 4194304) : Rank)] = true
    e.device.life = b.device.life ∧ e.device.defects = b.device.defects ∧ e.mem.present = b.mem.present ∧
      (∀ a : Nat,
        (there a →
          (∀ (n : Line) (x : Sample), (n, x) ∈ fed → a ≠ wordAt (lineOf b n) (lineOf b n).position) ∧
            ∀ (n : Line) (rest : List Line) (p : Nat), b.mem.clearing = n :: rest → b.mem.zeroed ≤ p →
              p < b.mem.zeroed + 64 → p < 1024 * (lineOf b n).length → a ≠ wordAt (lineOf b n) p) →
        e.device.words.read a = b.device.words.read a) ∧
      (∀ (n : Line) (x : Sample), (n, x) ∈ fed →
        let l := lineOf b n
        lineOf e n =
            { l with damped := x, position := if l.position + 1 < 1024 * l.length then l.position + 1 else 0 } ∧
          (l.position < 1024 * l.length → there (wordAt l l.position) →
            e.device.words.read (wordAt l l.position) = encodeWord x)) ∧
      (∀ n : Line, (∀ x, (n, x) ∉ fed) → lineOf e n = lineOf b n) ∧
      (∀ (n : Line) (rest : List Line), b.mem.clearing = n :: rest → b.mem.zeroed < 1024 * (lineOf b n).length →
        e.mem.zeroed = b.mem.zeroed + 64 ∧ e.mem.clearing = b.mem.clearing ∧
          ∀ p : Nat, b.mem.zeroed ≤ p → p < b.mem.zeroed + 64 → p < 1024 * (lineOf b n).length →
            e.device.words.read (wordAt (lineOf b n) p) = encodeWord 0) ∧
      ((∀ (n : Line) (rest : List Line), b.mem.clearing = n :: rest → 1024 * (lineOf b n).length ≤ b.mem.zeroed) →
        e.mem.zeroed = b.mem.zeroed ∧ e.mem.clearing = b.mem.clearing)) ∧
  ∀ (b : State) (seq : Seq) (inputs : Vector Int 24), b.node.state = .sweep → MemoryLaw b → BadBlockLaw b →
    let m := b.mem
    let r := m.sweep.rank
    let e := engineStep seq inputs b
    m.sweep.block / 4096 = r.val → m.sweepEnded = false → m.sweepFrame ≤ 31 →
    let written : MemWord := encodeWord (if m.sweepFrame < 16 then 0xFFFFFF else 0)
    let place (i : Nat) : Nat := 1024 * m.sweep.block + 64 * (m.sweepFrame % 16) + i
    let follows (next : Option Rank) : Prop :=
      match next with
      | some q => r < q ∧ e.mem.present[q] = true ∧ ∀ k : Rank, r < k → k < q → e.mem.present[k] = false
      | none => ∀ k : Rank, r < k → e.mem.present[k] = false
    (m.present[r] = true → b.device.life[r] = none →
      ∃ failed : Bool,
        (failed = true ↔ m.sweepFailed = true ∨ ∃ i < 64, b.device.defects.read (place i) ≠ 0) ∧
          (∀ i < 64, e.device.words.read (place i) = written) ∧
          (∀ a : Nat, (∀ i < 64, a ≠ place i) → e.device.words.read a = b.device.words.read a) ∧ e.mem.present = m.present ∧ e.checks = b.checks ∧
          (m.sweepFrame < 31 →
            e.mem = { m with sweepFrame := m.sweepFrame + 1, sweepFailed := failed }) ∧
          (m.sweepFrame = 31 →
            (∀ k : Nat, k ∈ e.mem.badBlocks ↔ k ∈ m.badBlocks ∨ (failed = true ∧ k = m.sweep.block)) ∧
              e.mem.sweepFrame = 0 ∧ e.mem.sweepFailed = false ∧ e.mem.sweep.outcome = m.sweep.outcome ∧
              e.mem.sweep.added =
                (if failed = true ∧ m.sweep.block ∉ m.badBlocks then m.sweep.added + 1 else m.sweep.added) ∧
              (m.sweep.block + 1 < 4096 * (r.val + 1) →
                e.mem.sweep.rank = r ∧ e.mem.sweep.block = m.sweep.block + 1 ∧ e.mem.sweepEnded = false) ∧
              (4096 * (r.val + 1) ≤ m.sweep.block + 1 → ∀ next : Option Rank, follows next →
                match next with
                | some q => e.mem.sweep.rank = q ∧ e.mem.sweep.block = 4096 * q.val ∧ e.mem.sweepEnded = false
                | none => e.mem.sweep.rank = r ∧ e.mem.sweep.block = m.sweep.block ∧ e.mem.sweepEnded = true))) ∧
    (m.present[r] = true → b.device.life[r] = some 0 →
      e.device.words = b.device.words ∧ e.mem.present = m.present.set r false ∧ e.mem.sweep = m.sweep ∧ e.mem.badBlocks = m.badBlocks ∧
        e.mem.sweepFrame = 0 ∧ e.mem.sweepFailed = false ∧ (e.mem.sweepEnded = true ↔ follows none) ∧
        e.checks =
          (recordCheck b { kind := .absent, rank := r, block := m.sweep.block, line := none, bit := none, seq }).checks) ∧
    (m.present[r] = false → ∀ next : Option Rank, follows next →
      e =
        { b with
          mem :=
            match next with
            | some q =>
              { m with
                sweep := { m.sweep with rank := q, block := 4096 * q.val }, sweepFrame := 0, sweepFailed := false }
            | none => { m with sweepFrame := 0, sweepFailed := false, sweepEnded := true } })

/-- Reading the delay memory (R4, R9, R15, R16; what befalls the devices: log 6). A word of a PRESENT rank that answers is
checked: a sound one is returned, one wrong bit is corrected, counted and handed to the check recorder, an uncorrectable
word returns 0 and its line's fault falls due; a rank that fails to answer becomes ABSENT with an ABSENT check, and its
lines that are not OFF become FAULTED; no access is made to an ABSENT rank. Where every PRESENT rank answers, a processed
frame's feed samples and tap products are the values of R8, R38, R39 and R42 on the state as its processing began (log 7),
the taps read in list order. -/
def Obligations.FramesReadTheDelayMemory : Prop :=
  (∀ (v : Serve) (n : Line) (a : Nat),
    let r : Rank := Fin.ofNat 4 (a / 4194304)
    let found (kind : CheckKind) (bit : Option Nat) : Check :=
      { kind, rank := r, block := a / 1024, line := some n, bit, seq := v.seq }
    (v.present[r] = false → v.readWord n a = (0, v)) ∧
    (v.present[r] = true → v.device.life[r] = some 0 →
      v.readWord n a =
        (0, { v with present := v.present.set r false, gone := v.gone ++ [r], checks := v.checks ++ [found .absent none] })) ∧
    (v.present[r] = true → v.device.life[r] = none →
      (∀ x, checkWord (v.device.words.read a ^^^ v.device.defects.read a) = .sound x →
        v.readWord n a = (x.toInt, v)) ∧
      (∀ x k, checkWord (v.device.words.read a ^^^ v.device.defects.read a) = .corrected x k →
        v.readWord n a =
          (x.toInt,
            { v with
              corrected := v.corrected.set r (if v.corrected[r] + 1 ≤ 65535 then v.corrected[r] + 1 else 65535)
              checks := v.checks ++ [found .corrected (some k)] })) ∧
      (checkWord (v.device.words.read a ^^^ v.device.defects.read a) = .uncorrectable →
        v.readWord n a =
          (0, { v with faulted := v.faulted ++ [n], checks := v.checks ++ [found .uncorrected none] })))) ∧
  (∀ (lines : Vector LineRec 64) (v : Serve) (n : Line) (delay : Nat),
    let l := lines[n]
    let size := 1024 * l.length
    v.readLine lines n delay =
      if l.state = .running ∧ 1 ≤ delay ∧ delay < size then
        v.readWord n (wordAt l ((l.position + size - delay) % size))
      else (0, v)) ∧
  (∀ (v : Serve) (s : State),
    let t := commitServe v s
    let lost (n : Line) : Prop :=
      (lineOf s n).state ≠ .off ∧ (lineOf s n).state ≠ .faulted ∧
        ∃ r ∈ v.gone, 4096 * r.val < (lineOf s n).base + (lineOf s n).length ∧ (lineOf s n).base < 4096 * (r.val + 1)
    t.device = v.device ∧ t.mem.present = v.present ∧ t.mem.corrected = v.corrected ∧
      t.checks = (recordChecks v.checks s).checks ∧
      (∀ n : Line,
        (lost n → lineOf t n = { lineOf s n with state := .faulted }) ∧ (¬lost n → lineOf t n = lineOf s n) ∧
          (n ∈ t.mem.clearing ↔ n ∈ s.mem.clearing ∧ ¬lost n) ∧
          (t.events.faultedLines.getLsbD n.val = true ↔ s.events.faultedLines.getLsbD n.val = true ∨ lost n)) ∧
      (t.events.flags.getLsbD 11 = true ↔ s.events.flags.getLsbD 11 = true ∨ ∃ n, lost n)) ∧
  (∀ (s : State) (inputs : Vector Int 24) (seq : Seq), Answering s →
    let r := frameReads s inputs seq
    r.feeds =
        ((List.finRange 64).filter fun n => (lineOf s n).state == .running || (lineOf s n).state == .faulted).map
          (fun n => (n, feedSample (lineOf s n) ((lineOf s n).feed.map (termValue s inputs)).sum)) ∧
      r.productsA = tapsHeard s s.scenes.a ∧ r.productsB = tapsHeard s s.scenes.b ∧ r.served.device = s.device ∧
      r.served.present = s.mem.present ∧ r.served.gone = []) ∧
  (∀ (s : State) (inputs : Vector Int 24) (seq : Seq), engineRuns s.node.state = true →
    let r := frameReads s inputs seq
    let x := engineResult seq inputs s
    x.faultDue = r.served.faulted ∧ (∀ c : Output, x.outputs[c] = toSample (frameOutput s r c)) ∧
      x.sample =
        (match s.capture.setUp.source with
          | .input i => BitVec.ofInt 24 inputs[i]
          | .line n => ((r.feeds.find? fun f => decide (f.1 = n)).map (·.2)).getD 0
          | .output c => toSample (frameOutput s r c))) ∧
  ∀ (d : Device) (a : Nat) (mask : MemWord) (r : Rank) (life : Option Nat), Memory.wf d.words = true →
    Memory.wf d.defects = true →
    ((d.disturb (.upset a mask)).life = d.life ∧ (d.disturb (.upset a mask)).defects = d.defects ∧
      ∀ b : Nat,
        (d.disturb (.upset a mask)).words.read b =
          if b = a ∧ a < 16777216 then d.words.read b ^^^ mask else d.words.read b) ∧
    ((d.disturb (.defect a mask)).life = d.life ∧ (d.disturb (.defect a mask)).words = d.words ∧
      ∀ b : Nat,
        (d.disturb (.defect a mask)).defects.read b = if b = a ∧ a < 16777216 then mask else d.defects.read b) ∧
    d.disturb (.answers r life) = { d with life := d.life.set r life }

/-! ### Arithmetic, codes, messages and the service word -/

/-- The code of a delay-memory word (R2, R15, R16): the columns are the first 24 of the seven-bit values with exactly three
bits set, code bit j is the exclusive-or of the sample bits whose columns have bit j set; a word as written is sound, one bit
turned over anywhere is found and corrected, and two bits turned over are uncorrectable. -/
def Obligations.WordCodeCorrectsOneBit : Prop :=
  columns =
      (((List.range 128).filter fun v => ((List.range 7).filter fun j => v.testBit j).length == 3).take 24).map
        (BitVec.ofNat 7) ∧
  (∀ (x : Sample) (j : Fin 7),
    (codeOf x).getLsbD j.val =
      ((List.range 24).filter fun i => x.getLsbD i && (columns.getD i 0).getLsbD j.val).length.bodd) ∧
  ∀ x : Sample,
    checkWord (encodeWord x) = .sound x ∧
      (∀ i : Fin 31, checkWord (encodeWord x ^^^ 1#31 <<< i.val) = .corrected x i.val) ∧
      ∀ i j : Fin 31, i ≠ j → checkWord (encodeWord x ^^^ 1#31 <<< i.val ^^^ 1#31 <<< j.val) = .uncorrectable

/-- The arithmetic of a frame (R8, R38, R39, R42 to R45, R75, R76, R77, R159): the feed sample, the delay and the
interpolation of a modulated tap, the advance of the phases with a processed frame (R37), the bank term of each role, the
pre-trim value, the trimmed and the output value of a frame, and the steps and factors of the ramps. -/
def Obligations.FrameArithmeticIsExact : Prop :=
  (∀ (l : LineRec) (sum : Int),
    let s : Int := (sum + 16384) / 32768
    let y : Int := s + (l.damping * (l.damped.toInt - s)) / 32768
    (feedSample l sum).toInt = max (-8388608) (min 8388607 y)) ∧
  (∀ (t : Tap) (m : Modulation) (phase : Nat), t.modulation = some m → phase < m.period →
    let near := if phase ≤ m.period - phase then phase else m.period - phase
    let f := 2 * m.depth * 256 * near / m.period
    tapDelay t phase = (t.delay + f / 256, f % 256) ∧ f ≤ m.depth * 256) ∧
  (∀ (t : Tap) (phase : Nat), t.modulation = none → tapDelay t phase = (t.delay, 0)) ∧
  (∀ b : BankSlot,
    (b.role = .live ∨ b.role = .incoming ∨ b.role = .outgoing →
      b.advance =
        { b with
          phases :=
            (b.bank.taps.zip b.phases).map fun x =>
              match x.1.modulation with
              | some m => if x.2 + 1 < m.period then x.2 + 1 else 0
              | none => x.2 }) ∧
    (b.role = .staged ∨ b.role = .armed → b.advance = b)) ∧
  (∀ (s : State) (seq : Seq) (inputs : Vector Int 24),
    (engineStep seq inputs s).scenes =
      if engineRuns s.node.state = true then { s.scenes with a := s.scenes.a.advance, b := s.scenes.b.advance }
      else s.scenes) ∧
  (∀ (v0 v1 : Int) (a : Nat), interpolate v0 v1 a = (v0 * (256 - a) + v1 * a + 128) / 256) ∧
  (∀ (b : Bank) (products : List (Output × Int)) (c : Output),
    let sum : Int := (products.map fun x => if x.1 = c then x.2 else 0).sum
    bankTerm b products c =
      if b.outputs[c].enabled = true then
        (if b.outputs[c].polarity = .inverted then -(sum * b.outputs[c].gain.toNat)
        else sum * b.outputs[c].gain.toNat)
      else 0) ∧
  (∀ (sc : Scenes) (pa pb : List (Output × Int)) (r : Role) (c : Output),
    (sc.a.role = r → roleTerm sc pa pb r c = bankTerm sc.a.bank pa c) ∧
      (sc.a.role ≠ r → sc.b.role = r → roleTerm sc pa pb r c = bankTerm sc.b.bank pb c) ∧
      (sc.a.role ≠ r → sc.b.role ≠ r → roleTerm sc pa pb r c = 0)) ∧
  (∀ (s : State) (r : FrameReads) (c : Output),
    let g := s.guard.outputs[c]
    frameTrimmed s r c = trimmed g (preTrim s.changer s.scenes r.productsA r.productsB c) ∧
      frameOutput s r c = outputValue g (rampFactor s.node.ramp) (frameTrimmed s r c)) ∧
  (∀ (ch : Changer) (sc : Scenes) (pa pb : List (Output × Int)) (c : Output),
    (ch.state ≠ .fading →
      preTrim ch sc pa pb c = (roleTerm sc pa pb .live c + 2 ^ 28) / 2 ^ 29) ∧
    (ch.state = .fading →
      preTrim ch sc pa pb c =
        (roleTerm sc pa pb .outgoing c * ((ch.length : Int) - ch.position) +
            roleTerm sc pa pb .incoming c * ch.position + ch.length * 2 ^ 28) / (ch.length * 2 ^ 29))) ∧
  (∀ (g : GuardRec) (u : Int),
    trimmed g u = (u * trimFactor g.trim + 16384) / 32768 ∧
      ∀ r : Nat, outputValue g r u = (u * g.ramp * r + 786432) / 1572864) ∧
  (∀ k : Fin 17,
    (2 * (trimFactor k.val : Int) - 1) ^ 4 * 2 ^ k.val ≤ 65536 ^ 4 ∧
      65536 ^ 4 < (2 * (trimFactor k.val : Int) + 1) ^ 4 * 2 ^ k.val) ∧
  (∀ (x : Int), (toSample x).toInt = max (-8388608) (min 8388607 x)) ∧
  (∀ g : GuardRec,
    g.rampStep = { g with ramp := if g.state = .muted then g.ramp - 1 else if g.ramp + 1 ≤ 48 then g.ramp + 1 else 48 }) ∧
  ∀ p : Nat, rampFactor p = p * 32768 / 480

/-- The order decoder, word by word (R113 to R115, R117, R118): a HEAD opens a message with its disposition, a BODY word or an
END in place continues or closes it, an END that passes the checks completes the order, and out-of-place words, bad checks and
frame periods without a service word discard an assembled message. -/
def Obligations.DecoderAssemblesMessages : Prop :=
  ∀ (d : Decoder) (w : Word),
    (d.inbound = none →
      (∀ k : ServiceKind, k ≠ .head →
        d.take k w = { decoder := d, arriving := none, discards := 0, abandoned := none }) ∧
      d.take .head w = d.opens w ∧
      d.abandon = { decoder := d, arriving := none, discards := 0, abandoned := none }) ∧
    (let disposition :=
        if headClass w = 0 then
          (if headAddress w = d.pattern then Disposition.direct
          else if headAddress w = 0xFF ∨ (headAddress w ^^^ d.pattern) &&& d.mask = 0 then .group
          else .forwardOnly)
        else if headClass w = 3 then .dropped
        else .forwardOnly
      let executes := disposition = .direct ∨ disposition = .group
      let forwards := disposition = .group ∨ disposition = .forwardOnly
      let discarded := disposition = .dropped ∨ (executes ∧ 32 < headLength w)
      d.opens w =
        { decoder :=
            { d with
              inbound := some { head := w, disposition, bodies := 0, discarded, id := d.nextId }
              buffer := if executes ∧ ¬discarded then [w] else []
              nextId := d.nextId + 1 }
          arriving := if forwards then some { kind := .head, word := w, message := d.nextId } else none
          discards := if discarded then 1 else 0
          abandoned := none }) ∧
    ∀ m : OpenMessage, d.inbound = some m →
      let executes := m.disposition = .direct ∨ m.disposition = .group
      let forwards := m.disposition = .group ∨ m.disposition = .forwardOnly
      let assembled := executes ∧ m.discarded = false
      let forward (k : ServiceKind) : Option TransitWord :=
        if forwards then some { kind := k, word := w, message := m.id } else none
      let closed : Decoder := { d with inbound := none, buffer := [] }
      let lost := if assembled then 1 else 0
      (assembled → m.bodies < headLength m.head →
        d.take .body w =
          { decoder := { d with inbound := some { m with bodies := m.bodies + 1 }, buffer := d.buffer ++ [w] }
            arriving := forward .body, discards := 0, abandoned := none }) ∧
      (assembled → headLength m.head ≤ m.bodies →
        d.take .body w =
          { decoder := { d with inbound := some { m with bodies := m.bodies + 1, discarded := true }, buffer := [] }
            arriving := forward .body, discards := 1, abandoned := none }) ∧
      (¬assembled →
        d.take .body w =
            { decoder := { d with inbound := some { m with bodies := m.bodies + 1 } }
              arriving := forward .body, discards := 0, abandoned := none } ∧
          d.take .tail w = { decoder := closed, arriving := forward .tail, discards := 0, abandoned := none }) ∧
      (assembled → m.bodies = headLength m.head → w = (crc16 d.buffer).setWidth 32 →
        let head := d.buffer.headD 0
        d.take .tail w =
          { decoder :=
              { closed with
                ready :=
                  some
                    { sec := headSection head
                      verb := headVerb head
                      order :=
                        { via := if m.disposition = .direct then .direct else .group
                          tag := headTag head
                          body := d.buffer.tail } } }
            arriving := forward .tail, discards := 0, abandoned := none }) ∧
      (assembled → (m.bodies ≠ headLength m.head ∨ w ≠ (crc16 d.buffer).setWidth 32) →
        d.take .tail w = { decoder := closed, arriving := forward .tail, discards := 1, abandoned := none }) ∧
      d.take .head w = { closed.opens w with discards := lost + (closed.opens w).discards } ∧
      d.take .idle w = { decoder := closed, arriving := none, discards := lost, abandoned := none } ∧
      d.abandon =
        { decoder := closed, arriving := none, discards := lost
          abandoned := if forwards then some m.id else none }

/-- The arbiter's choice in its order of steps (R125, R126, R128 to R130): an own message in progress goes on and an
arriving word joins the tail of the transit queue; a message being sent directly goes on; else the head of the transit queue
leaves; else an arriving word leaves at once; else a waiting notice starts, else the oldest return, else IDLE leaves. The
message being sent is held with the position reached. Where a forwarded message is abandoned its words leave the queue, and
IDLE leaves where it had begun to leave and no own message is in progress (R127). -/
def Obligations.ArbiterChoosesInOrder : Prop :=
  (∀ (waiting : Bool) (arriving : Option TransitWord) (a : Arbiter) (n : NoticeSlot),
    let c := a.choose waiting arriving n
    c.arbiter.returns = a.returns ∧
    (∀ (r : Return) (rest : List Return) (p : Nat), a.sending = some (.ownReturn p) → a.returns = r :: rest →
      c.leaving =
          .word (if p = 0 then .head else if p + 1 < r.words.length then .body else .tail) (r.words.getD p 0) ∧
        c.arbiter.transit = a.transit ++ arriving.toList ∧ c.slot = n ∧
        (p + 1 < r.words.length →
          c.arbiter.sending = some (.ownReturn (p + 1)) ∧ c.returnLeft = false ∧ c.resetLeft = false) ∧
        (r.words.length ≤ p + 1 →
          c.arbiter.sending = none ∧ c.returnLeft = true ∧ c.resetLeft = r.isReset)) ∧
    (∀ (ws : List Word) (p : Nat), a.sending = some (.ownNotice ws p) →
      c.leaving = .word (if p = 0 then .head else if p + 1 < ws.length then .body else .tail) (ws.getD p 0) ∧
        c.arbiter.transit = a.transit ++ arriving.toList ∧ c.returnLeft = false ∧ c.resetLeft = false ∧
        (p + 1 < ws.length → c.arbiter.sending = some (.ownNotice ws (p + 1)) ∧ c.slot = n) ∧
        (ws.length ≤ p + 1 →
          c.arbiter.sending = none ∧
            c.slot = { state := if n.repeatMark = true then .waiting else .empty, repeatMark := false })) ∧
    ((∀ p, a.sending ≠ some (.ownReturn p)) → (∀ ws p, a.sending ≠ some (.ownNotice ws p)) →
      c.slot = n ∧ c.returnLeft = false ∧ c.resetLeft = false ∧
        (∀ (m p : Nat) (w : TransitWord), a.sending = some (.direct m p) → arriving = some w → w.message = m →
          w.kind ≠ .head →
          c.leaving = .word w.kind w.word ∧ c.arbiter.transit = a.transit ∧
            c.arbiter.sending = if w.kind = .tail then none else some (.direct m (p + 1))) ∧
        ((∀ (m p : Nat) (w : TransitWord), a.sending = some (.direct m p) → arriving = some w → w.message = m →
            w.kind = .head) →
          (∀ (t : TransitWord) (rest : List TransitWord), a.transit = t :: rest →
            c.leaving = .word t.kind t.word ∧ c.arbiter.transit = rest ++ arriving.toList ∧
              (t.kind = .head → c.arbiter.sending = some (.queued t.message 1)) ∧
              (∀ p : Nat, t.kind = .body → a.sending = some (.queued t.message p) →
                c.arbiter.sending = some (.queued t.message (p + 1))) ∧
              (t.kind = .tail → c.arbiter.sending = none)) ∧
          (a.transit = [] →
            c.arbiter.transit = [] ∧
              (∀ w, arriving = some w →
                c.leaving = .word w.kind w.word ∧
                  (w.kind = .head → c.arbiter.sending = some (.direct w.message 1)) ∧
                  (w.kind = .tail → c.arbiter.sending = none)) ∧
              (arriving = none →
                c.arbiter.sending = none ∧
                  c.leaving =
                    if waiting = true then .start .notice
                    else if a.returns ≠ [] then .start .ret
                    else .word .idle 0))))) ∧
  ∀ (waiting : Bool) (m : Nat) (a : Arbiter) (n : NoticeSlot),
    let c := a.chooseAbandoned waiting (some m) n
    let own : Prop := (∃ p, a.sending = some (.ownReturn p)) ∨ ∃ ws p, a.sending = some (.ownNotice ws p)
    let begun : Prop := ∀ w ∈ a.transit, w.message = m → w.kind ≠ .head
    let kept := a.transit.filter fun w => decide (w.message ≠ m)
    ∃ k : Arbiter,
      k.transit = kept ∧ k.returns = a.returns ∧
        (∀ p, a.sending = some (.direct m p) ∨ a.sending = some (.queued m p) → k.sending = none) ∧
        ((∀ p, a.sending ≠ some (.direct m p) ∧ a.sending ≠ some (.queued m p)) → k.sending = a.sending) ∧
        (begun → ¬own →
          c = { arbiter := k, slot := n, leaving := .word .idle 0, returnLeft := false, resetLeft := false }) ∧
        (¬begun ∨ own → c = k.choose waiting none n)

/-! ### What every step keeps -/

/-- Every step keeps the delay memory and the failing cells in canonical form (log 5). -/
def Obligations.StepKeepsTheMemoryForm : Prop := ∀ s t : State, MemoryLaw s → step s = .next t → MemoryLaw t

/-- Every step keeps the law of placement, with what it needs of the lines, the clearing work list and the node (R6, R11,
R20), and the bad-block map ascending with each mark once (R19); and from a state that has the law of placement no step
stops with a fault (log 20). -/
def Obligations.StepKeepsPlacementAndNeverFaults : Prop :=
  ∀ s : State,
    (ExistsLaw s → (∀ t, step s = .next t → ExistsLaw t) ∧ ∃ t, step s = .next t) ∧
      (BadBlockLaw s → ∀ t, step s = .next t → BadBlockLaw t)

/-- Every step keeps the laws of the scenes and the lines: roles and changer agree, the in-use set is that of the banks in
service, and every tap in service stands on its line; no recirculation sum exceeds 31129; no bank's cost exceeds 512; no two
output channels share a slot; taps are in their ranges, and an active bank holds a phase below its period for each of them
(R7, R13, R24, R25, R35, R37, R48, R51, R107). -/
def Obligations.StepKeepsSceneLineAndMapLaws : Prop :=
  ∀ s t : State, step s = .next t →
    (SceneLaw s → SceneLaw t) ∧ (FeedLaw s → FeedLaw t) ∧ (CostLaw s → CostLaw t) ∧
      (OutputMapLaw s → OutputMapLaw t) ∧ (PhaseLaw s → PhaseLaw t)

/-- Every step keeps the guard within its profiles and ramps, a mute cause exactly with MUTED, the receiver's counts, the
capture recorder's indexes and counts, the return queue, the transit queue at 33 words or fewer with the own message that
they wait for, and the events in their ranges, and the node state with the silence causes (R73, R90, R102, R111, R126, R128,
R129, R131, R133, R134, R146, R158, R160). A return's length rests on the feed lists' (R7). The rising positions of
the written part of the capture ring are the model's own (log 9), as is the own message that waits in its period (log 13). -/
def Obligations.StepKeepsGuardLinkAndEventLaws : Prop :=
  ∀ s t : State, step s = .next t →
    (TrimLaw s → TrimLaw t) ∧ (RampLaw s → RampLaw t) ∧ (MuteLaw s → MuteLaw t) ∧ (LinkLaw s → LinkLaw t) ∧
      (QueueLaw s → QueueLaw t) ∧ (FeedLaw s → TransitLaw s → TransitLaw t) ∧ (EventLaw s → EventLaw t) ∧
      (NodeFollows s → NodeFollows t) ∧ (CaptureLaw s → CaptureLaw t)
end

