-- ==== Sys2Proof/Laws/Memory.lean ====
section
/-! SUPPORT. What the operations over the delay memory do, once: sparse lists keep their canonical form and read back what
was written, and the serving of accesses only stores words, loses ranks and names the ranks it loses (R2, R4). -/

namespace Sys2Proof.Machine

/-! ### Sparse lists -/

/-- A list that rises from a number on rises from every smaller one on. -/
theorem Store.rising_mono {α : Type} {lo hi : Nat} {l : List (Nat × α)} (h : lo ≤ hi) (r : Store.rising hi l = true) :
    Store.rising lo l = true := by
  cases l with
  | nil => rfl
  | cons c t =>
    simp only [Store.rising, Bool.and_eq_true, decide_eq_true_eq] at r ⊢
    exact ⟨h.trans r.1, r.2⟩

/-- Nothing is listed below the number that a list rises from. -/
theorem Store.get_below {α : Type} {lo a : Nat} {l : List (Nat × α)} (r : Store.rising lo l = true) (h : a < lo) :
    Store.get l a = none := by
  induction l generalizing lo with
  | nil => rfl
  | cons c t ih =>
    simp only [Store.rising, Bool.and_eq_true, decide_eq_true_eq] at r
    have hk : a ≠ c.1 := by omega
    show (if a = c.1 then some c.2 else Store.get t a) = none
    rw [if_neg hk]
    exact ih r.2 (by omega)

/-- Setting an address keeps the keys rising. -/
theorem Store.put_rising {α : Type} {lo a : Nat} {l : List (Nat × α)} (x : Option α) (r : Store.rising lo l = true)
    (h : lo ≤ a) : Store.rising lo (Store.put l a x) = true := by
  induction l generalizing lo with
  | nil => cases x <;> simp [Store.put, Store.rising, h]
  | cons c t ih =>
    obtain ⟨k, v⟩ := c
    simp only [Store.rising, Bool.and_eq_true, decide_eq_true_eq] at r
    unfold Store.put
    split
    · cases x
      · simp [Store.rising, r.1, r.2]
      · simp only [Option.map_some, Option.toList_some, List.singleton_append, Store.rising, Bool.and_eq_true,
          decide_eq_true_eq]
        exact ⟨h, by omega, r.2⟩
    · split
      · rename_i he
        subst he
        cases x
        · simp only [Option.map_none, Option.toList_none, List.nil_append]
          exact Store.rising_mono (by omega) r.2
        · simp [Store.rising, h, r.2]
      · simp only [Store.rising, Bool.and_eq_true, decide_eq_true_eq]
        exact ⟨r.1, ih r.2 (by omega)⟩

/-- A rising list reads back what was set, and at every other address what it read before. -/
theorem Store.get_put {α : Type} {lo : Nat} {l : List (Nat × α)} (a : Nat) (x : Option α) (b : Nat)
    (r : Store.rising lo l = true) : Store.get (Store.put l a x) b = if b = a then x else Store.get l b := by
  induction l generalizing lo with
  | nil =>
    cases x
    · simp [Store.put, Store.get]
    · simp [Store.put, Store.get]
  | cons c t ih =>
    obtain ⟨k, v⟩ := c
    simp only [Store.rising, Bool.and_eq_true, decide_eq_true_eq] at r
    unfold Store.put
    split
    · rename_i hk
      have hb : Store.get ((k, v) :: t) a = none :=
        Store.get_below (lo := k) (by simp [Store.rising, r.2]) hk
      by_cases e : b = a
      · subst e
        cases x
        · simp only [Option.map_none, Option.toList_none, List.nil_append, hb, if_true]
        · simp [Store.get]
      · cases x
        · simp [e]
        · simp [Store.get, e]
    · split
      · rename_i he
        subst he
        by_cases e : b = a
        · subst e
          cases x
          · simp only [Option.map_none, Option.toList_none, List.nil_append, if_true]
            exact Store.get_below r.2 (by omega)
          · simp [Store.get]
        · cases x <;> simp [Store.get, e]
      · rename_i h1 h2
        simp only [Store.get]
        rw [ih r.2]
        by_cases e : b = k
        · have : b ≠ a := fun f => h2 (f ▸ e)
          simp [e]
          omega
        · simp [e]

/-- Keys of a sparse list stay within a bound where one within it is set. -/
theorem Store.put_keys {α : Type} {m a : Nat} {l : List (Nat × α)} (x : Option α) (h : ∀ y ∈ l, y.1 ≤ m) (ha : a ≤ m) :
    ∀ y ∈ Store.put l a x, y.1 ≤ m := by
  induction l with
  | nil =>
    intro y hy
    cases x with
    | none => simp [Store.put] at hy
    | some w =>
      simp only [Store.put, Option.map_some, Option.toList_some, List.mem_singleton] at hy
      rw [hy]
      exact ha
  | cons z t ih =>
    obtain ⟨k, v⟩ := z
    intro y hy
    have ht : ∀ y ∈ t, y.1 ≤ m := fun y hy => h y (List.mem_cons_of_mem _ hy)
    have hx : ∀ y ∈ (x.map fun w => (a, w)).toList, y.1 ≤ m := by
      cases x with
      | none => simp
      | some w => simpa using ha
    unfold Store.put at hy
    split at hy
    · rcases List.mem_append.1 hy with hy | hy
      · exact hx y hy
      · exact h y hy
    · split at hy
      · rcases List.mem_append.1 hy with hy | hy
        · exact hx y hy
        · exact ht y hy
      · rcases List.mem_cons.1 hy with hy | hy
        · rw [hy]
          exact h (k, v) List.mem_cons_self
        · exact ih ht y hy

/-- An entry written into a sparse list, whatever its order (R149). -/
theorem Store.get_put_some {α : Type} (l : List (Nat × α)) (a : Nat) (x : α) (b : Nat) :
    Store.get (Store.put l a (some x)) b = if b = a then some x else Store.get l b := by
  induction l with
  | nil => rfl
  | cons c l ih =>
    obtain ⟨k, v⟩ := c
    unfold Store.put
    by_cases h1 : a < k
    · rw [if_pos h1]
      rfl
    · rw [if_neg h1]
      by_cases h2 : a = k
      · rw [if_pos h2]
        show (if b = a then some x else Store.get l b) =
          if b = a then some x else if b = k then some v else Store.get l b
        by_cases h3 : b = a
        · rw [if_pos h3, if_pos h3]
        · rw [if_neg h3, if_neg h3, if_neg (h2 ▸ h3)]
      · rw [if_neg h2]
        show (if b = k then some v else Store.get (Store.put l a (some x)) b) = _
        rw [ih]
        show _ = if b = a then some x else if b = k then some v else Store.get l b
        by_cases h3 : b = k
        · rw [if_pos h3, if_neg (fun h : b = a => h2 (h ▸ h3)), if_pos h3]
        · rw [if_neg h3, if_neg h3]

/-- The values of a list after an address is set are those it had and the one set. -/
theorem Store.put_all {α : Type} {p : Nat × α → Bool} {a : Nat} {l : List (Nat × α)} {x : Option α}
    (h : l.all p = true) (hx : ∀ w, x = some w → p (a, w) = true) : (Store.put l a x).all p = true := by
  have hm : (x.map fun w => (a, w)).toList.all p = true := by
    cases x with
    | none => rfl
    | some w => simp [hx w rfl]
  induction l with
  | nil => exact hm
  | cons c t ih =>
    obtain ⟨k, v⟩ := c
    simp only [List.all_cons, Bool.and_eq_true] at h
    unfold Store.put
    split
    · simp [List.all_append, hm, h.1, h.2]
    · split
      · simp [List.all_append, hm, h.2]
      · simp [h.1, ih h.2]

/-! ### Memories -/

/-- A write keeps the canonical form. -/
theorem Memory.write_wf {m : Memory} (a : Nat) (w : MemWord) (h : Memory.wf m = true) :
    Memory.wf (Memory.write m a w) = true := by
  unfold Memory.wf at h ⊢
  simp only [Bool.and_eq_true] at h ⊢
  refine ⟨Store.put_rising _ h.1 (Nat.zero_le _), Store.put_all h.2 ?_⟩
  intro v hv
  split at hv
  · cases hv
  · rename_i hw
    cases hv
    simpa using hw

/-- A word read back, and every other word as before. -/
theorem Memory.read_write {m : Memory} (a : Nat) (w : MemWord) (b : Nat) (h : Memory.wf m = true) :
    (Memory.write m a w).read b = if b = a then w else m.read b := by
  unfold Memory.wf at h
  simp only [Bool.and_eq_true] at h
  unfold Memory.read Memory.write
  rw [Store.get_put a _ b h.1]
  by_cases e : b = a
  · simp only [e, if_true]
    split
    · rename_i hw
      simp [hw]
    · rfl
  · simp only [e, if_false]

/-- A disturbance of the devices keeps both memories in their canonical form. -/
theorem Device.disturb_wf (d : Device) (x : Disturbance)
    (h : Memory.wf d.words = true ∧ Memory.wf d.defects = true) :
    Memory.wf (d.disturb x).words = true ∧ Memory.wf (d.disturb x).defects = true := by
  unfold Device.disturb
  split
  · split
    · exact ⟨Memory.write_wf _ _ h.1, h.2⟩
    · exact h
  · split
    · exact ⟨h.1, Memory.write_wf _ _ h.2⟩
    · exact h
  · exact h

/-- So do the disturbances of a frame period. -/
theorem Device.disturbs_wf (ds : List Disturbance) (d : Device)
    (h : Memory.wf d.words = true ∧ Memory.wf d.defects = true) :
    Memory.wf (ds.foldl Device.disturb d).words = true ∧ Memory.wf (ds.foldl Device.disturb d).defects = true := by
  induction ds generalizing d with
  | nil => exact h
  | cons x xs ih => exact ih _ (Device.disturb_wf d x h)

/-- An access changes neither memory. -/
@[simp] theorem Device.access_words (d : Device) (r : Rank) : (d.access r).2.words = d.words := by
  unfold Device.access
  split <;> rfl

@[simp] theorem Device.access_defects (d : Device) (r : Rank) : (d.access r).2.defects = d.defects := by
  unfold Device.access
  split <;> rfl

/-! ### Serving -/

/-- All that the serving of accesses does to devices and ranks: words are stored in canonical form, failing cells stay,
ranks are only lost, and each rank lost is named. -/
structure Serve.Grows (v w : Serve) : Prop where
  words : Memory.wf v.device.words = true → Memory.wf w.device.words = true
  defects : w.device.defects = v.device.defects
  present : ∀ r : Rank, w.present[r] = true → v.present[r] = true
  gone : ∀ r : Rank, v.present[r] = true → w.present[r] = false → r ∈ w.gone
  named : ∀ r : Rank, r ∈ v.gone → r ∈ w.gone

theorem Serve.Grows.same (v : Serve) : v.Grows v :=
  ⟨id, rfl, fun _ => id, fun r h k => by simp [h] at k, fun _ => id⟩

theorem Serve.Grows.and {u v w : Serve} (a : u.Grows v) (b : v.Grows w) : u.Grows w where
  words := fun h => b.words (a.words h)
  defects := b.defects.trans a.defects
  present := fun r h => a.present r (b.present r h)
  gone := fun r h k => by
    by_cases e : v.present[r] = true
    · exact b.gone r e k
    · simp only [Bool.not_eq_true] at e
      exact b.named r (a.gone r h e)
  named := fun r h => b.named r (a.named r h)

/-- What touches neither memories nor ranks. -/
theorem Serve.Grows.of_eq {v w : Serve} (hd : w.device.words = v.device.words)
    (hf : w.device.defects = v.device.defects) (hp : w.present = v.present) (hg : w.gone = v.gone) : v.Grows w where
  words := fun h => hd ▸ h
  defects := hf
  present := fun r h => by rwa [hp] at h
  gone := fun r h k => by rw [hp] at k; simp [h] at k
  named := fun r h => by rwa [hg]

theorem Serve.rankFails_grows (v : Serve) (r : Rank) (b : Nat) (n : Option Line) : v.Grows (v.rankFails r b n) where
  words := id
  defects := rfl
  present := fun q h => by
    simp only [Serve.rankFails, Fin.getElem_fin, Vector.getElem_set] at h
    split at h
    · cases h
    · exact h
  gone := fun q h k => by
    simp only [Serve.rankFails, Fin.getElem_fin, Vector.getElem_set] at k
    split at k
    · rename_i e
      simp [Serve.rankFails, Fin.ext e.symm]
    · simp [Fin.getElem_fin, k] at h
  named := fun q h => by simp [Serve.rankFails, h]

theorem Serve.access_grows (v : Serve) (a : Nat) (n : Option Line) : v.Grows (v.access a n).2 := by
  unfold Serve.access
  dsimp only
  split
  · exact .same v
  · split
    · exact .of_eq (by simp) (by simp) rfl rfl
    · exact Serve.Grows.and (v := { v with device := (v.device.access (rankOfWord a)).2 })
        (.of_eq (by simp) (by simp) rfl rfl) (Serve.rankFails_grows _ _ _ _)

theorem Serve.readWord_grows (v : Serve) (n : Line) (a : Nat) : v.Grows (v.readWord n a).2 := by
  have h := Serve.access_grows v a (some n)
  unfold Serve.readWord
  dsimp only
  split
  · split
    · exact h
    · exact h.and (.of_eq rfl rfl rfl rfl)
    · exact h.and (.of_eq rfl rfl rfl rfl)
  · exact h

theorem Serve.writeWord_grows (v : Serve) (n : Option Line) (a : Nat) (w : MemWord) : v.Grows (v.writeWord n a w) := by
  have h := Serve.access_grows v a n
  unfold Serve.writeWord
  dsimp only
  split
  · exact h.and ⟨Memory.write_wf _ _, rfl, fun _ => id, fun r e k => by simp [Fin.getElem_fin] at e k; simp [e] at k,
      fun _ => id⟩
  · exact h

theorem Serve.readLine_grows (lines : Vector LineRec 64) (v : Serve) (n : Line) (d : Nat) :
    v.Grows (v.readLine lines n d).2 := by
  unfold Serve.readLine
  dsimp only
  split
  · exact Serve.readWord_grows _ _ _
  · exact .same v

/-- A fold of serving operations. -/
theorem Serve.fold_grows {α : Type} {f : Serve → α → Serve} (h : ∀ (v : Serve) (a : α), v.Grows (f v a)) (l : List α) (v : Serve) :
    v.Grows (l.foldl f v) := by
  induction l generalizing v with
  | nil => exact .same v
  | cons a l ih => exact (h v a).and (ih _)

theorem clearingWrites_grows (l : LineRec) (n : Line) (z : Nat) (v : Serve) : v.Grows (clearingWrites l n z v) :=
  Serve.fold_grows (fun _ _ => Serve.writeWord_grows _ _ _ _) _ _

theorem sweepWord_grows (f b i : Nat) (p : Serve × Bool) : p.1.Grows (sweepWord f b i p).1 := by
  have h := (Serve.writeWord_grows p.1 none (b * Config.wordsPerBlock + f % 16 * 64 + i) (sweepPattern f)).and
    (Serve.access_grows _ (b * Config.wordsPerBlock + f % 16 * 64 + i) none)
  unfold sweepWord
  dsimp only
  split <;> exact h

theorem sweepWords_grows (f b : Nat) (v : Serve) : v.Grows (sweepWords f b v).1 := by
  have h : ∀ (l : List Nat) (p : Serve × Bool),
      p.1.Grows (l.foldl (fun at_ i => sweepWord f b i at_) p).1 := by
    intro l
    induction l with
    | nil => exact fun p => .same p.1
    | cons i l ih => exact fun p => (sweepWord_grows f b i p).and (ih _)
  exact h _ (v, false)

end Sys2Proof.Machine
end

