-- ==== Sys2Proof/Laws/State.lean ====
section
/-! SUPPORT. What each named update of the state leaves as it is: one simp lemma per update, field by field, true by
definition. -/

namespace Sys2Proof.Machine

/-- `raiseWith` touches events, slot alone. -/
@[simp] theorem raiseWith_keeps (f : Flag) (d : Events → Events) (s : State) :
    (raiseWith f d s).link = s.link ∧ (raiseWith f d s).maps = s.maps ∧ (raiseWith f d s).lines = s.lines ∧
      (raiseWith f d s).mem = s.mem ∧ (raiseWith f d s).device = s.device ∧ (raiseWith f d s).scenes = s.scenes ∧
      (raiseWith f d s).changer = s.changer ∧ (raiseWith f d s).guard = s.guard ∧ (raiseWith f d s).capture = s.capture ∧
      (raiseWith f d s).decoder = s.decoder ∧ (raiseWith f d s).arbiter = s.arbiter ∧ (raiseWith f d s).checks = s.checks ∧
      (raiseWith f d s).node = s.node ∧ (raiseWith f d s).pins = s.pins ∧ (raiseWith f d s).sent = s.sent ∧
      (raiseWith f d s).period = s.period ∧ (raiseWith f d s).begun = s.begun ∧ (raiseWith f d s).fresh = s.fresh ∧
      (raiseWith f d s).pending = s.pending :=
  ⟨rfl, rfl, rfl, rfl, rfl, rfl, rfl, rfl, rfl, rfl, rfl, rfl, rfl, rfl, rfl, rfl, rfl, rfl, rfl⟩

/-- `raise` touches events, slot alone. -/
@[simp] theorem raise_keeps (f : Flag) (s : State) :
    (raise f s).link = s.link ∧ (raise f s).maps = s.maps ∧ (raise f s).lines = s.lines ∧
      (raise f s).mem = s.mem ∧ (raise f s).device = s.device ∧ (raise f s).scenes = s.scenes ∧
      (raise f s).changer = s.changer ∧ (raise f s).guard = s.guard ∧ (raise f s).capture = s.capture ∧
      (raise f s).decoder = s.decoder ∧ (raise f s).arbiter = s.arbiter ∧ (raise f s).checks = s.checks ∧
      (raise f s).node = s.node ∧ (raise f s).pins = s.pins ∧ (raise f s).sent = s.sent ∧
      (raise f s).period = s.period ∧ (raise f s).begun = s.begun ∧ (raise f s).fresh = s.fresh ∧
      (raise f s).pending = s.pending :=
  ⟨rfl, rfl, rfl, rfl, rfl, rfl, rfl, rfl, rfl, rfl, rfl, rfl, rfl, rfl, rfl, rfl, rfl, rfl, rfl⟩

/-- `raiseGuard` touches events, slot alone. -/
@[simp] theorem raiseGuard_keeps (f : Flag) (c : Output) (s : State) :
    (raiseGuard f c s).link = s.link ∧ (raiseGuard f c s).maps = s.maps ∧ (raiseGuard f c s).lines = s.lines ∧
      (raiseGuard f c s).mem = s.mem ∧ (raiseGuard f c s).device = s.device ∧ (raiseGuard f c s).scenes = s.scenes ∧
      (raiseGuard f c s).changer = s.changer ∧ (raiseGuard f c s).guard = s.guard ∧ (raiseGuard f c s).capture = s.capture ∧
      (raiseGuard f c s).decoder = s.decoder ∧ (raiseGuard f c s).arbiter = s.arbiter ∧ (raiseGuard f c s).checks = s.checks ∧
      (raiseGuard f c s).node = s.node ∧ (raiseGuard f c s).pins = s.pins ∧ (raiseGuard f c s).sent = s.sent ∧
      (raiseGuard f c s).period = s.period ∧ (raiseGuard f c s).begun = s.begun ∧ (raiseGuard f c s).fresh = s.fresh ∧
      (raiseGuard f c s).pending = s.pending :=
  ⟨rfl, rfl, rfl, rfl, rfl, rfl, rfl, rfl, rfl, rfl, rfl, rfl, rfl, rfl, rfl, rfl, rfl, rfl, rfl⟩

/-- `raiseReady` touches events, slot alone. -/
@[simp] theorem raiseReady_keeps (n : Line) (s : State) :
    (raiseReady n s).link = s.link ∧ (raiseReady n s).maps = s.maps ∧ (raiseReady n s).lines = s.lines ∧
      (raiseReady n s).mem = s.mem ∧ (raiseReady n s).device = s.device ∧ (raiseReady n s).scenes = s.scenes ∧
      (raiseReady n s).changer = s.changer ∧ (raiseReady n s).guard = s.guard ∧ (raiseReady n s).capture = s.capture ∧
      (raiseReady n s).decoder = s.decoder ∧ (raiseReady n s).arbiter = s.arbiter ∧ (raiseReady n s).checks = s.checks ∧
      (raiseReady n s).node = s.node ∧ (raiseReady n s).pins = s.pins ∧ (raiseReady n s).sent = s.sent ∧
      (raiseReady n s).period = s.period ∧ (raiseReady n s).begun = s.begun ∧ (raiseReady n s).fresh = s.fresh ∧
      (raiseReady n s).pending = s.pending :=
  ⟨rfl, rfl, rfl, rfl, rfl, rfl, rfl, rfl, rfl, rfl, rfl, rfl, rfl, rfl, rfl, rfl, rfl, rfl, rfl⟩

/-- `raiseRefused` touches events, slot alone. -/
@[simp] theorem raiseRefused_keeps (c : BitVec 4) (v : BitVec 6) (r : Result) (s : State) :
    (raiseRefused c v r s).link = s.link ∧ (raiseRefused c v r s).maps = s.maps ∧ (raiseRefused c v r s).lines = s.lines ∧
      (raiseRefused c v r s).mem = s.mem ∧ (raiseRefused c v r s).device = s.device ∧ (raiseRefused c v r s).scenes = s.scenes ∧
      (raiseRefused c v r s).changer = s.changer ∧ (raiseRefused c v r s).guard = s.guard ∧ (raiseRefused c v r s).capture = s.capture ∧
      (raiseRefused c v r s).decoder = s.decoder ∧ (raiseRefused c v r s).arbiter = s.arbiter ∧ (raiseRefused c v r s).checks = s.checks ∧
      (raiseRefused c v r s).node = s.node ∧ (raiseRefused c v r s).pins = s.pins ∧ (raiseRefused c v r s).sent = s.sent ∧
      (raiseRefused c v r s).period = s.period ∧ (raiseRefused c v r s).begun = s.begun ∧ (raiseRefused c v r s).fresh = s.fresh ∧
      (raiseRefused c v r s).pending = s.pending :=
  ⟨rfl, rfl, rfl, rfl, rfl, rfl, rfl, rfl, rfl, rfl, rfl, rfl, rfl, rfl, rfl, rfl, rfl, rfl, rfl⟩

/-- `raiseCommitDone` touches events, slot alone. -/
@[simp] theorem raiseCommitDone_keeps (d : CommitDetail) (s : State) :
    (raiseCommitDone d s).link = s.link ∧ (raiseCommitDone d s).maps = s.maps ∧ (raiseCommitDone d s).lines = s.lines ∧
      (raiseCommitDone d s).mem = s.mem ∧ (raiseCommitDone d s).device = s.device ∧ (raiseCommitDone d s).scenes = s.scenes ∧
      (raiseCommitDone d s).changer = s.changer ∧ (raiseCommitDone d s).guard = s.guard ∧ (raiseCommitDone d s).capture = s.capture ∧
      (raiseCommitDone d s).decoder = s.decoder ∧ (raiseCommitDone d s).arbiter = s.arbiter ∧ (raiseCommitDone d s).checks = s.checks ∧
      (raiseCommitDone d s).node = s.node ∧ (raiseCommitDone d s).pins = s.pins ∧ (raiseCommitDone d s).sent = s.sent ∧
      (raiseCommitDone d s).period = s.period ∧ (raiseCommitDone d s).begun = s.begun ∧ (raiseCommitDone d s).fresh = s.fresh ∧
      (raiseCommitDone d s).pending = s.pending :=
  ⟨rfl, rfl, rfl, rfl, rfl, rfl, rfl, rfl, rfl, rfl, rfl, rfl, rfl, rfl, rfl, rfl, rfl, rfl, rfl⟩

/-- `offerNow` touches capture alone. -/
@[simp] theorem offerNow_keeps (o : Offer) (s : State) :
    (offerNow o s).link = s.link ∧ (offerNow o s).maps = s.maps ∧ (offerNow o s).lines = s.lines ∧
      (offerNow o s).mem = s.mem ∧ (offerNow o s).device = s.device ∧ (offerNow o s).scenes = s.scenes ∧
      (offerNow o s).changer = s.changer ∧ (offerNow o s).guard = s.guard ∧ (offerNow o s).decoder = s.decoder ∧
      (offerNow o s).arbiter = s.arbiter ∧ (offerNow o s).slot = s.slot ∧ (offerNow o s).events = s.events ∧
      (offerNow o s).checks = s.checks ∧ (offerNow o s).node = s.node ∧ (offerNow o s).pins = s.pins ∧
      (offerNow o s).sent = s.sent ∧ (offerNow o s).period = s.period ∧ (offerNow o s).begun = s.begun ∧
      (offerNow o s).fresh = s.fresh ∧ (offerNow o s).pending = s.pending :=
  ⟨rfl, rfl, rfl, rfl, rfl, rfl, rfl, rfl, rfl, rfl, rfl, rfl, rfl, rfl, rfl, rfl, rfl, rfl, rfl, rfl⟩

/-- `withProtection` touches decoder alone. -/
@[simp] theorem withProtection_keeps (p : Protection) (s : State) :
    (withProtection p s).link = s.link ∧ (withProtection p s).maps = s.maps ∧ (withProtection p s).lines = s.lines ∧
      (withProtection p s).mem = s.mem ∧ (withProtection p s).device = s.device ∧ (withProtection p s).scenes = s.scenes ∧
      (withProtection p s).changer = s.changer ∧ (withProtection p s).guard = s.guard ∧ (withProtection p s).capture = s.capture ∧
      (withProtection p s).arbiter = s.arbiter ∧ (withProtection p s).slot = s.slot ∧ (withProtection p s).events = s.events ∧
      (withProtection p s).checks = s.checks ∧ (withProtection p s).node = s.node ∧ (withProtection p s).pins = s.pins ∧
      (withProtection p s).sent = s.sent ∧ (withProtection p s).period = s.period ∧ (withProtection p s).begun = s.begun ∧
      (withProtection p s).fresh = s.fresh ∧ (withProtection p s).pending = s.pending :=
  ⟨rfl, rfl, rfl, rfl, rfl, rfl, rfl, rfl, rfl, rfl, rfl, rfl, rfl, rfl, rfl, rfl, rfl, rfl, rfl, rfl⟩

/-- `consume` touches decoder alone. -/
@[simp] theorem consume_keeps (c : BitVec 4) (v : BitVec 6) (o : Order) (s : State) :
    (consume c v o s).link = s.link ∧ (consume c v o s).maps = s.maps ∧ (consume c v o s).lines = s.lines ∧
      (consume c v o s).mem = s.mem ∧ (consume c v o s).device = s.device ∧ (consume c v o s).scenes = s.scenes ∧
      (consume c v o s).changer = s.changer ∧ (consume c v o s).guard = s.guard ∧ (consume c v o s).capture = s.capture ∧
      (consume c v o s).arbiter = s.arbiter ∧ (consume c v o s).slot = s.slot ∧ (consume c v o s).events = s.events ∧
      (consume c v o s).checks = s.checks ∧ (consume c v o s).node = s.node ∧ (consume c v o s).pins = s.pins ∧
      (consume c v o s).sent = s.sent ∧ (consume c v o s).period = s.period ∧ (consume c v o s).begun = s.begun ∧
      (consume c v o s).fresh = s.fresh ∧ (consume c v o s).pending = s.pending :=
  ⟨rfl, rfl, rfl, rfl, rfl, rfl, rfl, rfl, rfl, rfl, rfl, rfl, rfl, rfl, rfl, rfl, rfl, rfl, rfl, rfl⟩

/-- `enqueue` touches arbiter alone. -/
@[simp] theorem enqueue_keeps (c : BitVec 4) (v t : BitVec 6) (b : Bool) (r : Reply) (s : State) :
    (enqueue c v t b r s).link = s.link ∧ (enqueue c v t b r s).maps = s.maps ∧ (enqueue c v t b r s).lines = s.lines ∧
      (enqueue c v t b r s).mem = s.mem ∧ (enqueue c v t b r s).device = s.device ∧ (enqueue c v t b r s).scenes = s.scenes ∧
      (enqueue c v t b r s).changer = s.changer ∧ (enqueue c v t b r s).guard = s.guard ∧ (enqueue c v t b r s).capture = s.capture ∧
      (enqueue c v t b r s).decoder = s.decoder ∧ (enqueue c v t b r s).slot = s.slot ∧ (enqueue c v t b r s).events = s.events ∧
      (enqueue c v t b r s).checks = s.checks ∧ (enqueue c v t b r s).node = s.node ∧ (enqueue c v t b r s).pins = s.pins ∧
      (enqueue c v t b r s).sent = s.sent ∧ (enqueue c v t b r s).period = s.period ∧ (enqueue c v t b r s).begun = s.begun ∧
      (enqueue c v t b r s).fresh = s.fresh ∧ (enqueue c v t b r s).pending = s.pending :=
  ⟨rfl, rfl, rfl, rfl, rfl, rfl, rfl, rfl, rfl, rfl, rfl, rfl, rfl, rfl, rfl, rfl, rfl, rfl, rfl, rfl⟩

/-- `opened` touches decoder alone. -/
@[simp] theorem opened_keeps (v : Verb) (o : Order) (s : State) :
    (opened v o s).link = s.link ∧ (opened v o s).maps = s.maps ∧ (opened v o s).lines = s.lines ∧
      (opened v o s).mem = s.mem ∧ (opened v o s).device = s.device ∧ (opened v o s).scenes = s.scenes ∧
      (opened v o s).changer = s.changer ∧ (opened v o s).guard = s.guard ∧ (opened v o s).capture = s.capture ∧
      (opened v o s).arbiter = s.arbiter ∧ (opened v o s).slot = s.slot ∧ (opened v o s).events = s.events ∧
      (opened v o s).checks = s.checks ∧ (opened v o s).node = s.node ∧ (opened v o s).pins = s.pins ∧
      (opened v o s).sent = s.sent ∧ (opened v o s).period = s.period ∧ (opened v o s).begun = s.begun ∧
      (opened v o s).fresh = s.fresh ∧ (opened v o s).pending = s.pending :=
  ⟨rfl, rfl, rfl, rfl, rfl, rfl, rfl, rfl, rfl, rfl, rfl, rfl, rfl, rfl, rfl, rfl, rfl, rfl, rfl, rfl⟩

/-- `returned` touches arbiter alone. -/
@[simp] theorem returned_keeps (v : Verb) (o : Order) (r : Reply) (s : State) :
    (returned v o r s).link = s.link ∧ (returned v o r s).maps = s.maps ∧ (returned v o r s).lines = s.lines ∧
      (returned v o r s).mem = s.mem ∧ (returned v o r s).device = s.device ∧ (returned v o r s).scenes = s.scenes ∧
      (returned v o r s).changer = s.changer ∧ (returned v o r s).guard = s.guard ∧ (returned v o r s).capture = s.capture ∧
      (returned v o r s).decoder = s.decoder ∧ (returned v o r s).slot = s.slot ∧ (returned v o r s).events = s.events ∧
      (returned v o r s).checks = s.checks ∧ (returned v o r s).node = s.node ∧ (returned v o r s).pins = s.pins ∧
      (returned v o r s).sent = s.sent ∧ (returned v o r s).period = s.period ∧ (returned v o r s).begun = s.begun ∧
      (returned v o r s).fresh = s.fresh ∧ (returned v o r s).pending = s.pending :=
  ⟨rfl, rfl, rfl, rfl, rfl, rfl, rfl, rfl, rfl, rfl, rfl, rfl, rfl, rfl, rfl, rfl, rfl, rfl, rfl, rfl⟩

/-- `clearTaken` touches events alone. -/
@[simp] theorem clearTaken_keeps (k : BitVec 17) (s : State) :
    (clearTaken k s).link = s.link ∧ (clearTaken k s).maps = s.maps ∧ (clearTaken k s).lines = s.lines ∧
      (clearTaken k s).mem = s.mem ∧ (clearTaken k s).device = s.device ∧ (clearTaken k s).scenes = s.scenes ∧
      (clearTaken k s).changer = s.changer ∧ (clearTaken k s).guard = s.guard ∧ (clearTaken k s).capture = s.capture ∧
      (clearTaken k s).decoder = s.decoder ∧ (clearTaken k s).arbiter = s.arbiter ∧ (clearTaken k s).slot = s.slot ∧
      (clearTaken k s).checks = s.checks ∧ (clearTaken k s).node = s.node ∧ (clearTaken k s).pins = s.pins ∧
      (clearTaken k s).sent = s.sent ∧ (clearTaken k s).period = s.period ∧ (clearTaken k s).begun = s.begun ∧
      (clearTaken k s).fresh = s.fresh ∧ (clearTaken k s).pending = s.pending :=
  ⟨rfl, rfl, rfl, rfl, rfl, rfl, rfl, rfl, rfl, rfl, rfl, rfl, rfl, rfl, rfl, rfl, rfl, rfl, rfl, rfl⟩

/-- `enablesWritten` touches events, slot alone. -/
@[simp] theorem enablesWritten_keeps (k : BitVec 17) (s : State) :
    (enablesWritten k s).link = s.link ∧ (enablesWritten k s).maps = s.maps ∧ (enablesWritten k s).lines = s.lines ∧
      (enablesWritten k s).mem = s.mem ∧ (enablesWritten k s).device = s.device ∧ (enablesWritten k s).scenes = s.scenes ∧
      (enablesWritten k s).changer = s.changer ∧ (enablesWritten k s).guard = s.guard ∧ (enablesWritten k s).capture = s.capture ∧
      (enablesWritten k s).decoder = s.decoder ∧ (enablesWritten k s).arbiter = s.arbiter ∧ (enablesWritten k s).checks = s.checks ∧
      (enablesWritten k s).node = s.node ∧ (enablesWritten k s).pins = s.pins ∧ (enablesWritten k s).sent = s.sent ∧
      (enablesWritten k s).period = s.period ∧ (enablesWritten k s).begun = s.begun ∧ (enablesWritten k s).fresh = s.fresh ∧
      (enablesWritten k s).pending = s.pending :=
  ⟨rfl, rfl, rfl, rfl, rfl, rfl, rfl, rfl, rfl, rfl, rfl, rfl, rfl, rfl, rfl, rfl, rfl, rfl, rfl⟩

/-- `holdoffExpires` touches events, slot alone. -/
@[simp] theorem holdoffExpires_keeps (s : State) :
    (holdoffExpires s).link = s.link ∧ (holdoffExpires s).maps = s.maps ∧ (holdoffExpires s).lines = s.lines ∧
      (holdoffExpires s).mem = s.mem ∧ (holdoffExpires s).device = s.device ∧ (holdoffExpires s).scenes = s.scenes ∧
      (holdoffExpires s).changer = s.changer ∧ (holdoffExpires s).guard = s.guard ∧ (holdoffExpires s).capture = s.capture ∧
      (holdoffExpires s).decoder = s.decoder ∧ (holdoffExpires s).arbiter = s.arbiter ∧ (holdoffExpires s).checks = s.checks ∧
      (holdoffExpires s).node = s.node ∧ (holdoffExpires s).pins = s.pins ∧ (holdoffExpires s).sent = s.sent ∧
      (holdoffExpires s).period = s.period ∧ (holdoffExpires s).begun = s.begun ∧ (holdoffExpires s).fresh = s.fresh ∧
      (holdoffExpires s).pending = s.pending :=
  ⟨rfl, rfl, rfl, rfl, rfl, rfl, rfl, rfl, rfl, rfl, rfl, rfl, rfl, rfl, rfl, rfl, rfl, rfl, rfl⟩

/-- `writeStaged` touches scenes alone. -/
@[simp] theorem writeStaged_keeps (k : Bank) (s : State) :
    (writeStaged k s).link = s.link ∧ (writeStaged k s).maps = s.maps ∧ (writeStaged k s).lines = s.lines ∧
      (writeStaged k s).mem = s.mem ∧ (writeStaged k s).device = s.device ∧ (writeStaged k s).changer = s.changer ∧
      (writeStaged k s).guard = s.guard ∧ (writeStaged k s).capture = s.capture ∧ (writeStaged k s).decoder = s.decoder ∧
      (writeStaged k s).arbiter = s.arbiter ∧ (writeStaged k s).slot = s.slot ∧ (writeStaged k s).events = s.events ∧
      (writeStaged k s).checks = s.checks ∧ (writeStaged k s).node = s.node ∧ (writeStaged k s).pins = s.pins ∧
      (writeStaged k s).sent = s.sent ∧ (writeStaged k s).period = s.period ∧ (writeStaged k s).begun = s.begun ∧
      (writeStaged k s).fresh = s.fresh ∧ (writeStaged k s).pending = s.pending :=
  ⟨rfl, rfl, rfl, rfl, rfl, rfl, rfl, rfl, rfl, rfl, rfl, rfl, rfl, rfl, rfl, rfl, rfl, rfl, rfl, rfl⟩

/-- `roleChange` touches scenes, changer, guard alone. -/
@[simp] theorem roleChange_keeps (f : Role → Role) (c : Changer) (s : State) :
    (roleChange f c s).link = s.link ∧ (roleChange f c s).maps = s.maps ∧ (roleChange f c s).lines = s.lines ∧
      (roleChange f c s).mem = s.mem ∧ (roleChange f c s).device = s.device ∧ (roleChange f c s).capture = s.capture ∧
      (roleChange f c s).decoder = s.decoder ∧ (roleChange f c s).arbiter = s.arbiter ∧ (roleChange f c s).slot = s.slot ∧
      (roleChange f c s).events = s.events ∧ (roleChange f c s).checks = s.checks ∧ (roleChange f c s).node = s.node ∧
      (roleChange f c s).pins = s.pins ∧ (roleChange f c s).sent = s.sent ∧ (roleChange f c s).period = s.period ∧
      (roleChange f c s).begun = s.begun ∧ (roleChange f c s).fresh = s.fresh ∧ (roleChange f c s).pending = s.pending :=
  ⟨rfl, rfl, rfl, rfl, rfl, rfl, rfl, rfl, rfl, rfl, rfl, rfl, rfl, rfl, rfl, rfl, rfl, rfl⟩

/-- `disarm` touches scenes, changer, guard alone. -/
@[simp] theorem disarm_keeps (s : State) :
    (disarm s).link = s.link ∧ (disarm s).maps = s.maps ∧ (disarm s).lines = s.lines ∧
      (disarm s).mem = s.mem ∧ (disarm s).device = s.device ∧ (disarm s).capture = s.capture ∧
      (disarm s).decoder = s.decoder ∧ (disarm s).arbiter = s.arbiter ∧ (disarm s).slot = s.slot ∧
      (disarm s).events = s.events ∧ (disarm s).checks = s.checks ∧ (disarm s).node = s.node ∧
      (disarm s).pins = s.pins ∧ (disarm s).sent = s.sent ∧ (disarm s).period = s.period ∧
      (disarm s).begun = s.begun ∧ (disarm s).fresh = s.fresh ∧ (disarm s).pending = s.pending :=
  ⟨rfl, rfl, rfl, rfl, rfl, rfl, rfl, rfl, rfl, rfl, rfl, rfl, rfl, rfl, rfl, rfl, rfl, rfl⟩

/-- `armCommit` touches scenes, changer, guard alone. -/
@[simp] theorem armCommit_keeps (q : Seq) (l : Nat) (s : State) :
    (armCommit q l s).link = s.link ∧ (armCommit q l s).maps = s.maps ∧ (armCommit q l s).lines = s.lines ∧
      (armCommit q l s).mem = s.mem ∧ (armCommit q l s).device = s.device ∧ (armCommit q l s).capture = s.capture ∧
      (armCommit q l s).decoder = s.decoder ∧ (armCommit q l s).arbiter = s.arbiter ∧ (armCommit q l s).slot = s.slot ∧
      (armCommit q l s).events = s.events ∧ (armCommit q l s).checks = s.checks ∧ (armCommit q l s).node = s.node ∧
      (armCommit q l s).pins = s.pins ∧ (armCommit q l s).sent = s.sent ∧ (armCommit q l s).period = s.period ∧
      (armCommit q l s).begun = s.begun ∧ (armCommit q l s).fresh = s.fresh ∧ (armCommit q l s).pending = s.pending :=
  ⟨rfl, rfl, rfl, rfl, rfl, rfl, rfl, rfl, rfl, rfl, rfl, rfl, rfl, rfl, rfl, rfl, rfl, rfl⟩

/-- `overLine` touches lines alone. -/
@[simp] theorem overLine_keeps (n : Line) (f : LineRec → LineRec) (s : State) :
    (overLine n f s).link = s.link ∧ (overLine n f s).maps = s.maps ∧ (overLine n f s).mem = s.mem ∧
      (overLine n f s).device = s.device ∧ (overLine n f s).scenes = s.scenes ∧ (overLine n f s).changer = s.changer ∧
      (overLine n f s).guard = s.guard ∧ (overLine n f s).capture = s.capture ∧ (overLine n f s).decoder = s.decoder ∧
      (overLine n f s).arbiter = s.arbiter ∧ (overLine n f s).slot = s.slot ∧ (overLine n f s).events = s.events ∧
      (overLine n f s).checks = s.checks ∧ (overLine n f s).node = s.node ∧ (overLine n f s).pins = s.pins ∧
      (overLine n f s).sent = s.sent ∧ (overLine n f s).period = s.period ∧ (overLine n f s).begun = s.begun ∧
      (overLine n f s).fresh = s.fresh ∧ (overLine n f s).pending = s.pending :=
  ⟨rfl, rfl, rfl, rfl, rfl, rfl, rfl, rfl, rfl, rfl, rfl, rfl, rfl, rfl, rfl, rfl, rfl, rfl, rfl, rfl⟩

/-- `overMem` touches mem alone. -/
@[simp] theorem overMem_keeps (f : MemCtl → MemCtl) (s : State) :
    (overMem f s).link = s.link ∧ (overMem f s).maps = s.maps ∧ (overMem f s).lines = s.lines ∧
      (overMem f s).device = s.device ∧ (overMem f s).scenes = s.scenes ∧ (overMem f s).changer = s.changer ∧
      (overMem f s).guard = s.guard ∧ (overMem f s).capture = s.capture ∧ (overMem f s).decoder = s.decoder ∧
      (overMem f s).arbiter = s.arbiter ∧ (overMem f s).slot = s.slot ∧ (overMem f s).events = s.events ∧
      (overMem f s).checks = s.checks ∧ (overMem f s).node = s.node ∧ (overMem f s).pins = s.pins ∧
      (overMem f s).sent = s.sent ∧ (overMem f s).period = s.period ∧ (overMem f s).begun = s.begun ∧
      (overMem f s).fresh = s.fresh ∧ (overMem f s).pending = s.pending :=
  ⟨rfl, rfl, rfl, rfl, rfl, rfl, rfl, rfl, rfl, rfl, rfl, rfl, rfl, rfl, rfl, rfl, rfl, rfl, rfl, rfl⟩

/-- `beginClearing` touches lines, mem alone. -/
@[simp] theorem beginClearing_keeps (n : Line) (s : State) :
    (beginClearing n s).link = s.link ∧ (beginClearing n s).maps = s.maps ∧ (beginClearing n s).device = s.device ∧
      (beginClearing n s).scenes = s.scenes ∧ (beginClearing n s).changer = s.changer ∧ (beginClearing n s).guard = s.guard ∧
      (beginClearing n s).capture = s.capture ∧ (beginClearing n s).decoder = s.decoder ∧ (beginClearing n s).arbiter = s.arbiter ∧
      (beginClearing n s).slot = s.slot ∧ (beginClearing n s).events = s.events ∧ (beginClearing n s).checks = s.checks ∧
      (beginClearing n s).node = s.node ∧ (beginClearing n s).pins = s.pins ∧ (beginClearing n s).sent = s.sent ∧
      (beginClearing n s).period = s.period ∧ (beginClearing n s).begun = s.begun ∧ (beginClearing n s).fresh = s.fresh ∧
      (beginClearing n s).pending = s.pending :=
  ⟨rfl, rfl, rfl, rfl, rfl, rfl, rfl, rfl, rfl, rfl, rfl, rfl, rfl, rfl, rfl, rfl, rfl, rfl, rfl⟩

/-- `sweepStarts` touches mem, node alone. -/
@[simp] theorem sweepStarts_keeps (s : State) :
    (sweepStarts s).link = s.link ∧ (sweepStarts s).maps = s.maps ∧ (sweepStarts s).lines = s.lines ∧
      (sweepStarts s).device = s.device ∧ (sweepStarts s).scenes = s.scenes ∧ (sweepStarts s).changer = s.changer ∧
      (sweepStarts s).guard = s.guard ∧ (sweepStarts s).capture = s.capture ∧ (sweepStarts s).decoder = s.decoder ∧
      (sweepStarts s).arbiter = s.arbiter ∧ (sweepStarts s).slot = s.slot ∧ (sweepStarts s).events = s.events ∧
      (sweepStarts s).checks = s.checks ∧ (sweepStarts s).pins = s.pins ∧ (sweepStarts s).sent = s.sent ∧
      (sweepStarts s).period = s.period ∧ (sweepStarts s).begun = s.begun ∧ (sweepStarts s).fresh = s.fresh ∧
      (sweepStarts s).pending = s.pending :=
  ⟨rfl, rfl, rfl, rfl, rfl, rfl, rfl, rfl, rfl, rfl, rfl, rfl, rfl, rfl, rfl, rfl, rfl, rfl, rfl⟩

/-- `writeProfile` touches guard alone. -/
@[simp] theorem writeProfile_keeps (n : Fin 8) (p : Profile) (s : State) :
    (writeProfile n p s).link = s.link ∧ (writeProfile n p s).maps = s.maps ∧ (writeProfile n p s).lines = s.lines ∧
      (writeProfile n p s).mem = s.mem ∧ (writeProfile n p s).device = s.device ∧ (writeProfile n p s).scenes = s.scenes ∧
      (writeProfile n p s).changer = s.changer ∧ (writeProfile n p s).capture = s.capture ∧ (writeProfile n p s).decoder = s.decoder ∧
      (writeProfile n p s).arbiter = s.arbiter ∧ (writeProfile n p s).slot = s.slot ∧ (writeProfile n p s).events = s.events ∧
      (writeProfile n p s).checks = s.checks ∧ (writeProfile n p s).node = s.node ∧ (writeProfile n p s).pins = s.pins ∧
      (writeProfile n p s).sent = s.sent ∧ (writeProfile n p s).period = s.period ∧ (writeProfile n p s).begun = s.begun ∧
      (writeProfile n p s).fresh = s.fresh ∧ (writeProfile n p s).pending = s.pending :=
  ⟨rfl, rfl, rfl, rfl, rfl, rfl, rfl, rfl, rfl, rfl, rfl, rfl, rfl, rfl, rfl, rfl, rfl, rfl, rfl, rfl⟩

/-- `releaseOutput` touches guard, period alone. -/
@[simp] theorem releaseOutput_keeps (c : Output) (s : State) :
    (releaseOutput c s).link = s.link ∧ (releaseOutput c s).maps = s.maps ∧ (releaseOutput c s).lines = s.lines ∧
      (releaseOutput c s).mem = s.mem ∧ (releaseOutput c s).device = s.device ∧ (releaseOutput c s).scenes = s.scenes ∧
      (releaseOutput c s).changer = s.changer ∧ (releaseOutput c s).capture = s.capture ∧ (releaseOutput c s).decoder = s.decoder ∧
      (releaseOutput c s).arbiter = s.arbiter ∧ (releaseOutput c s).slot = s.slot ∧ (releaseOutput c s).events = s.events ∧
      (releaseOutput c s).checks = s.checks ∧ (releaseOutput c s).node = s.node ∧ (releaseOutput c s).pins = s.pins ∧
      (releaseOutput c s).sent = s.sent ∧ (releaseOutput c s).begun = s.begun ∧ (releaseOutput c s).fresh = s.fresh ∧
      (releaseOutput c s).pending = s.pending :=
  ⟨rfl, rfl, rfl, rfl, rfl, rfl, rfl, rfl, rfl, rfl, rfl, rfl, rfl, rfl, rfl, rfl, rfl, rfl, rfl⟩

/-- `leaveRun` touches node, guard, period alone. -/
@[simp] theorem leaveRun_keeps (n : NodeState) (s : State) :
    (leaveRun n s).link = s.link ∧ (leaveRun n s).maps = s.maps ∧ (leaveRun n s).lines = s.lines ∧
      (leaveRun n s).mem = s.mem ∧ (leaveRun n s).device = s.device ∧ (leaveRun n s).scenes = s.scenes ∧
      (leaveRun n s).changer = s.changer ∧ (leaveRun n s).capture = s.capture ∧ (leaveRun n s).decoder = s.decoder ∧
      (leaveRun n s).arbiter = s.arbiter ∧ (leaveRun n s).slot = s.slot ∧ (leaveRun n s).events = s.events ∧
      (leaveRun n s).checks = s.checks ∧ (leaveRun n s).pins = s.pins ∧ (leaveRun n s).sent = s.sent ∧
      (leaveRun n s).begun = s.begun ∧ (leaveRun n s).fresh = s.fresh ∧ (leaveRun n s).pending = s.pending :=
  ⟨rfl, rfl, rfl, rfl, rfl, rfl, rfl, rfl, rfl, rfl, rfl, rfl, rfl, rfl, rfl, rfl, rfl, rfl⟩

/-- `sizingEnds` touches mem, node alone. -/
@[simp] theorem sizingEnds_keeps (s : State) :
    (sizingEnds s).link = s.link ∧ (sizingEnds s).maps = s.maps ∧ (sizingEnds s).lines = s.lines ∧
      (sizingEnds s).device = s.device ∧ (sizingEnds s).scenes = s.scenes ∧ (sizingEnds s).changer = s.changer ∧
      (sizingEnds s).guard = s.guard ∧ (sizingEnds s).capture = s.capture ∧ (sizingEnds s).decoder = s.decoder ∧
      (sizingEnds s).arbiter = s.arbiter ∧ (sizingEnds s).slot = s.slot ∧ (sizingEnds s).events = s.events ∧
      (sizingEnds s).checks = s.checks ∧ (sizingEnds s).pins = s.pins ∧ (sizingEnds s).sent = s.sent ∧
      (sizingEnds s).period = s.period ∧ (sizingEnds s).begun = s.begun ∧ (sizingEnds s).fresh = s.fresh ∧
      (sizingEnds s).pending = s.pending :=
  ⟨rfl, rfl, rfl, rfl, rfl, rfl, rfl, rfl, rfl, rfl, rfl, rfl, rfl, rfl, rfl, rfl, rfl, rfl, rfl⟩

/-- `settle` touches link alone. -/
@[simp] theorem settle_keeps (q : Seq) (s : State) :
    (settle q s).maps = s.maps ∧ (settle q s).lines = s.lines ∧ (settle q s).mem = s.mem ∧
      (settle q s).device = s.device ∧ (settle q s).scenes = s.scenes ∧ (settle q s).changer = s.changer ∧
      (settle q s).guard = s.guard ∧ (settle q s).capture = s.capture ∧ (settle q s).decoder = s.decoder ∧
      (settle q s).arbiter = s.arbiter ∧ (settle q s).slot = s.slot ∧ (settle q s).events = s.events ∧
      (settle q s).checks = s.checks ∧ (settle q s).node = s.node ∧ (settle q s).pins = s.pins ∧
      (settle q s).sent = s.sent ∧ (settle q s).period = s.period ∧ (settle q s).begun = s.begun ∧
      (settle q s).fresh = s.fresh ∧ (settle q s).pending = s.pending :=
  ⟨rfl, rfl, rfl, rfl, rfl, rfl, rfl, rfl, rfl, rfl, rfl, rfl, rfl, rfl, rfl, rfl, rfl, rfl, rfl, rfl⟩

/-- `beginPeriod` touches device, mem, period, begun, sent alone. -/
@[simp] theorem beginPeriod_keeps (q : Seq) (g : Bool) (d : List Disturbance) (s : State) :
    (beginPeriod q g d s).link = s.link ∧ (beginPeriod q g d s).maps = s.maps ∧ (beginPeriod q g d s).lines = s.lines ∧
      (beginPeriod q g d s).scenes = s.scenes ∧ (beginPeriod q g d s).changer = s.changer ∧ (beginPeriod q g d s).guard = s.guard ∧
      (beginPeriod q g d s).capture = s.capture ∧ (beginPeriod q g d s).decoder = s.decoder ∧ (beginPeriod q g d s).arbiter = s.arbiter ∧
      (beginPeriod q g d s).slot = s.slot ∧ (beginPeriod q g d s).events = s.events ∧ (beginPeriod q g d s).checks = s.checks ∧
      (beginPeriod q g d s).node = s.node ∧ (beginPeriod q g d s).pins = s.pins ∧ (beginPeriod q g d s).fresh = s.fresh ∧
      (beginPeriod q g d s).pending = s.pending :=
  ⟨rfl, rfl, rfl, rfl, rfl, rfl, rfl, rfl, rfl, rfl, rfl, rfl, rfl, rfl, rfl, rfl⟩

/-- `goodCounted` touches link alone. -/
@[simp] theorem goodCounted_keeps (s : State) :
    (goodCounted s).maps = s.maps ∧ (goodCounted s).lines = s.lines ∧ (goodCounted s).mem = s.mem ∧
      (goodCounted s).device = s.device ∧ (goodCounted s).scenes = s.scenes ∧ (goodCounted s).changer = s.changer ∧
      (goodCounted s).guard = s.guard ∧ (goodCounted s).capture = s.capture ∧ (goodCounted s).decoder = s.decoder ∧
      (goodCounted s).arbiter = s.arbiter ∧ (goodCounted s).slot = s.slot ∧ (goodCounted s).events = s.events ∧
      (goodCounted s).checks = s.checks ∧ (goodCounted s).node = s.node ∧ (goodCounted s).pins = s.pins ∧
      (goodCounted s).sent = s.sent ∧ (goodCounted s).period = s.period ∧ (goodCounted s).begun = s.begun ∧
      (goodCounted s).fresh = s.fresh ∧ (goodCounted s).pending = s.pending :=
  ⟨rfl, rfl, rfl, rfl, rfl, rfl, rfl, rfl, rfl, rfl, rfl, rfl, rfl, rfl, rfl, rfl, rfl, rfl, rfl, rfl⟩

/-- `badCounted` touches link alone. -/
@[simp] theorem badCounted_keeps (n : Nat) (s : State) :
    (badCounted n s).maps = s.maps ∧ (badCounted n s).lines = s.lines ∧ (badCounted n s).mem = s.mem ∧
      (badCounted n s).device = s.device ∧ (badCounted n s).scenes = s.scenes ∧ (badCounted n s).changer = s.changer ∧
      (badCounted n s).guard = s.guard ∧ (badCounted n s).capture = s.capture ∧ (badCounted n s).decoder = s.decoder ∧
      (badCounted n s).arbiter = s.arbiter ∧ (badCounted n s).slot = s.slot ∧ (badCounted n s).events = s.events ∧
      (badCounted n s).checks = s.checks ∧ (badCounted n s).node = s.node ∧ (badCounted n s).pins = s.pins ∧
      (badCounted n s).sent = s.sent ∧ (badCounted n s).period = s.period ∧ (badCounted n s).begun = s.begun ∧
      (badCounted n s).fresh = s.fresh ∧ (badCounted n s).pending = s.pending :=
  ⟨rfl, rfl, rfl, rfl, rfl, rfl, rfl, rfl, rfl, rfl, rfl, rfl, rfl, rfl, rfl, rfl, rfl, rfl, rfl, rfl⟩

/-- `searchEntered` touches link alone. -/
@[simp] theorem searchEntered_keeps (s : State) :
    (searchEntered s).maps = s.maps ∧ (searchEntered s).lines = s.lines ∧ (searchEntered s).mem = s.mem ∧
      (searchEntered s).device = s.device ∧ (searchEntered s).scenes = s.scenes ∧ (searchEntered s).changer = s.changer ∧
      (searchEntered s).guard = s.guard ∧ (searchEntered s).capture = s.capture ∧ (searchEntered s).decoder = s.decoder ∧
      (searchEntered s).arbiter = s.arbiter ∧ (searchEntered s).slot = s.slot ∧ (searchEntered s).events = s.events ∧
      (searchEntered s).checks = s.checks ∧ (searchEntered s).node = s.node ∧ (searchEntered s).pins = s.pins ∧
      (searchEntered s).sent = s.sent ∧ (searchEntered s).period = s.period ∧ (searchEntered s).begun = s.begun ∧
      (searchEntered s).fresh = s.fresh ∧ (searchEntered s).pending = s.pending :=
  ⟨rfl, rfl, rfl, rfl, rfl, rfl, rfl, rfl, rfl, rfl, rfl, rfl, rfl, rfl, rfl, rfl, rfl, rfl, rfl, rfl⟩

/-- `judged` touches link alone. -/
@[simp] theorem judged_keeps (a : List Frame) (s : State) :
    (judged a s).maps = s.maps ∧ (judged a s).lines = s.lines ∧ (judged a s).mem = s.mem ∧
      (judged a s).device = s.device ∧ (judged a s).scenes = s.scenes ∧ (judged a s).changer = s.changer ∧
      (judged a s).guard = s.guard ∧ (judged a s).capture = s.capture ∧ (judged a s).decoder = s.decoder ∧
      (judged a s).arbiter = s.arbiter ∧ (judged a s).slot = s.slot ∧ (judged a s).events = s.events ∧
      (judged a s).checks = s.checks ∧ (judged a s).node = s.node ∧ (judged a s).pins = s.pins ∧
      (judged a s).sent = s.sent ∧ (judged a s).period = s.period ∧ (judged a s).begun = s.begun ∧
      (judged a s).fresh = s.fresh ∧ (judged a s).pending = s.pending :=
  ⟨rfl, rfl, rfl, rfl, rfl, rfl, rfl, rfl, rfl, rfl, rfl, rfl, rfl, rfl, rfl, rfl, rfl, rfl, rfl, rfl⟩

/-- `noteFrame` touches period alone. -/
@[simp] theorem noteFrame_keeps (b : Bool) (e : EngineOut) (s : State) :
    (noteFrame b e s).link = s.link ∧ (noteFrame b e s).maps = s.maps ∧ (noteFrame b e s).lines = s.lines ∧
      (noteFrame b e s).mem = s.mem ∧ (noteFrame b e s).device = s.device ∧ (noteFrame b e s).scenes = s.scenes ∧
      (noteFrame b e s).changer = s.changer ∧ (noteFrame b e s).guard = s.guard ∧ (noteFrame b e s).capture = s.capture ∧
      (noteFrame b e s).decoder = s.decoder ∧ (noteFrame b e s).arbiter = s.arbiter ∧ (noteFrame b e s).slot = s.slot ∧
      (noteFrame b e s).events = s.events ∧ (noteFrame b e s).checks = s.checks ∧ (noteFrame b e s).node = s.node ∧
      (noteFrame b e s).pins = s.pins ∧ (noteFrame b e s).sent = s.sent ∧ (noteFrame b e s).begun = s.begun ∧
      (noteFrame b e s).fresh = s.fresh ∧ (noteFrame b e s).pending = s.pending :=
  ⟨rfl, rfl, rfl, rfl, rfl, rfl, rfl, rfl, rfl, rfl, rfl, rfl, rfl, rfl, rfl, rfl, rfl, rfl, rfl, rfl⟩

/-- `hearingTaken` touches decoder, link alone. -/
@[simp] theorem hearingTaken_keeps (h : Heard) (s : State) :
    (hearingTaken h s).maps = s.maps ∧ (hearingTaken h s).lines = s.lines ∧ (hearingTaken h s).mem = s.mem ∧
      (hearingTaken h s).device = s.device ∧ (hearingTaken h s).scenes = s.scenes ∧ (hearingTaken h s).changer = s.changer ∧
      (hearingTaken h s).guard = s.guard ∧ (hearingTaken h s).capture = s.capture ∧ (hearingTaken h s).arbiter = s.arbiter ∧
      (hearingTaken h s).slot = s.slot ∧ (hearingTaken h s).events = s.events ∧ (hearingTaken h s).checks = s.checks ∧
      (hearingTaken h s).node = s.node ∧ (hearingTaken h s).pins = s.pins ∧ (hearingTaken h s).sent = s.sent ∧
      (hearingTaken h s).period = s.period ∧ (hearingTaken h s).begun = s.begun ∧ (hearingTaken h s).fresh = s.fresh ∧
      (hearingTaken h s).pending = s.pending :=
  ⟨rfl, rfl, rfl, rfl, rfl, rfl, rfl, rfl, rfl, rfl, rfl, rfl, rfl, rfl, rfl, rfl, rfl, rfl, rfl⟩

/-- `choiceTaken` touches arbiter, slot, sent, period alone. -/
@[simp] theorem choiceTaken_keeps (d : Draft) (c : Choice) (s : State) :
    (choiceTaken d c s).link = s.link ∧ (choiceTaken d c s).maps = s.maps ∧ (choiceTaken d c s).lines = s.lines ∧
      (choiceTaken d c s).mem = s.mem ∧ (choiceTaken d c s).device = s.device ∧ (choiceTaken d c s).scenes = s.scenes ∧
      (choiceTaken d c s).changer = s.changer ∧ (choiceTaken d c s).guard = s.guard ∧ (choiceTaken d c s).capture = s.capture ∧
      (choiceTaken d c s).decoder = s.decoder ∧ (choiceTaken d c s).events = s.events ∧ (choiceTaken d c s).checks = s.checks ∧
      (choiceTaken d c s).node = s.node ∧ (choiceTaken d c s).pins = s.pins ∧ (choiceTaken d c s).begun = s.begun ∧
      (choiceTaken d c s).fresh = s.fresh ∧ (choiceTaken d c s).pending = s.pending :=
  ⟨rfl, rfl, rfl, rfl, rfl, rfl, rfl, rfl, rfl, rfl, rfl, rfl, rfl, rfl, rfl, rfl, rfl⟩

/-- `serve` touches decoder, link, arbiter, slot, sent, period alone. -/
@[simp] theorem serve_keeps (w : Bool) (v : Service) (d : Draft) (s : State) :
    (serve w v d s).maps = s.maps ∧ (serve w v d s).lines = s.lines ∧ (serve w v d s).mem = s.mem ∧
      (serve w v d s).device = s.device ∧ (serve w v d s).scenes = s.scenes ∧ (serve w v d s).changer = s.changer ∧
      (serve w v d s).guard = s.guard ∧ (serve w v d s).capture = s.capture ∧ (serve w v d s).events = s.events ∧
      (serve w v d s).checks = s.checks ∧ (serve w v d s).node = s.node ∧ (serve w v d s).pins = s.pins ∧
      (serve w v d s).begun = s.begun ∧ (serve w v d s).fresh = s.fresh ∧ (serve w v d s).pending = s.pending :=
  ⟨rfl, rfl, rfl, rfl, rfl, rfl, rfl, rfl, rfl, rfl, rfl, rfl, rfl, rfl, rfl⟩

/-- `startTaken` touches period alone. -/
@[simp] theorem startTaken_keeps (s : State) :
    (startTaken s).link = s.link ∧ (startTaken s).maps = s.maps ∧ (startTaken s).lines = s.lines ∧
      (startTaken s).mem = s.mem ∧ (startTaken s).device = s.device ∧ (startTaken s).scenes = s.scenes ∧
      (startTaken s).changer = s.changer ∧ (startTaken s).guard = s.guard ∧ (startTaken s).capture = s.capture ∧
      (startTaken s).decoder = s.decoder ∧ (startTaken s).arbiter = s.arbiter ∧ (startTaken s).slot = s.slot ∧
      (startTaken s).events = s.events ∧ (startTaken s).checks = s.checks ∧ (startTaken s).node = s.node ∧
      (startTaken s).pins = s.pins ∧ (startTaken s).sent = s.sent ∧ (startTaken s).begun = s.begun ∧
      (startTaken s).fresh = s.fresh ∧ (startTaken s).pending = s.pending :=
  ⟨rfl, rfl, rfl, rfl, rfl, rfl, rfl, rfl, rfl, rfl, rfl, rfl, rfl, rfl, rfl, rfl, rfl, rfl, rfl, rfl⟩

/-- `noticeStarts` touches slot, arbiter, sent, period alone. -/
@[simp] theorem noticeStarts_keeps (d : Draft) (s : State) :
    (noticeStarts d s).link = s.link ∧ (noticeStarts d s).maps = s.maps ∧ (noticeStarts d s).lines = s.lines ∧
      (noticeStarts d s).mem = s.mem ∧ (noticeStarts d s).device = s.device ∧ (noticeStarts d s).scenes = s.scenes ∧
      (noticeStarts d s).changer = s.changer ∧ (noticeStarts d s).guard = s.guard ∧ (noticeStarts d s).capture = s.capture ∧
      (noticeStarts d s).decoder = s.decoder ∧ (noticeStarts d s).events = s.events ∧ (noticeStarts d s).checks = s.checks ∧
      (noticeStarts d s).node = s.node ∧ (noticeStarts d s).pins = s.pins ∧ (noticeStarts d s).begun = s.begun ∧
      (noticeStarts d s).fresh = s.fresh ∧ (noticeStarts d s).pending = s.pending :=
  ⟨rfl, rfl, rfl, rfl, rfl, rfl, rfl, rfl, rfl, rfl, rfl, rfl, rfl, rfl, rfl, rfl, rfl⟩

/-- `returnStarts` touches arbiter, sent, period alone. -/
@[simp] theorem returnStarts_keeps (d : Draft) (s : State) :
    (returnStarts d s).link = s.link ∧ (returnStarts d s).maps = s.maps ∧ (returnStarts d s).lines = s.lines ∧
      (returnStarts d s).mem = s.mem ∧ (returnStarts d s).device = s.device ∧ (returnStarts d s).scenes = s.scenes ∧
      (returnStarts d s).changer = s.changer ∧ (returnStarts d s).guard = s.guard ∧ (returnStarts d s).capture = s.capture ∧
      (returnStarts d s).decoder = s.decoder ∧ (returnStarts d s).slot = s.slot ∧ (returnStarts d s).events = s.events ∧
      (returnStarts d s).checks = s.checks ∧ (returnStarts d s).node = s.node ∧ (returnStarts d s).pins = s.pins ∧
      (returnStarts d s).begun = s.begun ∧ (returnStarts d s).fresh = s.fresh ∧ (returnStarts d s).pending = s.pending :=
  ⟨rfl, rfl, rfl, rfl, rfl, rfl, rfl, rfl, rfl, rfl, rfl, rfl, rfl, rfl, rfl, rfl, rfl, rfl⟩

/-- `countBlock` touches guard, period alone. -/
@[simp] theorem countBlock_keeps (n : Nat) (s : State) :
    (countBlock n s).link = s.link ∧ (countBlock n s).maps = s.maps ∧ (countBlock n s).lines = s.lines ∧
      (countBlock n s).mem = s.mem ∧ (countBlock n s).device = s.device ∧ (countBlock n s).scenes = s.scenes ∧
      (countBlock n s).changer = s.changer ∧ (countBlock n s).capture = s.capture ∧ (countBlock n s).decoder = s.decoder ∧
      (countBlock n s).arbiter = s.arbiter ∧ (countBlock n s).slot = s.slot ∧ (countBlock n s).events = s.events ∧
      (countBlock n s).checks = s.checks ∧ (countBlock n s).node = s.node ∧ (countBlock n s).pins = s.pins ∧
      (countBlock n s).sent = s.sent ∧ (countBlock n s).begun = s.begun ∧ (countBlock n s).fresh = s.fresh ∧
      (countBlock n s).pending = s.pending :=
  ⟨rfl, rfl, rfl, rfl, rfl, rfl, rfl, rfl, rfl, rfl, rfl, rfl, rfl, rfl, rfl, rfl, rfl, rfl, rfl⟩

/-- `abandonAtEnd` touches guard alone. -/
@[simp] theorem abandonAtEnd_keeps (s : State) :
    (abandonAtEnd s).link = s.link ∧ (abandonAtEnd s).maps = s.maps ∧ (abandonAtEnd s).lines = s.lines ∧
      (abandonAtEnd s).mem = s.mem ∧ (abandonAtEnd s).device = s.device ∧ (abandonAtEnd s).scenes = s.scenes ∧
      (abandonAtEnd s).changer = s.changer ∧ (abandonAtEnd s).capture = s.capture ∧ (abandonAtEnd s).decoder = s.decoder ∧
      (abandonAtEnd s).arbiter = s.arbiter ∧ (abandonAtEnd s).slot = s.slot ∧ (abandonAtEnd s).events = s.events ∧
      (abandonAtEnd s).checks = s.checks ∧ (abandonAtEnd s).node = s.node ∧ (abandonAtEnd s).pins = s.pins ∧
      (abandonAtEnd s).sent = s.sent ∧ (abandonAtEnd s).period = s.period ∧ (abandonAtEnd s).begun = s.begun ∧
      (abandonAtEnd s).fresh = s.fresh ∧ (abandonAtEnd s).pending = s.pending :=
  ⟨rfl, rfl, rfl, rfl, rfl, rfl, rfl, rfl, rfl, rfl, rfl, rfl, rfl, rfl, rfl, rfl, rfl, rfl, rfl, rfl⟩

/-- An order waits no longer, or protection moves: the decoder's other items stand. -/
@[simp] theorem opened_decoder (v : Verb) (o : Order) (s : State) :
    (opened v o s).decoder.pattern = s.decoder.pattern ∧ (opened v o s).decoder.mask = s.decoder.mask ∧
      (opened v o s).decoder.inbound = s.decoder.inbound ∧ (opened v o s).decoder.buffer = s.decoder.buffer ∧
      (opened v o s).decoder.protection = protectionBefore v o s.decoder.protection :=
  ⟨rfl, rfl, rfl, rfl, rfl⟩

end Sys2Proof.Machine
end

