-- ==== Sys2Proof/Laws/Moves.lean ====
section
/-! SUPPORT. Everything a step can do to the state, said once: the moves, each with what is known when it is made, and the
lemmas that every operation, every owner and every command is a row of moves. An invariant that every move keeps is kept
by every step (`step_moves`, `Moves.keep`). -/

namespace Sys2Proof.Machine

/-- The node with its state following the causes (R160). -/
def follow (l : Link) (n : Node) : Node :=
  if n.state = .run ∧ (l.link || l.lost || n.orderCause) = true then { n with state := .silent }
  else if n.state = .silent ∧ (l.link || l.lost || n.orderCause) = false then { n with state := .run }
  else n

/-- One move of the part. -/
inductive Move : State → State → Prop
  /-- What no law speaks of: ports, the period in progress, checks, the queue, the model's own marks. -/
  | free (s : State) (sent : List Frame) (period : Option Period) (begun : Option Bool) (fresh : Nat) (checks : Checks)
      (pins : Pins) (pending : List Instr) : Move s { s with sent, period, begun, fresh, checks, pins, pending }
  /-- The capture recorder moves within its ranges. -/
  | capture (s : State) (c : Capture) (h : s.capture.inRange → c.inRange) : Move s { s with capture := c }
  /-- A raise without a detail of its own (R132). -/
  | raised (s : State) (f : Flag) : Move s (raise f s)
  | raisedGuard (s : State) (f : Flag) (c : Output) (h : f = .guardStep ∨ f = .guardMute ∨ f = .guardRelease) :
      Move s (raiseGuard f c s)
  | raisedReady (s : State) (n : Line) : Move s (raiseReady n s)
  | raisedFault (s : State) (ns : List Line) : Move s (raiseFault ns s)
  | raisedRefused (s : State) (c : BitVec 4) (v : BitVec 6) (r : Result) : Move s (raiseRefused c v r s)
  | raisedDone (s : State) (d : CommitDetail) : Move s (raiseCommitDone d s)
  | cleared (s : State) (k : BitVec 17) : Move s (clearTaken k s)
  | enabled (s : State) (k : BitVec 17) : Move s (enablesWritten k s)
  | expired (s : State) : Move s (holdoffExpires s)
  /-- The holdoff timer or its mark moves. -/
  | timed (s : State) (timer : Nat) (fresh : Bool) :
      Move s { s with events := { s.events with timer, timerFresh := fresh } }
  | holdoff (s : State) (ms : Nat) (h : 1 ≤ ms ∧ ms ≤ 255) :
      Move s { s with events := { s.events with holdoff := 48 * ms } }
  /-- The link receiver moves; its fault causes stay. -/
  | link (s : State) (l : Link) (h : LinkLaw s → LinkLaw { s with link := l })
      (hf : l.link = s.link.link ∧ l.lost = s.link.lost) : Move s { s with link := l }
  /-- The causes of silence change, and the node state follows them (R160). -/
  | caused (s : State) (l : Link) (b : Bool) (h : LinkLaw s → LinkLaw { s with link := l }) :
      Move s { s with link := l, node := follow l { s.node with orderCause := b } }
  | inputMap (s : State) (v : Vector (Option Slot) 24) : Move s { s with maps := { s.maps with input := v } }
  | outputMap (s : State) (c : Output) (e : Option Slot) (h : holder s.maps c e = none) :
      Move s { s with maps := { s.maps with output := s.maps.output.set c e } }
  | decoder (s : State) (d : Decoder) (h : d.pattern = s.decoder.pattern ∨ d.pattern ≠ 0xFF) :
      Move s { s with decoder := d }
  | arbiter (s : State) (a : Arbiter) (n : NoticeSlot) (h : a.returns.length ≤ s.arbiter.returns.length) :
      Move s { s with arbiter := a, slot := n }
  | queued (s : State) (c : BitVec 4) (v t : BitVec 6) (b : Bool) (r : Reply) (h : s.arbiter.returns.length < 8) :
      Move s (enqueue c v t b r s)
  /-- The node state stays, or changes between STANDBY, RUN and SILENT. -/
  | node (s : State) (n : Node) (h : n.state = s.node.state ∨ (n.state ≠ .sizing ∧ n.state ≠ .sweep))
      (hr : s.node.ramp ≤ 480 → n.ramp ≤ 480) (hf : NodeFollows s → NodeFollows { s with node := n }) :
      Move s { s with node := n }
  | sized (s : State) (h : s.node.state = .sizing) : Move s (sizingEnds s)
  | swept (s : State) (h : s.node.state = .standby) (ho : lowestOn s = none) : Move s (sweepStarts s)
  /-- The memory controller's counts, its sweep and its place in the head line. -/
  | counted (s : State) (m : MemCtl) (hc : m.clearing = s.mem.clearing) (hp : m.present = s.mem.present)
      (hb : m.badBlocks = s.mem.badBlocks) (hs : s.mem.sweep.block < 16384 → m.sweep.block < 16384) :
      Move s { s with mem := m }
  /-- Marks are made in SWEEP alone (R19, R21). -/
  | marked (s : State) (m : MemCtl) (hn : s.node.state = .sweep) (hc : m.clearing = s.mem.clearing)
      (hp : m.present = s.mem.present) (hs : s.mem.sweep.block < 16384 → m.sweep.block < 16384) :
      Move s { s with mem := m }
  /-- Ranks become absent once the lines with blocks in them are FAULTED or OFF (R4). -/
  | absent (s : State) (present : Vector Bool 4)
      (hm : ∀ r : Rank, present[r] = true → s.mem.present[r] = true)
      (hl : ∀ r : Rank, present[r] = false → s.mem.present[r] = true →
        ∀ n : Line, (lineOf s n).state = .clearing ∨ (lineOf s n).state = .running → (lineOf s n).inRank r = false) :
      Move s { s with mem := { s.mem with present } }
  | device (s : State) (d : Device) (h : MemoryLaw s → MemoryLaw { s with device := d }) : Move s { s with device := d }
  | fed (s : State) (n : Line) (w : Sample) : Move s (overLine n (LineRec.fed w) s)
  | windowed (s : State) (n : Line) (base length : Nat) (ho : (lineOf s n).state = .off) (hb : base ≤ 16383)
      (hl : 1 ≤ length ∧ length ≤ 256) : Move s (overLine n (fun l => { l with base, length }) s)
  | feedSet (s : State) (n : Line) (ts : List Term) (d : Nat) (hr : recirculation ts ≤ 31129) (hd : d ≤ 32440)
      (hn : ts.length ≤ 6) : Move s (overLine n (fun l => { l with feed := ts, damping := d }) s)
  | begun (s : State) (n : Line) (hp : placement s n = none) (hc : (lineOf s n).state ≠ .clearing)
      (hq : s.node.state ≠ .sizing ∧ s.node.state ≠ .sweep) : Move s (beginClearing n s)
  | stopped (s : State) (n : Line) (h : s.scenes.inUse.getLsbD n.val = false) :
      Move s
        { s with
          lines := update s.lines n fun l => { l with state := .off }
          mem := s.mem.unlist fun m => m == n }
  | ready (s : State) (n : Line) (rest : List Line) (h : s.mem.clearing = n :: rest) :
      Move s
        { s with
          lines := update s.lines n fun l => { l with state := .running, position := 0, damped := 0 }
          mem := { s.mem with clearing := rest, zeroed := 0 } }
  | faulted (s : State) (ns : List Line) (h : ∀ n ∈ ns, (lineOf s n).state ≠ .off) :
      Move s
        { s with
          lines := Vector.ofFn fun n => if n ∈ ns then { s.lines[n] with state := .faulted } else s.lines[n]
          mem := s.mem.unlist fun n => decide (n ∈ ns) }
  | phases (s : State) (pa pb : List Nat)
      (h : PhaseLaw s →
        ({ s.scenes.a with phases := pa } : BankSlot).inRange ∧ ({ s.scenes.b with phases := pb } : BankSlot).inRange) :
      Move s { s with scenes := { s.scenes with a := { s.scenes.a with phases := pa }, b := { s.scenes.b with phases := pb } } }
  | edited (s : State) (k : Bank) (hr : s.scenes.hasRole .staged = true) (hc : CostLaw s → tapsCost k.taps ≤ 512)
      (hd : ChangerLaw s → k.defaultFade ≤ 96000) (ht : PhaseLaw s → ∀ t ∈ k.taps, t.inRange) : Move s (writeStaged k s)
  | armed (s : State) (q : Seq) (l : Nat) (hs : s.changer.state = .steady) (ht : firstBadTap s (staged s).taps 0 = none)
      (hl : ChangerLaw s → l ≤ 96000) : Move s (armCommit q l s)
  | disarmed (s : State) (h : s.changer.state = .armed) : Move s (disarm s)
  | fired (s : State) (h : s.changer.state = .armed) (hl : s.changer.length ≠ 0) :
      Move s
        (roleChange Role.fire
          { state := .fading, target := none, length := s.changer.length, position := 1, direction := .forward } s)
  | switched (s : State) (h : s.changer.state = .armed) : Move s (roleChange Role.switch Changer.steady s)
  | endedForward (s : State) (h : s.changer.state = .fading) : Move s (roleChange Role.endForward Changer.steady s)
  | endedBack (s : State) (h : s.changer.state = .fading) : Move s (roleChange Role.endBack Changer.steady s)
  | fade (s : State) (c : Changer) (hs : s.changer.state = .fading) (hc : c.state = .fading)
      (hh : changerHolds s.changer = true → changerHolds c = true) : Move s { s with changer := c }
  | guard (s : State) (g : Guard) (ht : TrimLaw s → TrimLaw { s with guard := g })
      (hr : RampLaw s → RampLaw { s with guard := g }) (hm : MuteLaw s → MuteLaw { s with guard := g }) :
      Move s { s with guard := g }
  | reset (s : State) (pattern mask : BitVec 8) (bad : List Nat) (pins : Pins)
      (h : pattern = s.decoder.pattern ∨ pattern ≠ 0xFF) : Move s (resetState pattern mask bad pins s)

/-- A row of moves. -/
def Moves : State → State → Prop := Relation.ReflTransGen Move

/-- No move. -/
theorem Moves.none {s : State} : Moves s s := Relation.ReflTransGen.refl

/-- One move. -/
theorem Move.one {s t : State} (h : Move s t) : Moves s t := Relation.ReflTransGen.single h

/-- Moves one after the other. -/
theorem Moves.and {s t u : State} (h : Moves s t) (k : Moves t u) : Moves s u := Relation.ReflTransGen.trans h k

/-- What every move keeps, a row of moves keeps. -/
theorem Moves.keep {P : State → Prop} (h : ∀ s t, Move s t → P s → P t) {s t : State} (m : Moves s t) (p : P s) : P t := by
  induction m with
  | refl => exact p
  | tail _ k ih => exact h _ _ k ih

/-- A move that is made or not. -/
theorem Moves.ifThen {c : Prop} [Decidable c] {s t : State} (h : c → Moves s t) : Moves s (if c then t else s) := by
  split
  · exact h ‹_›
  · exact Moves.none

/-- A fold of operations that are rows of moves. -/
theorem Moves.fold {α : Type} {f : State → α → State} (h : ∀ s a, Moves s (f s a)) (l : List α) (s : State) :
    Moves s (l.foldl f s) := by
  induction l generalizing s with
  | nil => exact Moves.none
  | cons a l ih => exact (h s a).and (ih _)

end Sys2Proof.Machine
end

