-- ==== Sys2Proof/Laws/Guard.lean ====
section
/-! SUPPORT. The guard's records under its operations, and the guard's operations as moves (R71, R77 to R84). -/

namespace Sys2Proof.Machine

/-- A guard record changes within the bounds of its profile and keeps its mute cause in step with its state (R73). -/
structure RecordMoves (p : Profile) (old new : GuardRec) : Prop where
  trim : old.trim ≤ p.maxSteps → new.trim ≤ p.maxSteps
  strain : 1 ≤ p.strainLimit → old.strain < p.strainLimit → new.strain < p.strainLimit
  ramp : old.ramp ≤ 48 → new.ramp ≤ 48
  peak : old.peak ≤ 8388608 → new.peak ≤ 8388608
  clip : old.clip ≤ 255 → new.clip ≤ 255
  cause : (old.cause.isSome = true ↔ old.state = .muted) → (new.cause.isSome = true ↔ new.state = .muted)

theorem RecordMoves.same (p : Profile) (g : GuardRec) : RecordMoves p g g := ⟨id, fun _ h => h, id, id, id, id⟩

theorem measure_moves (p : Profile) (w o : Int) (g : GuardRec) : RecordMoves p g (g.measure w o) := by
  unfold GuardRec.measure
  split
  · exact RecordMoves.same p g
  · refine ⟨id, fun _ h => h, id, fun h => ?_, fun h => ?_, id⟩
    · exact max_le h (min_le_right _ _)
    · dsimp only
      split
      · exact min_le_left _ _
      · omega

theorem judge_moves (p : Profile) (g : GuardRec) : RecordMoves p g (g.judge p).1 := by
  unfold GuardRec.judge GuardRec.mute
  dsimp only
  split
  · exact RecordMoves.same p g
  · rename_i hm
    split
    · split
      · exact ⟨id, fun _ _ => ‹_›, id, id, id, id⟩
      · split
        · refine ⟨fun _ => ?_, fun h _ => ?_, id, id, id, ?_⟩
          · exact ‹_ < _›
          · exact h
          · intro h
            simp only [reduceCtorEq, iff_false]
            exact fun hc => hm (h.1 hc)
        · exact ⟨id, fun h _ => h, id, id, id, fun _ => by simp⟩
    · split
      · split
        · split
          · refine ⟨fun h => ?_, fun _ h => ?_, id, id, id, ?_⟩
            · exact (Nat.sub_le _ _).trans h
            · exact (Nat.sub_le _ _).trans_lt h
            · intro h
              simp only [reduceCtorEq, iff_false]
              exact fun hc => hm (h.1 hc)
          · exact ⟨fun h => (Nat.sub_le _ _).trans h, fun _ h => (Nat.sub_le _ _).trans_lt h, id, id, id, id⟩
        · exact ⟨id, fun _ h => (Nat.sub_le _ _).trans_lt h, id, id, id, id⟩
      · exact ⟨id, fun _ h => (Nat.sub_le _ _).trans_lt h, id, id, id, id⟩

theorem mute_moves (p : Profile) (k : MuteCause) (g : GuardRec) : RecordMoves p g (g.mute k) :=
  ⟨id, fun _ h => h, id, id, id, fun _ => by simp [GuardRec.mute]⟩

theorem rampStep_moves (p : Profile) (g : GuardRec) : RecordMoves p g g.rampStep := by
  refine ⟨id, fun _ h => h, fun h => ?_, id, id, id⟩
  unfold GuardRec.rampStep
  dsimp only
  split <;> omega

theorem release_moves (p : Profile) (g : GuardRec) : RecordMoves p g (g.release p) :=
  ⟨fun _ => le_rfl, fun h _ => h, id, fun _ => by simp [GuardRec.release], fun _ => by simp [GuardRec.release],
    fun _ => by simp [GuardRec.release]⟩

theorem adjust_moves (q : Profile) (g : GuardRec) (hq : 1 ≤ q.strainLimit) :
    (g.adjust q).trim ≤ q.maxSteps ∧ (g.adjust q).strain < q.strainLimit := by
  refine ⟨min_le_right _ _, ?_⟩
  unfold GuardRec.adjust
  dsimp only
  split <;> omega

/-- A guard whose profiles stay and whose records move within them. -/
theorem Moves.records {s : State} {g : Guard} (hp : g.profiles = s.guard.profiles)
    (h : ∀ c : Output, RecordMoves (inForce s c) s.guard.outputs[c] g.outputs[c]) : Moves s { s with guard := g } := by
  have hf : ∀ c, inForce { s with guard := g } c = inForce s c := fun c => by
    simp only [inForce]
    rw [hp]
  refine (Move.guard s g ?_ ?_ ?_).one
  · rintro ⟨hc, hl, ht⟩
    refine ⟨hc, fun p => ?_, fun c => ?_⟩
    · show 1 ≤ (g.profiles[p]).strainLimit
      rw [hp]
      exact hl p
    · rw [hf]
      exact ⟨(h c).trim (ht c).1, (h c).strain (hl _) (ht c).2⟩
  · rintro ⟨hn, ho⟩
    exact ⟨hn, fun c => ⟨(h c).ramp (ho c).1, (h c).peak (ho c).2.1, (h c).clip (ho c).2.2⟩⟩
  · exact fun hm c => (h c).cause (hm c)

/-- The record of an output after one output's record has been replaced. -/
theorem update_output (v : Vector GuardRec 32) (c d : Output) (f : GuardRec → GuardRec) :
    (update v c f)[d] = if c = d then f v[c] else v[d] := by
  simp only [update, Fin.getElem_fin, Vector.getElem_set, Fin.ext_iff]

/-- One output's record replaced by an operation that moves within its profile. -/
theorem Moves.record {s : State} {g : Guard} (c : Output) (f : GuardRec → GuardRec)
    (hg : g = { s.guard with outputs := update s.guard.outputs c f })
    (h : RecordMoves (inForce s c) s.guard.outputs[c] (f s.guard.outputs[c])) : Moves s { s with guard := g } := by
  subst hg
  refine Moves.records rfl fun d => ?_
  rw [update_output]
  split
  · subst_vars
    exact h
  · exact RecordMoves.same _ _

/-- The block in progress abandoned. -/
theorem abandon_moves (s : State) : Moves s { s with guard := s.guard.abandon } := by
  refine Moves.records rfl fun c => ?_
  simp only [Guard.abandon, Fin.getElem_fin, Vector.getElem_map]
  exact ⟨id, fun _ h => h, id, fun _ => by simp, id, id⟩

/-- The block frame count alone moves. -/
theorem blockCount_moves (s : State) (n : Nat) : Moves s { s with guard := { s.guard with blockCount := n } } :=
  Moves.records rfl fun _ => RecordMoves.same _ _

end Sys2Proof.Machine
end

