-- ==== Sys2Proof/Laws/Units.lean ====
section
/-! SUPPORT. The units' shared operations as rows of moves: event unit, node state unit, guard, changer, capture recorder,
line and memory controllers. -/

namespace Sys2Proof.Machine

/-! ### Marks, ports and the period -/

theorem raiseIf_moves (b : Bool) (f : Flag) (s : State) : Moves s (raiseIf b f s) := by
  unfold raiseIf
  split
  · exact (Move.raised s f).one
  · exact Moves.none

/-- A capture taken at a trigger stays in its ranges (R152). -/
theorem take_inRange (c : Capture) (q : Seq) (h : c.inRange) : (c.take q).inRange := by
  obtain ⟨hu, h1, h2, h3, h4, h5, h6, h7, h8, h9, h10⟩ := h
  unfold Capture.take
  split
  · have k := hu.1 (h6 ‹_›)
    exact ⟨hu, h1, k.2, h3, h1, h5, fun e => by simp at e, fun e => by simp at e, fun _ => k.1, h9, h10⟩
  · have k := hu.2 (h7 ‹_›)
    exact ⟨hu, h1, by simp; omega, h3, h1, h5, fun e => by simp at e, fun e => by simp at e, fun _ => by simp, h9, h10⟩
  · exact ⟨hu, h1, h2, h3, h4, h5, h6, h7, h8, h9, h10⟩

theorem offerNow_moves (o : Offer) (s : State) : Moves s (offerNow o s) := by
  refine (Move.capture s _ fun h => ?_).one
  unfold Capture.offer
  split
  · exact take_inRange _ _ h
  · exact h

theorem period_moves (s : State) (p : Option Period) : Moves s { s with period := p } :=
  (Move.free s s.sent p s.begun s.fresh s.checks s.pins s.pending).one

/-- A sample written keeps the recorder in its ranges (R149). -/
theorem write_inRange (c : Capture) (x : Sample) (h : c.inRange) : (c.write x).inRange := by
  obtain ⟨hu, h1, h2, h3, h4, h5, h6, h7, h8, h9, h10⟩ := h
  have hw : (c.writeIndex + 1) % 8192 ≤ 8191 := by omega
  have hr : Store.rising 0 (Store.put c.ring c.writeIndex (some x)) = true := Store.put_rising _ h9 (Nat.zero_le _)
  unfold Capture.write Config.ringSize
  split
  · exact ⟨hu, hw, h2, h3, h4, h5, h6, h7, h8, hr, Store.put_keys _ h10 h1⟩
  · exact ⟨hu, hw, h2, by show c.record.held + 1 ≤ 8192; omega, h4, h5, h6, h7, h8, hr, Store.put_keys _ h10 h1⟩

/-- The sampling step keeps the recorder in its ranges (R149, R153). -/
theorem sampling_inRange (c : Capture) (x : Sample) (h : c.inRange) : (c.sampling x).inRange := by
  unfold Capture.sampling
  split
  · exact write_inRange c x h
  · rename_i hp
    obtain ⟨hu, h1, h2, h3, h4, h5, h6, h7, h8, h9, h10⟩ := write_inRange c x h
    have e : (c.write x).remaining = c.remaining := rfl
    have es : (c.write x).state = .post := hp
    dsimp only
    split
    · exact ⟨hu, h1, by show c.remaining - 1 ≤ 8192; omega, h3, h4, h1, fun e => by simp [Capture.finish] at e,
        fun e => by simp [Capture.finish] at e, fun e => by simp [Capture.finish] at e, h9, h10⟩
    · rename_i hn
      refine ⟨hu, h1, by show c.remaining - 1 ≤ 8192; omega, h3, h4, h5, h6, h7, fun _ => ?_, h9, h10⟩
      show 1 ≤ c.remaining - 1
      have hn' : ¬c.remaining - 1 = 0 := hn
      omega
  · exact h

theorem capture_moves (s : State) (c : Capture) (h : s.capture.inRange → c.inRange) : Moves s { s with capture := c } :=
  (Move.capture s c h).one

theorem checks_moves (s : State) (k : Checks) : Moves s { s with checks := k } :=
  (Move.free s s.sent s.period s.begun s.fresh k s.pins s.pending).one

theorem withProtection_moves (p : Protection) (s : State) : Moves s (withProtection p s) :=
  (Move.decoder s { s.decoder with protection := p } (Or.inl rfl)).one

theorem consume_moves (c : BitVec 4) (v : BitVec 6) (o : Order) (s : State) : Moves s (consume c v o s) :=
  (Move.decoder s
    { s.decoder with ready := if s.decoder.ready = some { sec := c, verb := v, order := o } then none else s.decoder.ready }
    (Or.inl rfl)).one

/-! ### Node state unit -/

/-- Leaving RUN, but for the node state. -/
theorem leaveRun_after (n : NodeState) (s : State) : Moves { s with node := { s.node with state := n } } (leaveRun n s) := by
  have b : Moves { s with node := { s.node with state := n } }
      { s with node := { s.node with state := n }, guard := if periodCounts s then s.guard else s.guard.abandon } := by
    by_cases hc : periodCounts s = true
    · simp only [hc, if_true]
      exact Moves.none
    · simp only [Bool.not_eq_true] at hc
      simp only [hc, Bool.false_eq_true, if_false]
      exact abandon_moves { s with node := { s.node with state := n } }
  exact b.and (period_moves _ _)

/-- The node state unit told of the causes, but for the node state. -/
theorem causesChanged_after (s : State) : Moves { s with node := follow s.link s.node } (causesChanged s) := by
  unfold causesChanged follow anyCause
  split
  · exact leaveRun_after _ _
  · split <;> exact Moves.none

/-- Following the causes leaves the engine running or standing. -/
theorem follow_runs (l : Link) (n : Node) : engineRuns (follow l n).state = engineRuns n.state := by
  unfold follow
  split
  · rename_i h
    rw [h.1]
    rfl
  · split
    · rename_i h
      rw [h.1]
      rfl
    · rfl

/-- An operation that leaves the link receiver and the node alone, and reads of the node only whether the engine runs. -/
structure Aside (f : State → State) : Prop where
  moves : ∀ s, Moves s (f s)
  keeps : ∀ s, (f s).link = s.link ∧ (f s).node = s.node
  blind : ∀ (s : State) (n : Node), engineRuns n.state = engineRuns s.node.state → f { s with node := n } = { f s with node := n }

theorem Aside.then {f g : State → State} (a : Aside f) (b : Aside g) : Aside fun s => g (f s) where
  moves := fun s => (a.moves s).and (b.moves _)
  keeps := fun s => ⟨(b.keeps _).1.trans (a.keeps s).1, (b.keeps _).2.trans (a.keeps s).2⟩
  blind := fun s n h => by
    dsimp only
    rw [a.blind s n h, b.blind (f s) n (by rw [(a.keeps s).2]; exact h)]

theorem Aside.none : Aside id := ⟨fun _ => Moves.none, fun _ => ⟨rfl, rfl⟩, fun _ _ _ => rfl⟩

/-- The causes of silence change, something else happens, and the node state unit is told (R160). -/
theorem Aside.caused {f : State → State} (a : Aside f) (s : State) (l : Link) (b : Bool)
    (h : LinkLaw s → LinkLaw { s with link := l }) :
    Moves s (causesChanged (f { s with link := l, node := { s.node with orderCause := b } })) := by
  have m := (Move.caused s l b h).one
  generalize e : { s with link := l, node := { s.node with orderCause := b } } = t
  have e' : { s with link := l, node := follow l { s.node with orderCause := b } } =
      { t with node := follow t.link t.node } := by rw [← e]
  rw [e'] at m
  have k := a.moves { t with node := follow t.link t.node }
  have c := causesChanged_after (f t)
  rw [show follow (f t).link (f t).node = follow t.link t.node by rw [(a.keeps t).1, (a.keeps t).2]] at c
  rw [a.blind t (follow t.link t.node) (follow_runs _ _)] at k
  exact (m.and k).and c

theorem leavingEnds_moves (s : State) : Moves s (leavingEnds s) := by
  unfold leavingEnds
  have a : Moves s (if s.node.state = .run then leaveRun .standby s else s) :=
    Moves.ifThen fun _ =>
      (Move.node s { s.node with state := .standby } (Or.inr ⟨by simp, by simp⟩) id
        fun _ => ⟨fun h => by simp at h, fun h => by simp at h⟩).one.and (leaveRun_after _ _)
  refine a.and ?_
  generalize (if s.node.state = .run then leaveRun .standby s else s) = t
  exact (Move.node t { t.node with state := .standby, ramp := 0, leaving := false }
    (Or.inr ⟨by simp, by simp⟩) (fun _ => by simp) fun _ => ⟨fun h => by simp at h, fun h => by simp at h⟩).one.and (period_moves _ _)

theorem rampStep_le (n : Node) (h : n.ramp ≤ 480) : n.rampStep ≤ 480 := by
  unfold Node.rampStep
  split
  · split <;> omega
  · omega
  · omega

theorem rampAtEnd_moves (s : State) : Moves s (rampAtEnd s) := by
  unfold rampAtEnd
  split
  · exact leavingEnds_moves s
  · split
    · split
      · exact (Move.node s { s.node with ramp := s.node.rampStep } (Or.inl rfl) (rampStep_le _) id).one
      · exact Moves.none
    · exact Moves.none

theorem abandonAtEnd_moves (s : State) : Moves s (abandonAtEnd s) := by
  unfold abandonAtEnd
  by_cases h : (s.period.map (·.leftRun)).getD false = true
  · simp only [h, if_true]
    exact abandon_moves s
  · simp only [h]
    exact Moves.none

/-! ### Feedback guard -/

theorem guardEvent_moves (f : Flag) (c : Output) (s : State) (h : f = .guardStep ∨ f = .guardMute ∨ f = .guardRelease) :
    Moves s (guardEvent f c s) := by
  unfold guardEvent
  split
  · exact (Move.raisedGuard s f c h).one.and (offerNow_moves _ _)
  · exact (Move.raisedGuard s f c h).one

/-- The flag that a judgement raises is a guard flag (R80, R81). -/
theorem judge_flag (p : Profile) (g : GuardRec) (f : Flag) (h : (g.judge p).2 = some f) :
    f = .guardStep ∨ f = .guardMute ∨ f = .guardRelease := by
  unfold GuardRec.judge at h
  dsimp only at h
  split at h
  · simp at h
  · split at h
    · split at h
      · simp at h
      · split at h
        · simp at h
          exact Or.inl h.symm
        · simp at h
          exact Or.inr (Or.inl h.symm)
    · split at h
      · split at h
        · split at h
          · simp at h
            exact Or.inr (Or.inr h.symm)
          · simp at h
        · simp at h
      · simp at h

theorem judgeOutput_moves (s : State) (c : Output) : Moves s (judgeOutput s c) := by
  unfold judgeOutput
  dsimp only
  have a : Moves s { s with guard := { s.guard with
      outputs := s.guard.outputs.set c ((s.guard.outputs[c]).judge (inForce s c)).1 } } :=
    Moves.record c (fun _ => ((s.guard.outputs[c]).judge (inForce s c)).1) rfl (judge_moves _ _)
  split
  · rename_i f hf
    exact a.and (guardEvent_moves _ _ _ (judge_flag _ _ _ hf))
  · exact a

theorem countBlock_moves (n : Nat) (s : State) : Moves s (countBlock n s) :=
  (blockCount_moves s n).and (period_moves _ _)

theorem blockEnds_moves (s : State) : Moves s (blockEnds s) := by
  unfold blockEnds
  dsimp only
  exact ((Moves.fold judgeOutput_moves _ _).and (countBlock_moves _ _)).and (abandon_moves _)

theorem blockAtEnd_moves (s : State) : Moves s (blockAtEnd s) := by
  unfold blockAtEnd
  split
  · exact blockEnds_moves s
  · split
    · exact countBlock_moves _ _
    · exact Moves.none

theorem clipMutes_moves (c : Output) (s : State) : Moves s (clipMutes c s) := by
  unfold clipMutes
  exact (((Moves.record c (GuardRec.mute .clip) rfl (mute_moves _ _ _)).and (period_moves _ _))).and
    (guardEvent_moves _ _ _ (Or.inr (Or.inl rfl)))

theorem clipsAtEnd_moves (s : State) : Moves s (clipsAtEnd s) :=
  Moves.fold (fun s c => Moves.ifThen fun _ => clipMutes_moves c s) _ _

theorem muteRampsAtEnd_moves (s : State) : Moves s (muteRampsAtEnd s) := by
  unfold muteRampsAtEnd
  split
  · refine Moves.records rfl fun c => ?_
    simp only [Fin.getElem_fin, Vector.getElem_map]
    exact rampStep_moves _ _
  · exact Moves.none

/-- A profile's values that WRITE-PROFILE takes have a strain limit above 0 (R71). -/
theorem refused_none_limit (p : Profile) (h : p.refused = none) : 1 ≤ p.strainLimit := by
  unfold Profile.refused at h
  repeat' split at h
  all_goals first | (simp at h; done) | omega

theorem writeProfile_moves (n : Fin 8) (p : Profile) (s : State) (h : p.refused = none) : Moves s (writeProfile n p s) := by
  have hl := refused_none_limit p h
  refine (Move.guard s _ ?_ ?_ ?_).one
  · rintro ⟨hc, hs, ht⟩
    have hp : ∀ q : Fin 8, (s.guard.profiles.set n p)[q] = if n = q then p else s.guard.profiles[q] := fun q => by
      simp only [Fin.getElem_fin, Vector.getElem_set, Fin.ext_iff]
    refine ⟨hc, fun q => ?_, fun c => ?_⟩
    · show 1 ≤ ((s.guard.profiles.set n p)[q]).strainLimit
      rw [hp]
      split
      · exact hl
      · exact hs q
    · have hi : inForce { s with guard := { s.guard.adjustWhere
            (fun c => profileInForce s.changer.state s.scenes c = n) (fun _ => p) with
            profiles := s.guard.profiles.set n p } } c =
          if n = profileInForce s.changer.state s.scenes c then p else inForce s c := by
        simp only [inForce]
        exact hp _
      rw [hi]
      simp only [Guard.adjustWhere, Fin.getElem_fin, Vector.getElem_ofFn]
      by_cases hq : profileInForce s.changer.state s.scenes c = n
      · simp only [hq, decide_true, if_true]
        exact adjust_moves p _ hl
      · have hq' : n ≠ profileInForce s.changer.state s.scenes c := fun e => hq e.symm
        simp only [hq, decide_false, Bool.false_eq_true, if_false, hq']
        exact ht c
  · rintro ⟨hn, ho⟩
    refine ⟨hn, fun c => ?_⟩
    simp only [Guard.adjustWhere, Fin.getElem_fin, Vector.getElem_ofFn]
    split <;> exact ho c
  · intro hm c
    simp only [Guard.adjustWhere, Fin.getElem_fin, Vector.getElem_ofFn]
    split <;> exact hm c

theorem releaseOutput_moves (c : Output) (s : State) : Moves s (releaseOutput c s) :=
  (Moves.record c (fun g => g.release (inForce s c)) rfl (release_moves _ _)).and (period_moves _ _)

theorem guardMeasured_moves (s t : State) (r : FrameReads) (hg : t.guard = s.guard) : Moves t { t with guard := guardMeasured s r } := by
  have hp : (guardMeasured s r).profiles = t.guard.profiles := by
    rw [hg]
    unfold guardMeasured
    rfl
  refine Moves.records (g := guardMeasured s r) hp fun c => ?_
  simp only [guardMeasured, Fin.getElem_fin, Vector.getElem_ofFn]
  rw [hg]
  exact measure_moves _ _ _ _

/-! ### Scene changer -/

theorem linkEvent_moves (s : State) : Moves s (linkEvent s) := by
  unfold linkEvent
  split
  · exact (Move.disarmed s ‹_›).one.and (Move.raised _ _).one
  · exact Moves.none

theorem fire_moves (s : State) (h : s.changer.state = .armed) : Moves s (fire s) := by
  unfold fire
  split
  · exact (Move.switched s h).one.and (Move.raisedDone _ _).one
  · exact (Move.fired s h ‹_›).one

theorem offerSequence_moves (q : Seq) (s : State) : Moves s (offerSequence q s) := by
  refine Moves.ifThen fun h => fire_moves s ?_
  simp only [firesOn, Bool.and_eq_true, beq_iff_eq] at h
  exact h.1

theorem fadeEnds_moves (s : State) (h : s.changer.state = .fading) : Moves s (fadeEnds s) :=
  (Move.endedForward s h).one.and (Move.raisedDone _ _).one

theorem revertedFadeEnds_moves (s : State) (h : s.changer.state = .fading) : Moves s (revertedFadeEnds s) :=
  (Move.endedBack s h).one.and (Move.raisedDone _ _).one

theorem fading_of_due (s : State) (h : fadeStepDue s = true) : s.changer.state = .fading := by
  simp only [fadeStepDue, Bool.and_eq_true, beq_iff_eq] at h
  exact h.1

theorem fading_of_fadeEndDue (s : State) (h : fadeEndDue s = true) : s.changer.state = .fading := by
  simp only [fadeEndDue, Bool.and_eq_true] at h
  exact fading_of_due s h.1.1

theorem fading_of_revertedFadeEndDue (s : State) (h : revertedFadeEndDue s = true) : s.changer.state = .fading := by
  simp only [revertedFadeEndDue, Bool.and_eq_true] at h
  exact fading_of_due s h.1.1

theorem fadeAtEnd_moves (s : State) : Moves s (fadeAtEnd s) := by
  unfold fadeAtEnd
  split
  · exact fadeEnds_moves s (fading_of_fadeEndDue s ‹_›)
  · split
    · exact revertedFadeEnds_moves s (fading_of_revertedFadeEndDue s ‹_›)
    · split
      · rename_i h1 h2 h3
        have hs := fading_of_due s h3
        refine (Move.fade s _ hs ?_ ?_).one
        · unfold Changer.step
          split <;> exact hs
        · have e1 : ¬(s.changer.direction = .forward ∧ s.changer.length ≤ s.changer.position) := fun e => h1 (by
            simp [fadeEndDue, h3, e.1, e.2])
          have e2 : ¬(s.changer.direction = .back ∧ s.changer.position = 0) := fun e => h2 (by
            simp [revertedFadeEndDue, h3, e.1, e.2])
          intro hh
          unfold changerHolds Changer.step at *
          cases hd : s.changer.direction <;> simp_all
          omega
      · exact Moves.none

/-- Phases below their periods stay so as they advance, as many as there are (R37). -/
theorem advancePhases_below (ts : List Tap) (ps : List Nat)
    (h : ∀ x ∈ ts.zip ps, ∀ m ∈ x.1.modulation, x.2 < m.period) :
    (advancePhases ts ps).length = min ts.length ps.length ∧
      ∀ x ∈ ts.zip (advancePhases ts ps), ∀ m ∈ x.1.modulation, x.2 < m.period := by
  induction ts generalizing ps with
  | nil => exact ⟨by simp [advancePhases], fun x hx => by simp at hx⟩
  | cons t ts ih =>
    cases ps with
    | nil => exact ⟨by simp [advancePhases], fun x hx => by simp [advancePhases] at hx⟩
    | cons p ps =>
      obtain ⟨a, b⟩ := ih ps fun x hx => h x (List.mem_cons_of_mem _ hx)
      refine ⟨by simp [advancePhases, a], fun x hx m hm => ?_⟩
      rcases List.mem_cons.1 hx with hx | hx
      · subst hx
        have hp := h (t, p) List.mem_cons_self m hm
        have he : t.modulation = some m := hm
        dsimp only at hp ⊢
        rw [he]
        dsimp only
        split <;> omega
      · exact b x hx m hm

/-- An advance keeps a bank's phases below their periods (R37). -/
theorem advance_inRange (b : BankSlot) (h : b.inRange) : b.advance.inRange := by
  obtain ⟨h1, h2, h3, h4⟩ := h
  unfold BankSlot.advance
  split
  · rename_i ha
    have off : b.role ≠ .staged ∧ b.role ≠ .armed := by cases e : b.role <;> rw [e] at ha <;> simp_all [Role.active]
    obtain ⟨k1, k2⟩ := advancePhases_below b.bank.taps b.phases h4
    refine ⟨h1, fun e => e.elim (fun e => absurd e off.1) fun e => absurd e off.2, fun a c => ?_, k2⟩
    show (advancePhases b.bank.taps b.phases).length = _
    rw [k1, h3 a c, Nat.min_self]
  · exact ⟨h1, h2, h3, h4⟩

/-- The phases of both banks advance. -/
theorem advance_moves (s : State) : Moves s { s with scenes := s.scenes.advance } := by
  have hadv : ∀ b : BankSlot, b.advance = { b with phases := b.advance.phases } := fun b => by
    unfold BankSlot.advance
    split <;> rfl
  unfold Scenes.advance
  rw [hadv s.scenes.a, hadv s.scenes.b]
  refine (Move.phases s _ _ fun h => ?_).one
  rw [← hadv, ← hadv]
  exact ⟨advance_inRange _ h.1, advance_inRange _ h.2⟩

/-- The return that has left leaves the queue. -/
theorem returnLeaves_moves (s : State) : Moves s (returnLeaves s) := by
  unfold returnLeaves
  split
  · exact (Move.arbiter s { s.arbiter with returns := s.arbiter.returns.tail } s.slot (by simp)).one
  · exact Moves.none

end Sys2Proof.Machine
end

