-- ==== Sys2Proof/Laws/Lines.lean ====
section
/-! SUPPORT. The line controller, the memory controller and the engine as rows of moves: faults, absent ranks, checks,
clearing, the sweep, and a processed frame (R4, R8, R11, R12, R15, R16, R21, R22). -/

namespace Sys2Proof.Machine

/-! ### Faults and absent ranks -/

theorem raiseFault_moves (ns : List Line) (s : State) : Moves s (raiseFault ns s) := (Move.raisedFault s ns).one

theorem makeFaulted_moves (ns : List Line) (s : State) (h : ∀ n ∈ ns, (lineOf s n).state ≠ .off) :
    Moves s (makeFaulted ns s) := (Move.faulted s ns h).one.and (raiseFault_moves ns _)

theorem takeFaults_moves (f : Line → Bool) (s : State) : Moves s (takeFaults f s) := by
  unfold takeFaults
  split
  · refine makeFaulted_moves _ s fun n hn => ?_
    simp only [faultsNow, List.mem_filter, Bool.and_eq_true, beq_iff_eq] at hn
    intro e
    exact absurd (hn.1.2.2.symm.trans e) (by simp)
  · exact Moves.none

theorem linesLost_on (s : State) (r : Rank) : ∀ n ∈ linesLost s r, (lineOf s n).state ≠ .off := by
  intro n hn
  simp only [linesLost, List.mem_filter, Bool.and_eq_true, bne_iff_ne] at hn
  exact hn.2.1.1

theorem ranksGone_moves (rs : List Rank) (s : State) : Moves s (ranksGone rs s) :=
  Moves.fold (fun s r => makeFaulted_moves _ s (linesLost_on s r)) _ _

/-- A line record after some lines are made FAULTED. -/
theorem makeFaulted_line (ns : List Line) (s : State) (n : Line) :
    lineOf (makeFaulted ns s) n = if n ∈ ns then { lineOf s n with state := .faulted } else lineOf s n := by
  have h : (makeFaulted ns s).lines =
      Vector.ofFn fun n => if n ∈ ns then { s.lines[n] with state := .faulted } else s.lines[n] := by
    unfold makeFaulted raiseFault
    split <;> rfl
  unfold lineOf
  rw [h]
  simp only [Fin.getElem_fin, Vector.getElem_ofFn]

/-- Once ranks are gone, no CLEARING or RUNNING line has a block in one of them; a line that was neither before is neither
after. -/
theorem ranksGone_lines (rs : List Rank) (s : State) (n : Line)
    (hn : (lineOf (ranksGone rs s) n).state = .clearing ∨ (lineOf (ranksGone rs s) n).state = .running) :
    lineOf (ranksGone rs s) n = lineOf s n ∧ ∀ r ∈ rs, (lineOf s n).inRank r = false := by
  induction rs generalizing s with
  | nil => exact ⟨rfl, by simp⟩
  | cons r rs ih =>
    have hk := ih (makeFaulted (linesLost s r) s) hn
    have hs : ranksGone (r :: rs) s = ranksGone rs (makeFaulted (linesLost s r) s) := rfl
    rw [hs] at hn ⊢
    rw [hk.1, makeFaulted_line] at hn ⊢
    by_cases hm : n ∈ linesLost s r
    · simp [hm] at hn
    · rw [if_neg hm] at hn ⊢
      refine ⟨rfl, fun q hq => ?_⟩
      rcases List.mem_cons.1 hq with e | e
      · subst e
        cases hi : (lineOf s n).inRank q
        · rfl
        · refine absurd ?_ hm
          simp only [linesLost, List.mem_filter, Bool.and_eq_true, bne_iff_ne]
          have hi' : (s.lines[n]).inRank q = true := hi
          refine ⟨by simp [allLines], ⟨?_, ?_⟩, hi'⟩
          · intro e
            have : (lineOf s n).state = .off := e
            simp [this] at hn
          · intro e
            have : (lineOf s n).state = .faulted := e
            simp [this] at hn
      · have := hk.2 q e
        rwa [makeFaulted_line, if_neg hm] at this

/-- One feed write only grows what was served. -/
theorem writeFeed_grows (lines : Vector LineRec 64) (v : Serve) (w : Line × Sample) :
    v.Grows (writeFeed lines v w) := by
  unfold writeFeed
  split
  · exact Serve.writeWord_grows _ _ _ _
  · exact .same _

/-- The memory controller's presence and counts, and the devices, do not bear on which lines a lost rank faults. -/
theorem makeFaulted_comm (ns : List Line) (s : State) (d : Device) (p : Vector Bool 4) (c : Vector Nat 4) :
    makeFaulted ns { s with device := d, mem := { s.mem with present := p, corrected := c } } =
      { makeFaulted ns s with
        device := d, mem := { (makeFaulted ns s).mem with present := p, corrected := c } } := by
  unfold makeFaulted raiseFault
  split <;> rfl

theorem ranksGone_comm (rs : List Rank) (s : State) (d : Device) (p : Vector Bool 4) (c : Vector Nat 4) :
    ranksGone rs { s with device := d, mem := { s.mem with present := p, corrected := c } } =
      { ranksGone rs s with
        device := d, mem := { (ranksGone rs s).mem with present := p, corrected := c } } := by
  induction rs generalizing s with
  | nil => rfl
  | cons r rs ih =>
    show ranksGone rs (makeFaulted _ _) = _
    rw [makeFaulted_comm]
    exact ih (makeFaulted (linesLost s r) s)

theorem raiseFault_keeps (ns : List Line) (s : State) :
    (raiseFault ns s).mem = s.mem ∧ (raiseFault ns s).device = s.device ∧ (raiseFault ns s).node = s.node := by
  unfold raiseFault
  split <;> exact ⟨rfl, rfl, rfl⟩

theorem makeFaulted_keeps (ns : List Line) (s : State) :
    (makeFaulted ns s).mem.present = s.mem.present ∧ (makeFaulted ns s).mem.corrected = s.mem.corrected ∧
      (makeFaulted ns s).mem.sweep = s.mem.sweep ∧ (makeFaulted ns s).device = s.device ∧
      (makeFaulted ns s).node = s.node := by
  unfold makeFaulted
  simp only [raiseFault_keeps]
  exact ⟨rfl, rfl, rfl, trivial, trivial⟩

theorem ranksGone_keeps (rs : List Rank) (s : State) :
    (ranksGone rs s).mem.present = s.mem.present ∧ (ranksGone rs s).mem.corrected = s.mem.corrected ∧
      (ranksGone rs s).mem.sweep = s.mem.sweep ∧ (ranksGone rs s).device = s.device ∧
      (ranksGone rs s).node = s.node := by
  induction rs generalizing s with
  | nil => exact ⟨rfl, rfl, rfl, rfl, rfl⟩
  | cons r rs ih =>
    have h := ih (makeFaulted (linesLost s r) s)
    have k := makeFaulted_keeps (linesLost s r) s
    exact ⟨h.1.trans k.1, h.2.1.trans k.2.1, h.2.2.1.trans k.2.2.1, h.2.2.2.1.trans k.2.2.2.1,
      h.2.2.2.2.trans k.2.2.2.2⟩

/-! ### Checks, and what was served -/

theorem recordCheck_moves (s : State) (c : Check) : Moves s (recordCheck s c) :=
  (checks_moves s (s.checks.take c)).and (raiseIf_moves _ _ _)

theorem fresh_moves (s : State) (n : Nat) : Moves s { s with fresh := n } :=
  (Move.free s s.sent s.period s.begun n s.checks s.pins s.pending).one

theorem recordChecks_moves (cs : List Check) (s : State) : Moves s (recordChecks cs s) := by
  unfold recordChecks
  split
  · exact Moves.fold recordCheck_moves _ _
  · exact (fresh_moves s _).and (Moves.fold recordCheck_moves _ _)

theorem commitServe_moves (v : Serve) (s : State) (seq : Seq) (h : (Serve.begin_ s seq).Grows v) :
    Moves s (commitServe v s) := by
  unfold commitServe
  rw [ranksGone_comm]
  refine Moves.and ?_ (recordChecks_moves _ _)
  have k := ranksGone_keeps v.gone s
  have a := ranksGone_moves v.gone s
  generalize hu : ranksGone v.gone s = u at k a ⊢
  have b : Moves u { u with device := v.device } := by
    refine (Move.device u v.device ?_).one
    rintro ⟨hw, hd⟩
    rw [k.2.2.2.1] at hw hd
    exact ⟨h.words hw, by rw [h.defects]; exact hd⟩
  have c : Moves { u with device := v.device }
      { u with device := v.device, mem := { u.mem with present := v.present } } := by
    refine (Move.absent { u with device := v.device } v.present ?_ ?_).one
    · intro r hr
      show u.mem.present[r] = true
      rw [k.1]
      exact h.present r hr
    · intro r hr hs n hn
      have hs' : s.mem.present[r] = true := by
        rw [← k.1]
        exact hs
      have hn' : (lineOf u n).state = .clearing ∨ (lineOf u n).state = .running := hn
      rw [← hu] at hn'
      have q := ranksGone_lines v.gone s n hn'
      show (lineOf u n).inRank r = false
      rw [← hu, q.1]
      exact q.2 r (h.gone r hs' hr)
  have d : Moves { u with device := v.device, mem := { u.mem with present := v.present } }
      { u with device := v.device, mem := { u.mem with present := v.present, corrected := v.corrected } } :=
    (Move.counted { u with device := v.device, mem := { u.mem with present := v.present } }
      { u.mem with present := v.present, corrected := v.corrected } rfl rfl rfl id).one
  exact ((a.and b).and c).and d

theorem recordCheck_mem (s : State) (c : Check) : (recordCheck s c).mem = s.mem ∧ (recordCheck s c).node = s.node := by
  unfold recordCheck raiseIf
  split <;> exact ⟨rfl, rfl⟩

theorem recordChecks_mem (cs : List Check) (s : State) :
    (recordChecks cs s).mem = s.mem ∧ (recordChecks cs s).node = s.node := by
  have h : ∀ (l : List Check) (t : State),
      (l.foldl recordCheck t).mem = t.mem ∧ (l.foldl recordCheck t).node = t.node := by
    intro l
    induction l with
    | nil => exact fun t => ⟨rfl, rfl⟩
    | cons c l ih =>
      intro t
      have k := recordCheck_mem t c
      exact ⟨(ih (recordCheck t c)).1.trans k.1, (ih (recordCheck t c)).2.trans k.2⟩
  unfold recordChecks
  split
  · exact h _ _
  · exact h _ { s with fresh := s.fresh + 1 }

theorem commitServe_keeps (v : Serve) (s : State) :
    (commitServe v s).mem.present = v.present ∧ (commitServe v s).mem.sweep = s.mem.sweep ∧
      (commitServe v s).node = s.node := by
  unfold commitServe
  rw [ranksGone_comm]
  have k := ranksGone_keeps v.gone s
  have m := recordChecks_mem v.checks
    { ranksGone v.gone s with
      device := v.device, mem := { (ranksGone v.gone s).mem with present := v.present, corrected := v.corrected } }
  refine ⟨by rw [m.1], ?_, ?_⟩
  · rw [m.1]
    exact k.2.2.1
  · rw [m.2]
    exact k.2.2.2.2

/-! ### Clearing -/

theorem clearingStep_moves (head : Option Line) (seq : Seq) (s : State) : Moves s (clearingStep head seq s) := by
  unfold clearingStep
  split
  · split
    · exact (Move.counted s { s.mem with zeroed := s.mem.zeroed + 64 } rfl rfl rfl id).one.and
        (commitServe_moves _ _ seq (clearingWrites_grows _ _ _ _))
    · exact Moves.none
  · exact Moves.none

theorem clearingEnds_moves (s : State) : Moves s (clearingEnds s) := by
  unfold clearingEnds
  split
  · rename_i n rest h
    exact (Move.ready s n rest h).one.and (Move.raisedReady _ n).one
  · exact Moves.none

theorem clearingAtEnd_moves (s : State) : Moves s (clearingAtEnd s) := Moves.ifThen fun _ => clearingEnds_moves s

/-! ### The sweep -/

theorem sweepTo_keeps (m : MemCtl) (r : Option Rank) :
    (m.sweepTo r).clearing = m.clearing ∧ (m.sweepTo r).present = m.present ∧ (m.sweepTo r).badBlocks = m.badBlocks ∧
      (m.sweep.block < 16384 → (m.sweepTo r).sweep.block < 16384) := by
  unfold MemCtl.sweepTo
  split
  · rename_i q
    refine ⟨rfl, rfl, rfl, fun _ => ?_⟩
    show q.val * 4096 < 16384
    omega
  · exact ⟨rfl, rfl, rfl, id⟩

/-- A state whose sweep goes on to the next PRESENT rank. -/
theorem sweepOn_moves (s : State) : Moves s (overMem MemCtl.sweepOn s) :=
  have k := sweepTo_keeps s.mem s.mem.rankAfter
  (Move.counted s (MemCtl.sweepOn s.mem) k.1 k.2.1 k.2.2.1 k.2.2.2).one

theorem markTested_keeps (m : MemCtl) :
    m.markTested.clearing = m.clearing ∧ m.markTested.present = m.present ∧
      m.markTested.sweep.block = m.sweep.block ∧ m.markTested.sweep.rank = m.sweep.rank := by
  unfold MemCtl.markTested
  split <;> exact ⟨rfl, rfl, rfl, rfl⟩

theorem blockTested_keeps (m : MemCtl) :
    (MemCtl.blockTested m).clearing = m.clearing ∧ (MemCtl.blockTested m).present = m.present ∧
      (m.sweep.block < 16384 → (MemCtl.blockTested m).sweep.block < 16384) := by
  have k := markTested_keeps m
  unfold MemCtl.blockTested
  dsimp only
  split
  · rename_i h
    refine ⟨k.1, k.2.1, fun _ => ?_⟩
    simp only [firstBlock, Config.blocksPerRank] at h
    show m.markTested.sweep.block + 1 < 16384
    omega
  · have q := sweepTo_keeps m.markTested m.markTested.rankAfter
    exact ⟨q.1.trans k.1, q.2.1.trans k.2.1, fun h => q.2.2.2 (by rw [k.2.2.1]; exact h)⟩

theorem sweepResult_keeps (b : Bool) (m : MemCtl) :
    (MemCtl.sweepResult b m).clearing = m.clearing ∧ (MemCtl.sweepResult b m).present = m.present ∧
      (m.sweep.block < 16384 → (MemCtl.sweepResult b m).sweep.block < 16384) := by
  unfold MemCtl.sweepResult
  split
  · unfold MemCtl.frameTested
    split
    · exact blockTested_keeps { m with sweepFailed := m.sweepFailed || b }
    · exact ⟨rfl, rfl, id⟩
  · exact ⟨rfl, rfl, id⟩

theorem sweepStep_moves (seq : Seq) (s : State) (h : s.node.state = .sweep) : Moves s (sweepStep seq s) := by
  unfold sweepStep
  split
  · exact Moves.none
  · split
    · have a : Moves s (commitServe (sweepServed seq s).1 s) := commitServe_moves _ s seq (sweepWords_grows _ _ _)
      refine a.and ?_
      have hn := (commitServe_keeps (sweepServed seq s).1 s).2.2
      clear a
      generalize commitServe (sweepServed seq s).1 s = u at hn ⊢
      have k := sweepResult_keeps (sweepServed seq s).2 u.mem
      exact (Move.marked u (MemCtl.sweepResult (sweepServed seq s).2 u.mem) (by rw [hn]; exact h) k.1 k.2.1 k.2.2).one
    · exact sweepOn_moves s

theorem sweepEnds_moves (o : SweepOutcome) (s : State) : Moves s (sweepEnds o s) := by
  unfold sweepEnds
  refine Moves.and ?_ (Move.raised _ _).one
  have a : Moves s { s with node := { s.node with state := .standby } } :=
    (Move.node s { s.node with state := .standby } (Or.inr ⟨by simp, by simp⟩) id
      fun _ => ⟨fun h => by simp at h, fun h => by simp at h⟩).one
  exact a.and
    (Move.counted { s with node := { s.node with state := .standby } }
      { s.mem with
        sweep := { s.mem.sweep with outcome := o }, sweepEnded := false, sweepFrame := 0, sweepFailed := false }
      rfl rfl rfl id).one

theorem sweepCutShort_moves (s : State) (h : s.node.state = .sweep) : Moves s (sweepCutShort s) := by
  have k := markTested_keeps s.mem
  exact (Move.marked s s.mem.markTested h k.1 k.2.1 (by rw [k.2.2.1]; exact id)).one.and (sweepEnds_moves _ _)

theorem sweepAtEnd_moves (s : State) : Moves s (sweepAtEnd s) := by
  unfold sweepAtEnd
  split
  · exact sweepEnds_moves _ _
  · exact Moves.ifThen fun _ => sweepOn_moves s

theorem sizingAtEnd_moves (s : State) : Moves s (sizingAtEnd s) := by
  refine Moves.ifThen fun h => (Move.sized s ?_).one
  simp only [sizingEndDue, Bool.and_eq_true, beq_iff_eq] at h
  exact h.1

/-! ### A processed frame -/

theorem feedSum_grows (lines : Vector LineRec 64) (inputs : Vector Int 24) (ts : List Term) (v : Serve) :
    v.Grows (feedSum lines inputs ts v).2 := by
  induction ts generalizing v with
  | nil => exact .same v
  | cons t ts ih =>
    cases t with
    | input c g => exact ih v
    | line n d g => exact (Serve.readLine_grows lines v n d).and (ih _)

theorem feeds_grows (lines : Vector LineRec 64) (inputs : Vector Int 24) (ns : List Line) (v : Serve) :
    v.Grows (feeds lines inputs ns v).2 := by
  induction ns generalizing v with
  | nil => exact .same v
  | cons n ns ih =>
    unfold feeds
    split
    · exact (feedSum_grows lines inputs _ v).and (ih _)
    · exact ih v

theorem tapSample_grows (lines : Vector LineRec 64) (t : Tap) (p : Nat) (v : Serve) :
    v.Grows (tapSample lines t p v).2 := by
  unfold tapSample
  dsimp only
  split
  · exact Serve.readLine_grows _ _ _ _
  · exact (Serve.readLine_grows _ _ _ _).and (Serve.readLine_grows _ _ _ _)

theorem tapProducts_grows (lines : Vector LineRec 64) (ts : List Tap) (ps : List Nat) (v : Serve) :
    v.Grows (tapProducts lines ts ps v).2 := by
  induction ts generalizing ps v with
  | nil => exact .same v
  | cons t ts ih => exact (tapSample_grows lines t _ v).and (ih _ _)

theorem products_grows (lines : Vector LineRec 64) (b : BankSlot) (v : Serve) : v.Grows (b.products lines v).2 := by
  unfold BankSlot.products
  split
  · exact tapProducts_grows _ _ _ _
  · exact .same v

theorem frameReads_grows (s : State) (inputs : Vector Int 24) (seq : Seq) :
    (Serve.begin_ s seq).Grows (frameReads s inputs seq).served :=
  ((feeds_grows _ _ _ _).and (products_grows _ _ _)).and (products_grows _ _ _)

theorem writeFeeds_grows (lines : Vector LineRec 64) (ws : List (Line × Sample)) (v : Serve) :
    v.Grows (writeFeeds lines ws v) := Serve.fold_grows (writeFeed_grows lines) _ _

theorem linesFed_moves (ws : List (Line × Sample)) (s : State) : Moves s { s with lines := linesFed s.lines ws } := by
  induction ws generalizing s with
  | nil => exact Moves.none
  | cons w ws ih => exact (Move.fed s w.1 w.2).one.and (ih (overLine w.1 (LineRec.fed w.2) s))

theorem afterReads_moves (s : State) (seq : Seq) (inputs : Vector Int 24) :
    Moves s (afterReads s seq (frameReads s inputs seq)) := by
  unfold afterReads
  refine Moves.and ?_ (clearingStep_moves _ _ _)
  have a := linesFed_moves (frameReads s inputs seq).feeds s
  have hg := (frameReads_grows s inputs seq).and (writeFeeds_grows s.lines (frameReads s inputs seq).feeds _)
  generalize linesFed s.lines (frameReads s inputs seq).feeds = ls at a
  have c := advance_moves { s with lines := ls }
  have b : Moves { s with lines := ls, scenes := s.scenes.advance }
      { s with lines := ls
               scenes := s.scenes.advance
               guard := if countsForGuard s then guardMeasured s (frameReads s inputs seq) else s.guard } := by
    by_cases hc : countsForGuard s = true
    · simp only [hc, if_true]
      exact guardMeasured_moves s { s with lines := ls, scenes := s.scenes.advance } (frameReads s inputs seq) rfl
    · simp only [hc]
      exact Moves.none
  exact ((a.and c).and b).and (commitServe_moves _ _ seq hg)

theorem engineStep_moves (seq : Seq) (inputs : Vector Int 24) (s : State) : Moves s (engineStep seq inputs s) := by
  unfold engineStep
  split
  · exact afterReads_moves s seq inputs
  · split
    · exact sweepStep_moves seq s ‹_›
    · exact Moves.none

end Sys2Proof.Machine
end

