-- ==== Sys2Proof/Laws/Owners.lean ====
section
/-! SUPPORT. Every owner's part in an order as a row of moves: what executing an order can do to the state, once for each
verb (R119). -/

namespace Sys2Proof.Machine

/-- An owner's execution of an order of an allowed length is a row of moves, and leaves the service arbiter alone. -/
structure OwnerMoves (v : Verb) (owner : Order → State → Reply × State) : Prop where
  moves : ∀ (o : Order) (s : State), v.lengthOk o = true → Moves s (owner o s).2
  arbiter : ∀ (o : Order) (s : State), (owner o s).2.arbiter = s.arbiter

/-- An owner that changes nothing. -/
theorem OwnerMoves.of_same {v : Verb} {owner : Order → State → Reply × State} (h : ∀ o s, (owner o s).2 = s) :
    OwnerMoves v owner where
  moves := fun o s _ => by rw [h]; exact Moves.none
  arbiter := fun o s => by rw [h]

/-! ### NODE -/

theorem ident_moves : OwnerMoves Verb.ident identOwner := .of_same fun _ _ => rfl

theorem causesChanged_arbiter (s : State) : (causesChanged s).arbiter = s.arbiter := by
  unfold causesChanged
  split
  · rfl
  · split <;> rfl

theorem go_moves : OwnerMoves Verb.go goOwner where
  moves := fun o s _ => by
    unfold goOwner
    split
    · split
      · rename_i h
        refine (Move.node s { s.node with state := .silent } (Or.inr ⟨by simp, by simp⟩) id fun _ => ?_).one
        simp only [anyCause, Bool.or_eq_true] at h
        exact ⟨fun e => by simp at e, fun _ => by tauto⟩
      · rename_i h
        refine (Move.node s { s.node with state := .run } (Or.inr ⟨by simp, by simp⟩) id fun _ => ?_).one
        simp only [anyCause, Bool.or_eq_true, not_or, Bool.not_eq_true] at h
        exact ⟨fun _ => ⟨h.1.1, h.1.2, h.2⟩, fun e => by simp at e⟩
    · exact Moves.none
  arbiter := fun o s => by
    unfold goOwner
    split
    · split <;> rfl
    · rfl

theorem standby_moves : OwnerMoves Verb.standby standbyOwner where
  moves := fun o s _ => by
    unfold standbyOwner
    split
    · exact Moves.none
    · exact Moves.none
    · exact sweepCutShort_moves s ‹_›
    · exact (Move.node s { s.node with leaving := true } (Or.inl rfl) id id).one
    · exact (Move.node s { s.node with leaving := true } (Or.inl rfl) id id).one
  arbiter := fun o s => by
    unfold standbyOwner
    split <;> rfl

theorem orderCauseIs_moves (b : Bool) (s : State) : Moves s (orderCauseIs b s) :=
  Aside.none.caused s s.link b id

theorem silence_moves : OwnerMoves Verb.silence silenceOwner where
  moves := fun _ s _ => orderCauseIs_moves true s
  arbiter := fun _ _ => causesChanged_arbiter _

theorem resume_moves : OwnerMoves Verb.resume resumeOwner where
  moves := fun _ s _ => orderCauseIs_moves false s
  arbiter := fun _ _ => causesChanged_arbiter _

theorem sweep_moves : OwnerMoves Verb.sweep sweepOwner where
  moves := fun _ s _ => by
    unfold sweepOwner
    split
    · exact Moves.none
    · split
      · exact Moves.none
      · rename_i h
        simp only [not_or, not_not] at h
        exact (Move.swept s h.1 h.2).one
  arbiter := fun _ s => by
    unfold sweepOwner
    split
    · rfl
    · split <;> rfl

theorem unlock_moves : OwnerMoves Verb.unlock unlockOwner where
  moves := fun _ s _ => by
    unfold unlockOwner
    dsimp only
    split
    · exact withProtection_moves _ s
    · split <;> exact withProtection_moves _ s
  arbiter := fun _ s => by
    unfold unlockOwner
    dsimp only
    split
    · rfl
    · split <;> rfl

theorem lock_moves : OwnerMoves Verb.lock lockOwner where
  moves := fun _ s _ => withProtection_moves _ s
  arbiter := fun _ _ => rfl

/-- The pattern that SET-ADDRESS takes is not FFh (R116). -/
theorem setAddress_moves : OwnerMoves Verb.setAddress setAddressOwner where
  moves := fun o s _ => by
    unfold setAddressOwner
    split
    · exact Moves.none
    · rename_i h
      refine (Move.decoder s
        { s.decoder with
          pattern := BitVec.ofNat 8 (bitsAt (bodyWord o 1) 15 8), mask := BitVec.ofNat 8 (bitsAt (bodyWord o 1) 7 0) }
        (Or.inr fun e => h ?_)).one
      have hb : bitsAt (bodyWord o 1) 15 8 < 256 := by
        unfold bitsAt
        exact Nat.mod_lt _ (by decide)
      have e' := congrArg BitVec.toNat e
      rw [BitVec.toNat_ofNat] at e'
      have e2 : bitsAt (bodyWord o 1) 15 8 % 2 ^ 8 = 255 := e'
      omega
  arbiter := fun o s => by
    unfold setAddressOwner
    split <;> rfl

theorem reset_moves : OwnerMoves Verb.reset resetOwner where
  moves := fun _ s _ => (Move.node s { s.node with resetPending := true } (Or.inl rfl) id id).one
  arbiter := fun _ _ => rfl

/-! ### SLOTS -/

theorem writeInMap_moves : OwnerMoves Verb.writeInMap writeInMapOwner where
  moves := fun _ s _ => by
    unfold writeInMapOwner
    split
    · exact Moves.none
    · split
      · exact Moves.none
      · exact (Move.inputMap s _).one
  arbiter := fun _ s => by
    unfold writeInMapOwner
    split
    · rfl
    · split <;> rfl

theorem writeOutMap_moves : OwnerMoves Verb.writeOutMap writeOutMapOwner where
  moves := fun _ s _ => by
    unfold writeOutMapOwner
    split
    · exact Moves.none
    · split
      · exact Moves.none
      · split
        · exact Moves.none
        · exact (Move.outputMap s _ _ ‹_›).one
  arbiter := fun _ s => by
    unfold writeOutMapOwner
    split
    · rfl
    · split
      · rfl
      · split <;> rfl

theorem readMap_moves : OwnerMoves Verb.readMap readMapOwner := .of_same fun _ _ => rfl

/-! ### LINES -/

theorem writeWindow_moves : OwnerMoves Verb.writeWindow writeWindowOwner where
  moves := fun o s _ => by
    unfold writeWindowOwner
    dsimp only
    split
    · exact Moves.none
    · split
      · exact Moves.none
      · split
        · exact Moves.none
        · split
          · exact Moves.none
          · rename_i h1 h2 h3
            simp only [not_not] at h1
            simp only [not_lt] at h2
            simp only [not_or, not_lt] at h3
            exact (Move.windowed s _ _ _ h1 h2 ⟨by omega, h3.2⟩).one
  arbiter := fun o s => by
    unfold writeWindowOwner
    dsimp only
    repeat' split
    all_goals rfl

theorem termFields_length (ws : List Word) : 2 * (termFields ws).length ≤ ws.length := by
  fun_induction termFields ws with
  | case1 a b rest ih => simp only [List.length_cons]; omega
  | case2 => simp

theorem writeFeed_moves : OwnerMoves Verb.writeFeed writeFeedOwner where
  moves := fun o s hl => by
    unfold writeFeedOwner
    dsimp only
    split
    · exact Moves.none
    · split
      · exact Moves.none
      · split
        · exact Moves.none
        · split
          · exact Moves.none
          · split
            · exact Moves.none
            · rename_i h1 h2 _ _ h3
              refine (Move.feedSet s _ _ _ (Nat.le_of_not_lt h3) (Nat.le_of_not_lt h2) ?_).one
              have a : ((carriedTerms o).filterMap id).length ≤ (carriedTerms o).length := List.length_filterMap_le _ _
              have b := termFields_length o.body.tail
              have c : o.body.length = 1 + 2 * feedCount o := by
                simpa [Verb.lengthOk, Verb.writeFeed] using hl
              simp only [List.length_tail] at b
              unfold carriedTerms at a ⊢
              omega
  arbiter := fun o s => by
    unfold writeFeedOwner
    dsimp only
    repeat' split
    all_goals rfl

theorem placeAndClear_moves (n : Line) (s : State) (hc : (lineOf s n).state ≠ .clearing)
    (hq : s.node.state ≠ .sizing ∧ s.node.state ≠ .sweep) : Moves s (placeAndClear n s).2 := by
  unfold placeAndClear
  split
  · exact Moves.none
  · split
    · exact Moves.none
    · exact (Move.begun s n ‹_› hc hq).one

theorem placeAndClear_arbiter (n : Line) (s : State) : (placeAndClear n s).2.arbiter = s.arbiter := by
  unfold placeAndClear
  split
  · rfl
  · split <;> rfl

theorem start_moves : OwnerMoves Verb.start startOwner where
  moves := fun o s _ => by
    unfold startOwner
    dsimp only
    split
    · exact Moves.none
    · split
      · exact Moves.none
      · rename_i h1 h2
        simp only [not_or] at h1
        simp only [not_not] at h2
        exact placeAndClear_moves _ s (by rw [h2]; simp) h1
  arbiter := fun o s => by
    unfold startOwner
    dsimp only
    split
    · rfl
    · split
      · rfl
      · exact placeAndClear_arbiter _ s

theorem stop_moves : OwnerMoves Verb.stop stopOwner where
  moves := fun o s _ => by
    unfold stopOwner
    dsimp only
    split
    · exact Moves.none
    · split
      · exact Moves.none
      · rename_i h
        simp only [Bool.not_eq_true] at h
        exact (Move.stopped s _ h).one
  arbiter := fun o s => by
    unfold stopOwner
    dsimp only
    split
    · rfl
    · split <;> rfl

theorem restart_moves : OwnerMoves Verb.restart restartOwner where
  moves := fun o s _ => by
    unfold restartOwner
    dsimp only
    split
    · exact Moves.none
    · split
      · exact Moves.none
      · split
        · exact Moves.none
        · rename_i h1 h2 _
          simp only [not_or] at h1
          exact placeAndClear_moves _ s h2 h1
  arbiter := fun o s => by
    unfold restartOwner
    dsimp only
    split
    · rfl
    · split
      · rfl
      · split
        · rfl
        · exact placeAndClear_arbiter _ s

theorem readLine_moves : OwnerMoves Verb.readLine readLineOwner := .of_same fun _ _ => rfl

/-! ### SCENE -/

/-- The STAGED bank's contents are within the cost bound where every bank is (R25). -/
theorem staged_cost (s : State) (h : CostLaw s) : tapsCost (staged s).taps ≤ 512 := by
  unfold staged Scenes.withRole
  split
  · exact h.1
  · exact h.2

/-- Its default fade is within the bound where every bank's is (R23). -/
theorem staged_fade (s : State) (h : ChangerLaw s) : (staged s).defaultFade ≤ 96000 := by
  unfold staged Scenes.withRole
  split
  · exact h.2.2.1
  · exact h.2.2.2

theorem live_cost (s : State) (h : CostLaw s) : tapsCost (s.scenes.withRole .live).bank.taps ≤ 512 := by
  unfold Scenes.withRole
  split
  · exact h.1
  · exact h.2

theorem live_fade (s : State) (h : ChangerLaw s) : (s.scenes.withRole .live).bank.defaultFade ≤ 96000 := by
  unfold Scenes.withRole
  split
  · exact h.2.2.1
  · exact h.2.2.2

/-- Its taps are in their ranges where every bank's are (R24). -/
theorem staged_taps (s : State) (h : PhaseLaw s) : ∀ t ∈ (staged s).taps, t.inRange := by
  unfold staged Scenes.withRole
  split
  · exact h.1.1
  · exact h.2.1

theorem live_taps (s : State) (h : PhaseLaw s) : ∀ t ∈ (s.scenes.withRole .live).bank.taps, t.inRange := by
  unfold Scenes.withRole
  split
  · exact h.1.1
  · exact h.2.1

/-- The fields of a tap order that passes its checks give a tap in its ranges (R30). -/
theorem tapFields_inRange (f : TapFields) (h : f.refused = none) : f.tap.inRange := by
  unfold TapFields.refused at h
  unfold TapFields.tap Tap.inRange
  dsimp only
  split at h <;> first | cases h | skip
  split at h <;> first | cases h | skip
  split at h <;> first | cases h | skip
  rename_i _ hd _
  refine ⟨by omega, by omega, fun m hm => ?_⟩
  split at h
  · rename_i hf
    rw [hf] at hm
    simp at hm
  · rename_i hf
    rw [if_pos (by simpa using hf)] at hm
    cases hm
    split at h <;> first | cases h | skip
    split at h <;> first | cases h | skip
    split at h <;> cases h
    dsimp only
    omega

/-- A scene-writing order that rewrites the STAGED bank within the bounds is a row of moves (R27). -/
theorem editing_moves {v : Verb} {owner : Order → State → Reply × State}
    (h : ∀ (o : Order) (s : State), (owner o s).2 = s ∨ ∃ k : Bank, (owner o s).2 = writeStaged k s ∧
      (CostLaw s → tapsCost k.taps ≤ 512) ∧ (ChangerLaw s → k.defaultFade ≤ 96000) ∧
        (PhaseLaw s → ∀ t ∈ k.taps, t.inRange)) :
    OwnerMoves v (editing owner) where
  moves := fun o s _ => by
    unfold editing
    split
    · rename_i hr
      rcases h o s with e | ⟨k, e, hc, hd, ht⟩
      · rw [e]
        exact Moves.none
      · rw [e]
        exact (Move.edited s k hr hc hd ht).one
    · exact Moves.none
  arbiter := fun o s => by
    unfold editing
    split
    · rcases h o s with e | ⟨k, e, _⟩ <;> rw [e]
      rfl
    · rfl

theorem writeHeader_moves : OwnerMoves Verb.writeHeader (editing writeHeaderOwner) := editing_moves fun o s => by
  unfold writeHeaderOwner
  split
  · exact Or.inl rfl
  · exact Or.inr ⟨_, rfl, staged_cost s, fun _ => Nat.le_of_not_lt ‹_›, staged_taps s⟩

theorem writeOutput_moves : OwnerMoves Verb.writeOutput (editing writeOutputOwner) := editing_moves fun o s => by
  unfold writeOutputOwner
  split
  · exact Or.inl rfl
  · split
    · exact Or.inl rfl
    · split
      · exact Or.inl rfl
      · split
        · exact Or.inl rfl
        · exact Or.inr ⟨_, rfl, staged_cost s, staged_fade s, staged_taps s⟩

theorem tapsCost_append (a b : List Tap) : tapsCost (a ++ b) = tapsCost a + tapsCost b := by
  simp [tapsCost]

theorem appendTap_moves : OwnerMoves Verb.appendTap (editing appendTapOwner) := editing_moves fun o s => by
  unfold appendTapOwner
  dsimp only
  split
  · exact Or.inl rfl
  · rename_i hf
    split
    · exact Or.inl rfl
    · rename_i h
      refine Or.inr ⟨_, rfl, fun _ => ?_, staged_fade s, fun p t ht => ?_⟩
      swap
      · rcases List.mem_append.1 ht with ht | ht
        · exact staged_taps s p t ht
        · rw [List.mem_singleton.1 ht]
          exact tapFields_inRange _ hf
      show tapsCost ((staged s).taps ++ [_]) ≤ 512
      rw [tapsCost_append]
      simp only [costBound, not_lt] at h
      simpa [tapsCost] using h

theorem replaceTap_moves : OwnerMoves Verb.replaceTap (editing replaceTapOwner) := editing_moves fun o s => by
  unfold replaceTapOwner
  dsimp only
  split
  · exact Or.inl rfl
  · split
    · exact Or.inl rfl
    · rename_i hf
      split
      · exact Or.inl rfl
      · refine Or.inr ⟨_, rfl, fun _ => Nat.le_of_not_lt ‹_›, staged_fade s, fun p t ht => ?_⟩
        rcases List.mem_or_eq_of_mem_set ht with ht | ht
        · exact staged_taps s p t ht
        · rw [ht]
          exact tapFields_inRange _ hf

theorem tapsCost_take (ts : List Tap) (n : Nat) : tapsCost (ts.take n) ≤ tapsCost ts := by
  have h := tapsCost_append (ts.take n) (ts.drop n)
  rw [List.take_append_drop] at h
  omega

theorem truncate_moves : OwnerMoves Verb.truncate (editing truncateOwner) := editing_moves fun o s => by
  unfold truncateOwner
  dsimp only
  split
  · exact Or.inl rfl
  · exact Or.inr ⟨_, rfl, fun h => (tapsCost_take _ _).trans (staged_cost s h), staged_fade s,
      fun p t ht => staged_taps s p t (List.mem_of_mem_take ht)⟩

theorem copyLive_moves : OwnerMoves Verb.copyLive (editing copyLiveOwner) := editing_moves fun _ s =>
  Or.inr ⟨_, rfl, live_cost s, live_fade s, live_taps s⟩

theorem readPart_same (p c i : Nat) (b : Bool) (k : BankSlot) (s : State) : (readPart p c i b k s).2 = s := by
  unfold readPart
  split
  · rfl
  · split <;> rfl
  · split <;> rfl

theorem readBank_moves : OwnerMoves Verb.readBank readBankOwner := .of_same fun o s => by
  unfold readBankOwner
  dsimp only
  split
  · rfl
  · split
    · rfl
    · split
      · exact readPart_same _ _ _ _ _ s
      · split
        · exact readPart_same _ _ _ _ _ s
        · rfl

theorem commit_moves : OwnerMoves Verb.commit commitOwner where
  moves := fun o s _ => by
    unfold commitOwner
    split
    · exact Moves.none
    · split
      · exact Moves.none
      · split
        · exact Moves.none
        · split
          · exact Moves.none
          · split
            · exact Moves.none
            · split
              · exact Moves.none
              · rename_i hs hl _ _ ht
                simp only [not_not] at hs
                refine (Move.armed s _ _ hs ht fun h => ?_).one
                unfold commitLength
                split
                · rename_i hb
                  simp only [hb, true_and, not_lt] at hl
                  exact hl
                · exact staged_fade s h
  arbiter := fun o s => by
    unfold commitOwner
    repeat' split
    all_goals rfl

theorem cancel_moves : OwnerMoves Verb.cancel cancelOwner where
  moves := fun _ s _ => by
    unfold cancelOwner
    split
    · exact (Move.disarmed s ‹_›).one
    · exact Moves.none
  arbiter := fun _ s => by
    unfold cancelOwner
    split <;> rfl

theorem revert_moves : OwnerMoves Verb.revert revertOwner where
  moves := fun _ s _ => by
    unfold revertOwner
    split
    · rename_i hs
      split
      · rename_i hd
        refine (Move.fade s { s.changer with direction := .back } hs hs fun h => ?_).one
        simp only [changerHolds, hs, Bool.and_eq_true, decide_eq_true_eq] at h ⊢
        exact ⟨h.1, by simp⟩
      · exact Moves.none
    · exact Moves.none
  arbiter := fun _ s => by
    unfold revertOwner
    split
    · split <;> rfl
    · rfl

/-! ### GUARD -/

theorem writeProfileOwner_moves : OwnerMoves Verb.writeProfile writeProfileOwner where
  moves := fun _ s _ => by
    unfold writeProfileOwner
    split
    · exact Moves.none
    · split
      · exact Moves.none
      · exact writeProfile_moves _ _ s ‹_›
  arbiter := fun _ s => by
    unfold writeProfileOwner
    split
    · rfl
    · split <;> rfl

theorem readProfile_moves : OwnerMoves Verb.readProfile readProfileOwner := .of_same fun _ s => by
  unfold readProfileOwner
  split <;> rfl

theorem readGuard_moves : OwnerMoves Verb.readGuard readGuardOwner := .of_same fun _ s => by
  unfold readGuardOwner
  dsimp only
  split
  · rfl
  · split <;> rfl

theorem releaseOwner_moves : OwnerMoves Verb.release releaseOwner where
  moves := fun _ s _ => by
    unfold releaseOwner
    split
    · exact Moves.none
    · split
      · exact releaseOutput_moves _ s
      · exact Moves.none
  arbiter := fun _ s => by
    unfold releaseOwner
    split
    · rfl
    · split <;> rfl

/-! ### EVENTS -/

theorem readEvents_moves : OwnerMoves Verb.readEvents readEventsOwner := .of_same fun _ _ => rfl

theorem clearEvents_moves : OwnerMoves Verb.clearEvents clearEventsOwner where
  moves := fun _ s _ => (Move.cleared s _).one
  arbiter := fun _ _ => rfl

theorem readAndClear_moves : OwnerMoves Verb.readAndClear readAndClearOwner where
  moves := fun _ s _ => (Move.cleared s _).one
  arbiter := fun _ _ => rfl

theorem writeEnables_moves : OwnerMoves Verb.writeEnables writeEnablesOwner where
  moves := fun _ s _ => (Move.enabled s _).one
  arbiter := fun _ _ => rfl

theorem writeHoldoff_moves : OwnerMoves Verb.writeHoldoff writeHoldoffOwner where
  moves := fun _ s _ => by
    unfold writeHoldoffOwner
    dsimp only
    split
    · exact Moves.none
    · rename_i h
      simp only [not_or, not_lt] at h
      exact (Move.holdoff s _ ⟨by omega, h.2⟩).one
  arbiter := fun _ s => by
    unfold writeHoldoffOwner
    dsimp only
    split <;> rfl

/-! ### CHECKS -/

theorem readCheck_moves : OwnerMoves Verb.readCheck readCheckOwner := .of_same fun _ _ => rfl

theorem clearCheck_moves : OwnerMoves Verb.clearCheck clearCheckOwner where
  moves := fun _ s _ => checks_moves s _
  arbiter := fun _ _ => rfl

theorem writeMode_moves : OwnerMoves Verb.writeMode writeModeOwner where
  moves := fun _ s _ => by
    unfold writeModeOwner
    split
    · exact Moves.none
    · exact checks_moves s _
  arbiter := fun _ s => by
    unfold writeModeOwner
    split <;> rfl

theorem readBadBlocks_moves : OwnerMoves Verb.readBadBlocks readBadBlocksOwner := .of_same fun _ _ => rfl

/-! ### CAPTURE -/

/-- A set-up that passes its checks is in its range (R147). -/
theorem setUpField_inRange {o : Order} {u : SetUp} (h : setUpField o = .inr u) : u.inRange := by
  unfold setUpField at h
  split at h <;> first | cases h | skip
  split at h <;> first | cases h | skip
  split at h <;> first | cases h | skip
  split at h <;> cases h
  rename_i mode _ hx _ _ _
  unfold SetUp.inRange
  cases mode <;> simp_all [CaptureMode.extentOk]

/-- A set-up taken while no capture is in progress keeps the recorder in its ranges (R147). -/
theorem setUp_inRange {o : Order} {c : Capture} {u : SetUp} (hb : ¬c.state.busy = true) (h : setUpField o = .inr u)
    (k : c.inRange) : ({ c with setUp := u } : Capture).inRange := by
  obtain ⟨hu, h1, h2, h3, h4, h5, h6, h7, h8, h9, h10⟩ := k
  have off : ∀ x : CaptureState, x.busy = true → c.state ≠ x := fun x hx e => hb (by rw [e]; exact hx)
  exact ⟨setUpField_inRange h, h1, h2, h3, h4, h5, fun e => absurd e (off _ rfl), fun e => absurd e (off _ rfl), h8, h9, h10⟩

/-- ARM leaves the recorder in its ranges (R150). -/
theorem arm_inRange (c : Capture) (k : c.inRange) : c.arm.inRange := by
  obtain ⟨hu, _, _, _, _, _, _, _, _, h9, h10⟩ := k
  unfold Capture.arm CaptureMode.armed CaptureRec.empty
  refine ⟨hu, by simp, by simp, by simp, by simp, by simp, ?_, ?_, ?_, h9, h10⟩
  all_goals
    dsimp only
    intro e
    cases hm : c.setUp.mode <;> simp_all

/-- STOP leaves the recorder in its ranges (R154). -/
theorem stop_inRange (c : Capture) (k : c.inRange) : c.stop.inRange := by
  obtain ⟨hu, h1, h2, h3, h4, h5, h6, h7, h8, h9, h10⟩ := k
  unfold Capture.stop
  split
  · exact ⟨hu, h1, h2, h3, h4, h5, fun e => by simp at e, fun e => by simp at e, fun e => by simp at e, h9, h10⟩
  · refine ⟨hu, h1, h2, h3, ?_, h1, fun e => by simp at e, fun e => by simp at e, fun e => by simp at e, h9, h10⟩
    dsimp only
    split
    · simp
    · exact h4
  · exact ⟨hu, h1, h2, h3, h4, h1, fun e => by simp at e, fun e => by simp at e, fun e => by simp at e, h9, h10⟩

theorem setUp_moves : OwnerMoves Verb.setUp setUpOwner where
  moves := fun _ s _ => by
    unfold setUpOwner
    split
    · exact Moves.none
    · split
      · exact Moves.none
      · exact capture_moves s _ (setUp_inRange ‹_› ‹_›)
  arbiter := fun _ s => by
    unfold setUpOwner
    split
    · rfl
    · split <;> rfl

theorem arm_moves : OwnerMoves Verb.arm armOwner where
  moves := fun _ s _ => by
    unfold armOwner
    split
    · exact Moves.none
    · exact capture_moves s _ (arm_inRange _)
  arbiter := fun _ s => by
    unfold armOwner
    split <;> rfl

theorem captureTrigger_moves : OwnerMoves Verb.captureTrigger captureTriggerOwner where
  moves := fun _ s _ => by
    unfold captureTriggerOwner
    split
    · split
      · exact capture_moves s _ (take_inRange _ _)
      · exact Moves.none
    · exact Moves.none
  arbiter := fun _ s => by
    unfold captureTriggerOwner
    split
    · split <;> rfl
    · rfl

theorem captureStop_moves : OwnerMoves Verb.captureStop captureStopOwner where
  moves := fun _ s _ => by
    unfold captureStopOwner
    split
    · exact capture_moves s _ (stop_inRange _)
    · exact capture_moves s _ (stop_inRange _)
    · exact capture_moves s _ (stop_inRange _)
    · exact Moves.none
  arbiter := fun _ s => by
    unfold captureStopOwner
    split <;> rfl

theorem readCapture_moves : OwnerMoves Verb.readCapture readCaptureOwner := .of_same fun _ _ => rfl

theorem readSamples_moves : OwnerMoves Verb.readSamples readSamplesOwner := .of_same fun _ s => by
  unfold readSamplesOwner
  dsimp only
  repeat' split
  all_goals rfl

/-! ### LINK -/

theorem readLink_moves : OwnerMoves Verb.readLink readLinkOwner := .of_same fun _ _ => rfl

theorem clearCounters_moves : OwnerMoves Verb.clearCounters clearCountersOwner where
  moves := fun _ s _ => by
    refine (Move.link s { s.link with goodFrames := 0, badFrames := 0, jumps := 0, discarded := 0 } ?_ ⟨rfl, rfl⟩).one
    rintro ⟨h1, h2, h3, h4, h5, _⟩
    exact ⟨h1, h2, h3, h4, h5, by simp, by simp, by simp, by simp⟩
  arbiter := fun _ _ => rfl

end Sys2Proof.Machine
end

