-- ==== Sys2Proof/Laws/Steps.lean ====
section
/-! SUPPORT. Orders, the end of a frame period, frame periods and events as rows of moves, and with them every command and
every step: `step_moves` says all that a step can do. -/

namespace Sys2Proof.Machine

/-! ### Orders -/

/-- The tests of a direct order refuse or leave the owner to it. -/
theorem answerDirect_moves {v : Verb} {owner : Order → State → Reply × State} (h : OwnerMoves v owner) (o : Order)
    (s : State) : Moves s (answerDirect v owner o s).2 ∧ (answerDirect v owner o s).2.arbiter = s.arbiter := by
  unfold answerDirect
  split
  · exact ⟨Moves.none, rfl⟩
  · rename_i hl
    simp only [Bool.not_eq_false] at hl
    split
    · exact ⟨Moves.none, rfl⟩
    · exact ⟨h.moves o s hl, h.arbiter o s⟩

theorem answerGroup_moves {v : Verb} {owner : Order → State → Reply × State} (h : OwnerMoves v owner) (o : Order)
    (s : State) : Moves s (answerGroup v owner o s).2 := by
  unfold answerGroup
  split
  · exact Moves.none
  · split
    · exact Moves.none
    · rename_i hl
      simp only [Bool.not_eq_false] at hl
      exact h.moves o s hl

theorem room_of_not_full {s : State} (h : ¬returnsFull s = true) : s.arbiter.returns.length < 8 := by
  unfold returnsFull Config.returnRoom at h
  rw [decide_eq_true_eq] at h
  omega

theorem perform_moves {v : Verb} {owner : Order → State → Reply × State} (h : OwnerMoves v owner) (o : Order)
    (s : State) : Moves s (perform v owner o s) := by
  unfold perform
  split
  · unfold performDirect
    split
    · exact (Move.raised s _).one
    · rename_i hf
      have a := withProtection_moves (protectionBefore v o s.decoder.protection) s
      have b := answerDirect_moves h o (withProtection (protectionBefore v o s.decoder.protection) s)
      refine (a.and b.1).and (Move.queued _ _ _ _ _ _ ?_).one
      rw [b.2]
      exact room_of_not_full hf
  · unfold performGroup
    dsimp only
    split
    · exact answerGroup_moves h o s
    · exact (answerGroup_moves h o s).and (Move.raisedRefused _ _ _ _).one

theorem performUnknown_moves (c : BitVec 4) (v : BitVec 6) (o : Order) (s : State) :
    Moves s (performUnknown c v o s) := by
  unfold performUnknown
  split
  · split
    · exact (Move.raised s _).one
    · rename_i hf
      exact (withProtection_moves s.decoder.protection.break_ s).and
        (Move.queued (withProtection s.decoder.protection.break_ s) _ _ _ _ _ (room_of_not_full hf)).one
  · exact (Move.raisedRefused s _ _ _).one

/-- Every verb's owner. -/
theorem ownerOf_moves (c v : Nat) (x : Verb × (Order → State → Reply × State)) (h : ownerOf c v = some x) :
    OwnerMoves x.1 x.2 := by
  unfold ownerOf at h
  split at h
  all_goals first
    | (cases h; done)
    | (cases h
       first
         | exact ident_moves | exact go_moves | exact standby_moves | exact silence_moves | exact resume_moves
         | exact sweep_moves | exact unlock_moves | exact lock_moves | exact setAddress_moves | exact reset_moves
         | exact writeInMap_moves | exact writeOutMap_moves | exact readMap_moves | exact writeWindow_moves
         | exact writeFeed_moves | exact start_moves | exact stop_moves | exact restart_moves | exact readLine_moves
         | exact writeHeader_moves | exact writeOutput_moves | exact appendTap_moves | exact replaceTap_moves
         | exact truncate_moves | exact copyLive_moves | exact readBank_moves | exact commit_moves | exact cancel_moves
         | exact revert_moves | exact writeProfileOwner_moves | exact readProfile_moves | exact readGuard_moves
         | exact releaseOwner_moves | exact readEvents_moves | exact clearEvents_moves | exact readAndClear_moves
         | exact writeEnables_moves | exact writeHoldoff_moves | exact readCheck_moves | exact clearCheck_moves
         | exact writeMode_moves | exact readBadBlocks_moves | exact setUp_moves | exact arm_moves
         | exact captureTrigger_moves | exact captureStop_moves | exact readCapture_moves | exact readSamples_moves
         | exact readLink_moves | exact clearCounters_moves)

theorem runOrder_moves (r : ReadyOrder) (s : State) : Moves s (runOrder r s) := by
  unfold runOrder
  split
  · exact perform_moves (ownerOf_moves _ _ _ ‹_›) _ s
  · exact performUnknown_moves _ _ _ s

theorem runReady_moves (s : State) : Moves s (runReady s) := by
  unfold runReady
  split
  · exact (Move.decoder s { s.decoder with ready := none } (Or.inl rfl)).one.and (runOrder_moves _ _)
  · exact Moves.none

/-! ### Own messages -/

theorem noticeStarts_moves (d : Draft) (s : State) : Moves s (noticeStarts d s) := by
  have a : Moves s
      { s with
        arbiter := { s.arbiter with sending := some (.ownNotice (noticeWords s.decoder.pattern s.events) 1) }
        slot := { s.slot with state := .sending } } :=
    (Move.arbiter s
      { s.arbiter with sending := some (.ownNotice (noticeWords s.decoder.pattern s.events) 1) }
      { s.slot with state := .sending } (le_refl _)).one
  exact a.and
    (Move.free _ [d.frame .head (headWord 2 s.decoder.pattern 5 0 8 0)]
      (s.period.map fun p => { p with ownStart := none }) s.begun s.fresh s.checks s.pins s.pending).one

theorem returnStarts_moves (d : Draft) (s : State) : Moves s (returnStarts d s) := by
  have a : Moves s { s with arbiter := { s.arbiter with sending := some (.ownReturn 1) } } :=
    (Move.arbiter s { s.arbiter with sending := some (.ownReturn 1) } s.slot (le_refl _)).one
  exact a.and
    (Move.free _ [d.frame .head ((((s.arbiter.returns.head?).map (·.words)).getD []).getD 0 0)]
      (s.period.map fun p => { p with ownStart := none }) s.begun s.fresh s.checks s.pins s.pending).one

theorem startOwn_moves (s : State) : Moves s (startOwn s) := by
  unfold startOwn
  split
  · exact noticeStarts_moves _ s
  · split
    · exact returnStarts_moves _ s
    · exact Moves.none

/-! ### The end of a frame period -/

theorem raiseLink_moves (s : State) (l : Link) (f : Flag) (h : LinkLaw s → LinkLaw { s with link := l })
    (hf : l.link = s.link.link ∧ l.lost = s.link.lost) :
    Moves s (raise f { s with link := l }) := (Move.link s l h hf).one.and (Move.raised _ f).one

theorem raise_aside (f : Flag) : Aside (raise f) := ⟨fun _ => (Move.raised _ f).one, fun _ => ⟨rfl, rfl⟩, fun _ _ _ => rfl⟩

theorem linkEvent_aside : Aside linkEvent where
  moves := linkEvent_moves
  keeps := fun s => by
    unfold linkEvent
    split <;> exact ⟨rfl, rfl⟩
  blind := fun s n _ => by
    unfold linkEvent
    dsimp only
    split <;> rfl

theorem offerNow_aside (o : Offer) : Aside (offerNow o) :=
  ⟨offerNow_moves o, fun _ => ⟨rfl, rfl⟩, fun s n h => by
    unfold offerNow periodProcessed
    dsimp only
    rw [h]
    rfl⟩

theorem withProtection_aside (p : Protection) : Aside (withProtection p) :=
  ⟨withProtection_moves p, fun _ => ⟨rfl, rfl⟩, fun _ _ _ => rfl⟩

theorem lostSet_moves (s : State) : Moves s (lostSet s) := by
  refine ((raise_aside .linkLost).then linkEvent_aside).caused s { s.link with lost := true, restorePending := true }
    s.node.orderCause ?_
  rintro ⟨h1, h2, h3, _, h5⟩
  exact ⟨h1, h2, h3, fun _ => rfl, h5⟩

theorem startUpEnds_moves (s : State) : Moves s (startUpEnds s) := by
  refine (Move.link s { s.link with startUp := false } ?_ ⟨rfl, rfl⟩).one.and (lostSet_moves _)
  rintro ⟨h1, h2, h3, h4, _, h6⟩
  exact ⟨h1, h2, h3, h4, fun h => by simp at h, h6⟩

theorem limitAtEnd_moves (s : State) : Moves s (limitAtEnd s) := Moves.ifThen fun _ => startUpEnds_moves s

theorem holdoffTick_moves (s : State) : Moves s (holdoffTick s) := by
  unfold holdoffTick
  split
  · exact (Move.expired s).one
  · exact (Move.timed s _ _).one

theorem beforeSampling_moves (s : State) : Moves s (beforeSampling s) := by
  unfold beforeSampling
  dsimp only
  refine Moves.and ?_ ((abandonAtEnd_moves _).and (holdoffTick_moves _))
  refine Moves.and ?_ (((sweepAtEnd_moves _).and (limitAtEnd_moves _)).and (sizingAtEnd_moves _))
  refine Moves.and ?_ ((muteRampsAtEnd_moves _).and (rampAtEnd_moves _))
  refine Moves.and ?_ (fadeAtEnd_moves _)
  refine Moves.and ?_ ((takeFaults_moves _ _).and (clearingAtEnd_moves _))
  refine Moves.and ?_ ((blockAtEnd_moves _).and (clipsAtEnd_moves _))
  exact ((startOwn_moves s).and (runReady_moves _)).and (returnLeaves_moves _)

theorem samplingStep_moves (s : State) : Moves s (samplingStep s) := by
  unfold samplingStep
  split
  · exact (capture_moves s _ (sampling_inRange _ _)).and (raiseIf_moves _ _ _)
  · exact Moves.none

theorem orderResetState_moves (s : State) : Moves s (orderResetState s) :=
  (Move.reset s s.decoder.pattern s.decoder.mask s.mem.badBlocks s.pins (Or.inl rfl)).one

theorem lastStep_moves (s : State) : Moves s (lastStep s) := by
  unfold lastStep
  split
  · exact orderResetState_moves s
  · exact (samplingStep_moves s).and (period_moves _ none)

theorem endPeriod_moves (s : State) : Moves s (endPeriod s) := by
  unfold endPeriod
  split
  · exact Moves.none
  · exact (beforeSampling_moves s).and (lastStep_moves _)

/-! ### Frame periods -/

theorem beginPeriod_moves (q : Seq) (g : Bool) (ds : List Disturbance) (s : State) : Moves s (beginPeriod q g ds s) := by
  have a : Moves s { s with device := ds.foldl Device.disturb s.device } :=
    (Move.device s _ fun h => Device.disturbs_wf ds s.device h).one
  have b := (Move.counted { s with device := ds.foldl Device.disturb s.device }
    { s.mem with sizing := if s.node.state = .sizing then s.mem.sizing + 1 else s.mem.sizing } rfl rfl rfl id).one
  exact (a.and b).and
    (Move.free _ [] (some (Period.begun q (engineRuns s.node.state) s.node.leaving g)) none s.fresh s.checks s.pins
      s.pending).one

theorem settle_moves (q : Seq) (s : State) : Moves s (settle q s) :=
  (Move.link s { s.link with expected := q + 1 } id ⟨rfl, rfl⟩).one

theorem offerToCapture_moves (q : Seq) (s : State) : Moves s (offerToCapture q s) := offerNow_moves _ s

theorem linkSet_moves (s : State) : Moves s (linkSet s) := by
  refine ((((raise_aside .linkFault).then (offerNow_aside .linkFault)).then (withProtection_aside .closed)).then
    linkEvent_aside).caused s { s.link with link := true, restorePending := true } s.node.orderCause ?_
  rintro ⟨h1, h2, h3, _, h5⟩
  exact ⟨h1, h2, h3, fun _ => rfl, h5⟩

theorem errorCounted_moves (s : State) : Moves s (errorCounted s) := by
  have a : Moves s { s with link := { s.link with lec := min 255 (s.link.lec + 8) } } := by
    refine (Move.link s { s.link with lec := min 255 (s.link.lec + 8) } ?_ ⟨rfl, rfl⟩).one
    rintro ⟨_, h⟩
    exact ⟨Nat.min_le_left _ _, h⟩
  unfold errorCounted
  dsimp only
  split
  · exact a.and (linkSet_moves _)
  · exact a

theorem errorForgiven_moves (s : State) : Moves s (errorForgiven s) := by
  have a : Moves s { s with link := { s.link with lec := s.link.lec - 1 } } := by
    refine (Move.link s { s.link with lec := s.link.lec - 1 } ?_ ⟨rfl, rfl⟩).one
    rintro ⟨h1, h⟩
    exact ⟨(Nat.sub_le _ _).trans h1, h⟩
  unfold errorForgiven
  dsimp only
  split
  · refine a.and (Aside.none.caused { s with link := { s.link with lec := s.link.lec - 1 } }
      { s.link with lec := s.link.lec - 1, link := false } s.node.orderCause ?_)
    rintro ⟨h1, h2, h3, h4, h⟩
    exact ⟨h1, h2, h3, fun e => h4 (Or.inr (by simpa using e)), h⟩
  · exact a

theorem linkRestored_moves (s : State) : Moves s (linkRestored s) := by
  refine Moves.ifThen fun hc => raiseLink_moves s { s.link with restorePending := false } .linkRestored ?_ ⟨rfl, rfl⟩
  rintro ⟨h1, h2, h3, _, h⟩
  refine ⟨h1, h2, h3, fun e => ?_, h⟩
  have e' : s.link.link = true ∨ s.link.lost = true := e
  simp [hc.2.1, hc.2.2] at e'

theorem opens_pattern (d : Decoder) (w : Word) : (d.opens w).decoder.pattern = d.pattern := rfl

theorem hear_pattern (d : Decoder) (v : Service) : (d.hear v).decoder.pattern = d.pattern := by
  cases v with
  | word k w =>
    show (d.take k w).decoder.pattern = d.pattern
    unfold Decoder.take
    split
    · split <;> rfl
    · split
      · unfold Decoder.body
        split
        · split <;> rfl
        · rfl
      · unfold Decoder.tail
        split
        · split <;> rfl
        · rfl
      · rfl
      · rfl
  | broken =>
    show d.abandon.decoder.pattern = d.pattern
    unfold Decoder.abandon
    split <;> rfl
  | nothing => rfl

theorem chooseOther_returns (w : Bool) (x : Option TransitWord) (a : Arbiter) (n : NoticeSlot) :
    (chooseOther w x a n).arbiter.returns = a.returns := by
  unfold chooseOther
  split
  · rfl
  · split <;> rfl

/-- A choice leaves the return queue as it is. -/
theorem choose_returns (w : Bool) (x : Option TransitWord) (a : Arbiter) (n : NoticeSlot) :
    (a.choose w x n).arbiter.returns = a.returns := by
  unfold Arbiter.choose
  split
  · unfold chooseOwn
    split <;> rfl
  · split
    · unfold chooseDirect
      split
      · rfl
      · exact chooseOther_returns _ _ _ _
    · exact chooseOther_returns _ _ _ _

theorem chosen_returns (w : Bool) (h : Heard) (s : State) : (chosen w h s).arbiter.returns = s.arbiter.returns := by
  unfold chosen
  split
  · unfold Arbiter.chooseAbandoned
    dsimp only
    split
    · rfl
    · exact choose_returns _ _ _ _
  · exact choose_returns _ _ _ _

theorem hearingTaken_moves (h : Heard) (s : State) (hp : h.decoder.pattern = s.decoder.pattern) :
    Moves s (hearingTaken h s) := by
  refine (Move.decoder s h.decoder (Or.inl hp)).one.and
    (Move.link { s with decoder := h.decoder }
      { s.link with discarded := min 4294967295 (s.link.discarded + h.discards) } ?_ ⟨rfl, rfl⟩).one
  rintro ⟨h1, h2, h3, h4, h5, h6, h7, h8, _⟩
  exact ⟨h1, h2, h3, h4, h5, h6, h7, h8, Nat.min_le_left _ _⟩

theorem serve_moves (w : Bool) (v : Service) (d : Draft) (s : State) : Moves s (serve w v d s) := by
  unfold serve
  dsimp only
  have a := hearingTaken_moves (s.decoder.hear v) s (hear_pattern _ _)
  have b : (chosen w (s.decoder.hear v) s).arbiter.returns.length ≤
      (hearingTaken (s.decoder.hear v) s).arbiter.returns.length := (congrArg _ (chosen_returns _ _ _)).le
  refine a.and ?_
  generalize hearingTaken (s.decoder.hear v) s = t at b
  generalize chosen w (s.decoder.hear v) s = c at b
  exact (Move.arbiter t c.arbiter c.slot b).one.and
    (Move.free _
      (match c.leaving with
        | .word k w => [d.frame k w]
        | .start _ => [])
      (t.period.map fun p =>
        { p with
          returnLeft := c.returnLeft
          resetDue := c.resetLeft
          ownStart :=
            match c.leaving with
            | .word _ _ => none
            | .start own => some (own, d) })
      t.begun t.fresh t.checks t.pins t.pending).one

theorem engineTaken_moves (q : Seq) (inputs : Vector Int 24) (s : State) : Moves s (engineTaken q inputs s) :=
  (engineStep_moves q inputs s).and (period_moves _ _)

theorem handle_moves (w : Bool) (q : Seq) (inputs : Vector Int 24) (slots : Vector Word 64) (damaged : Bool)
    (v : Service) (s : State) : Moves s (handle w q inputs slots damaged v s) :=
  ((engineTaken_moves q inputs s).and (serve_moves _ _ _ _)).and (linkRestored_moves _)

theorem lostCleared_moves (s : State) : Moves s (lostCleared s) := by
  refine Moves.ifThen fun _ => Aside.none.caused s { s.link with lost := false } s.node.orderCause ?_
  rintro ⟨h1, h2, h3, h4, h⟩
  exact ⟨h1, h2, h3, fun e => h4 (Or.inl (by simpa using e)), h⟩

theorem goodCounted_moves (s : State) : Moves s (goodCounted s) := by
  refine (Move.link s { s.link with missing := 0, goodFrames := countUp s.link.goodFrames } ?_ ⟨rfl, rfl⟩).one
  rintro ⟨h1, _, h3, h4, h5, _, h⟩
  exact ⟨h1, by simp, h3, h4, h5, Nat.min_le_left _ _, h⟩

theorem jumpTaken_moves (s : State) : Moves s (jumpTaken s) := by
  refine ((raiseLink_moves s { s.link with jumps := countUp s.link.jumps } .sequenceJump ?_ ⟨rfl, rfl⟩).and
    (linkEvent_moves _)).and (errorCounted_moves _)
  rintro ⟨h1, h2, h3, h4, h5, h6, h7, _, h⟩
  exact ⟨h1, h2, h3, h4, h5, h6, h7, Nat.min_le_left _ _, h⟩

theorem goodSettled_moves (j : Bool) (q : Seq) (s : State) : Moves s (goodSettled j q s) := by
  unfold goodSettled
  split
  · exact ((((settle_moves _ _).and (offerToCapture_moves _ _)).and (lostCleared_moves _)).and
      (goodCounted_moves _)).and (jumpTaken_moves _)
  · exact (((((settle_moves _ _).and (offerToCapture_moves _ _)).and (offerSequence_moves _ _)).and
      (lostCleared_moves _)).and (goodCounted_moves _)).and (errorForgiven_moves _)

theorem goodFrame_moves (f : Frame) (ds : List Disturbance) (s : State) : Moves s (goodFrame f ds s) :=
  ((beginPeriod_moves _ _ _ _).and (goodSettled_moves _ _ _)).and (handle_moves _ _ _ _ _ _ _)

theorem badCounted_moves (n : Nat) (s : State) (hn : n ≤ 4) : Moves s (badCounted n s) := by
  refine (Move.link s { s.link with missing := n, badFrames := countUp s.link.badFrames } ?_ ⟨rfl, rfl⟩).one
  rintro ⟨h1, _, h3, h4, h5, h6, _, h⟩
  exact ⟨h1, hn, h3, h4, h5, h6, Nat.min_le_left _ _, h⟩

theorem expectedSettled_moves (q : Seq) (s : State) : Moves s (expectedSettled q s) :=
  ((settle_moves _ _).and (offerToCapture_moves _ _)).and (offerSequence_moves _ _)

theorem badFrame_moves (f : Frame) (ds : List Disturbance) (s : State) : Moves s (badFrame f ds s) :=
  (((((beginPeriod_moves _ _ _ _).and (expectedSettled_moves _ _)).and (lostCleared_moves _)).and
    (badCounted_moves 0 _ (by simp))).and (errorCounted_moves _)).and (handle_moves _ _ _ _ _ _ _)

theorem missingFrame_moves (ds : List Disturbance) (s : State) (h : s.link.missing < 3) :
    Moves s (missingFrame ds s) :=
  ((((beginPeriod_moves _ _ _ _).and (expectedSettled_moves _ _)).and
    (badCounted_moves _ _ (by omega))).and (errorCounted_moves _)).and (handle_moves _ _ _ _ _ _ _)

theorem searchEntered_moves (s : State) : Moves s (searchEntered s) := by
  refine (Move.link s { s.link with receive := .search, lockRun := 0, missing := 4 } ?_ ⟨rfl, rfl⟩).one
  rintro ⟨h1, _, _, h4, _, h⟩
  exact ⟨h1, by simp, by simp, h4, fun _ => rfl, h⟩

theorem lostFrame_moves (ds : List Disturbance) (s : State) : Moves s (lostFrame ds s) :=
  ((((beginPeriod_moves _ _ _ _).and (expectedSettled_moves _ _)).and (searchEntered_moves _)).and
    (lostSet_moves _)).and (handle_moves _ _ _ _ _ _ _)

/-- An arrival judged keeps the receiver in its ranges (R94). -/
theorem judge_keeps (f : Frame) (s : State) (l : Link) (h : LinkLaw { s with link := l }) :
    LinkLaw { s with link := (l.judge f).lock } := by
  have k : (l.judge f).lockRun ≤ l.lockRun + 1 ∧
      l.judge f = { l with lockRun := (l.judge f).lockRun, lockSeq := (l.judge f).lockSeq } := by
    unfold Link.judge
    split
    · exact ⟨by simp, rfl⟩
    · split
      · exact ⟨by simp, rfl⟩
      · exact ⟨le_refl _, rfl⟩
  obtain ⟨h1, h2, h3, h4, h5, h⟩ := h
  unfold Link.lock
  rw [k.2]
  split
  · exact ⟨h1, by simp, by simp, h4, fun e => by simp at e, h⟩
  · rename_i hr
    simp only [not_le] at hr
    exact ⟨h1, h2, hr, h4, h5, h⟩

theorem judgeAll_keeps (fs : List Frame) (s : State) (l : Link) (h : LinkLaw { s with link := l }) :
    LinkLaw { s with link := (l.judgeAll fs).1 } := by
  induction fs generalizing l with
  | nil => exact h
  | cons f fs ih =>
    unfold Link.judgeAll
    split
    · exact h
    · exact ih _ (judge_keeps f s l h)

/-- A frame period's arrivals judged keep the receiver in its ranges. -/
theorem search_keeps (fs : List Frame) (s : State) (h : LinkLaw s) : LinkLaw { s with link := (s.link.search fs).1 } := by
  unfold Link.search
  split
  · obtain ⟨h1, h2, _, h⟩ := h
    exact ⟨h1, h2, by simp, h⟩
  · exact judgeAll_keeps _ s s.link h

/-- Judging leaves the fault causes. -/
theorem search_causes (fs : List Frame) (l : Link) :
    (l.search fs).1.link = l.link ∧ (l.search fs).1.lost = l.lost := by
  have one : ∀ (f : Frame) (l : Link), (l.judge f).lock.link = l.link ∧ (l.judge f).lock.lost = l.lost := by
    intro f l
    unfold Link.judge Link.lock
    split <;> split <;> first | exact ⟨rfl, rfl⟩ | (split <;> exact ⟨rfl, rfl⟩)
  have all : ∀ (fs : List Frame) (l : Link), (l.judgeAll fs).1.link = l.link ∧ (l.judgeAll fs).1.lost = l.lost := by
    intro fs
    induction fs with
    | nil => exact fun l => ⟨rfl, rfl⟩
    | cons f fs ih =>
      intro l
      unfold Link.judgeAll
      split
      · exact ⟨rfl, rfl⟩
      · exact ⟨(ih _).1.trans (one f l).1, (ih _).2.trans (one f l).2⟩
  unfold Link.search
  split
  · exact ⟨rfl, rfl⟩
  · exact all _ l

theorem judged_moves (a : List Frame) (s : State) : Moves s (judged a s) :=
  (Move.link s (s.link.search a).1 (search_keeps a s) (search_causes a s.link)).one

theorem localFrame_moves (a : List Frame) (ds : List Disturbance) (s : State) : Moves s (localFrame a ds s) :=
  (((beginPeriod_moves _ _ _ _).and (expectedSettled_moves _ _)).and (handle_moves _ _ _ _ _ _ _)).and (judged_moves _ _)

theorem searchPeriod_moves (a : List Frame) (ds : List Disturbance) (s : State) : Moves s (searchPeriod a ds s) := by
  unfold searchPeriod
  dsimp only
  refine Moves.and ?_ (judged_moves _ _)
  refine ((beginPeriod_moves s.link.expected false ds s).and (engineTaken_moves s.link.expected noInputs _)).and ?_
  generalize engineTaken s.link.expected noInputs (beginPeriod s.link.expected false ds s) = t
  exact (Move.link t { t.link with startUpCount := t.link.startUpCount + 1 } id ⟨rfl, rfl⟩).one.and
    (Move.free _ _ t.period t.begun t.fresh t.checks t.pins t.pending).one

/-! ### Commands -/

/-- What an outcome comes to when every next state it answers is reached by moves. -/
def Reaches (s : State) (o : Host.Outcome State Fault Refusal) : Prop := ∀ t, o = .next t → Moves s t

theorem Reaches.of_moves {s t : State} (h : Moves s t) : Reaches s (.next t) := by
  intro u e
  cases e
  exact h

theorem framePeriod_moves {c : State → Bool} {f : State → State} (s : State)
    (h : ∀ t, c t = true → Moves t (f t)) : Reaches s (framePeriod c f s) := by
  unfold framePeriod
  split
  · exact .of_moves Moves.none
  · rename_i hc
    split
    · intro t e
      cases e
    · refine .of_moves ((endPeriod_moves s).and (h _ ?_))
      simp only [not_or, Bool.not_eq_false] at hc
      exact hc.2

theorem eventCommand_moves {due : State → Bool} {effect : State → State} (s : State)
    (h : due s = true → Moves s (effect s)) : Reaches s (eventCommand due effect s) := by
  unfold eventCommand
  split
  · rename_i hc
    exact .of_moves (h hc.2)
  · exact .of_moves Moves.none

theorem orderCommand_moves {v : Verb} {owner : Order → State → Reply × State} (h : OwnerMoves v owner) (o : Order)
    (s : State) : Reaches s (orderCommand v owner o s) := by
  unfold orderCommand
  split
  · exact .of_moves ((consume_moves _ _ _ s).and (perform_moves h o _))
  · exact .of_moves Moves.none

theorem faultAhead_moves (b : Bool) (o : Order) (s : State) : Moves s (faultAhead b o s) :=
  Moves.ifThen fun _ => takeFaults_moves _ s

theorem Reaches.after {s t : State} {o : Host.Outcome State Fault Refusal} (h : Moves s t) (k : Reaches t o) :
    Reaches s o := fun u e => h.and (k u e)

theorem armed_of_fires {q : Seq} {s : State} (h : firesOn q s = true) : s.changer.state = .armed := by
  simp only [firesOn, Bool.and_eq_true, beq_iff_eq] at h
  exact h.1

theorem begun_moves (s : State) (b : Option Bool) : Moves s { s with begun := b } :=
  (Move.free s s.sent s.period b s.fresh s.checks s.pins s.pending).one

theorem fireFrame_moves (s : State) : Reaches s (execFireFrame s) := by
  refine eventCommand_moves s fun h => ?_
  simp only [fireDue, Bool.and_eq_true] at h
  exact ((endPeriod_moves s).and (begun_moves _ _)).and (fire_moves _ (armed_of_fires h.2))

theorem pattern_of_pins (pins : BitVec 6) : pins.setWidth 8 ≠ 0xFF#8 := by
  revert pins
  decide

/-- Every command that answers a next state reaches it by moves. -/
theorem exec_moves (c : Instr) (s : State) : Reaches s (exec c s) := by
  cases c <;> simp only [exec]
  case resetPinAsserted =>
    exact .of_moves (Move.free s [] none none s.fresh s.checks _ s.pending).one
  case pinReset pins => exact .of_moves (Move.reset s _ _ _ _ (Or.inr (pattern_of_pins pins))).one
  case sizingEnd =>
    refine eventCommand_moves s fun h => (Move.sized s ?_).one
    simp only [sizingEndDue, Bool.and_eq_true, beq_iff_eq] at h
    exact h.2.1
  case resetTakesEffect => exact eventCommand_moves s fun _ => (runReady_moves s).and (orderResetState_moves _)
  case startUpLimit => exact eventCommand_moves s fun _ => startUpEnds_moves s
  case startUpSearchPeriod a ds => exact framePeriod_moves s fun t _ => searchPeriod_moves a ds t
  case goodFrame f ds => exact framePeriod_moves s fun t _ => goodFrame_moves f ds t
  case badFrame f ds => exact framePeriod_moves s fun t _ => badFrame_moves f ds t
  case missingFramePeriod ds =>
    refine framePeriod_moves s fun t _ => ?_
    split
    · exact missingFrame_moves ds t ‹_›
    · exact lostFrame_moves ds t
  case linkLost ds => exact framePeriod_moves s fun t _ => lostFrame_moves ds t
  case localFrame a ds => exact framePeriod_moves s fun t _ => localFrame_moves a ds t
  case resumptionFrame f ds =>
    refine framePeriod_moves s fun t _ => ?_
    split
    · exact goodFrame_moves f ds t
    · exact badFrame_moves f ds t
  case endOfClearing => exact eventCommand_moves s fun _ => clearingEnds_moves s
  case fireFrame => exact fireFrame_moves s
  case fadeEnd => exact eventCommand_moves s fun h => fadeEnds_moves s (fading_of_fadeEndDue s h)
  case revertedFadeEnd => exact eventCommand_moves s fun h => revertedFadeEnds_moves s (fading_of_revertedFadeEndDue s h)
  case blockEnd => exact eventCommand_moves s fun _ => blockEnds_moves s
  case clipRunMute c => exact eventCommand_moves s fun _ => clipMutes_moves c s
  case leavingForStandbyEnd => exact eventCommand_moves s fun _ => leavingEnds_moves s
  case sweepComplete => exact eventCommand_moves s fun _ => sweepEnds_moves _ s
  case captureEnd => exact eventCommand_moves s fun _ => endPeriod_moves s
  case holdoffExpiry => exact eventCommand_moves s fun _ => (Move.expired s).one
  case noticeStart => exact eventCommand_moves s fun _ => startOwn_moves s
  case returnStart => exact eventCommand_moves s fun _ => startOwn_moves s
  case unknownOrder c v o =>
    unfold execUnknownOrder
    split
    · exact .of_moves ((consume_moves c v o s).and (performUnknown_moves _ _ _ _))
    · exact .of_moves Moves.none
  case stop o b => exact .after (faultAhead_moves b o s) (orderCommand_moves stop_moves o _)
  case restart o b => exact .after (faultAhead_moves b o s) (orderCommand_moves restart_moves o _)
  case ident o => exact orderCommand_moves ident_moves o s
  case go o => exact orderCommand_moves go_moves o s
  case standby o => exact orderCommand_moves standby_moves o s
  case silence o => exact orderCommand_moves silence_moves o s
  case resume o => exact orderCommand_moves resume_moves o s
  case sweep o => exact orderCommand_moves sweep_moves o s
  case unlock o => exact orderCommand_moves unlock_moves o s
  case lockOrder o => exact orderCommand_moves lock_moves o s
  case setAddress o => exact orderCommand_moves setAddress_moves o s
  case reset o => exact orderCommand_moves reset_moves o s
  case writeInMap o => exact orderCommand_moves writeInMap_moves o s
  case writeOutMap o => exact orderCommand_moves writeOutMap_moves o s
  case readMap o => exact orderCommand_moves readMap_moves o s
  case writeWindow o => exact orderCommand_moves writeWindow_moves o s
  case writeFeed o => exact orderCommand_moves writeFeed_moves o s
  case start o => exact orderCommand_moves start_moves o s
  case readLine o => exact orderCommand_moves readLine_moves o s
  case writeHeader o => exact orderCommand_moves writeHeader_moves o s
  case writeOutput o => exact orderCommand_moves writeOutput_moves o s
  case appendTap o => exact orderCommand_moves appendTap_moves o s
  case replaceTap o => exact orderCommand_moves replaceTap_moves o s
  case truncate o => exact orderCommand_moves truncate_moves o s
  case copyLive o => exact orderCommand_moves copyLive_moves o s
  case readBank o => exact orderCommand_moves readBank_moves o s
  case commit o => exact orderCommand_moves commit_moves o s
  case cancel o => exact orderCommand_moves cancel_moves o s
  case revert o => exact orderCommand_moves revert_moves o s
  case writeProfile o => exact orderCommand_moves writeProfileOwner_moves o s
  case readProfile o => exact orderCommand_moves readProfile_moves o s
  case readGuard o => exact orderCommand_moves readGuard_moves o s
  case release o => exact orderCommand_moves releaseOwner_moves o s
  case readEvents o => exact orderCommand_moves readEvents_moves o s
  case clearEvents o => exact orderCommand_moves clearEvents_moves o s
  case readAndClear o => exact orderCommand_moves readAndClear_moves o s
  case writeEnables o => exact orderCommand_moves writeEnables_moves o s
  case writeHoldoff o => exact orderCommand_moves writeHoldoff_moves o s
  case readCheck o => exact orderCommand_moves readCheck_moves o s
  case clearCheck o => exact orderCommand_moves clearCheck_moves o s
  case writeMode o => exact orderCommand_moves writeMode_moves o s
  case readBadBlocks o => exact orderCommand_moves readBadBlocks_moves o s
  case setUp o => exact orderCommand_moves setUp_moves o s
  case arm o => exact orderCommand_moves arm_moves o s
  case captureTrigger o => exact orderCommand_moves captureTrigger_moves o s
  case captureStop o => exact orderCommand_moves captureStop_moves o s
  case readCapture o => exact orderCommand_moves readCapture_moves o s
  case readSamples o => exact orderCommand_moves readSamples_moves o s
  case readLink o => exact orderCommand_moves readLink_moves o s
  case clearCounters o => exact orderCommand_moves clearCounters_moves o s

/-- Every step that answers a next state reaches it by moves. -/
theorem step_moves (s : State) : Reaches s (step s) := by
  unfold step
  split
  · exact .of_moves (endPeriod_moves s)
  · rename_i c rest _
    exact .after (Move.free s s.sent s.period s.begun s.fresh s.checks s.pins rest).one (exec_moves c _)

end Sys2Proof.Machine
end

