-- ==== Sys2Proof/Laws/Close.lean ====
section
/-! SUPPORT. What each end of a frame period leaves alone, and what the close as a whole leaves alone: the ends in the order of
`beforeSampling` (log 2). A lemma `f_same` says that `f` changes the items that it names and no others. -/

namespace Sys2Proof.Machine

/-- A fold of operations that change some items alone changes those items alone. -/
theorem fold_same {α : Type} {f : State → α → State} {part : State → State → State} (same : ∀ s, part s s = s)
    (trans : ∀ s t u, part t u = u → part s t = t → part s u = u) (h : ∀ s a, part s (f s a) = f s a) (l : List α)
    (s : State) : part s (l.foldl f s) = l.foldl f s := by
  induction l generalizing s with
  | nil => exact same s
  | cons a l ih => exact trans s (f s a) _ (ih _) (h s a)

/-- `t` with everything but the guard, the events, the notice slot, the capture and the period of `s`. -/
def overGuard (s t : State) : State :=
  { s with guard := t.guard, events := t.events, slot := t.slot, capture := t.capture, period := t.period }

theorem overGuard_trans (s t u : State) (h : overGuard t u = u) (k : overGuard s t = t) : overGuard s u = u := by
  rw [← h, ← k]
  rfl

theorem guardEvent_same (f : Flag) (c : Output) (s : State) :
    guardEvent f c s =
      { s with
        events := (raiseGuard f c s).events, slot := (raiseGuard f c s).slot, capture := (guardEvent f c s).capture } := by
  unfold guardEvent
  split <;> rfl

theorem judgeOutput_same (s : State) (c : Output) : overGuard s (judgeOutput s c) = judgeOutput s c := by
  unfold judgeOutput
  dsimp only
  split
  · rw [guardEvent_same]
    rfl
  · rfl

theorem judgeOutputs_same (l : List Output) (s : State) :
    overGuard s (l.foldl judgeOutput s) = l.foldl judgeOutput s :=
  fold_same (fun _ => rfl) overGuard_trans judgeOutput_same l s

theorem blockAtEnd_same (s : State) : overGuard s (blockAtEnd s) = blockAtEnd s := by
  unfold blockAtEnd
  split
  · unfold blockEnds countBlock
    dsimp only
    rw [← judgeOutputs_same]
    rfl
  · split <;> rfl

theorem clipsAtEnd_same (s : State) : overGuard s (clipsAtEnd s) = clipsAtEnd s := by
  unfold clipsAtEnd
  refine fold_same (fun _ => rfl) overGuard_trans (fun s c => ?_) _ s
  split
  · unfold clipMutes
    rw [guardEvent_same]
    rfl
  · rfl

theorem returnLeaves_same (s : State) :
    returnLeaves s =
      { s with
        arbiter :=
          { s.arbiter with
            returns :=
              if (s.period.map (·.returnLeft)).getD false then s.arbiter.returns.tail else s.arbiter.returns } } := by
  unfold returnLeaves
  split <;> rfl

theorem makeFaulted_same (ns : List Line) (s : State) :
    makeFaulted ns s =
      { s with
        lines := (makeFaulted ns s).lines, mem := (makeFaulted ns s).mem, events := (makeFaulted ns s).events
        slot := (makeFaulted ns s).slot } := by
  unfold makeFaulted raiseFault
  split <;> rfl

theorem takeFaults_same (f : Line → Bool) (s : State) :
    takeFaults f s =
      { s with
        lines := (takeFaults f s).lines, mem := (takeFaults f s).mem, events := (takeFaults f s).events
        slot := (takeFaults f s).slot } := by
  unfold takeFaults
  split
  · exact makeFaulted_same _ s
  · rfl

theorem clearingAtEnd_same (s : State) :
    clearingAtEnd s =
      { s with
        lines := (clearingAtEnd s).lines, mem := (clearingAtEnd s).mem, events := (clearingAtEnd s).events
        slot := (clearingAtEnd s).slot } := by
  unfold clearingAtEnd
  split
  · unfold clearingEnds
    split <;> rfl
  · rfl

theorem fadeAtEnd_same (s : State) :
    fadeAtEnd s =
      { s with
        scenes := (fadeAtEnd s).scenes, changer := (fadeAtEnd s).changer, guard := (fadeAtEnd s).guard
        events := (fadeAtEnd s).events, slot := (fadeAtEnd s).slot } := by
  unfold fadeAtEnd
  split
  · rfl
  · split
    · rfl
    · split <;> rfl

theorem muteRampsAtEnd_same (s : State) : muteRampsAtEnd s = { s with guard := (muteRampsAtEnd s).guard } := by
  unfold muteRampsAtEnd
  split <;> rfl

theorem rampAtEnd_same (s : State) :
    rampAtEnd s =
      { s with node := (rampAtEnd s).node, guard := (rampAtEnd s).guard, period := (rampAtEnd s).period } := by
  unfold rampAtEnd
  split
  · unfold leavingEnds
    dsimp only
    split <;> rfl
  · split
    · split <;> rfl
    · rfl

theorem sweepAtEnd_same (s : State) :
    sweepAtEnd s =
      { s with
        mem := (sweepAtEnd s).mem, node := (sweepAtEnd s).node, events := (sweepAtEnd s).events
        slot := (sweepAtEnd s).slot } := by
  unfold sweepAtEnd
  split
  · rfl
  · unfold sweepMoves
    split <;> rfl

theorem causesChanged_same (s : State) :
    causesChanged s =
      { s with node := (causesChanged s).node, guard := (causesChanged s).guard, period := (causesChanged s).period } := by
  unfold causesChanged
  split
  · rfl
  · split <;> rfl

theorem linkEvent_same (s : State) :
    linkEvent s =
      { s with
        scenes := (linkEvent s).scenes, changer := (linkEvent s).changer, guard := (linkEvent s).guard
        events := (linkEvent s).events, slot := (linkEvent s).slot } := by
  unfold linkEvent
  split <;> rfl

theorem lostSet_same (s : State) :
    lostSet s =
      { s with
        link := { s.link with lost := true, restorePending := true }
        scenes := (lostSet s).scenes, changer := (lostSet s).changer, guard := (lostSet s).guard
        events := (lostSet s).events, slot := (lostSet s).slot, node := (lostSet s).node, period := (lostSet s).period } := by
  unfold lostSet
  rw [causesChanged_same, linkEvent_same]
  rfl

theorem limitAtEnd_same (s : State) :
    limitAtEnd s =
      { s with
        link := (limitAtEnd s).link, scenes := (limitAtEnd s).scenes, changer := (limitAtEnd s).changer
        guard := (limitAtEnd s).guard, events := (limitAtEnd s).events, slot := (limitAtEnd s).slot
        node := (limitAtEnd s).node, period := (limitAtEnd s).period } := by
  unfold limitAtEnd
  split
  · unfold startUpEnds
    rw [lostSet_same]
  · rfl

theorem sizingAtEnd_same (s : State) :
    sizingAtEnd s = { s with mem := (sizingAtEnd s).mem, node := (sizingAtEnd s).node } := by
  unfold sizingAtEnd
  split <;> rfl

theorem holdoffTick_same (s : State) :
    holdoffTick s = { s with events := (holdoffTick s).events, slot := (holdoffTick s).slot } := by
  unfold holdoffTick
  split <;> rfl

/-- What the close of a frame period leaves alone once the own message has started, the completed order has run and the return
has left: the maps, the devices, the decoder, the arbiter, the checks, the ports, the pins, the queue and the model's own marks. -/
def Closing (s t : State) : Prop :=
  t =
    { s with
      link := t.link, lines := t.lines, mem := t.mem, scenes := t.scenes, changer := t.changer, guard := t.guard
      capture := t.capture, events := t.events, slot := t.slot, node := t.node, period := t.period }

theorem Closing.and {s t u : State} (a : Closing s t) (b : Closing t u) : Closing s u := by
  unfold Closing at *
  rw [a] at b
  exact b

theorem Closing.guard {s t : State} (h : overGuard s t = t) : Closing s t := by
  unfold Closing
  rw [← h]
  rfl

theorem takeFaults_closing (f : Line → Bool) (s : State) : Closing s (takeFaults f s) := by
  unfold Closing
  rw [takeFaults_same]

theorem clearingAtEnd_closing (s : State) : Closing s (clearingAtEnd s) := by
  unfold Closing
  rw [clearingAtEnd_same]

theorem fadeAtEnd_closing (s : State) : Closing s (fadeAtEnd s) := by
  unfold Closing
  rw [fadeAtEnd_same]

theorem rampsAtEnd_closing (s : State) : Closing s (rampAtEnd (muteRampsAtEnd s)) := by
  refine Closing.and (t := muteRampsAtEnd s) ?_ ?_
  · unfold Closing
    rw [muteRampsAtEnd_same]
  · unfold Closing
    rw [rampAtEnd_same]

theorem sweepAtEnd_closing (s : State) : Closing s (sweepAtEnd s) := by
  unfold Closing
  rw [sweepAtEnd_same]

theorem limitAtEnd_closing (s : State) : Closing s (limitAtEnd s) := by
  unfold Closing
  rw [limitAtEnd_same]

theorem sizingAtEnd_closing (s : State) : Closing s (sizingAtEnd s) := by
  unfold Closing
  rw [sizingAtEnd_same]

theorem lastTicks_closing (s : State) : Closing s (holdoffTick (abandonAtEnd s)) := by
  refine Closing.and (t := abandonAtEnd s) rfl ?_
  unfold Closing
  rw [holdoffTick_same]

/-- The close up to its sampling step, from the state with the return gone whose END left (R129). -/
theorem beforeSampling_closing (s : State) : Closing (returnLeaves (runReady (startOwn s))) (beforeSampling s) := by
  unfold beforeSampling
  dsimp only
  refine Closing.and ?_ (lastTicks_closing _)
  refine Closing.and ?_ (((sweepAtEnd_closing _).and (limitAtEnd_closing _)).and (sizingAtEnd_closing _))
  refine Closing.and ?_ (rampsAtEnd_closing _)
  refine Closing.and ?_ (fadeAtEnd_closing _)
  refine Closing.and ?_ ((takeFaults_closing _ _).and (clearingAtEnd_closing _))
  exact (Closing.guard (blockAtEnd_same _)).and (Closing.guard (clipsAtEnd_same _))

end Sys2Proof.Machine
end

