-- ==== Sys2Proof/Laws/Kept.lean ====
section
/-! SUPPORT. What each move keeps, law by law: with `exec_moves`, `step_moves` and `Moves.keep` these say what every command
and every step keeps. -/

namespace Sys2Proof.Machine

/-! ### Line records after an update -/

/-- The line records after one is changed. -/
theorem lineOf_update (s : State) (n m : Line) (f : LineRec → LineRec) :
    lineOf { s with lines := update s.lines n f } m = if n = m then f (lineOf s n) else lineOf s m := by
  simp only [lineOf, update, Fin.getElem_fin, Vector.getElem_set, Fin.ext_iff]

/-- The line records after some lines are made FAULTED. -/
theorem lineOf_faulted (s : State) (ns : List Line) (k : MemCtl) (m : Line) :
    lineOf
        { s with
          lines := Vector.ofFn fun n => if n ∈ ns then { s.lines[n] with state := .faulted } else s.lines[n]
          mem := k } m =
      if m ∈ ns then { lineOf s m with state := .faulted } else lineOf s m := by
  simp only [lineOf, Fin.getElem_fin, Vector.getElem_ofFn]

theorem lineOf_reset (p m : BitVec 8) (b : List Nat) (k : Pins) (s : State) (n : Line) :
    lineOf (resetState p m b k s) n = LineRec.initial := by
  simp [lineOf, resetState, State.reset]

/-- What a move makes of one line's record. -/
inductive LineMove : LineRec → LineRec → Prop
  | same (l : LineRec) : LineMove l l
  | fed (l : LineRec) (w : Sample) : LineMove l (l.fed w)
  | windowed (l : LineRec) (base length : Nat) (h : l.state = .off) (hb : base ≤ 16383)
      (hl : 1 ≤ length ∧ length ≤ 256) : LineMove l { l with base, length }
  | feedSet (l : LineRec) (ts : List Term) (d : Nat) (hr : recirculation ts ≤ 31129) (hd : d ≤ 32440)
      (hn : ts.length ≤ 6) : LineMove l { l with feed := ts, damping := d }
  | state (l : LineRec) (x : LineState) : LineMove l { l with state := x }
  | ready (l : LineRec) : LineMove l { l with state := .running, position := 0, damped := 0 }
  | reset (l : LineRec) : LineMove l LineRec.initial

/-- Every move makes one of these of every line. -/
theorem Move.line {s t : State} (h : Move s t) (n : Line) : LineMove (lineOf s n) (lineOf t n) := by
  have up : ∀ (m : Line) (f : LineRec → LineRec) (_ : LineMove (lineOf s m) (f (lineOf s m))) (u : State)
      (_ : u.lines = update s.lines m f), LineMove (lineOf s n) (lineOf u n) := by
    intro m f hf u hu
    have e : lineOf u n = if m = n then f (lineOf s m) else lineOf s n := by
      rw [← lineOf_update]
      simp only [lineOf, hu]
    rw [e]
    split
    · rename_i e'
      subst e'
      exact hf
    · exact .same _
  cases h
  case fed m w => exact up m (LineRec.fed w) (.fed _ w) _ rfl
  case windowed m b k ho hb hl => exact up m (fun l => { l with base := b, length := k }) (.windowed _ b k ho hb hl) _ rfl
  case feedSet m ts d hr hd hn => exact up m (fun l => { l with feed := ts, damping := d }) (.feedSet _ ts d hr hd hn) _ rfl
  case begun m hp hc hq => exact up m (fun l => { l with state := .clearing }) (.state _ .clearing) _ rfl
  case stopped m h => exact up m (fun l => { l with state := .off }) (.state _ .off) _ rfl
  case ready m rest h =>
    exact up m (fun l => { l with state := .running, position := 0, damped := 0 }) (.ready _) _ rfl
  case faulted ns h =>
    rw [lineOf_faulted]
    split
    · exact .state _ _
    · exact .same _
  case reset =>
    rw [lineOf_reset]
    exact .reset _
  case raisedFault ns =>
    unfold raiseFault
    split <;> exact .same _
  all_goals exact .same _

/-! ### Feed lists (R7) -/

theorem Move.feedLaw {s t : State} (h : Move s t) (p : FeedLaw s) : FeedLaw t := by
  intro n
  have q := p n
  have k := h.line n
  generalize lineOf s n = a at q k
  generalize lineOf t n = b at k ⊢
  cases k with
  | same => exact q
  | fed w => exact q
  | windowed => exact q
  | feedSet ts d hr hd hn => exact ⟨hr, hd, hn⟩
  | state => exact q
  | ready => exact q
  | reset => exact ⟨by decide, by decide, by decide⟩

/-! ### Banks, roles and the changer (R25, R47, R48) -/

/-- What a reset leaves in the blocks that the laws speak of. -/
theorem resetState_leaves (p m : BitVec 8) (b : List Nat) (k : Pins) (s : State) :
    (resetState p m b k s).link = Link.initial ∧ (resetState p m b k s).maps = Maps.initial ∧
      (resetState p m b k s).mem = MemCtl.initial b ∧ (resetState p m b k s).scenes = Scenes.initial ∧
      (resetState p m b k s).changer = Changer.steady ∧ (resetState p m b k s).guard = Guard.initial ∧
      (resetState p m b k s).decoder = Decoder.initial p m ∧ (resetState p m b k s).arbiter = Arbiter.initial ∧
      (resetState p m b k s).events = Events.initial ∧ (resetState p m b k s).node = Node.initial :=
  ⟨rfl, rfl, rfl, rfl, rfl, rfl, rfl, rfl, rfl, rfl⟩

/-- A role change leaves the banks' contents. -/
theorem roleChange_banks (f : Role → Role) (c : Changer) (s : State) :
    (roleChange f c s).scenes.a.bank = s.scenes.a.bank ∧ (roleChange f c s).scenes.b.bank = s.scenes.b.bank ∧
      (roleChange f c s).scenes.a.role = f s.scenes.a.role ∧ (roleChange f c s).scenes.b.role = f s.scenes.b.role ∧
      (roleChange f c s).changer = c :=
  ⟨rfl, rfl, rfl, rfl, rfl⟩

theorem writeStaged_banks (k : Bank) (s : State) :
    ((writeStaged k s).scenes.a.bank = k ∧ (writeStaged k s).scenes.b = s.scenes.b ∨
      (writeStaged k s).scenes.b.bank = k ∧ (writeStaged k s).scenes.a = s.scenes.a) ∧
      (writeStaged k s).scenes.a.role = s.scenes.a.role ∧ (writeStaged k s).scenes.b.role = s.scenes.b.role := by
  unfold writeStaged Scenes.writeStaged
  dsimp only
  split
  · exact ⟨Or.inl ⟨rfl, rfl⟩, rfl, rfl⟩
  · exact ⟨Or.inr ⟨rfl, rfl⟩, rfl, rfl⟩

theorem Move.costLaw {s t : State} (h : Move s t) (p : CostLaw s) : CostLaw t := by
  cases h
  case edited k hr hc hd ht =>
    rcases (writeStaged_banks k s).1 with ⟨ha, hb⟩ | ⟨hb, ha⟩
    · unfold CostLaw
      rw [ha, hb]
      exact ⟨hc p, p.2⟩
    · unfold CostLaw
      rw [ha, hb]
      exact ⟨p.1, hc p⟩
  case raisedFault ns =>
    unfold raiseFault
    split <;> exact p
  case reset =>
    unfold CostLaw
    rw [(resetState_leaves _ _ _ _ _).2.2.2.1]
    decide
  case faulted => exact ⟨p.1, p.2⟩
  all_goals exact p

/-- The changer's new values and the roles after a role change that R48 lists. -/
theorem roleChange_changer (f : Role → Role) (c : Changer) (s : State)
    (hr : ∀ a b, rolePair s.changer.state a b = true → rolePair c.state (f a) (f b) = true)
    (hc : changerHolds c = true) (p : ChangerLaw s) : ChangerLaw (roleChange f c s) :=
  ⟨hr _ _ p.1, hc, p.2.2.1, p.2.2.2⟩

theorem Move.changerLaw {s t : State} (h : Move s t) (p : ChangerLaw s) : ChangerLaw t := by
  cases h
  case edited k hr hc hd ht =>
    obtain ⟨hk, hra, hrb⟩ := writeStaged_banks k s
    unfold ChangerLaw
    rw [hra, hrb]
    refine ⟨p.1, p.2.1, ?_⟩
    rcases hk with ⟨ha, hb⟩ | ⟨hb, ha⟩
    · rw [ha, hb]
      exact ⟨hd p, p.2.2.2⟩
    · rw [ha, hb]
      exact ⟨p.2.2.1, hd p⟩
  case raisedFault ns =>
    unfold raiseFault
    split <;> exact p
  case reset =>
    unfold ChangerLaw
    rw [(resetState_leaves _ _ _ _ _).2.2.2.1, (resetState_leaves _ _ _ _ _).2.2.2.2.1]
    decide
  case armed q l hs ht hl =>
    refine roleChange_changer _ _ _ ?_ ?_ p
    · rw [hs]
      exact fun a b => by cases a <;> cases b <;> exact (fun h => by first | exact rfl | cases h)
    · simp [changerHolds, hl p]
  case disarmed hs =>
    refine roleChange_changer _ _ _ ?_ (by decide) p
    rw [hs]
    exact fun a b => by cases a <;> cases b <;> exact (fun h => by first | exact rfl | cases h)
  case fired hs hl =>
    refine roleChange_changer _ _ _ ?_ ?_ p
    · rw [hs]
      exact fun a b => by cases a <;> cases b <;> exact (fun h => by first | exact rfl | cases h)
    · have := p.2.1
      simp only [changerHolds, hs, Bool.and_eq_true, decide_eq_true_eq] at this
      simp [changerHolds, this.1.1.2]
      omega
  case switched hs =>
    refine roleChange_changer _ _ _ ?_ (by decide) p
    rw [hs]
    exact fun a b => by cases a <;> cases b <;> exact (fun h => by first | exact rfl | cases h)
  case endedForward hs =>
    refine roleChange_changer _ _ _ ?_ (by decide) p
    rw [hs]
    exact fun a b => by cases a <;> cases b <;> exact (fun h => by first | exact rfl | cases h)
  case endedBack hs =>
    refine roleChange_changer _ _ _ ?_ (by decide) p
    rw [hs]
    exact fun a b => by cases a <;> cases b <;> exact (fun h => by first | exact rfl | cases h)
  case fade c hs hc hh =>
    refine ⟨?_, hh p.2.1, p.2.2⟩
    rw [hc, ← hs]
    exact p.1
  case faulted => exact ⟨p.1, p.2⟩
  all_goals exact p

/-! ### The output map (R107) -/

theorem Move.outputMapLaw {s t : State} (h : Move s t) (p : OutputMapLaw s) : OutputMapLaw t := by
  cases h
  case outputMap c e hn =>
    intro a b i
    show (s.maps.output.set c e)[a] = some i → (s.maps.output.set c e)[b] = some i → a = b
    have key : ∀ d : Output, d ≠ c → e = some i → s.maps.output[d] ≠ some i := by
      intro d hd he hk
      subst he
      have := List.find?_eq_none.1 hn d (by simp [allOutputs])
      simp [hd, hk] at this
    simp only [Fin.getElem_fin, Vector.getElem_set]
    split
    · rename_i ea
      split
      · rename_i eb
        exact fun _ _ => Fin.ext (ea.symm.trans eb)
      · rename_i eb
        exact fun h1 h2 => absurd h2 (key b (fun e' => eb (by rw [e'])) h1)
    · rename_i ea
      split
      · rename_i eb
        exact fun h1 h2 => absurd h1 (key a (fun e' => ea (by rw [e'])) h2)
      · exact p a b i
  case raisedFault ns =>
    unfold raiseFault
    split <;> exact p
  case reset =>
    intro a b i ha
    simp [resetState, State.reset, Maps.initial] at ha
  case faulted => exact fun a b i => p a b i
  all_goals exact p

/-! ### Receiver, queue, delay memory, mute causes -/

/-- The node state after it has followed the causes. -/
theorem follow_state (l : Link) (n : Node) :
    (follow l n).state = n.state ∨ (follow l n).state ≠ .sizing ∧ (follow l n).state ≠ .sweep := by
  unfold follow
  split
  · exact Or.inr ⟨by simp, by simp⟩
  · split
    · exact Or.inr ⟨by simp, by simp⟩
    · exact Or.inl rfl

theorem follow_ramp (l : Link) (n : Node) : (follow l n).ramp = n.ramp := by
  unfold follow
  split
  · rfl
  · split <;> rfl

theorem Move.nodeFollows {s t : State} (h : Move s t) (p : NodeFollows s) : NodeFollows t := by
  cases h
  case link l hl hf =>
    unfold NodeFollows
    rw [hf.1, hf.2]
    exact p
  case caused l b hl =>
    unfold NodeFollows follow
    dsimp only
    split
    · rename_i hc
      simp only [Bool.or_eq_true] at hc
      exact ⟨fun e => by simp at e, fun _ => by tauto⟩
    · split
      · rename_i hc
        simp only [Bool.or_eq_false_iff] at hc
        exact ⟨fun _ => ⟨hc.2.1.1, hc.2.1.2, hc.2.2⟩, fun e => by simp at e⟩
      · rename_i hr hs
        simp only [not_and, Bool.not_eq_true, Bool.or_eq_false_iff] at hr
        simp only [not_and, Bool.not_eq_false, Bool.or_eq_true] at hs
        exact ⟨fun e => ⟨(hr e).1.1, (hr e).1.2, (hr e).2⟩, fun e => by have := hs e; tauto⟩
  case node n hn hr hf => exact hf p
  case sized => exact ⟨fun e => by simp [sizingEnds] at e, fun e => by simp [sizingEnds] at e⟩
  case swept => exact ⟨fun e => by simp [sweepStarts] at e, fun e => by simp [sweepStarts] at e⟩
  case raisedFault ns =>
    unfold raiseFault
    split <;> exact p
  case reset =>
    unfold NodeFollows
    rw [(resetState_leaves _ _ _ _ _).1, (resetState_leaves _ _ _ _ _).2.2.2.2.2.2.2.2.2]
    decide
  case faulted => exact ⟨p.1, p.2⟩
  all_goals exact p

theorem Move.linkLaw {s t : State} (h : Move s t) (p : LinkLaw s) : LinkLaw t := by
  cases h
  case link l hl hf => exact hl p
  case caused l b hl => exact hl p
  case raisedFault ns =>
    unfold raiseFault
    split <;> exact p
  case reset =>
    unfold LinkLaw
    rw [(resetState_leaves _ _ _ _ _).1]
    decide
  case faulted => exact ⟨p.1, p.2⟩
  all_goals exact p

theorem Move.queueLaw {s t : State} (h : Move s t) (p : QueueLaw s) : QueueLaw t := by
  cases h
  case decoder d hd => exact ⟨p.1, hd.elim (fun e => by rw [e]; exact p.2) id⟩
  case arbiter a n ha => exact ⟨ha.trans p.1, p.2⟩
  case queued c v b r k hq =>
    refine ⟨?_, p.2⟩
    show (s.arbiter.returns ++ [_]).length ≤ 8
    simp only [List.length_append, List.length_cons, List.length_nil]
    omega
  case raisedFault ns =>
    unfold raiseFault
    split <;> exact p
  case reset h => exact ⟨by simp [resetState, State.reset, Arbiter.initial], h.elim (fun e => by rw [e]; exact p.2) id⟩
  case faulted => exact ⟨p.1, p.2⟩
  all_goals exact p

theorem Move.memoryLaw {s t : State} (h : Move s t) (p : MemoryLaw s) : MemoryLaw t := by
  cases h
  case device d hd => exact hd p
  case raisedFault ns =>
    unfold raiseFault
    split <;> exact p
  case reset => exact ⟨rfl, p.2⟩
  case faulted => exact ⟨p.1, p.2⟩
  all_goals exact p

theorem adjustWhere_record (g : Guard) (c : Output → Bool) (f : Output → Profile) (d : Output) :
    (g.adjustWhere c f).outputs[d] = if c d then (g.outputs[d]).adjust (f d) else g.outputs[d] := by
  simp only [Guard.adjustWhere, Fin.getElem_fin, Vector.getElem_ofFn]

/-- A role change leaves an output's record but for the trim step and the strain count. -/
theorem roleChange_record (f : Role → Role) (ch : Changer) (s : State) (c : Output) :
    (roleChange f ch s).guard.outputs[c] = s.guard.outputs[c] ∨
      (roleChange f ch s).guard.outputs[c] =
        (s.guard.outputs[c]).adjust s.guard.profiles[profileInForce ch.state (s.scenes.changeRoles f) c] := by
  have e := adjustWhere_record s.guard
    (fun c => profileInForce s.changer.state s.scenes c ≠ profileInForce ch.state (s.scenes.changeRoles f) c)
    (fun c => s.guard.profiles[profileInForce ch.state (s.scenes.changeRoles f) c]) c
  have e' : (roleChange f ch s).guard.outputs[c] = _ := e
  rw [e']
  split
  · exact Or.inr rfl
  · exact Or.inl rfl

theorem roleChange_mute (f : Role → Role) (ch : Changer) (s : State) (p : MuteLaw s) : MuteLaw (roleChange f ch s) := by
  intro c
  rcases roleChange_record f ch s c with e | e <;> rw [e] <;> exact p c

theorem roleChange_ramp (f : Role → Role) (ch : Changer) (s : State) (p : RampLaw s) : RampLaw (roleChange f ch s) := by
  refine ⟨p.1, fun c => ?_⟩
  rcases roleChange_record f ch s c with e | e <;> rw [e] <;> exact p.2 c

theorem guardInitial_record (c : Output) : Guard.initial.outputs[c] = GuardRec.initial := by
  simp [Guard.initial]

theorem Move.muteLaw {s t : State} (h : Move s t) (p : MuteLaw s) : MuteLaw t := by
  cases h
  case guard g ht hr hm => exact hm p
  case armed => exact roleChange_mute _ _ _ p
  case disarmed => exact roleChange_mute _ _ _ p
  case fired => exact roleChange_mute _ _ _ p
  case switched => exact roleChange_mute _ _ _ p
  case endedForward => exact roleChange_mute _ _ _ p
  case endedBack => exact roleChange_mute _ _ _ p
  case raisedFault ns =>
    unfold raiseFault
    split <;> exact p
  case reset =>
    intro c
    show Guard.initial.outputs[c].cause.isSome = true ↔ Guard.initial.outputs[c].state = .muted
    rw [guardInitial_record]
    decide
  case faulted => exact fun c => p c
  all_goals exact p

theorem Move.rampLaw {s t : State} (h : Move s t) (p : RampLaw s) : RampLaw t := by
  cases h
  case guard g ht hr hm => exact hr p
  case node n hn hr hf => exact ⟨hr p.1, p.2⟩
  case caused l b hl => exact ⟨by rw [show (follow l _).ramp = _ from follow_ramp _ _]; exact p.1, p.2⟩
  case armed => exact roleChange_ramp _ _ _ p
  case disarmed => exact roleChange_ramp _ _ _ p
  case fired => exact roleChange_ramp _ _ _ p
  case switched => exact roleChange_ramp _ _ _ p
  case endedForward => exact roleChange_ramp _ _ _ p
  case endedBack => exact roleChange_ramp _ _ _ p
  case raisedFault ns =>
    unfold raiseFault
    split <;> exact p
  case reset =>
    refine ⟨by simp [resetState, State.reset, Node.initial], fun c => ?_⟩
    show Guard.initial.outputs[c].ramp ≤ 48 ∧ Guard.initial.outputs[c].peak ≤ 8388608 ∧ Guard.initial.outputs[c].clip ≤ 255
    rw [guardInitial_record]
    decide
  case faulted => exact ⟨p.1, fun c => p.2 c⟩
  all_goals exact p

/-! ### Windows and placement (R1, R6, R11) -/

/-- The law of placement rests on the line records, the work list, presence, the bad-block map and the node state. -/
theorem placementLaw_of_eq {s t : State} (hl : t.lines = s.lines) (hc : t.mem.clearing = s.mem.clearing)
    (hp : t.mem.present = s.mem.present) (hb : t.mem.badBlocks = s.mem.badBlocks)
    (hn : t.node.state = .sizing ∨ t.node.state = .sweep → s.node.state = .sizing ∨ s.node.state = .sweep)
    (p : PlacementLaw s) : PlacementLaw t := by
  have e : ∀ n, lineOf t n = lineOf s n := fun n => by simp only [lineOf, hl]
  obtain ⟨⟨c1, c2⟩, q, w, a, d⟩ := p
  refine ⟨⟨by rw [hc]; exact c1, fun n => by rw [hc, e]; exact c2 n⟩, fun h n => by rw [e]; exact q (hn h) n,
    fun n => by rw [e]; exact w n, fun m n h => by rw [e, e]; exact a m n h, fun n => ?_⟩
  rw [e, hp, hb]
  exact d n

/-- Where every line is OFF, the law of placement asks of the windows no more than their ranges. -/
theorem placementLaw_of_off {s t : State} (hl : t.lines = s.lines) (hc : t.mem.clearing = s.mem.clearing)
    (ho : ∀ n, (lineOf s n).state = .off) (p : PlacementLaw s) : PlacementLaw t := by
  have e : ∀ n, lineOf t n = lineOf s n := fun n => by simp only [lineOf, hl]
  obtain ⟨⟨c1, c2⟩, _, w, _, _⟩ := p
  refine ⟨⟨by rw [hc]; exact c1, fun n => by rw [hc, e]; exact c2 n⟩, fun _ n => by rw [e]; exact ho n,
    fun n => by rw [e]; exact w n, fun m n _ hm => ?_, fun n hn => ?_⟩
  · rw [e] at hm
    exact absurd (ho m) hm
  · rw [e, ho n] at hn
    simp at hn

/-- A line's window is the same in two states. -/
def SameWindow (s t : State) (n : Line) : Prop :=
  (lineOf t n).base = (lineOf s n).base ∧ (lineOf t n).length = (lineOf s n).length

theorem SameWindow.covers {s t : State} {n : Line} (h : SameWindow s t n) (b : Nat) :
    (lineOf t n).covers b = (lineOf s n).covers b := by
  unfold LineRec.covers
  rw [h.1, h.2]

/-- Windows stay, and every line keeps its state, goes OFF, faults from outside OFF, or runs from CLEARING. -/
theorem placementLaw_of_states {s t : State} (h : ∀ n, SameWindow s t n ∧
      ((lineOf t n).state = (lineOf s n).state ∨ (lineOf t n).state = .off ∨
        ((lineOf t n).state = .faulted ∧ (lineOf s n).state ≠ .off) ∨
        ((lineOf t n).state = .running ∧ (lineOf s n).state = .clearing)))
    (hc : ClearingLaw t) (hp : t.mem.present = s.mem.present) (hb : t.mem.badBlocks = s.mem.badBlocks)
    (hn : t.node.state = s.node.state) (p : PlacementLaw s) : PlacementLaw t := by
  obtain ⟨_, q, w, a, d⟩ := p
  have on : ∀ n, (lineOf t n).state ≠ .off → (lineOf s n).state ≠ .off := by
    intro n ho e
    rcases (h n).2 with k | k | k | k
    · exact ho (k.trans e)
    · exact ho k
    · exact k.2 e
    · rw [e] at k
      simp at k
  refine ⟨hc, fun k n => ?_, fun n => ?_, fun m n hmn hm ho b => ?_, fun n hs b => ?_⟩
  · rw [hn] at k
    by_contra ho
    exact on n ho (q k n)
  · rw [(h n).1.1, (h n).1.2]
    exact ⟨(w n).1, (w n).2.1, (w n).2.2.1, fun ho => (w n).2.2.2 (on n ho)⟩
  · rw [(h m).1.covers, (h n).1.covers]
    exact a m n hmn (on m hm) (on n ho) b
  · rw [(h n).1.covers, hp, hb]
    refine d n ?_ b
    rcases (h n).2 with k | k | k | k
    · rw [← k]
      exact hs
    · rw [k] at hs
      simp at hs
    · rw [k.1] at hs
      simp at hs
    · exact Or.inl k.2

theorem lowestOn_none {s : State} (h : lowestOn s = none) (n : Line) : (lineOf s n).state = .off := by
  have := List.find?_eq_none.1 h n (by simp [allLines])
  simpa [lineOf] using this

/-- What the placement test leaves of a window (R6). -/
theorem placement_none {s : State} {n : Line} (h : placement s n = none) :
    (lineOf s n).base % 4096 + (lineOf s n).length ≤ 4096 ∧
      s.mem.present[rankOfBlock (lineOf s n).base] = true ∧
      (∀ b, (lineOf s n).covers b = true → b ∉ s.mem.badBlocks) ∧
      ∀ m, m ≠ n → (lineOf s m).state ≠ .off → ∀ b, (lineOf s n).covers b = true → (lineOf s m).covers b = false := by
  have hin : ∀ b, (lineOf s n).covers b = true → b ∈ (lineOf s n).blocks := by
    intro b hb
    simp only [LineRec.covers, Bool.and_eq_true, decide_eq_true_eq] at hb
    simp only [LineRec.blocks, List.mem_map, List.mem_range]
    exact ⟨b - (lineOf s n).base, by omega, by omega⟩
  unfold placement at h
  dsimp only at h
  split at h
  · cases h
  · rename_i h1
    split at h
    · cases h
    · rename_i h2
      split at h
      · cases h
      · rename_i h3
        simp only [Option.map_eq_none_iff] at h
        refine ⟨by simpa [Config.blocksPerRank] using h1, by simpa using h2, fun b hb => ?_, fun m hm ho b hb => ?_⟩
        · have := List.find?_eq_none.1 h3 b (hin b hb)
          simpa using this
        · have := List.find?_eq_none.1 h b (hin b hb)
          simp only [sharedWith, Bool.not_eq_true, List.any_eq_false, Bool.and_eq_true, decide_eq_true_eq,
            bne_iff_ne, not_and] at this
          have := this m (by simp [allLines]) ⟨hm, ho⟩
          simpa using this

theorem begun_placement {s : State} (n : Line) (hp : placement s n = none) (hc : (lineOf s n).state ≠ .clearing)
    (hq : s.node.state ≠ .sizing ∧ s.node.state ≠ .sweep) (p : PlacementLaw s) :
    PlacementLaw (beginClearing n s) := by
  have k := placement_none hp
  obtain ⟨⟨c1, c2⟩, _, w, a, d⟩ := p
  have e : ∀ m, lineOf (beginClearing n s) m = if n = m then { lineOf s n with state := .clearing } else lineOf s m :=
    fun m => lineOf_update s n m fun l => { l with state := .clearing }
  have hcov : ∀ m b, (lineOf (beginClearing n s) m).covers b = (lineOf s m).covers b := by
    intro m b
    rw [e]
    split
    · rename_i h
      subst h
      rfl
    · rfl
  refine ⟨⟨?_, fun m => ?_⟩, fun h => ?_, fun m => ?_, fun x y hxy hx hy b => ?_, fun m hm b => ?_⟩
  · show (s.mem.clearing ++ [n]).Nodup
    refine List.Nodup.append c1 (List.nodup_singleton n) ?_
    simp only [List.disjoint_singleton]
    exact fun h => hc ((c2 n).1 h)
  · show m ∈ s.mem.clearing ++ [n] ↔ _
    rw [e]
    split
    · rename_i h
      subst h
      simp
    · rename_i h
      have : m ≠ n := fun f => h f.symm
      simp [this, c2 m]
  · exact absurd h (by simp [beginClearing, hq.1, hq.2])
  · rw [e]
    split
    · rename_i h
      subst h
      exact ⟨(w n).1, (w n).2.1, (w n).2.2.1, fun _ => k.1⟩
    · exact w m
  · rw [hcov, hcov]
    rw [e] at hx hy
    by_cases hxn : n = x
    · subst hxn
      rw [if_neg hxy] at hy
      rintro ⟨h1, h2⟩
      have := k.2.2.2 y (fun f => hxy f.symm) hy b h1
      rw [this] at h2
      cases h2
    · rw [if_neg hxn] at hx
      by_cases hyn : n = y
      · subst hyn
        rintro ⟨h1, h2⟩
        have := k.2.2.2 x hxy hx b h2
        rw [this] at h1
        cases h1
      · rw [if_neg hyn] at hy
        exact a x y hxy hx hy b
  · rw [hcov]
    intro hb
    rw [e] at hm
    by_cases h : n = m
    · subst h
      refine ⟨k.2.2.1 b hb, ?_⟩
      have hr : rankOfBlock b = rankOfBlock (lineOf s n).base := by
        simp only [LineRec.covers, Bool.and_eq_true, decide_eq_true_eq] at hb
        have h1 := k.1
        unfold rankOfBlock Config.blocksPerRank
        congr 1
        omega
      show s.mem.present[rankOfBlock b] = true
      simp only [hr]
      exact k.2.1
    · rw [if_neg h] at hm
      exact d m hm b hb

/-- A line outside a list has a block of its window in the rank of that block. -/
theorem inRank_of_covers {l : LineRec} {b : Nat} (hb : l.covers b = true) (h : b < 16384) :
    l.inRank (rankOfBlock b) = true := by
  simp only [LineRec.covers, Bool.and_eq_true, decide_eq_true_eq] at hb
  unfold LineRec.inRank rankOfBlock Config.blocksPerRank
  rw [Bool.and_eq_true, decide_eq_true_eq, decide_eq_true_eq, Fin.val_ofNat]
  omega

theorem Move.placementLaw {s t : State} (h : Move s t) (p : PlacementLaw s) : PlacementLaw t := by
  cases h
  case raisedFault ns =>
    unfold raiseFault
    split
    · exact p
    · exact placementLaw_of_eq (s := s) rfl rfl rfl rfl id p
  case caused l b hl =>
    refine placementLaw_of_eq (s := s) rfl rfl rfl rfl (fun k => ?_) p
    rcases follow_state l { s.node with orderCause := b } with e | e
    · have k' : (follow l { s.node with orderCause := b }).state = .sizing ∨
          (follow l { s.node with orderCause := b }).state = .sweep := k
      rw [e] at k'
      exact k'
    · exact absurd k (by simp [e.1, e.2])
  case node n hn hr hf =>
    refine placementLaw_of_eq (s := s) rfl rfl rfl rfl (fun k => ?_) p
    rcases hn with e | e
    · rw [← e]
      exact k
    · exact absurd k (by simp [e.1, e.2])
  case sized hz =>
    exact placementLaw_of_off (s := s) rfl rfl (p.2.1 (Or.inl hz)) p
  case swept hz ho => exact placementLaw_of_off (s := s) rfl rfl (lowestOn_none ho) p
  case counted m hc hp hb hs => exact placementLaw_of_eq (s := s) rfl hc hp hb id p
  case marked m hn hc hp hs => exact placementLaw_of_off (s := s) rfl hc (p.2.1 (Or.inr hn)) p
  case absent present hm hl =>
    obtain ⟨c, q, w, a, d⟩ := p
    refine ⟨c, q, w, a, fun n hn b hb => ⟨(d n hn b hb).1, ?_⟩⟩
    show present[rankOfBlock b] = true
    by_contra hf
    simp only [Bool.not_eq_true] at hf
    have hi := hl (rankOfBlock b) hf (d n hn b hb).2 n hn
    have hw := (w n).2.2.2 (by
      have hn' : (lineOf s n).state = .clearing ∨ (lineOf s n).state = .running := hn
      rcases hn' with e | e <;> rw [e] <;> simp)
    have hb' : (lineOf s n).covers b = true := hb
    have h1 := (w n).1
    rw [inRank_of_covers hb'] at hi
    · cases hi
    · simp only [LineRec.covers, Bool.and_eq_true, decide_eq_true_eq] at hb'
      omega
  case fed n x =>
    have e := lineOf_update s n
    refine placementLaw_of_states (s := s) (fun m => ?_) ?_ rfl rfl rfl p
    · have em : lineOf (overLine n (LineRec.fed x) s) m = _ := e m _
      rw [SameWindow, em]
      split
      · rename_i h
        subst h
        exact ⟨⟨rfl, rfl⟩, Or.inl rfl⟩
      · exact ⟨⟨rfl, rfl⟩, Or.inl rfl⟩
    · refine ⟨p.1.1, fun m => ?_⟩
      have em : lineOf (overLine n (LineRec.fed x) s) m = _ := e m _
      rw [em]
      split
      · rename_i h
        subst h
        exact p.1.2 n
      · exact p.1.2 m
  case feedSet n ts k h1 h2 h3 =>
    have e : ∀ m, lineOf (overLine n (fun l => { l with feed := ts, damping := k }) s) m = _ :=
      fun m => lineOf_update s n m _
    refine placementLaw_of_states (s := s) (fun m => ?_) ⟨p.1.1, fun m => ?_⟩ rfl rfl rfl p
    · rw [SameWindow, e]
      split
      · rename_i h
        subst h
        exact ⟨⟨rfl, rfl⟩, Or.inl rfl⟩
      · exact ⟨⟨rfl, rfl⟩, Or.inl rfl⟩
    · rw [e]
      split
      · rename_i h
        subst h
        exact p.1.2 n
      · exact p.1.2 m
  case windowed n base len ho hb hl =>
    obtain ⟨c, q, w, a, d⟩ := p
    have e : ∀ m, lineOf (overLine n (fun l => { l with base := base, length := len }) s) m =
        if n = m then { lineOf s n with base := base, length := len } else lineOf s m :=
      fun m => lineOf_update s n m _
    have st : ∀ m, (lineOf (overLine n (fun l => { l with base := base, length := len }) s) m).state =
        (lineOf s m).state := fun m => by
      rw [e]
      split
      · rename_i h
        subst h
        rfl
      · rfl
    have other : ∀ m, (lineOf s m).state ≠ .off →
        lineOf (overLine n (fun l => { l with base := base, length := len }) s) m = lineOf s m := fun m hm => by
      rw [e, if_neg]
      intro h
      subst h
      exact hm ho
    refine ⟨⟨c.1, fun m => by rw [st]; exact c.2 m⟩, fun k m => by rw [st]; exact q k m, fun m => ?_,
      fun x y hxy hx hy b => ?_, fun m hm b => ?_⟩
    · rw [st]
      rw [e]
      split
      · rename_i h
        subst h
        exact ⟨hb, hl.1, hl.2, fun k => absurd ho k⟩
      · exact w m
    · rw [st] at hx hy
      rw [other x hx, other y hy]
      exact a x y hxy hx hy b
    · rw [st] at hm
      rw [other m (by rcases hm with k | k <;> rw [k] <;> simp)]
      exact d m hm b
  case begun n hp hc hq => exact begun_placement n hp hc hq p
  case stopped n hu =>
    have e : ∀ m, lineOf
        { s with
          lines := update s.lines n fun l => { l with state := .off }
          mem := s.mem.unlist fun m => m == n } m =
        if n = m then { lineOf s n with state := .off } else lineOf s m :=
      fun m => lineOf_update s n m fun l => { l with state := .off }
    refine placementLaw_of_states (s := s) (fun m => ?_) ⟨p.1.1.filter _, fun m => ?_⟩ rfl rfl rfl p
    · rw [SameWindow, e]
      split
      · rename_i h
        subst h
        exact ⟨⟨rfl, rfl⟩, Or.inr (Or.inl rfl)⟩
      · exact ⟨⟨rfl, rfl⟩, Or.inl rfl⟩
    · rw [e]
      show m ∈ s.mem.clearing.filter (fun m => !(m == n)) ↔ _
      rw [List.mem_filter]
      split
      · rename_i h
        subst h
        simp
      · rename_i h
        have : m ≠ n := fun f => h f.symm
        simp [this, p.1.2 m]
  case ready n rest hr =>
    have hn := p.1.1
    rw [hr] at hn
    simp only [List.nodup_cons] at hn
    have hs : (lineOf s n).state = .clearing := (p.1.2 n).1 (by rw [hr]; simp)
    have e : ∀ m, lineOf
        { s with
          lines := update s.lines n fun l => { l with state := .running, position := 0, damped := 0 }
          mem := { s.mem with clearing := rest, zeroed := 0 } } m =
        if n = m then { lineOf s n with state := .running, position := 0, damped := 0 } else lineOf s m :=
      fun m => lineOf_update s n m fun l => { l with state := .running, position := 0, damped := 0 }
    refine placementLaw_of_states (s := s) (fun m => ?_) ⟨hn.2, fun m => ?_⟩ rfl rfl rfl p
    · rw [SameWindow, e]
      split
      · rename_i h
        subst h
        exact ⟨⟨rfl, rfl⟩, Or.inr (Or.inr (Or.inr ⟨rfl, hs⟩))⟩
      · exact ⟨⟨rfl, rfl⟩, Or.inl rfl⟩
    · rw [e]
      show m ∈ rest ↔ _
      split
      · rename_i h
        subst h
        simp [hn.1]
      · rename_i h
        have hm := p.1.2 m
        rw [hr] at hm
        have : m ≠ n := fun f => h f.symm
        simpa [this] using hm
  case faulted ns hf =>
    have e := lineOf_faulted s ns (s.mem.unlist fun n => decide (n ∈ ns))
    refine placementLaw_of_states (s := s) (fun m => ?_) ⟨p.1.1.filter _, fun m => ?_⟩ rfl rfl rfl p
    · rw [SameWindow, e]
      split
      · exact ⟨⟨rfl, rfl⟩, Or.inr (Or.inr (Or.inl ⟨rfl, hf m ‹_›⟩))⟩
      · exact ⟨⟨rfl, rfl⟩, Or.inl rfl⟩
    · rw [e]
      show m ∈ s.mem.clearing.filter (fun n => !decide (n ∈ ns)) ↔ _
      rw [List.mem_filter]
      split
      · simp [*]
      · rename_i h
        simp [h, p.1.2 m]
  case reset =>
    refine ⟨⟨?_, fun n => ?_⟩, fun _ n => ?_, fun n => ?_, fun m n _ hm => ?_, fun n hn => ?_⟩
    · rw [(resetState_leaves _ _ _ _ _).2.2.1]
      simp [MemCtl.initial]
    · rw [(resetState_leaves _ _ _ _ _).2.2.1, lineOf_reset]
      simp [MemCtl.initial, LineRec.initial]
    · rw [lineOf_reset]
      rfl
    · rw [lineOf_reset]
      decide
    · rw [lineOf_reset] at hm
      exact absurd rfl hm
    · rw [lineOf_reset] at hn
      exact absurd hn (by decide)
  all_goals exact placementLaw_of_eq (s := s) rfl rfl rfl rfl id p

theorem Move.existsLaw {s t : State} (h : Move s t) (p : ExistsLaw s) : ExistsLaw t := by
  refine ⟨h.placementLaw p.1, ?_⟩
  have q := p.2
  cases h
  case raisedFault ns =>
    rw [(raiseFault_keeps ns s).1]
    exact q
  case swept hz ho =>
    show ((nextPresent s.mem.present 0).map firstBlock).getD 0 < 16384
    cases nextPresent s.mem.present 0 with
    | none => decide
    | some r =>
      show r.val * 4096 < 16384
      omega
  case counted m hc hp hb hs => exact hs q
  case marked m hn hc hp hs => exact hs q
  case reset =>
    rw [(resetState_leaves _ _ _ _ _).2.2.1]
    exact (by decide : 0 < 16384)
  all_goals exact q

/-! ### Banks, roles and lines (R13, R35, R48, R51) -/

/-- A line that a set of taps names is in the set of lines named. -/
theorem linesNamed_has (ts : List Tap) (t : Tap) (h : t ∈ ts) : (linesNamed ts).getLsbD t.line.val = true := by
  have key : ∀ (l : List Tap) (b : BitVec 64) (i : Nat), i < 64 →
      (l.foldl (fun b t => b ||| 1#64 <<< t.line.val) b).getLsbD i =
        (b.getLsbD i || l.any fun t => decide (t.line.val = i)) := by
    intro l
    induction l with
    | nil => intro b i _; simp
    | cons x xs ih =>
      intro b i hi
      rw [List.foldl_cons, ih _ _ hi]
      have hx : (1#64 <<< x.line.val).getLsbD i = decide (x.line.val = i) := by
        rw [BitVec.getLsbD_shiftLeft, BitVec.getLsbD_one]
        by_cases e : x.line.val = i
        · simp [e, hi]
        · by_cases e' : i < x.line.val
          · simp [e, e']
          · have : i - x.line.val ≠ 0 := by omega
            simp [e, this]
      simp only [BitVec.getLsbD_or, hx, List.any_cons, Bool.or_assoc]
  unfold linesNamed
  rw [key ts 0 t.line.val t.line.isLt, Bool.or_eq_true, List.any_eq_true]
  exact Or.inr ⟨t, h, by simp⟩

/-- A tap in service names a line of the in-use set (R35). -/
theorem inUse_of_tap {s : State} (h : InUseLaw s) (t : Tap)
    (ht : t ∈ s.scenes.a.inService ∨ t ∈ s.scenes.b.inService) : s.scenes.inUse.getLsbD t.line.val = true := by
  have one : ∀ b : BankSlot, t ∈ b.inService → b.used.getLsbD t.line.val = true := by
    intro b hb
    unfold BankSlot.inService at hb
    unfold BankSlot.used
    split at hb
    · cases hb
    · rename_i hr
      have hc : b.role.counts = true := by
        cases e : b.role <;> first | rfl | exact absurd e hr
      rw [if_pos hc]
      exact linesNamed_has _ _ hb
  rw [h]
  show (s.scenes.a.used ||| s.scenes.b.used).getLsbD t.line.val = true
  rw [BitVec.getLsbD_or]
  rcases ht with k | k
  · rw [one _ k]
    rfl
  · rw [one _ k]
    simp

/-- The scene laws hold where banks, roles and lines are as before, or the lines' windows and OFF states are. -/
theorem sceneLaw_of_lines {s t : State} (hs : t.scenes = s.scenes) (hc : t.changer = s.changer)
    (hl : ∀ x : Tap, x ∈ s.scenes.a.inService ∨ x ∈ s.scenes.b.inService → (lineOf s x.line).state ≠ .off →
      (lineOf t x.line).state ≠ .off ∧ (lineOf t x.line).length = (lineOf s x.line).length)
    (p : SceneLaw s) : SceneLaw t := by
  obtain ⟨c, u, ta, tb⟩ := p
  have k : ∀ x : Tap, x ∈ s.scenes.a.inService ∨ x ∈ s.scenes.b.inService → tapStands s x → tapStands t x := by
    rintro x hx ⟨h1, h2⟩
    have e := hl x hx h1
    refine ⟨e.1, ?_⟩
    unfold LineRec.samples at h2 ⊢
    rw [e.2]
    exact h2
  refine ⟨?_, ?_, ?_, ?_⟩
  · unfold ChangerLaw at c ⊢
    rw [hs, hc]
    exact c
  · unfold InUseLaw at u ⊢
    rw [hs]
    exact u
  · rw [hs]
    exact fun x hx => k x (Or.inl hx) (ta x hx)
  · rw [hs]
    exact fun x hx => k x (Or.inr hx) (tb x hx)

/-- A role change of R48 in which STAGED taps come into service only where they stand. -/
theorem sceneLaw_of_roleChange {s : State} (f : Role → Role) (ch : Changer)
    (hc : ChangerLaw (roleChange f ch s))
    (hf : f .staged = .staged ∨ ∀ b : BankSlot, b = s.scenes.a ∨ b = s.scenes.b → b.role = .staged →
      ∀ x ∈ b.bank.taps, tapStands s x)
    (p : SceneLaw s) : SceneLaw (roleChange f ch s) := by
  obtain ⟨c, u, ta, tb⟩ := p
  have one : ∀ b : BankSlot, b = s.scenes.a ∨ b = s.scenes.b → (∀ x ∈ b.inService, tapStands s x) →
      ∀ x ∈ (b.toRole (f b.role)).inService, tapStands (roleChange f ch s) x := by
    intro b hb hs x hx
    have hk : (b.toRole (f b.role)).inService = if f b.role = .staged then [] else b.bank.taps := rfl
    rw [hk] at hx
    split at hx
    · cases hx
    · rename_i hr
      show tapStands s x
      by_cases e : b.role = .staged
      · rcases hf with k | k
        · rw [e] at hr
          exact absurd k hr
        · exact k b hb e x hx
      · refine hs x ?_
        unfold BankSlot.inService
        rw [if_neg e]
        exact hx
  exact ⟨hc, rfl, one s.scenes.a (Or.inl rfl) ta, one s.scenes.b (Or.inr rfl) tb⟩

/-- A tap list without a bad tap stands (R51). -/
theorem firstBadTap_none {s : State} {ts : List Tap} {i : Nat} (h : firstBadTap s ts i = none) :
    ∀ x ∈ ts, tapStands s x := by
  induction ts generalizing i with
  | nil => simp
  | cons t ts ih =>
    unfold firstBadTap at h
    split at h
    · cases h
    · rename_i ht
      intro x hx
      rcases List.mem_cons.1 hx with e | e
      · subst e
        unfold tapFails at ht
        split at ht
        · cases ht
        · rename_i h1
          split at ht
          · cases ht
          · rename_i h2
            exact ⟨h1, Nat.lt_of_not_le h2⟩
      · exact ih h x e

theorem Move.sceneLaw {s t : State} (h : Move s t) (p : SceneLaw s) : SceneLaw t := by
  have hcl : ChangerLaw t := h.changerLaw p.1
  have lines : ∀ (_ : t.scenes = s.scenes) (_ : t.changer = s.changer)
      (_ : ∀ n, (lineOf t n).state ≠ .off ∧ (lineOf t n).length = (lineOf s n).length ∨ (lineOf s n).state = .off),
      SceneLaw t := fun h1 h2 h3 => sceneLaw_of_lines h1 h2
    (fun x _ ho => (h3 x.line).elim id fun k => absurd k ho) p
  cases h
  case raisedFault ns =>
    unfold raiseFault
    split <;> exact p
  case edited k hr hc hd ht =>
    obtain ⟨c, u, ta, tb⟩ := p
    have used : ∀ b : BankSlot, b.role = .staged → b.used = 0 := fun b hb => by
      unfold BankSlot.used
      rw [hb]
      rfl
    have svc : ∀ b : BankSlot, b.role = .staged → b.inService = [] := fun b hb => by
      unfold BankSlot.inService
      rw [if_pos hb]
    have e : ∀ (sc : Scenes), sc.hasRole .staged = true →
        ((sc.writeStaged k).a.used = sc.a.used ∧ (sc.writeStaged k).b.used = sc.b.used) ∧
        (sc.writeStaged k).a.inService = sc.a.inService ∧ (sc.writeStaged k).b.inService = sc.b.inService := by
      intro sc hs
      unfold Scenes.writeStaged
      split
      · rename_i ha
        refine ⟨⟨?_, rfl⟩, ?_, rfl⟩
        · exact (used { sc.a with bank := k } ha).trans (used sc.a ha).symm
        · exact (svc { sc.a with bank := k } ha).trans (svc sc.a ha).symm
      · rename_i ha
        have hb : sc.b.role = .staged := by
          simp only [Scenes.hasRole, Bool.or_eq_true, beq_iff_eq] at hs
          exact hs.resolve_left ha
        refine ⟨⟨rfl, ?_⟩, rfl, ?_⟩
        · exact (used { sc.b with bank := k } hb).trans (used sc.b hb).symm
        · exact (svc { sc.b with bank := k } hb).trans (svc sc.b hb).symm
    have k2 := e s.scenes hr
    refine ⟨hcl, ?_, ?_, ?_⟩
    · have hi : (s.scenes.writeStaged k).inUse = s.scenes.inUse := by
        unfold Scenes.writeStaged
        split <;> rfl
      show (s.scenes.writeStaged k).inUse = (s.scenes.writeStaged k).a.used ||| (s.scenes.writeStaged k).b.used
      rw [hi, k2.1.1, k2.1.2]
      exact u
    · intro x hx
      have hx' : x ∈ (s.scenes.writeStaged k).a.inService := hx
      rw [k2.2.1] at hx'
      exact ta x hx'
    · intro x hx
      have hx' : x ∈ (s.scenes.writeStaged k).b.inService := hx
      rw [k2.2.2] at hx'
      exact tb x hx'
  case phases pa pb hph => exact ⟨p.1, p.2.1, p.2.2.1, p.2.2.2⟩
  case armed q l hs ht hl =>
    refine sceneLaw_of_roleChange _ _ hcl (Or.inr fun b hb hr => ?_) p
    have hst : (staged s).taps = b.bank.taps := by
      have hp := p.1.1
      rw [hs] at hp
      unfold staged Scenes.withRole
      rcases hb with e | e
      · rw [← e, if_pos hr]
      · rw [e] at hr
        rw [hr] at hp
        have ha : s.scenes.a.role ≠ .staged := fun k => by
          rw [k] at hp
          exact absurd hp (by decide)
        rw [if_neg ha, e]
    rw [← hst]
    exact firstBadTap_none ht
  case disarmed hs => exact sceneLaw_of_roleChange _ _ hcl (Or.inl rfl) p
  case fired hs hl => exact sceneLaw_of_roleChange _ _ hcl (Or.inl rfl) p
  case switched hs => exact sceneLaw_of_roleChange _ _ hcl (Or.inl rfl) p
  case endedForward hs => exact sceneLaw_of_roleChange _ _ hcl (Or.inl rfl) p
  case endedBack hs => exact sceneLaw_of_roleChange _ _ hcl (Or.inl rfl) p
  case fade c hs hc hh => exact ⟨hcl, p.2.1, p.2.2.1, p.2.2.2⟩
  case fed n w =>
    refine lines rfl rfl fun m => ?_
    have e : lineOf (overLine n (LineRec.fed w) s) m = if n = m then (lineOf s n).fed w else lineOf s m :=
      lineOf_update s n m _
    rw [e]
    by_cases ho : (lineOf s m).state = .off
    · exact Or.inr ho
    · split
      · rename_i h
        subst h
        exact Or.inl ⟨ho, rfl⟩
      · exact Or.inl ⟨ho, rfl⟩
  case feedSet n ts d _ _ _ =>
    refine lines rfl rfl fun m => ?_
    have e : lineOf (overLine n (fun l => { l with feed := ts, damping := d }) s) m =
        if n = m then { lineOf s n with feed := ts, damping := d } else lineOf s m :=
      lineOf_update s n m fun l => { l with feed := ts, damping := d }
    rw [e]
    by_cases ho : (lineOf s m).state = .off
    · exact Or.inr ho
    · split
      · rename_i h
        subst h
        exact Or.inl ⟨ho, rfl⟩
      · exact Or.inl ⟨ho, rfl⟩
  case windowed n b l ho _ _ =>
    refine lines rfl rfl fun m => ?_
    have e : lineOf (overLine n (fun r => { r with base := b, length := l }) s) m =
        if n = m then { lineOf s n with base := b, length := l } else lineOf s m :=
      lineOf_update s n m fun r => { r with base := b, length := l }
    rw [e]
    by_cases hm : (lineOf s m).state = .off
    · exact Or.inr hm
    · split
      · rename_i h
        subst h
        exact absurd ho hm
      · exact Or.inl ⟨hm, rfl⟩
  case begun n _ _ _ =>
    refine lines rfl rfl fun m => ?_
    have e : lineOf (beginClearing n s) m = if n = m then { lineOf s n with state := .clearing } else lineOf s m :=
      lineOf_update s n m fun l => { l with state := .clearing }
    rw [e]
    by_cases hm : (lineOf s m).state = .off
    · exact Or.inr hm
    · split
      · rename_i h
        subst h
        exact Or.inl ⟨by simp, rfl⟩
      · exact Or.inl ⟨hm, rfl⟩
  case stopped n hu =>
    refine sceneLaw_of_lines (s := s) rfl rfl (fun x hx ho => ?_) p
    have hin := inUse_of_tap p.2.1 x hx
    have hne : n ≠ x.line := fun e => by
      subst e
      rw [hu] at hin
      cases hin
    have e : lineOf
        { s with
          lines := update s.lines n fun l => { l with state := .off }
          mem := s.mem.unlist fun m => m == n } x.line =
        if n = x.line then { lineOf s n with state := .off } else lineOf s x.line :=
      lineOf_update s n x.line fun l => { l with state := .off }
    rw [e, if_neg hne]
    exact ⟨ho, rfl⟩
  case ready n rest _ =>
    refine lines rfl rfl fun m => ?_
    have e : lineOf
        { s with
          lines := update s.lines n fun l => { l with state := .running, position := 0, damped := 0 }
          mem := { s.mem with clearing := rest, zeroed := 0 } } m =
        if n = m then { lineOf s n with state := .running, position := 0, damped := 0 } else lineOf s m :=
      lineOf_update s n m fun l => { l with state := .running, position := 0, damped := 0 }
    rw [e]
    by_cases hm : (lineOf s m).state = .off
    · exact Or.inr hm
    · split
      · rename_i h
        subst h
        exact Or.inl ⟨by simp, rfl⟩
      · exact Or.inl ⟨hm, rfl⟩
  case faulted ns hf =>
    refine lines rfl rfl fun m => ?_
    rw [lineOf_faulted]
    by_cases hm : (lineOf s m).state = .off
    · exact Or.inr hm
    · split
      · exact Or.inl ⟨by simp, rfl⟩
      · exact Or.inl ⟨hm, rfl⟩
  case reset =>
    refine ⟨hcl, ?_, ?_, ?_⟩
    · unfold InUseLaw
      rw [(resetState_leaves _ _ _ _ _).2.2.2.1]
      decide
    · rw [(resetState_leaves _ _ _ _ _).2.2.2.1]
      exact fun x hx => absurd hx (by simp [BankSlot.inService, Scenes.initial, Bank.initial])
    · rw [(resetState_leaves _ _ _ _ _).2.2.2.1]
      exact fun x hx => absurd hx (by simp [BankSlot.inService, Scenes.initial])
  all_goals exact p

/-! ### Trim and strain within the profile in force (R70, R73, R74) -/

theorem trimLaw_of_force {s t : State} (hc : ChangerLaw t) (hg : t.guard = s.guard)
    (hf : ∀ c, inForce t c = inForce s c) (p : TrimLaw s) : TrimLaw t := by
  refine ⟨hc, fun q => ?_, fun c => ?_⟩
  · rw [hg]
    exact p.2.1 q
  · rw [hf, hg]
    exact p.2.2 c

/-- The profile in force rests on the profiles, the changer state and the LIVE or INCOMING bank. -/
theorem inForce_of {s t : State} {c : Output} (hg : t.guard.profiles = s.guard.profiles)
    (hc : profileInForce t.changer.state t.scenes c = profileInForce s.changer.state s.scenes c) :
    inForce t c = inForce s c := by
  unfold inForce
  simp only [hg, hc]

theorem adjust_within (p : Profile) (g : GuardRec) (h : 1 ≤ p.strainLimit) :
    (g.adjust p).trim ≤ p.maxSteps ∧ (g.adjust p).strain < p.strainLimit := by
  refine ⟨Nat.min_le_right _ _, ?_⟩
  unfold GuardRec.adjust
  dsimp only
  split <;> omega

theorem roleChange_trim {s : State} (f : Role → Role) (ch : Changer) (hc : ChangerLaw (roleChange f ch s))
    (p : TrimLaw s) : TrimLaw (roleChange f ch s) := by
  have hp : (roleChange f ch s).guard.profiles = s.guard.profiles := by
    unfold roleChange Guard.adjustWhere
    dsimp only
  refine ⟨hc, fun q => by rw [hp]; exact p.2.1 q, fun c => ?_⟩
  have hf : inForce (roleChange f ch s) c = s.guard.profiles[profileInForce ch.state (s.scenes.changeRoles f) c] := by
    unfold inForce
    simp only [hp]
    rfl
  rw [hf]
  have e : (roleChange f ch s).guard.outputs[c] = _ := adjustWhere_record s.guard
    (fun c => profileInForce s.changer.state s.scenes c ≠ profileInForce ch.state (s.scenes.changeRoles f) c)
    (fun c => s.guard.profiles[profileInForce ch.state (s.scenes.changeRoles f) c]) c
  rw [e]
  by_cases hq : profileInForce s.changer.state s.scenes c = profileInForce ch.state (s.scenes.changeRoles f) c
  · simp only [hq, ne_eq, not_true_eq_false, decide_false, Bool.false_eq_true, if_false]
    have := p.2.2 c
    unfold inForce at this
    simp only [hq] at this
    exact this
  · simp only [hq, ne_eq, not_false_eq_true, decide_true, if_true]
    exact adjust_within _ _ (p.2.1 _)

theorem Move.trimLaw {s t : State} (h : Move s t) (p : TrimLaw s) : TrimLaw t := by
  have hcl : ChangerLaw t := h.changerLaw p.1
  cases h
  case guard g ht hr hm => exact ht p
  case raisedFault ns =>
    unfold raiseFault
    split <;> exact p
  case edited k hr hc hd ht =>
    refine trimLaw_of_force (s := s) hcl rfl (fun c => inForce_of rfl ?_) p
    have hp := p.1.1
    simp only [Scenes.hasRole, Bool.or_eq_true, beq_iff_eq] at hr
    have hs : s.changer.state = .steady := by
      cases e : s.changer.state
      · rfl
      · rw [e] at hp
        rcases hr with k | k <;> rw [k] at hp <;> revert hp <;> cases s.scenes.a.role <;> cases s.scenes.b.role <;> decide
      · rw [e] at hp
        rcases hr with k | k <;> rw [k] at hp <;> revert hp <;> cases s.scenes.a.role <;> cases s.scenes.b.role <;> decide
    rw [hs] at hp
    have hw : ((s.scenes.writeStaged k).withRole .live).bank = (s.scenes.withRole .live).bank := by
      unfold Scenes.writeStaged Scenes.withRole
      split
      · rename_i ha
        simp [ha]
      · rename_i ha
        have hl : s.scenes.a.role = .live := by
          revert hp
          cases ea : s.scenes.a.role <;> cases s.scenes.b.role <;> simp [rolePair, ea] at ha ⊢
        simp [hl]
    unfold profileInForce writeStaged
    dsimp only
    rw [hs]
    simp only [hw]
  case armed q l hs ht hl => exact roleChange_trim _ _ hcl p
  case disarmed => exact roleChange_trim _ _ hcl p
  case fired => exact roleChange_trim _ _ hcl p
  case switched => exact roleChange_trim _ _ hcl p
  case endedForward => exact roleChange_trim _ _ hcl p
  case endedBack => exact roleChange_trim _ _ hcl p
  case fade c hs hc hh =>
    refine trimLaw_of_force (s := s) hcl rfl (fun x => inForce_of rfl ?_) p
    show profileInForce c.state s.scenes x = _
    rw [hs, hc]
  case phases pa pb hph =>
    refine trimLaw_of_force (s := s) hcl rfl (fun x => inForce_of rfl ?_) p
    have hw : ∀ r, (({ s.scenes with
          a := { s.scenes.a with phases := pa }, b := { s.scenes.b with phases := pb } } : Scenes).withRole r).bank =
        (s.scenes.withRole r).bank := fun r => by
      unfold Scenes.withRole
      dsimp only
      split <;> rfl
    unfold profileInForce
    simp only [hw]
  case faulted => exact trimLaw_of_force (s := s) hcl rfl (fun c => inForce_of rfl rfl) p
  case reset =>
    refine ⟨hcl, fun q => ?_, fun c => ?_⟩
    · rw [(resetState_leaves _ _ _ _ _).2.2.2.2.2.1]
      simp [Guard.initial, Profile.initial]
    · unfold inForce
      rw [(resetState_leaves _ _ _ _ _).2.2.2.2.2.1]
      simp [Guard.initial, Profile.initial, GuardRec.initial]
  all_goals exact p

/-! ### The event unit (R131, R133, R134) -/

/-- The event law of the event unit alone. -/
def EventsHold (e : Events) : Prop :=
  (e.notice = .quiet → e.pendingSet = 0) ∧
    (e.guardOutputs ≠ 0 → (e.has .guardStep || e.has .guardMute || e.has .guardRelease) = true) ∧
    (e.readyLines ≠ 0 → e.has .lineReady = true) ∧
    (e.faultedLines ≠ 0 → e.has .lineFault = true) ∧
    (e.groupRefused ≠ none → e.has .groupRefused = true) ∧
    (e.commitDetail ≠ .none → e.has .commitDone = true) ∧
    48 ≤ e.holdoff ∧ e.holdoff ≤ 12240 ∧ e.holdoff % 48 = 0

/-- A flag that is set is set in every larger set. -/
theorem and_ne_zero_of_or {w : Nat} {x m k : BitVec w} (h : x &&& k ≠ 0) : (x ||| m) &&& k ≠ 0 := by
  intro e
  apply h
  apply BitVec.eq_of_getLsbD_eq
  intro i hi
  have := congrArg (·.getLsbD i) e
  simp only [BitVec.getLsbD_and, BitVec.getLsbD_or] at this ⊢
  cases hx : x.getLsbD i <;> cases hk : k.getLsbD i <;> simp_all

theorem raised_ne_zero {w : Nat} {x k : BitVec w} (h : k ≠ 0) : (x ||| k) &&& k ≠ 0 := by
  intro e
  apply h
  apply BitVec.eq_of_getLsbD_eq
  intro i hi
  have := congrArg (·.getLsbD i) e
  simp only [BitVec.getLsbD_and, BitVec.getLsbD_or] at this ⊢
  cases hx : x.getLsbD i <;> cases hk : k.getLsbD i <;> simp_all

theorem Flag.mask_ne_zero (f : Flag) : f.mask ≠ 0 := by cases f <;> decide

theorem has_raised (e : Events) (f g : Flag) (h : e.has g = true ∨ f = g) :
    ({ e with flags := e.flags ||| f.mask } : Events).has g = true := by
  unfold Events.has at h ⊢
  simp only [decide_eq_true_eq, ne_eq] at h ⊢
  rcases h with h | h
  · exact and_ne_zero_of_or h
  · subst h
    exact raised_ne_zero f.mask_ne_zero

theorem announce_events (e : Events) (n : NoticeSlot) :
    (announce e n).1 = e ∧ (e.notice = .quiet → e.pendingSet = 0) ∨ (announce e n).1 = { e with notice := .sent } := by
  unfold announce
  split
  · exact Or.inr rfl
  · rename_i h
    refine Or.inl ⟨rfl, fun hq => ?_⟩
    by_contra hp
    exact h ⟨hq, hp⟩

theorem announce_hold (e : Events) (n : NoticeSlot)
    (h : EventsHold { e with notice := .sent }) : EventsHold (announce e n).1 := by
  rcases announce_events e n with ⟨k, q⟩ | k
  · rw [k]
    exact ⟨q, h.2⟩
  · rw [k]
    exact h

/-- A raise whose detail bears on the raised flag alone keeps the event law. -/
theorem raiseWith_hold (f : Flag) (d : Events → Events) (s : State) (p : EventsHold s.events)
    (hq : (d s.events).holdoff = s.events.holdoff)
    (h1 : (d s.events).guardOutputs ≠ 0 → s.events.guardOutputs ≠ 0 ∨ f = .guardStep ∨ f = .guardMute ∨ f = .guardRelease)
    (h2 : (d s.events).readyLines ≠ 0 → s.events.readyLines ≠ 0 ∨ f = .lineReady)
    (h3 : (d s.events).faultedLines ≠ 0 → s.events.faultedLines ≠ 0 ∨ f = .lineFault)
    (h4 : (d s.events).groupRefused ≠ none → s.events.groupRefused ≠ none ∨ f = .groupRefused)
    (h5 : (d s.events).commitDetail ≠ .none → s.events.commitDetail ≠ .none ∨ f = .commitDone) :
    EventsHold (raiseWith f d s).events := by
  obtain ⟨_, p1, p2, p3, p4, p5, p6⟩ := p
  have up : ∀ g, s.events.has g = true ∨ f = g →
      ({ d s.events with flags := s.events.flags ||| f.mask } : Events).has g = true := fun g h => has_raised s.events f g h
  refine announce_hold _ _ ⟨fun h => by simp at h, fun h => ?_, fun h => ?_, fun h => ?_, fun h => ?_, fun h => ?_, ?_⟩
  · show (({ d s.events with flags := s.events.flags ||| f.mask } : Events).has .guardStep ||
      ({ d s.events with flags := s.events.flags ||| f.mask } : Events).has .guardMute ||
      ({ d s.events with flags := s.events.flags ||| f.mask } : Events).has .guardRelease) = true
    rcases h1 h with k | k | k | k
    · have := p1 k
      simp only [Bool.or_eq_true] at this ⊢
      rcases this with (q | q) | q
      · exact Or.inl (Or.inl (up _ (Or.inl q)))
      · exact Or.inl (Or.inr (up _ (Or.inl q)))
      · exact Or.inr (up _ (Or.inl q))
    · rw [up .guardStep (Or.inr k)]
      rfl
    · rw [up .guardMute (Or.inr k)]
      simp
    · rw [up .guardRelease (Or.inr k)]
      simp
  · exact up _ ((h2 h).imp p2 id)
  · exact up _ ((h3 h).imp p3 id)
  · exact up _ ((h4 h).imp p4 id)
  · exact up _ ((h5 h).imp p5 id)
  · show 48 ≤ (d s.events).holdoff ∧ (d s.events).holdoff ≤ 12240 ∧ (d s.events).holdoff % 48 = 0
    rw [hq]
    exact p6

/-- What a clear leaves of a flag not in it. -/
theorem and_cleared {x s k : BitVec 17} (h : x &&& k ≠ 0) (hk : s &&& k = 0) : (x &&& ~~~(x &&& s)) &&& k ≠ 0 := by
  intro e
  apply h
  apply BitVec.eq_of_getLsbD_eq
  intro i hi
  have a := congrArg (·.getLsbD i) e
  have b := congrArg (·.getLsbD i) hk
  simp only [BitVec.getLsbD_and, BitVec.getLsbD_not, hi, decide_true, Bool.true_and] at a b ⊢
  cases hx : x.getLsbD i <;> cases hk : k.getLsbD i <;> cases hs : s.getLsbD i <;> simp_all

theorem clear_hold (e : Events) (sel : BitVec 17) (p : EventsHold e) : EventsHold (e.clear sel) := by
  obtain ⟨_, p1, p2, p3, p4, p5, p6⟩ := p
  have keep : ∀ g : Flag, e.has g = true → sel &&& g.mask = 0 → (e.clear sel).has g = true := by
    intro g hg hz
    unfold Events.has at hg ⊢
    simp only [decide_eq_true_eq, ne_eq] at hg ⊢
    exact and_cleared hg hz
  have part : ∀ k : BitVec 17, sel &&& guardMask = 0 → k &&& guardMask = k →
      sel &&& k = 0 := by
    intro k hz hk
    rw [← hk]
    apply BitVec.eq_of_getLsbD_eq
    intro i hi
    have b := congrArg (·.getLsbD i) hz
    simp only [BitVec.getLsbD_and] at b ⊢
    cases hk : k.getLsbD i <;> cases hs : sel.getLsbD i <;> simp_all
  refine ⟨fun h => NoticeState.noConfusion h, fun h => ?_, fun h => ?_, fun h => ?_, fun h => ?_, fun h => ?_, p6⟩
  · have hz : sel &&& guardMask = 0 := by
      by_contra hn
      apply h
      show (if sel &&& guardMask ≠ 0 then 0 else e.guardOutputs) = 0
      rw [if_pos hn]
    have hg : e.guardOutputs ≠ 0 := by
      intro hn
      apply h
      show (if sel &&& guardMask ≠ 0 then 0 else e.guardOutputs) = 0
      rw [hn]
      simp
    have := p1 hg
    simp only [Bool.or_eq_true] at this ⊢
    rcases this with (q | q) | q
    · exact Or.inl (Or.inl (keep _ q (part _ hz (by decide))))
    · exact Or.inl (Or.inr (keep _ q (part _ hz (by decide))))
    · exact Or.inr (keep _ q (part _ hz (by decide)))
  · have hd : (e.clear sel).readyLines =
        if sel &&& Flag.lineReady.mask ≠ 0 then 0 else e.readyLines := rfl
    rw [hd] at h
    split at h
    · exact absurd rfl h
    · rename_i hz
      exact keep _ (p2 h) (by simpa using hz)
  · have hd : (e.clear sel).faultedLines =
        if sel &&& Flag.lineFault.mask ≠ 0 then 0 else e.faultedLines := rfl
    rw [hd] at h
    split at h
    · exact absurd rfl h
    · rename_i hz
      exact keep _ (p3 h) (by simpa using hz)
  · have hd : (e.clear sel).groupRefused =
        if sel &&& Flag.groupRefused.mask ≠ 0 then none else e.groupRefused := rfl
    rw [hd] at h
    split at h
    · exact absurd rfl h
    · rename_i hz
      exact keep _ (p4 h) (by simpa using hz)
  · have hd : (e.clear sel).commitDetail =
        if sel &&& Flag.commitDone.mask ≠ 0 then .none else e.commitDetail := rfl
    rw [hd] at h
    split at h
    · exact absurd rfl h
    · rename_i hz
      exact keep _ (p5 h) (by simpa using hz)

theorem expire_hold (e : Events) (n : NoticeSlot) (p : EventsHold e) : EventsHold (expire e n).1 := by
  unfold expire
  split
  · exact ⟨fun h => by simp at h, p.2⟩
  · rename_i h
    exact ⟨fun _ => not_not.1 h, p.2⟩

theorem Move.eventLaw {s t : State} (h : Move s t) (p : EventLaw s) : EventLaw t := by
  have hp : EventsHold s.events := p
  show EventsHold t.events
  cases h
  case raised f =>
    exact raiseWith_hold f id s hp rfl Or.inl Or.inl Or.inl Or.inl Or.inl
  case raisedGuard f c hf => exact raiseWith_hold f _ s hp rfl (fun _ => Or.inr hf) Or.inl Or.inl Or.inl Or.inl
  case raisedReady n => exact raiseWith_hold _ _ s hp rfl Or.inl (fun _ => Or.inr rfl) Or.inl Or.inl Or.inl
  case raisedFault ns =>
    unfold raiseFault
    split
    · exact hp
    · exact raiseWith_hold _ _ s hp rfl Or.inl Or.inl (fun _ => Or.inr rfl) Or.inl Or.inl
  case raisedRefused c v r => exact raiseWith_hold _ _ s hp rfl Or.inl Or.inl Or.inl (fun _ => Or.inr rfl) Or.inl
  case raisedDone d => exact raiseWith_hold _ _ s hp rfl Or.inl Or.inl Or.inl Or.inl (fun _ => Or.inr rfl)
  case cleared k => exact clear_hold _ k hp
  case enabled k => exact announce_hold _ _ ⟨fun h => by simp at h, hp.2⟩
  case expired => exact expire_hold _ _ hp
  case timed timer fresh => exact hp
  case holdoff ms hm =>
    obtain ⟨p0, p1, p2, p3, p4, p5, _⟩ := hp
    exact ⟨p0, p1, p2, p3, p4, p5, by simp; omega, by simp; omega, by simp⟩
  case reset =>
    rw [(resetState_leaves _ _ _ _ _).2.2.2.2.2.2.2.2.1]
    unfold EventsHold
    decide
  all_goals exact hp

/-! ### Capture recorder, taps and phases (R24, R37, R146) -/

theorem initial_capture : Capture.initial.inRange := by
  unfold Capture.inRange SetUp.inRange
  decide

theorem Move.captureLaw {s t : State} (h : Move s t) (p : CaptureLaw s) : CaptureLaw t := by
  have k : t.capture = s.capture ∨ t.capture.inRange := by
    cases h
    case capture c hc => exact Or.inr (hc p)
    case raisedFault ns =>
      unfold raiseFault
      split <;> exact Or.inl rfl
    case reset => exact Or.inr initial_capture
    all_goals exact Or.inl rfl
  unfold CaptureLaw
  exact k.elim (fun e => e ▸ p) id

/-- A bank keeps its phases in range through a change of role that the changer makes (R37). -/
theorem toRole_inRange (b : BankSlot) (r : Role) (h : b.inRange)
    (hr : (r = .armed → b.role = .staged ∨ b.role = .armed) ∧
      (r = .live ∨ r = .outgoing → b.role ≠ .staged) ∧ (r = .outgoing → b.role ≠ .armed)) : (b.toRole r).inRange := by
  obtain ⟨h1, h2, h3, h4⟩ := h
  have start : ∀ x ∈ b.bank.taps.zip (startPhases b.bank.taps), ∀ m ∈ x.1.modulation, x.2 < m.period := by
    have all : ∀ ts : List Tap, (∀ t ∈ ts, t.inRange) →
        ∀ x ∈ ts.zip (startPhases ts), ∀ m ∈ x.1.modulation, x.2 < m.period := by
      intro ts
      induction ts with
      | nil => exact fun _ x hx => by simp at hx
      | cons t ts ih =>
        intro ht x hx m hm
        rcases List.mem_cons.1 hx with hx | hx
        · subst hx
          have e : t.modulation = some m := hm
          dsimp only
          rw [e]
          exact ((ht t List.mem_cons_self).2.2 m hm).2.2.2.2
        · exact ih (fun t h => ht t (List.mem_cons_of_mem _ h)) x hx m hm
    exact all _ h1
  unfold BankSlot.toRole
  refine ⟨h1, ?_, ?_, ?_⟩
  · intro e
    dsimp only at e ⊢
    rcases e with e | e
    · rw [if_pos e]
    · rw [if_neg (by rw [e]; simp), if_neg (by rw [e]; simp)]
      exact h2 (hr.1 e)
  · intro a c
    dsimp only at a c ⊢
    rw [if_neg a]
    split
    · simp [startPhases]
    · rename_i hn
      simp only [not_or, not_and] at hn
      have k : r = .live ∨ r = .outgoing := by
        cases r <;> simp_all
      refine h3 (hr.2.1 k) ?_
      rcases k with k | k
      · exact hn.2 k
      · exact hr.2.2 k
  · dsimp only
    split
    · simp
    · split
      · exact start
      · exact h4

theorem roleChange_phases (f : Role → Role) (c : Changer) (s : State)
    (hf : ∀ r, (f r = .armed → r = .staged ∨ r = .armed) ∧ (f r = .live ∨ f r = .outgoing → r ≠ .staged) ∧
      (f r = .outgoing → r ≠ .armed)) (p : PhaseLaw s) : PhaseLaw (roleChange f c s) :=
  ⟨toRole_inRange _ _ p.1 (hf _), toRole_inRange _ _ p.2 (hf _)⟩

theorem Move.phaseLaw {s t : State} (h : Move s t) (p : PhaseLaw s) : PhaseLaw t := by
  have k : t.scenes = s.scenes ∨ PhaseLaw t := by
    cases h
    case phases pa pb hp => exact Or.inr (hp p)
    case edited k hr hc hd ht =>
      refine Or.inr ?_
      unfold writeStaged Scenes.writeStaged PhaseLaw
      have k1 := ht p
      have one : ∀ b : BankSlot, b.role = .staged → b.inRange → ({ b with bank := k } : BankSlot).inRange := by
        intro b hb h
        have e := h.2.1 (Or.inl hb)
        refine ⟨k1, fun _ => e, fun a => absurd hb a, ?_⟩
        show ∀ x ∈ k.taps.zip b.phases, _
        rw [e]
        simp
      by_cases ha : s.scenes.a.role = .staged
      · simp only [if_pos ha]
        exact ⟨one _ ha p.1, p.2⟩
      · simp only [if_neg ha]
        simp only [Scenes.hasRole, Bool.or_eq_true, beq_iff_eq] at hr
        exact ⟨p.1, one _ (hr.resolve_left ha) p.2⟩
    case raisedFault ns =>
      unfold raiseFault
      split <;> exact Or.inl rfl
    case reset =>
      refine Or.inr ?_
      unfold PhaseLaw BankSlot.inRange
      rw [(resetState_leaves _ _ _ _ _).2.2.2.1]
      unfold Scenes.initial Bank.initial
      simp
    case armed => exact Or.inr (roleChange_phases _ _ _ (fun r => by cases r <;> simp [Role.arm]) p)
    case disarmed => exact Or.inr (roleChange_phases _ _ _ (fun r => by cases r <;> simp [Role.disarm]) p)
    case fired => exact Or.inr (roleChange_phases _ _ _ (fun r => by cases r <;> simp [Role.fire]) p)
    case switched => exact Or.inr (roleChange_phases _ _ _ (fun r => by cases r <;> simp [Role.switch]) p)
    case endedForward => exact Or.inr (roleChange_phases _ _ _ (fun r => by cases r <;> simp [Role.endForward]) p)
    case endedBack => exact Or.inr (roleChange_phases _ _ _ (fun r => by cases r <;> simp [Role.endBack]) p)
    all_goals exact Or.inl rfl
  rcases k with k | k
  · unfold PhaseLaw
    rw [k]
    exact p
  · exact k

end Sys2Proof.Machine
end

