-- ==== Sys2Proof/Laws/Orders.lean ====
section
/-! SUPPORT. What an order command answers, said once for all verbs: where the order reaches its owner, and where a test ahead
of the owner refuses or drops it. -/

namespace Sys2Proof.Machine

theorem returnsFull_false {s : State} (h : s.arbiter.returns.length < 8) : returnsFull s = false := by
  exact decide_eq_false (Nat.not_le.mpr h)

theorem returnsFull_true {s : State} (h : 8 ≤ s.arbiter.returns.length) : returnsFull s = true := by
  exact decide_eq_true h

/-! ### Where orders do not reach the part -/

theorem ordersReach_iff {s : State} : ordersReach s = true ↔ OrdersReach s := by
  simp [ordersReach, OrdersReach, wordGiven, and_assoc]

/-- An order command comes about only where orders reach the part. -/
theorem orderCommand_unreached (v : Verb) (owner : Order → State → Reply × State) (o : Order) {s : State}
    (h : ¬OrdersReach s) : orderCommand v owner o s = .next s := if_neg (mt ordersReach_iff.mp h)

theorem faultAhead_unreached (b : Bool) (o : Order) {s : State} (h : ¬OrdersReach s) : faultAhead b o s = s :=
  if_neg fun k => h (ordersReach_iff.mp k.2)

/-- A part held in reset is reached by no order. -/
theorem OrdersReach.not_held {s : State} (h : s.pins.resetHeld = true) : ¬OrdersReach s := fun k => by simp [k.1] at h

/-! ### A part held in reset -/

/-- Nothing comes about in a part held in reset (R166). -/
theorem orderCommand_held (v : Verb) (owner : Order → State → Reply × State) (o : Order) {s : State}
    (h : s.pins.resetHeld = true) : orderCommand v owner o s = .next s :=
  orderCommand_unreached v owner o (OrdersReach.not_held h)

theorem framePeriod_held (c : State → Bool) (f : State → State) {s : State} (h : s.pins.resetHeld = true) :
    framePeriod c f s = .next s := if_pos (Or.inl h)

theorem eventCommand_held (due : State → Bool) (effect : State → State) {s : State} (h : s.pins.resetHeld = true) :
    eventCommand due effect s = .next s := if_neg (by simp [h])

theorem faultAhead_held (b : Bool) (o : Order) {s : State} (h : s.pins.resetHeld = true) : faultAhead b o s = s :=
  faultAhead_unreached b o (OrdersReach.not_held h)

/-- An event that is due is taken. -/
theorem eventCommand_due {due : State → Bool} (effect : State → State) {s : State} (h : s.pins.resetHeld = false)
    (d : due s = true) : eventCommand due effect s = .next (effect s) := if_pos ⟨h, d⟩

/-- A frame period whose condition holds on the closed state is handled. -/
theorem framePeriod_handled {c : State → Bool} (f : State → State) {s : State} (h : s.pins.resetHeld = false)
    (k : c (endPeriod s) = true) (m : memoryExists (endPeriod s) = true) :
    framePeriod c f s = .next (f (endPeriod s)) := by
  unfold framePeriod
  rw [if_neg (by simp [h, k]), if_neg (by simp [m])]

/-! ### Orders -/

/-- A direct order that reaches its owner: the owner's answer is queued on the owner's state. -/
theorem orderCommand_direct {v : Verb} (owner : Order → State → Reply × State) {o : Order} {s : State}
    (h : DirectReady v o s) :
    orderCommand v owner o s = .next (returned v o (owner o (opened v o s)).1 (owner o (opened v o s)).2) := by
  obtain ⟨hr, hd, hf, hl, hg⟩ := h
  unfold orderCommand perform performDirect
  rw [if_pos (ordersReach_iff.mpr hr)]
  simp only [hd]
  rw [if_neg (by rw [show returnsFull (consume v.sec v.num o s) = returnsFull s from rfl, returnsFull_false hf]; simp)]
  have e : answerDirect v owner o (opened v o s) = owner o (opened v o s) := by
    unfold answerDirect
    rw [if_neg (by simp [hl]), if_neg]
    rintro ⟨g, n⟩
    apply n
    have p := hg g
    show protectionBefore v o s.decoder.protection = Protection.open_
    rw [p]
    unfold protectionBefore
    split <;> rfl
  show Host.Outcome.next (enqueue v.sec v.num o.tag (v.resets (answerDirect v owner o (opened v o s)).1)
    (answerDirect v owner o (opened v o s)).1 (answerDirect v owner o (opened v o s)).2) = _
  rw [e]
  rfl

/-- A direct order that meets a full return queue is dropped. -/
theorem orderCommand_full {v : Verb} (owner : Order → State → Reply × State) {o : Order} {s : State}
    (hr : OrdersReach s) (hd : o.via = .direct) (hf : 8 ≤ s.arbiter.returns.length) :
    orderCommand v owner o s = .next (raise .orderDropped (heard v o s)) := by
  unfold orderCommand perform performDirect
  rw [if_pos (ordersReach_iff.mpr hr)]
  simp only [hd]
  rw [if_pos (by rw [show returnsFull (consume v.sec v.num o s) = returnsFull s from rfl, returnsFull_true hf])]
  rfl

/-- A direct order of a wrong body length is refused LENGTH. -/
theorem orderCommand_length {v : Verb} (owner : Order → State → Reply × State) {o : Order} {s : State}
    (hr : OrdersReach s) (hd : o.via = .direct) (hf : s.arbiter.returns.length < 8)
    (hl : v.lengthOk o = false) :
    orderCommand v owner o s = .next (returned v o (Reply.refusal .length o.body.length) (opened v o s)) := by
  unfold orderCommand perform performDirect
  rw [if_pos (ordersReach_iff.mpr hr)]
  simp only [hd]
  rw [if_neg (by rw [show returnsFull (consume v.sec v.num o s) = returnsFull s from rfl, returnsFull_false hf]; simp)]
  have e : answerDirect v owner o (opened v o s) = refuse .length o.body.length (opened v o s) := by
    unfold answerDirect
    rw [if_pos hl]
  show Host.Outcome.next (enqueue v.sec v.num o.tag (v.resets (answerDirect v owner o (opened v o s)).1)
    (answerDirect v owner o (opened v o s)).1 (answerDirect v owner o (opened v o s)).2) = _
  rw [e]
  rfl

/-- A direct order of a protected verb is refused PROTECTED unless protection is OPEN. -/
theorem orderCommand_protected {v : Verb} (owner : Order → State → Reply × State) {o : Order} {s : State}
    (hr : OrdersReach s) (hd : o.via = .direct) (hf : s.arbiter.returns.length < 8)
    (hl : v.lengthOk o = true) (hg : v.guarded = true) (hu : v ≠ Verb.unlock) (hp : s.decoder.protection ≠ .open_) :
    orderCommand v owner o s = .next (returned v o (Reply.refusal .protection 0) (opened v o s)) := by
  have hb : protectionBefore v o s.decoder.protection = .closed := by
    unfold protectionBefore
    rw [if_neg (by simp [hu])]
    revert hp
    cases s.decoder.protection <;> simp [Protection.break_]
  unfold orderCommand perform performDirect
  rw [if_pos (ordersReach_iff.mpr hr)]
  simp only [hd]
  rw [if_neg (by rw [show returnsFull (consume v.sec v.num o s) = returnsFull s from rfl, returnsFull_false hf]; simp)]
  have e : answerDirect v owner o (opened v o s) = refuse .protection 0 (opened v o s) := by
    unfold answerDirect
    rw [if_neg (by simp [hl]), if_pos]
    · show refuse .protection (protectionBefore v o s.decoder.protection).code _ = _
      rw [hb]
      rfl
    · refine ⟨hg, ?_⟩
      show protectionBefore v o s.decoder.protection ≠ _
      rw [hb]
      decide
  show Host.Outcome.next (enqueue v.sec v.num o.tag (v.resets (answerDirect v owner o (opened v o s)).1)
    (answerDirect v owner o (opened v o s)).1 (answerDirect v owner o (opened v o s)).2) = _
  rw [e]
  rfl

/-- A group order of a group-capable verb that reaches its owner. -/
theorem orderCommand_group {v : Verb} (owner : Order → State → Reply × State) {o : Order} {s : State}
    (h : GroupReady v o s) (hg : v.groupable = true) :
    orderCommand v owner o s =
      .next
        (if (owner o (heard v o s)).1.taken then (owner o (heard v o s)).2
         else raiseRefused v.sec v.num (owner o (heard v o s)).1.result (owner o (heard v o s)).2) := by
  obtain ⟨hr, hd, hl⟩ := h
  unfold orderCommand perform performGroup
  rw [if_pos (ordersReach_iff.mpr hr)]
  simp only [hd]
  have e : answerGroup v owner o (heard v o s) = owner o (heard v o s) := by
    unfold answerGroup
    rw [if_neg (by simp [hg]), if_neg (by simp [hl])]
  show Host.Outcome.next (if (answerGroup v owner o (heard v o s)).1.taken = true then
    (answerGroup v owner o (heard v o s)).2 else raiseRefused v.sec v.num
    (answerGroup v owner o (heard v o s)).1.result (answerGroup v owner o (heard v o s)).2) = _
  rw [e]

/-- A group order of a verb that is not group-capable is refused STATE. -/
theorem orderCommand_notGroup {v : Verb} (owner : Order → State → Reply × State) {o : Order} {s : State}
    (hr : OrdersReach s) (hd : o.via = .group) (hg : v.groupable = false) :
    orderCommand v owner o s = .next (raiseRefused v.sec v.num .state (heard v o s)) := by
  unfold orderCommand perform performGroup
  rw [if_pos (ordersReach_iff.mpr hr)]
  simp only [hd]
  have e : answerGroup v owner o (consume v.sec v.num o s) = refuse .state 0 (heard v o s) := by
    unfold answerGroup
    rw [if_pos hg]
    rfl
  rw [e]
  rfl

/-- A group order of a wrong body length is refused LENGTH. -/
theorem orderCommand_groupLength {v : Verb} (owner : Order → State → Reply × State) {o : Order} {s : State}
    (hr : OrdersReach s) (hd : o.via = .group) (hg : v.groupable = true) (hl : v.lengthOk o = false) :
    orderCommand v owner o s = .next (raiseRefused v.sec v.num .length (heard v o s)) := by
  unfold orderCommand perform performGroup
  rw [if_pos (ordersReach_iff.mpr hr)]
  simp only [hd]
  have e : answerGroup v owner o (consume v.sec v.num o s) = refuse .length o.body.length (heard v o s) := by
    unfold answerGroup
    rw [if_neg (by simp [hg]), if_pos hl]
    rfl
  rw [e]
  rfl

/-! ### What every owner keeps -/

/-- What an owner's answer keeps: the devices, the pins, the ports, the period in progress but for its marks, the queue. -/
structure Fair (s : State) (a : Reply × State) : Prop where
  device : a.2.device = s.device
  pins : a.2.pins = s.pins
  pending : a.2.pending = s.pending
  refused : a.1.taken = false → a.2 = s

/-- An owner's answer is fair and leaves the decoder. -/
structure FairD (s : State) (a : Reply × State) : Prop extends Fair s a where
  decoder : a.2.decoder = s.decoder

theorem FairD.same {s : State} {a : Reply × State} (h : a.2 = s) : FairD s a :=
  ⟨⟨by rw [h], by rw [h], by rw [h], fun _ => h⟩, by rw [h]⟩

theorem FairD.refuse (r : Result) (d : Nat) (s : State) : FairD s (refuse r d s) := .same rfl

theorem FairD.reads (m : List Word) (s : State) : FairD s (reads m s) := .same rfl

theorem FairD.done {s t : State} (d : Nat) (h1 : t.device = s.device) (h2 : t.pins = s.pins)
    (h3 : t.pending = s.pending) (h4 : t.decoder = s.decoder) : FairD s (done d t) :=
  ⟨⟨h1, h2, h3, fun h => absurd h (by simp [Machine.done, Reply.taken])⟩, h4⟩

theorem FairD.readsOf {s t : State} (m : List Word) (h1 : t.device = s.device) (h2 : t.pins = s.pins)
    (h3 : t.pending = s.pending) (h4 : t.decoder = s.decoder) : FairD s (Machine.reads m t) :=
  ⟨⟨h1, h2, h3, fun h => absurd h (by simp [Machine.reads, Reply.taken])⟩, h4⟩

theorem FairD.accepted {s t : State} (h1 : t.device = s.device) (h2 : t.pins = s.pins)
    (h3 : t.pending = s.pending) (h4 : t.decoder = s.decoder) : FairD s (accepted t) :=
  ⟨⟨h1, h2, h3, fun h => absurd h (by simp [Machine.accepted, Reply.taken])⟩, h4⟩

theorem causesChanged_keeps (s : State) :
    (causesChanged s).device = s.device ∧ (causesChanged s).pins = s.pins ∧ (causesChanged s).pending = s.pending ∧
      (causesChanged s).decoder = s.decoder ∧ (causesChanged s).link = s.link ∧ (causesChanged s).events = s.events ∧
      (causesChanged s).changer = s.changer ∧ (causesChanged s).scenes = s.scenes ∧ (causesChanged s).lines = s.lines ∧
      (causesChanged s).maps = s.maps ∧ (causesChanged s).mem = s.mem ∧ (causesChanged s).slot = s.slot ∧
      (causesChanged s).capture = s.capture ∧ (causesChanged s).checks = s.checks := by
  unfold causesChanged
  split
  · exact ⟨rfl, rfl, rfl, rfl, rfl, rfl, rfl, rfl, rfl, rfl, rfl, rfl, rfl, rfl⟩
  · split <;> exact ⟨rfl, rfl, rfl, rfl, rfl, rfl, rfl, rfl, rfl, rfl, rfl, rfl, rfl, rfl⟩

theorem placeAndClear_fair (n : Line) (s : State) : FairD s (placeAndClear n s) := by
  unfold placeAndClear
  split
  · exact .refuse _ _ _
  · split
    · exact .refuse _ _ _
    · exact .accepted rfl rfl rfl rfl

theorem editing_fair {owner : Order → State → Reply × State} (h : ∀ o s, FairD s (owner o s)) (o : Order) (s : State) :
    FairD s (editing owner o s) := by
  unfold editing
  split
  · exact h o s
  · exact .refuse _ _ _

/-- Every owner but those of UNLOCK, LOCK and SET-ADDRESS is fair and leaves the decoder. -/
theorem ownerOf_fair (c v : Nat) (x : Verb × (Order → State → Reply × State)) (h : ownerOf c v = some x)
    (hu : x.1 ≠ Verb.unlock) (hl : x.1 ≠ Verb.lock) (ha : x.1 ≠ Verb.setAddress) (o : Order) (s : State) :
    FairD s (x.2 o s) := by
  unfold ownerOf at h
  split at h
  all_goals cases h
  all_goals first
    | exact absurd rfl hu
    | exact absurd rfl hl
    | exact absurd rfl ha
    | skip
  all_goals try refine editing_fair (fun o s => ?_) o s
  all_goals try dsimp only
  all_goals first
    | exact .same rfl
    | exact .done _ rfl rfl rfl rfl
    | (unfold silenceOwner
       exact .done _ (causesChanged_keeps _).1 (causesChanged_keeps _).2.1 (causesChanged_keeps _).2.2.1
         (causesChanged_keeps _).2.2.2.1)
    | (unfold resumeOwner
       exact .done _ (causesChanged_keeps _).1 (causesChanged_keeps _).2.1 (causesChanged_keeps _).2.2.1
         (causesChanged_keeps _).2.2.2.1)
    | exact .same (readPart_same _ _ _ _ _ _)
    | skip
  all_goals first
    | unfold goOwner | unfold standbyOwner | unfold sweepOwner | unfold writeInMapOwner | unfold writeOutMapOwner
    | unfold writeWindowOwner | unfold writeFeedOwner | unfold startOwner | unfold stopOwner | unfold restartOwner
    | unfold writeHeaderOwner | unfold writeOutputOwner | unfold appendTapOwner | unfold replaceTapOwner
    | unfold truncateOwner | unfold copyLiveOwner | unfold readBankOwner | unfold commitOwner | unfold cancelOwner
    | unfold revertOwner | unfold writeProfileOwner | unfold readProfileOwner | unfold readGuardOwner
    | unfold releaseOwner | unfold clearEventsOwner | unfold readAndClearOwner | unfold writeEnablesOwner
    | unfold writeHoldoffOwner | unfold writeModeOwner | unfold setUpOwner | unfold armOwner
    | unfold captureTriggerOwner | unfold captureStopOwner | unfold readSamplesOwner
  all_goals try dsimp only
  all_goals repeat' split
  all_goals first
    | exact .refuse _ _ _
    | exact .reads _ _
    | exact .done _ rfl rfl rfl rfl
    | exact .accepted rfl rfl rfl rfl
    | exact placeAndClear_fair _ _
    | exact .same (readPart_same _ _ _ _ _ _)
    | exact .readsOf _ rfl rfl rfl rfl

/-- The owners of UNLOCK, LOCK and SET-ADDRESS change the decoder alone. -/
theorem decoderOwner_fair (o : Order) (s : State) :
    ((unlockOwner o s).2 = withProtection (unlockOwner o s).2.decoder.protection s ∧
      ((unlockOwner o s).1.taken = false → (unlockOwner o s).2 = withProtection .closed s)) ∧
    ((lockOwner o s).2 = withProtection .closed s ∧ (lockOwner o s).1.taken = true) ∧ Fair s (setAddressOwner o s) ∧
    (setAddressOwner o s).2.decoder.protection = s.decoder.protection := by
  refine ⟨?_, ⟨rfl, rfl⟩, ?_⟩
  · unfold unlockOwner
    dsimp only
    split
    · exact ⟨rfl, fun h => absurd h (by simp [done, Reply.taken])⟩
    · rename_i h
      simp only [ne_eq, not_not] at h
      split <;> exact ⟨rfl, fun _ => by rw [h]; rfl⟩
  · unfold setAddressOwner
    split
    · exact ⟨(FairD.refuse _ _ _).toFair, rfl⟩
    · exact ⟨⟨rfl, rfl, rfl, fun h => absurd h (by simp [done, Reply.taken])⟩, rfl⟩

/-! ### Order commands -/

/-- A command of an assigned verb is that verb's order, executed by the verb's owner on the state it meets. -/
theorem command_owner {c : Instr} {v : Verb} {o : Order} (hv : commandVerb c = some v) (ho : c.order = some o) :
    ∃ owner,
      (∀ s, exec c s = orderCommand v owner o (met c s)) ∧ ownerOf v.sec.toNat v.num.toNat = some (v, owner) := by
  cases c <;> simp only [commandVerb, Instr.order, Option.some.injEq, reduceCtorEq] at hv ho <;>
    subst hv <;> subst ho <;> exact ⟨_, fun s => rfl, rfl⟩

theorem met_keeps (c : Instr) (s : State) :
    (met c s).pins = s.pins ∧ (met c s).decoder = s.decoder ∧ (met c s).arbiter = s.arbiter ∧
      (met c s).device = s.device ∧ (met c s).link = s.link ∧ (met c s).begun = s.begun := by
  have k : ∀ b o, (faultAhead b o s).pins = s.pins ∧ (faultAhead b o s).decoder = s.decoder ∧
      (faultAhead b o s).arbiter = s.arbiter ∧ (faultAhead b o s).device = s.device ∧
      (faultAhead b o s).link = s.link ∧ (faultAhead b o s).begun = s.begun := by
    intro b o
    unfold faultAhead takeFaults
    split
    · split
      · simp only [makeFaulted, raiseFault]
        split <;> simp
      · simp
    · simp
  cases c <;> first | exact k _ _ | exact ⟨rfl, rfl, rfl, rfl, rfl, rfl⟩

/-- A word holds the number it is made from. -/
theorem word_toNat (n : Nat) (h : n < 2 ^ 32) : (word n).toNat = n := by
  unfold word
  rw [BitVec.toNat_ofNat, Nat.mod_eq_of_lt h]

end Sys2Proof.Machine
end

