-- ==== Sys2Proof/Laws/Frames.lean ====
section
/-! SUPPORT. What a frame period does, operation by operation: what the engine and the memory controller leave alone, what
the rest of a frame period's handling leaves of the receiver, and the frames that the node builds (R40, R102, R109, R110). -/

namespace Sys2Proof.Machine

/-! ### What serving the memory and the engine leave alone -/

/-- What the engine and the memory controller change: lines, memory, guard records, events with their slot, checks, and the
model's counter. Flags are only gained. -/
structure Served (s t : State) : Prop where
  same : t =
    { s with
      lines := t.lines, mem := t.mem, device := t.device, guard := t.guard, events := t.events, slot := t.slot
      checks := t.checks, fresh := t.fresh }
  profiles : t.guard.profiles = s.guard.profiles
  flags : ∀ k, s.events.flags.getLsbD k = true → t.events.flags.getLsbD k = true

theorem Served.none (s : State) : Served s s := ⟨rfl, rfl, fun _ h => h⟩

/-- A change that raises no flag. -/
theorem Served.quietly (s : State) (lines : Vector LineRec 64) (mem : MemCtl) (device : Device) (guard : Guard)
    (checks : Checks) (fresh : Nat) (h : guard.profiles = s.guard.profiles) :
    Served s { s with lines, mem, device, guard, checks, fresh } := ⟨rfl, h, fun _ k => k⟩

theorem Served.and {s t u : State} (a : Served s t) (b : Served t u) : Served s u where
  same := by
    have h := b.same
    rw [a.same] at h
    exact h
  profiles := b.profiles.trans a.profiles
  flags := fun k h => b.flags k (a.flags k h)

/-- What `Served` leaves alone, item by item. -/
theorem Served.leaves {s t : State} (h : Served s t) :
    t.link = s.link ∧ t.maps = s.maps ∧ t.scenes = s.scenes ∧ t.changer = s.changer ∧ t.capture = s.capture ∧
      t.decoder = s.decoder ∧ t.arbiter = s.arbiter ∧ t.node = s.node ∧ t.pins = s.pins ∧ t.sent = s.sent ∧
      t.period = s.period ∧ t.begun = s.begun ∧ t.pending = s.pending := by
  rw [h.same]
  exact ⟨rfl, rfl, rfl, rfl, rfl, rfl, rfl, rfl, rfl, rfl, rfl, rfl, rfl⟩

theorem announce_flags (e : Events) (n : NoticeSlot) : (announce e n).1.flags = e.flags := by
  unfold announce
  split <;> rfl

/-- The flags after a raise (R132). -/
theorem raiseWith_flags (f : Flag) (d : Events → Events) (s : State) :
    (raiseWith f d s).events.flags = s.events.flags ||| f.mask := announce_flags _ _

theorem raise_flags (f : Flag) (s : State) : (raise f s).events.flags = s.events.flags ||| f.mask :=
  raiseWith_flags f id s

/-- The bit of a flag in its mask. -/
theorem mask_number (f : Flag) : f.mask.getLsbD f.number = true := by cases f <;> decide

theorem raiseWith_served (f : Flag) (d : Events → Events) (s : State) : Served s (raiseWith f d s) :=
  ⟨rfl, rfl, fun k h => by rw [raiseWith_flags, BitVec.getLsbD_or, h]; rfl⟩

theorem recordCheck_served (s : State) (c : Check) : Served s (recordCheck s c) := by
  unfold recordCheck raiseIf
  split
  · exact (Served.quietly s s.lines s.mem s.device s.guard (s.checks.take c) s.fresh rfl).and (raiseWith_served _ _ _)
  · exact Served.quietly s s.lines s.mem s.device s.guard (s.checks.take c) s.fresh rfl

theorem Served.fold {α : Type} {f : State → α → State} (h : ∀ s a, Served s (f s a)) (l : List α) (s : State) :
    Served s (l.foldl f s) := by
  induction l generalizing s with
  | nil => exact .none s
  | cons a l ih => exact (h s a).and (ih _)

theorem recordChecks_served (cs : List Check) (s : State) : Served s (recordChecks cs s) := by
  unfold recordChecks
  split
  · exact .fold recordCheck_served _ _
  · exact (Served.quietly s s.lines s.mem s.device s.guard s.checks (s.fresh + 1) rfl).and
      (.fold recordCheck_served _ _)

theorem makeFaulted_served (ns : List Line) (s : State) : Served s (makeFaulted ns s) := by
  unfold makeFaulted raiseFault
  refine (Served.quietly s
    (Vector.ofFn fun n => if n ∈ ns then { s.lines[n] with state := .faulted } else s.lines[n])
    (s.mem.unlist fun n => decide (n ∈ ns)) s.device s.guard s.checks s.fresh rfl).and ?_
  split
  · exact .none _
  · exact raiseWith_served _ _ _

theorem commitServe_served (v : Serve) (s : State) : Served s (commitServe v s) := by
  unfold commitServe
  refine (Served.quietly s s.lines { s.mem with present := v.present, corrected := v.corrected } v.device s.guard
    s.checks s.fresh rfl).and ?_
  exact (Served.fold (fun s _ => makeFaulted_served _ s) _ _).and (recordChecks_served _ _)

theorem clearingStep_served (head : Option Line) (seq : Seq) (s : State) : Served s (clearingStep head seq s) := by
  unfold clearingStep
  split
  · split
    · refine Served.and ?_ (commitServe_served _ _)
      exact Served.quietly s s.lines { s.mem with zeroed := s.mem.zeroed + 64 } s.device s.guard s.checks s.fresh rfl
    · exact .none s
  · exact .none s

theorem sweepStep_served (seq : Seq) (s : State) : Served s (sweepStep seq s) := by
  unfold sweepStep overMem
  split
  · exact .none s
  · split
    · generalize hk : commitServe (sweepServed seq s).1 s = u
      have k : Served s u := hk ▸ commitServe_served _ _
      exact k.and (Served.quietly u u.lines (u.mem.sweepResult (sweepServed seq s).2) u.device u.guard u.checks u.fresh rfl)
    · exact Served.quietly s s.lines s.mem.sweepOn s.device s.guard s.checks s.fresh rfl

theorem afterReads_served (s : State) (seq : Seq) (r : FrameReads) :
    Served { s with scenes := s.scenes.advance } (afterReads s seq r) := by
  unfold afterReads
  have hg : (if countsForGuard s then guardMeasured s r else s.guard).profiles = s.guard.profiles := by
    by_cases hc : countsForGuard s = true
    · rw [if_pos hc]
      unfold guardMeasured
      rfl
    · rw [if_neg hc]
  generalize writeFeeds s.lines r.feeds r.served = v
  generalize linesFed s.lines r.feeds = ls
  generalize (if countsForGuard s then guardMeasured s r else s.guard) = g at hg
  have a := Served.quietly { s with scenes := s.scenes.advance } ls s.mem s.device g s.checks s.fresh hg
  have b := commitServe_served v { s with lines := ls, scenes := s.scenes.advance, guard := g }
  generalize commitServe v { s with lines := ls, scenes := s.scenes.advance, guard := g } = u at b
  exact (Served.and a b).and (clearingStep_served _ _ _)

/-- The scene store after a frame period: the phases advance where a frame is processed (R37). -/
def scenesAfter (s : State) : Scenes := if engineRuns s.node.state then s.scenes.advance else s.scenes

/-- The engine changes lines, phases, memory, guard records, events and checks, and nothing else. -/
theorem engineStep_served (seq : Seq) (inputs : Vector Int 24) (s : State) :
    Served { s with scenes := scenesAfter s } (engineStep seq inputs s) := by
  unfold engineStep scenesAfter
  split
  · exact afterReads_served s seq _
  · split
    · exact sweepStep_served seq s
    · exact .none s

/-! ### The rest of a frame period's handling -/

/-- What the handling leaves of the receiver, the node, the decoder and the maps: discards are counted, and restore pending
is cleared, with LINK-RESTORED, where no fault cause is set (R102, R111). -/
structure Handled (service : Service) (s u : State) : Prop where
  link : u.link =
    { s.link with
      discarded := min 4294967295 (s.link.discarded + (s.decoder.hear service).discards)
      restorePending := s.link.restorePending && (s.link.link || s.link.lost) }
  decoder : u.decoder = (s.decoder.hear service).decoder
  same : u.node = s.node ∧ u.maps = s.maps ∧ u.pins = s.pins ∧ u.capture = s.capture ∧ u.changer = s.changer ∧
    u.scenes = scenesAfter s ∧ u.pending = s.pending ∧ u.begun = s.begun
  profiles : u.guard.profiles = s.guard.profiles
  flags : ∀ k, s.events.flags.getLsbD k = true → u.events.flags.getLsbD k = true
  restored : s.link.restorePending = true → s.link.link = false → s.link.lost = false →
    u.events.flags.getLsbD 3 = true

theorem serve_leaves (w : Bool) (service : Service) (d : Draft) (s : State) :
    (serve w service d s).link =
        { s.link with discarded := min 4294967295 (s.link.discarded + (s.decoder.hear service).discards) } ∧
      (serve w service d s).decoder = (s.decoder.hear service).decoder := ⟨rfl, rfl⟩

theorem handle_handled (w : Bool) (seq : Seq) (inputs : Vector Int 24) (slots : Vector Word 64) (damaged : Bool)
    (service : Service) (s : State) : Handled service s (handle w seq inputs slots damaged service s) := by
  unfold handle
  have e := engineStep_served seq inputs s
  generalize hd : draftOf seq inputs slots damaged s = d
  have k : ∃ v, serve w service d (engineTaken seq inputs s) = v ∧ v.link =
      { s.link with discarded := min 4294967295 (s.link.discarded + (s.decoder.hear service).discards) } ∧
      v.decoder = (s.decoder.hear service).decoder ∧
      (v.node = s.node ∧ v.maps = s.maps ∧ v.pins = s.pins ∧ v.capture = s.capture ∧ v.changer = s.changer ∧
        v.scenes = scenesAfter s ∧ v.pending = s.pending ∧ v.begun = s.begun) ∧
      v.guard.profiles = s.guard.profiles ∧
      ∀ k, s.events.flags.getLsbD k = true → v.events.flags.getLsbD k = true := by
    obtain ⟨l1, l2, l3, l4, l5, l6, l7, l8, l9, l10, l11, l12, l13⟩ := e.leaves
    refine ⟨_, rfl, ?_, ?_, ⟨l8, l2, l9, l5, l4, l3, l13, l12⟩, e.profiles, e.flags⟩
    · rw [(serve_leaves _ _ _ _).1, show (engineTaken seq inputs s).link = s.link from l1,
        show (engineTaken seq inputs s).decoder = s.decoder from l6]
    · rw [(serve_leaves _ _ _ _).2, show (engineTaken seq inputs s).decoder = s.decoder from l6]
  obtain ⟨v, hv, h1, h2, h3, h4, h5⟩ := k
  rw [hv]
  unfold linkRestored
  have hp : v.link.restorePending = s.link.restorePending := by rw [h1]
  have hl : v.link.link = s.link.link := by rw [h1]
  have ho : v.link.lost = s.link.lost := by rw [h1]
  split
  · rename_i hc
    rw [hp, hl, ho] at hc
    refine ⟨?_, h2, h3, h4, fun k h => ?_, fun _ _ _ => ?_⟩
    · show { v.link with restorePending := false } = _
      rw [h1, hc.1, hc.2.1, hc.2.2]
      rfl
    · rw [raise_flags, BitVec.getLsbD_or]
      rw [h5 k h]
      rfl
    · rw [raise_flags, BitVec.getLsbD_or]
      simp only [Bool.or_eq_true]
      exact Or.inr (by decide)
  · rename_i hc
    rw [hp, hl, ho] at hc
    refine ⟨?_, h2, h3, h4, h5, fun a b c => absurd ⟨a, b, c⟩ hc⟩
    rw [h1]
    cases hr : s.link.restorePending with
    | false => simp [hr]
    | true =>
      have : (s.link.link || s.link.lost) = true := by
        by_contra hn
        simp only [Bool.or_eq_true, not_or, Bool.not_eq_true] at hn
        exact hc ⟨hr, hn.1, hn.2⟩
      simp [this, hr]

/-- A frame period as it begins holds its sequence, whether the engine processes a frame in it, the leaving mark, and whether
its frame gave its service word to the decoder. -/
def Begun (seq : Seq) (g : Bool) (s : State) : Prop :=
  s.period = some (Period.begun seq (engineRuns s.node.state) s.node.leaving g)

/-- The engine's part of a frame period that has just begun. -/
theorem engineTaken_eq (seq : Seq) (g : Bool) (inputs : Vector Int 24) (s : State) (h : Begun seq g s) :
    engineTaken seq inputs s = engined seq g inputs s := by
  have e := (engineStep_served seq inputs s).same
  unfold engineTaken noteFrame engined handledPeriod countsForGuard
  have hp : (engineStep seq inputs s).period = s.period := by rw [e]
  rw [hp, h]
  have hs : (engineStep seq inputs s).scenes = scenesAfter s := by rw [e]
  generalize engineStep seq inputs s = t at *
  rw [e]
  rfl

/-! ### Frames built -/

/-- A slot of a frame with the mapped ones written, where no two channels share a slot (R107, R109). -/
theorem writeSlots_written (s : State) (outs : Vector Sample 32) (value : Output → Int) (slots : Vector Word 64)
    (hv : s.node.state = .run ∨ s.node.state = .silent → ∀ c : Output, outs[c] = toSample (value c)) (h : OutputMapLaw s) :
    SlotsWritten s value slots (writeSlots s.maps s.node.state outs slots) := by
  unfold writeSlots
  have k : ∀ (cs : List Output) (sl : Vector Word 64) (i : Slot),
      ((∀ c ∈ cs, s.maps.output[c] ≠ some i) → (cs.foldl (fun sl c =>
        match s.maps.output[c] with
        | none => sl
        | some i => sl.set i (outputWord s.node.state outs[c])) sl)[i] = sl[i]) ∧
      ∀ c : Output, s.maps.output[c] = some i → c ∈ cs ∨ sl[i] = outputWord s.node.state outs[c] → (cs.foldl (fun sl c =>
        match s.maps.output[c] with
        | none => sl
        | some i => sl.set i (outputWord s.node.state outs[c])) sl)[i] = outputWord s.node.state outs[c] := by
    intro cs
    induction cs with
    | nil => exact fun sl i => ⟨fun _ => rfl, fun c _ h => by simpa using h⟩
    | cons d cs ih =>
      intro sl i
      rw [List.foldl_cons]
      cases hd : s.maps.output[d] with
      | none =>
        dsimp only
        refine ⟨fun h => (ih sl i).1 fun c hc => h c (List.mem_cons_of_mem _ hc), fun c hc h => (ih sl i).2 c hc ?_⟩
        rcases h with h | h
        · rcases List.mem_cons.1 h with rfl | h
          · rw [hd] at hc
            exact absurd hc (by simp)
          · exact Or.inl h
        · exact Or.inr h
      | some j =>
        dsimp only
        have hs : (sl.set j (outputWord s.node.state outs[d]))[i] = if j = i then outputWord s.node.state outs[d] else sl[i] := by
          simp only [Fin.getElem_fin, Vector.getElem_set, Fin.ext_iff]
        refine ⟨fun h => ?_, fun c hc hm => (ih _ i).2 c hc ?_⟩
        · rw [(ih _ i).1 fun c hc => h c (List.mem_cons_of_mem _ hc), hs, if_neg]
          rintro rfl
          exact h d List.mem_cons_self hd
        · rw [hs]
          by_cases e : j = i
          · subst e
            rw [if_pos rfl, h d c j hd hc]
            exact Or.inr rfl
          · rw [if_neg e]
            rcases hm with hm | hm
            · rcases List.mem_cons.1 hm with rfl | hm
              · rw [hd] at hc
                exact absurd (Option.some.inj hc) e
              · exact Or.inl hm
            · exact Or.inr hm
  refine ⟨fun c i hc => ?_, fun i hi => (k _ _ i).1 fun c _ => hi c⟩
  refine ((k allOutputs slots i).2 c hc (Or.inl (List.mem_finRange c))).trans ?_
  unfold outputWord slotWord
  cases hn : s.node.state with
  | run => exact congrArg (fun x : Sample => word (2 ^ 31 + x.toNat)) (hv (Or.inl hn) c)
  | silent => exact congrArg (fun x : Sample => word (2 ^ 31 + x.toNat)) (hv (Or.inr hn) c)
  | sizing => rfl
  | standby => rfl
  | sweep => rfl

/-- A slot of a sending node has VALID set and bits 30 to 24 clear (R172). -/
theorem slotWord_top (x : Sample) : bitsAt (slotWord x) 31 24 = 128 := by
  have h := x.isLt
  unfold slotWord bitsAt
  rw [word_toNat _ (by omega)]
  omega

theorem frameHead_toNat (q : Seq) (k : ServiceKind) (d : Bool) :
    (frameHead q k d).toNat = 0xA5 * 2 ^ 24 + q.toNat * 2 ^ 8 + k.code * 2 ^ 6 + bit d * 2 ^ 5 := by
  have h := q.isLt
  have hk : k.code < 4 := by cases k <;> decide
  have hd : bit d ≤ 1 := by cases d <;> decide
  exact word_toNat _ (by omega)

/-- A frame that the node builds has a good sync and a good check, its sequence and its DAMAGED flag (R110, R172). -/
theorem buildFrame_reads (q : Seq) (d : Bool) (sl : Vector Word 64) (k : ServiceKind) (w : Word) :
    (buildFrame q d sl k w).syncGood = true ∧ (buildFrame q d sl k w).checkGood = true ∧
      (buildFrame q d sl k w).seq = q ∧ (buildFrame q d sl k w).damaged = d ∧ (buildFrame q d sl k w).kind = k ∧
      (buildFrame q d sl k w).service = w := by
  have h := q.isLt
  have hk : k.code < 4 := by cases k <;> decide
  have hd : bit d ≤ 1 := by cases d <;> decide
  have hh := frameHead_toNat q k d
  refine ⟨?_, ?_, ?_, ?_, ?_, rfl⟩
  · show (bitsAt (frameHead q k d) 31 24 == 0xA5) = true
    rw [beq_iff_eq]
    unfold bitsAt
    rw [hh]
    omega
  · unfold Frame.checkGood
    rw [beq_iff_eq]
    rfl
  · show BitVec.ofNat 16 (bitsAt (frameHead q k d) 23 8) = q
    have e : bitsAt (frameHead q k d) 23 8 = q.toNat := by
      unfold bitsAt
      rw [hh]
      omega
    rw [e, BitVec.ofNat_toNat, BitVec.setWidth_eq]
  · show bitAt (frameHead q k d) 5 = d
    unfold bitAt
    rw [BitVec.getLsbD, hh, Nat.testBit_eq_decide_div_mod_eq]
    cases d <;> simp only [bit] <;> simp <;> omega
  · show ServiceKind.ofCode (bitsAt (frameHead q k d) 7 6) = k
    have e : bitsAt (frameHead q k d) 7 6 = k.code := by
      unfold bitsAt
      rw [hh]
      omega
    rw [e]
    cases k <;> rfl

/-- A draft with a service word is the frame of its parts (R110, R172). -/
theorem draft_frame (d : Draft) (k : ServiceKind) (w : Word) : d.frame k w = frameOf d.seq d.damaged d.slots k w := by
  cases k <;> rfl

/-- The rest of a frame period in which the node sends a frame (R40, R102, R109, R110, R125). -/
theorem handle_as (w : Bool) (seq : Seq) (inputs : Vector Int 24) (slots : Vector Word 64) (damaged : Bool)
    (service : Service) (s : State) (g : Bool) (hb : Begun seq g s) (hm : OutputMapLaw s) :
    HandledAs s w g seq inputs slots damaged (s.decoder.hear service) (handle w seq inputs slots damaged service s) := by
  refine ⟨writeSlots s.maps s.node.state (engineResult seq inputs s).outputs slots, ?_, ?_⟩
  · refine writeSlots_written s _ _ slots (fun hr c => ?_) hm
    have : engineRuns s.node.state = true := by rcases hr with h | h <;> rw [h] <;> rfl
    unfold engineResult engineOut
    rw [if_pos this]
    simp
  · unfold handle draftOf
    rw [engineTaken_eq seq g inputs s hb]
    generalize writeSlots s.maps s.node.state (engineResult seq inputs s).outputs slots = sl
    generalize he : engined seq g inputs s = e
    have hd : e.decoder = s.decoder := by rw [← he]; rfl
    have ha : e.arbiter = s.arbiter := by rw [← he]; rfl
    have hl : e.link = s.link := by rw [← he]; rfl
    unfold serve
    rw [hd]
    obtain ⟨d, arriving, discards, abandoned⟩ := s.decoder.hear service
    have k : ∀ c : Choice, linkRestored (choiceTaken ⟨seq, damaged, sl⟩ c (hearingTaken ⟨d, arriving, discards, abandoned⟩ e)) =
        if (s.link.restorePending && !s.link.link && !s.link.lost) = true then
          raise .linkRestored
            (choiceTaken ⟨seq, damaged, sl⟩ c
              { hearingTaken ⟨d, arriving, discards, abandoned⟩ e with
                link :=
                  { s.link with
                    discarded := min 4294967295 (s.link.discarded + discards)
                    restorePending :=
                      s.link.restorePending && !(s.link.restorePending && !s.link.link && !s.link.lost) } })
        else
          choiceTaken ⟨seq, damaged, sl⟩ c
            { hearingTaken ⟨d, arriving, discards, abandoned⟩ e with
              link :=
                { s.link with
                  discarded := min 4294967295 (s.link.discarded + discards)
                  restorePending :=
                    s.link.restorePending && !(s.link.restorePending && !s.link.link && !s.link.lost) } } := by
      intro c
      unfold linkRestored choiceTaken hearingTaken
      dsimp only
      rw [hl]
      cases hr : s.link.restorePending <;> cases hk : s.link.link <;> cases ho : s.link.lost <;> rfl
    unfold chosen
    cases abandoned with
    | none =>
      simp only [k]
      unfold choiceTaken hearingTaken
      simp only [draft_frame, ha] <;> generalize s.arbiter.choose w arriving e.slot = c <;>
        cases c.leaving <;> rfl
    | some m =>
      simp only [k]
      unfold choiceTaken hearingTaken
      simp only [draft_frame, ha] <;> generalize s.arbiter.chooseAbandoned w (some m) e.slot = c <;>
        cases c.leaving <;> rfl
end Sys2Proof.Machine
end

