-- ==== Sys2Proof/Laws/PerInstr.lean ====
section
/-! SUPPORT. A statement about every command as it is written, one lemma per constructor: what a well-formed command
carries is within the bounds that the spec gives it (R2, R117). -/

namespace Sys2Proof.Laws.Bounded

open Sys2Proof

/-- A well-formed command's order has at most 32 body words (R117), and what befalls the devices with it concerns words
that exist (R2). -/
def Statement (i : Instr) : Prop :=
  i.wf = true → (∀ o, i.order = some o → o.body.length ≤ 32) ∧ ∀ d ∈ i.disturbances, d.wf = true

/-- A command that is an order. -/
theorem of_order {i : Instr} {o : Order} (hw : i.wf = true → o.wf = true) (ho : i.order = some o)
    (hd : i.disturbances = []) : Statement i := fun h =>
  ⟨fun o' e => by
    rw [ho] at e
    cases e
    simpa [Order.wf] using hw h, by simp [hd]⟩

/-- A command that is neither an order nor a frame period. -/
theorem of_event {i : Instr} (ho : i.order = none) (hd : i.disturbances = []) : Statement i := fun _ =>
  ⟨fun o e => by simp [ho] at e, by simp [hd]⟩

/-- A frame-period command. -/
theorem of_frame {i : Instr} (ho : i.order = none) (hw : i.wf = true → i.disturbances.all Disturbance.wf = true) :
    Statement i := fun h => ⟨fun o e => by simp [ho] at e, by simpa using hw h⟩

theorem resetPinAsserted : Statement (.resetPinAsserted) := of_event rfl rfl

theorem pinReset (pins : BitVec 6) : Statement (.pinReset pins) := of_event rfl rfl

theorem sizingEnd : Statement (.sizingEnd) := of_event rfl rfl

theorem resetTakesEffect : Statement (.resetTakesEffect) := of_event rfl rfl

theorem startUpSearchPeriod (arrivals : List Frame) (memory : List Disturbance) : Statement (.startUpSearchPeriod arrivals memory) :=
  of_frame rfl id

theorem startUpLimit : Statement (.startUpLimit) := of_event rfl rfl

theorem goodFrame (frame : Frame) (memory : List Disturbance) : Statement (.goodFrame frame memory) :=
  of_frame rfl fun h => by
  simp only [Instr.wf, Bool.and_eq_true] at h
  exact h.2

theorem badFrame (frame : Frame) (memory : List Disturbance) : Statement (.badFrame frame memory) :=
  of_frame rfl fun h => by
  simp only [Instr.wf, Bool.and_eq_true] at h
  exact h.2

theorem missingFramePeriod (memory : List Disturbance) : Statement (.missingFramePeriod memory) := of_frame rfl id

theorem linkLost (memory : List Disturbance) : Statement (.linkLost memory) := of_frame rfl id

theorem localFrame (arrivals : List Frame) (memory : List Disturbance) : Statement (.localFrame arrivals memory) :=
  of_frame rfl id

theorem resumptionFrame (frame : Frame) (memory : List Disturbance) : Statement (.resumptionFrame frame memory) :=
  of_frame rfl fun h => by
  simp only [Instr.wf, Bool.and_eq_true] at h
  exact h.2

theorem endOfClearing : Statement (.endOfClearing) := of_event rfl rfl

theorem fireFrame : Statement (.fireFrame) := of_event rfl rfl

theorem fadeEnd : Statement (.fadeEnd) := of_event rfl rfl

theorem revertedFadeEnd : Statement (.revertedFadeEnd) := of_event rfl rfl

theorem blockEnd : Statement (.blockEnd) := of_event rfl rfl

theorem clipRunMute (output : Output) : Statement (.clipRunMute output) := of_event rfl rfl

theorem leavingForStandbyEnd : Statement (.leavingForStandbyEnd) := of_event rfl rfl

theorem sweepComplete : Statement (.sweepComplete) := of_event rfl rfl

theorem captureEnd : Statement (.captureEnd) := of_event rfl rfl

theorem holdoffExpiry : Statement (.holdoffExpiry) := of_event rfl rfl

theorem noticeStart : Statement (.noticeStart) := of_event rfl rfl

theorem returnStart : Statement (.returnStart) := of_event rfl rfl

theorem unknownOrder (sec : BitVec 4) (verb : BitVec 6) (o : Order) : Statement (.unknownOrder sec verb o) :=
  of_order (fun h => by simp [Instr.wf] at h; exact h.2) rfl rfl

theorem ident (o : Order) : Statement (.ident o) := of_order id rfl rfl

theorem go (o : Order) : Statement (.go o) := of_order id rfl rfl

theorem standby (o : Order) : Statement (.standby o) := of_order id rfl rfl

theorem silence (o : Order) : Statement (.silence o) := of_order id rfl rfl

theorem resume (o : Order) : Statement (.resume o) := of_order id rfl rfl

theorem sweep (o : Order) : Statement (.sweep o) := of_order id rfl rfl

theorem unlock (o : Order) : Statement (.unlock o) := of_order id rfl rfl

theorem setAddress (o : Order) : Statement (.setAddress o) := of_order id rfl rfl

theorem reset (o : Order) : Statement (.reset o) := of_order id rfl rfl

theorem writeInMap (o : Order) : Statement (.writeInMap o) := of_order id rfl rfl

theorem writeOutMap (o : Order) : Statement (.writeOutMap o) := of_order id rfl rfl

theorem readMap (o : Order) : Statement (.readMap o) := of_order id rfl rfl

theorem writeWindow (o : Order) : Statement (.writeWindow o) := of_order id rfl rfl

theorem writeFeed (o : Order) : Statement (.writeFeed o) := of_order id rfl rfl

theorem start (o : Order) : Statement (.start o) := of_order id rfl rfl

theorem stop (o : Order) (faultFirst : Bool) : Statement (.stop o faultFirst) := of_order id rfl rfl

theorem restart (o : Order) (faultFirst : Bool) : Statement (.restart o faultFirst) := of_order id rfl rfl

theorem readLine (o : Order) : Statement (.readLine o) := of_order id rfl rfl

theorem writeHeader (o : Order) : Statement (.writeHeader o) := of_order id rfl rfl

theorem writeOutput (o : Order) : Statement (.writeOutput o) := of_order id rfl rfl

theorem appendTap (o : Order) : Statement (.appendTap o) := of_order id rfl rfl

theorem replaceTap (o : Order) : Statement (.replaceTap o) := of_order id rfl rfl

theorem truncate (o : Order) : Statement (.truncate o) := of_order id rfl rfl

theorem copyLive (o : Order) : Statement (.copyLive o) := of_order id rfl rfl

theorem readBank (o : Order) : Statement (.readBank o) := of_order id rfl rfl

theorem commit (o : Order) : Statement (.commit o) := of_order id rfl rfl

theorem cancel (o : Order) : Statement (.cancel o) := of_order id rfl rfl

theorem revert (o : Order) : Statement (.revert o) := of_order id rfl rfl

theorem writeProfile (o : Order) : Statement (.writeProfile o) := of_order id rfl rfl

theorem readProfile (o : Order) : Statement (.readProfile o) := of_order id rfl rfl

theorem readGuard (o : Order) : Statement (.readGuard o) := of_order id rfl rfl

theorem release (o : Order) : Statement (.release o) := of_order id rfl rfl

theorem readEvents (o : Order) : Statement (.readEvents o) := of_order id rfl rfl

theorem clearEvents (o : Order) : Statement (.clearEvents o) := of_order id rfl rfl

theorem readAndClear (o : Order) : Statement (.readAndClear o) := of_order id rfl rfl

theorem writeEnables (o : Order) : Statement (.writeEnables o) := of_order id rfl rfl

theorem writeHoldoff (o : Order) : Statement (.writeHoldoff o) := of_order id rfl rfl

theorem readCheck (o : Order) : Statement (.readCheck o) := of_order id rfl rfl

theorem clearCheck (o : Order) : Statement (.clearCheck o) := of_order id rfl rfl

theorem writeMode (o : Order) : Statement (.writeMode o) := of_order id rfl rfl

theorem readBadBlocks (o : Order) : Statement (.readBadBlocks o) := of_order id rfl rfl

theorem setUp (o : Order) : Statement (.setUp o) := of_order id rfl rfl

theorem arm (o : Order) : Statement (.arm o) := of_order id rfl rfl

theorem captureTrigger (o : Order) : Statement (.captureTrigger o) := of_order id rfl rfl

theorem captureStop (o : Order) : Statement (.captureStop o) := of_order id rfl rfl

theorem readCapture (o : Order) : Statement (.readCapture o) := of_order id rfl rfl

theorem readSamples (o : Order) : Statement (.readSamples o) := of_order id rfl rfl

theorem readLink (o : Order) : Statement (.readLink o) := of_order id rfl rfl

theorem clearCounters (o : Order) : Statement (.clearCounters o) := of_order id rfl rfl

theorem lockOrder (o : Order) : Statement (.lockOrder o) := of_order id rfl rfl

end Sys2Proof.Laws.Bounded
end

