-- ==== Sys2Proof/Laws/Receiver.lean ====
section
/-! SUPPORT. What each settlement of the link receiver does: its counts, its fault causes, the node state that follows them,
and what it leaves alone (R54, R63, R92, R95, R101, R104, R160). -/

namespace Sys2Proof.Machine

/-- What the receiver's settlements leave alone. Flags are only gained. -/
structure Told (s t : State) : Prop where
  same : t.maps = s.maps ∧ t.pins = s.pins ∧ t.capture.setUp = s.capture.setUp ∧
    t.guard.profiles = s.guard.profiles ∧ t.arbiter = s.arbiter ∧ t.lines = s.lines ∧ t.mem = s.mem ∧
    t.device = s.device
  flags : ∀ k, s.events.flags.getLsbD k = true → t.events.flags.getLsbD k = true

theorem Told.none (s : State) : Told s s := ⟨⟨rfl, rfl, rfl, rfl, rfl, rfl, rfl, rfl⟩, fun _ h => h⟩

theorem Told.and {s t u : State} (a : Told s t) (b : Told t u) : Told s u := by
  obtain ⟨⟨a1, a2, a3, a4, a5, a6, a7, a8⟩, af⟩ := a
  obtain ⟨⟨b1, b2, b3, b4, b5, b6, b7, b8⟩, bf⟩ := b
  exact ⟨⟨b1.trans a1, b2.trans a2, b3.trans a3, b4.trans a4, b5.trans a5, b6.trans a6, b7.trans a7, b8.trans a8⟩,
    fun k h => bf k (af k h)⟩

/-- A change of the receiver alone. -/
theorem Told.link (s : State) (l : Link) : Told s { s with link := l } :=
  ⟨⟨rfl, rfl, rfl, rfl, rfl, rfl, rfl, rfl⟩, fun _ h => h⟩

theorem raiseWith_told (f : Flag) (d : Events → Events) (s : State) : Told s (raiseWith f d s) :=
  ⟨⟨rfl, rfl, rfl, rfl, rfl, rfl, rfl, rfl⟩, fun k h => by rw [raiseWith_flags, BitVec.getLsbD_or, h]; rfl⟩

theorem adjustWhere_profiles (g : Guard) (c : Output → Bool) (p : Output → Profile) :
    (g.adjustWhere c p).profiles = g.profiles := by
  unfold Guard.adjustWhere
  rfl

theorem roleChange_told (f : Role → Role) (c : Changer) (s : State) : Told s (roleChange f c s) :=
  ⟨⟨rfl, rfl, rfl, adjustWhere_profiles _ _ _, rfl, rfl, rfl, rfl⟩, fun _ h => h⟩

theorem take_setUp (c : Capture) (q : Seq) : (c.take q).setUp = c.setUp := by
  unfold Capture.take
  split <;> rfl

theorem offerNow_told (o : Offer) (s : State) : Told s (offerNow o s) := by
  refine ⟨⟨rfl, rfl, ?_, rfl, rfl, rfl, rfl, rfl⟩, fun _ h => h⟩
  unfold offerNow Capture.offer
  dsimp only
  split
  · exact take_setUp _ _
  · rfl

/-- A link event leaves no commit armed (R63). -/
theorem linkEvent_told (s : State) :
    Told s (linkEvent s) ∧ (linkEvent s).link = s.link ∧ (linkEvent s).node = s.node ∧
      (linkEvent s).decoder = s.decoder ∧ (linkEvent s).changer.state ≠ .armed := by
  unfold linkEvent
  split
  · exact ⟨(roleChange_told _ _ s).and (raiseWith_told _ _ _), rfl, rfl, rfl, fun h => by cases h⟩
  · exact ⟨.none s, rfl, rfl, rfl, ‹_›⟩

theorem fire_told (s : State) :
    Told s (fire s) ∧ (fire s).link = s.link ∧ (fire s).node = s.node ∧ (fire s).decoder = s.decoder := by
  unfold fire
  split
  · exact ⟨(roleChange_told _ _ s).and (raiseWith_told _ _ _), rfl, rfl, rfl⟩
  · exact ⟨roleChange_told _ _ s, rfl, rfl, rfl⟩

theorem offerSequence_told (q : Seq) (s : State) :
    Told s (offerSequence q s) ∧ (offerSequence q s).link = s.link ∧ (offerSequence q s).node = s.node ∧
      (offerSequence q s).decoder = s.decoder := by
  unfold offerSequence
  split
  · exact fire_told s
  · exact ⟨.none s, rfl, rfl, rfl⟩

/-- The expected sequence settled, with its offers (R54, R92, R151). -/
theorem expectedSettled_told (q : Seq) (s : State) :
    Told s (expectedSettled q s) ∧ (expectedSettled q s).link = { s.link with expected := q + 1 } ∧
      (expectedSettled q s).node = s.node ∧ (expectedSettled q s).decoder = s.decoder := by
  obtain ⟨a, b, c, d⟩ := offerSequence_told q (offerToCapture q (settle q s))
  refine ⟨(((Told.link s { s.link with expected := q + 1 })).and (offerNow_told _ _)).and a, ?_, ?_, ?_⟩
  · exact b
  · exact c
  · exact d

/-- The node state unit told of the causes: the node state follows them (R160). -/
theorem causesChanged_told (s : State) :
    Told s (causesChanged s) ∧ (causesChanged s).link = s.link ∧ (causesChanged s).node = follow s.link s.node ∧
      (causesChanged s).decoder = s.decoder ∧ (causesChanged s).changer = s.changer ∧
      (causesChanged s).events = s.events := by
  unfold causesChanged follow anyCause leaveRun
  split
  · refine ⟨⟨⟨rfl, rfl, rfl, ?_, rfl, rfl, rfl, rfl⟩, fun _ h => h⟩, rfl, rfl, rfl, rfl, rfl⟩
    dsimp only
    split <;> rfl
  · split <;> exact ⟨⟨⟨rfl, rfl, rfl, rfl, rfl, rfl, rfl, rfl⟩, fun _ h => h⟩, rfl, rfl, rfl, rfl, rfl⟩

/-- LINK set (R101). -/
theorem linkSet_told (s : State) :
    Told s (linkSet s) ∧ (linkSet s).link = { s.link with link := true, restorePending := true } ∧
      (linkSet s).node = follow { s.link with link := true, restorePending := true } s.node ∧
      (linkSet s).decoder = { s.decoder with protection := .closed } ∧
      (linkSet s).events.flags.getLsbD 1 = true := by
  unfold linkSet
  generalize hu : raise .linkFault { s with link := { s.link with link := true, restorePending := true } } = u
  have h1 : Told s u := hu ▸ (Told.link s _).and (raiseWith_told _ _ _)
  have hb : u.events.flags.getLsbD 1 = true := by
    rw [← hu, raise_flags, BitVec.getLsbD_or, show Flag.linkFault.mask.getLsbD 1 = true by decide, Bool.or_true]
  have hl : u.link = { s.link with link := true, restorePending := true } := by rw [← hu]; rfl
  have hn : u.node = s.node := by rw [← hu]; rfl
  have hd : u.decoder = s.decoder := by rw [← hu]; rfl
  generalize hv : withProtection .closed (offerNow .linkFault u) = v
  have h2 : Told u v := by
    rw [← hv]
    exact (offerNow_told _ _).and ⟨⟨rfl, rfl, rfl, rfl, rfl, rfl, rfl, rfl⟩, fun _ h => h⟩
  obtain ⟨a, al, an, ad, _⟩ := linkEvent_told v
  obtain ⟨b, bl, bn, bd, _, be⟩ := causesChanged_told (linkEvent v)
  refine ⟨(h1.and h2).and (a.and b), ?_, ?_, ?_, ?_⟩
  · rw [bl, al, ← hl, ← hv]
    rfl
  · rw [bn, al, an, ← hl, ← hn, ← hv]
    rfl
  · rw [bd, ad, ← hd, ← hv]
    rfl
  · rw [be]
    exact a.flags _ (h2.flags _ hb)

/-- LOST set: restore pending and LINK-LOST; no commit stays armed; the node state follows the causes (R63, R93, R100). -/
theorem lostSet_told (s : State) :
    Told s (lostSet s) ∧ (lostSet s).link = { s.link with lost := true, restorePending := true } ∧
      (lostSet s).node = follow { s.link with lost := true, restorePending := true } s.node ∧
      (lostSet s).decoder = s.decoder ∧ (lostSet s).events.flags.getLsbD 2 = true ∧
      (lostSet s).changer.state ≠ .armed := by
  unfold lostSet
  generalize hu : raise .linkLost { s with link := { s.link with lost := true, restorePending := true } } = u
  have h1 : Told s u := hu ▸ (Told.link s _).and (raiseWith_told _ _ _)
  have hb : u.events.flags.getLsbD 2 = true := by
    rw [← hu, raise_flags, BitVec.getLsbD_or, show Flag.linkLost.mask.getLsbD 2 = true by decide, Bool.or_true]
  have hl : u.link = { s.link with lost := true, restorePending := true } := by rw [← hu]; rfl
  have hn : u.node = s.node := by rw [← hu]; rfl
  have hd : u.decoder = s.decoder := by rw [← hu]; rfl
  obtain ⟨a, al, an, ad, ac⟩ := linkEvent_told u
  obtain ⟨b, bl, bn, bd, bc, be⟩ := causesChanged_told (linkEvent u)
  refine ⟨h1.and (a.and b), ?_, ?_, ?_, ?_, ?_⟩
  · rw [bl, al, hl]
  · rw [bn, al, an, hl, hn]
  · rw [bd, ad, hd]
  · rw [be]
    exact a.flags _ hb
  · rw [bc]
    exact ac

/-- A link error counted (R101). -/
theorem errorCounted_told (s : State) :
    Told s (errorCounted s) ∧
      (errorCounted s).link =
        { s.link with
          lec := min 255 (s.link.lec + 8)
          link := s.link.link || decide (min 255 (s.link.lec + 8) = 255)
          restorePending := s.link.restorePending || (!s.link.link && decide (min 255 (s.link.lec + 8) = 255)) } ∧
      (min 255 (s.link.lec + 8) = 255 → s.link.link = false →
        (errorCounted s).node = follow (errorCounted s).link s.node ∧
          (errorCounted s).events.flags.getLsbD 1 = true ∧
          (errorCounted s).decoder = { s.decoder with protection := .closed }) ∧
      (¬(min 255 (s.link.lec + 8) = 255 ∧ s.link.link = false) →
        (errorCounted s).node = s.node ∧ (errorCounted s).decoder = s.decoder) := by
  unfold errorCounted
  dsimp only
  have h0 := Told.link s { s.link with lec := min 255 (s.link.lec + 8) }
  split
  · rename_i hc
    obtain ⟨a, al, an, ad, ae⟩ := linkSet_told { s with link := { s.link with lec := min 255 (s.link.lec + 8) } }
    refine ⟨h0.and a, ?_, fun _ _ => ⟨?_, ae, ad⟩, fun h => absurd hc h⟩
    · rw [al]
      simp [hc.1, hc.2]
    · rw [al, an]
  · rename_i hc
    refine ⟨h0, ?_, fun h1 h2 => absurd ⟨h1, h2⟩ hc, fun _ => ⟨rfl, rfl⟩⟩
    dsimp only
    cases hl : s.link.link
    · have : ¬min 255 (s.link.lec + 8) = 255 := fun h => hc ⟨h, hl⟩
      simp [this]
    · simp

/-- A link error forgiven (R95, R101). -/
theorem errorForgiven_told (s : State) :
    Told s (errorForgiven s) ∧ (errorForgiven s).decoder = s.decoder ∧
      (errorForgiven s).link =
        { s.link with lec := s.link.lec - 1, link := s.link.link && decide (s.link.lec - 1 ≠ 0) } ∧
      (s.link.lec - 1 = 0 → s.link.link = true → (errorForgiven s).node = follow (errorForgiven s).link s.node) ∧
      (¬(s.link.lec - 1 = 0 ∧ s.link.link = true) → (errorForgiven s).node = s.node) := by
  unfold errorForgiven
  dsimp only
  have h0 := Told.link s { s.link with lec := s.link.lec - 1 }
  split
  · rename_i hc
    obtain ⟨a, al, an, ad, _⟩ := causesChanged_told { s with link := { s.link with lec := s.link.lec - 1, link := false } }
    refine ⟨(Told.link s _).and a, ad, ?_, fun _ _ => ?_, fun h => absurd hc h⟩
    · rw [al]
      simp [hc.1]
    · rw [al, an]
  · rename_i hc
    refine ⟨h0, rfl, ?_, fun h1 h2 => absurd ⟨h1, h2⟩ hc, fun _ => rfl⟩
    dsimp only
    cases hl : s.link.link
    · simp
    · have : ¬s.link.lec - 1 = 0 := fun h => hc ⟨h, hl⟩
      simp [this]

/-- LOST cleared as the resumption frame begins (R104). -/
theorem lostCleared_told (s : State) :
    Told s (lostCleared s) ∧ (lostCleared s).link = { s.link with lost := false } ∧
      (lostCleared s).decoder = s.decoder ∧
      (lostCleared s).node = if s.link.lost then follow { s.link with lost := false } s.node else s.node := by
  unfold lostCleared
  split
  · obtain ⟨a, al, an, ad, _⟩ := causesChanged_told { s with link := { s.link with lost := false } }
    exact ⟨(Told.link s _).and a, al, ad, an⟩
  · rename_i h
    simp only [Bool.not_eq_true] at h
    refine ⟨.none s, ?_, rfl, rfl⟩
    rw [← h]

/-! ### The node state as the causes say -/

/-- The node with the state that two fault causes and the cause ORDER say, where it is RUN or SILENT. -/
def Node.told (link lost : Bool) (n : Node) : Node :=
  { n with
    state :=
      if n.state = .run ∨ n.state = .silent then
        (if link = true ∨ lost = true ∨ n.orderCause = true then .silent else .run)
      else n.state }

theorem follow_told (l : Link) (n : Node) : follow l n = n.told l.link l.lost := by
  unfold follow Node.told
  obtain ⟨st, oc, r, lv, rp⟩ := n
  cases st <;> cases oc <;> cases l.link <;> cases l.lost <;> simp

/-- A node that follows its causes is as they say. -/
theorem NodeFollows.told {s : State} (h : NodeFollows s) : s.node = s.node.told s.link.link s.link.lost := by
  unfold NodeFollows at h
  unfold Node.told
  generalize s.link.link = a at *
  generalize s.link.lost = b at *
  generalize s.node = n at *
  obtain ⟨st, oc, r, lv, rp⟩ := n
  cases st <;> cases oc <;> cases a <;> cases b <;> simp_all

/-- Only the last word counts. -/
theorem Node.told_told (a b c d : Bool) (n : Node) : (n.told c d).told a b = n.told a b := by
  obtain ⟨st, oc, r, lv, rp⟩ := n
  unfold Node.told
  cases st <;> cases oc <;> cases a <;> cases b <;> cases c <;> cases d <;> simp

/-! ### Role changes as statements say them -/

theorem linesNamed_get (l : List Tap) (b : BitVec 64) (n : Line) :
    (l.foldl (fun b t => b ||| 1#64 <<< t.line.val) b).getLsbD n.val = true ↔
      b.getLsbD n.val = true ∨ ∃ x ∈ l, x.line = n := by
  induction l generalizing b with
  | nil => simp
  | cons a l ih =>
    rw [List.foldl_cons, ih]
    have hn := n.isLt
    have hb : (1#64).getLsbD (n.val - a.line.val) = decide (n.val - a.line.val = 0) := by
      rcases Nat.eq_zero_or_pos (n.val - a.line.val) with h | h <;> simp [h]
    simp only [BitVec.getLsbD_or, Bool.or_eq_true, BitVec.getLsbD_shiftLeft, List.mem_cons, hb]
    constructor
    · rintro ((h | h) | ⟨x, h, k⟩)
      · exact Or.inl h
      · simp only [Bool.and_eq_true, decide_eq_true_eq, Bool.not_eq_true', decide_eq_false_iff_not] at h
        exact Or.inr ⟨a, Or.inl rfl, Fin.ext (by omega)⟩
      · exact Or.inr ⟨x, Or.inr h, k⟩
    · rintro (h | ⟨x, h | h, k⟩)
      · exact Or.inl (Or.inl h)
      · subst h
        subst k
        exact Or.inl (Or.inr (by simp))
      · exact Or.inr ⟨x, h, k⟩

theorem used_get (b : BankSlot) (n : Line) :
    b.used.getLsbD n.val = true ↔ b.role ≠ .staged ∧ ∃ x ∈ b.bank.taps, x.line = n := by
  unfold BankSlot.used
  by_cases hr : b.role = .staged
  · rw [hr]
    simp [Role.counts]
  · rw [if_pos (by cases h : b.role <;> first | rfl | exact absurd h hr)]
    unfold linesNamed
    rw [linesNamed_get]
    simp [hr]

/-- A record brought within a profile (R71, R74). -/
theorem adjust_eq (p : Profile) (g : GuardRec) :
    g.adjust p =
      { g with
        trim := if p.maxSteps < g.trim then p.maxSteps else g.trim
        strain := if p.strainLimit ≤ g.strain then p.strainLimit - 1 else g.strain } := by
  unfold GuardRec.adjust
  rw [show min g.trim p.maxSteps = if p.maxSteps < g.trim then p.maxSteps else g.trim by
    rw [Nat.min_def]; split <;> split <;> omega]

/-- A role change (R35, R37, R48, R74). -/
theorem roleChange_changed (f : Role → Role) (ch : Changer) (s : State) : RoleChanged f ch s (roleChange f ch s) := by
  refine ⟨(s.scenes.a.toRole (f s.scenes.a.role)).phases, (s.scenes.b.toRole (f s.scenes.b.role)).phases,
    (s.scenes.changeRoles f).inUse, (roleChange f ch s).guard.outputs, rfl, ?_, fun n => ?_, fun c => ?_⟩
  · rintro b ph (⟨rfl, rfl⟩ | ⟨rfl, rfl⟩) <;> rfl
  · show (BankSlot.used _ ||| BankSlot.used _).getLsbD n.val = true ↔ _
    rw [BitVec.getLsbD_or, Bool.or_eq_true, used_get, used_get]
    rfl
  · dsimp only
    show (Vector.ofFn _)[c] = _
    rw [Fin.getElem_fin, Vector.getElem_ofFn]
    dsimp only
    rw [adjust_eq]
    by_cases h : profileInForce s.changer.state s.scenes c = profileInForce ch.state (s.scenes.changeRoles f) c
    · rw [if_neg (by simp [h])]
      exact (if_pos h).symm
    · rw [if_pos (by simp [h])]
      exact (if_neg h).symm

theorem switch_eq : Role.switch = switchedRole := by
  funext r
  cases r <;> rfl

theorem fire_eq : Role.fire = firedRole := by
  funext r
  cases r <;> rfl

theorem disarm_eq : Role.disarm = withdrawnRole := by
  funext r
  cases r <;> rfl

/-! ### Settlements -/

/-- `s` in a frame period that has begun, with the receiver, the node, the recorder and the decoder as given, the scenes, the
changer and the guard of `v`, the events of `told`, and the guard block abandoned where RUN has been left. -/
def settled (s v told : State) (l : Link) (d : Device) (m : MemCtl) (c : Capture) (dec : Decoder) (n : Node) (p : Period)
    (left : Bool) : State :=
  { s with
    link := l, device := d, mem := m, scenes := v.scenes, changer := v.changer
    guard := if left then v.guard.abandon else v.guard
    capture := c, decoder := dec, events := told.events, slot := told.slot, node := n, sent := [], period := some p
    begun := none }

/-- The scenes, the changer and the guard as the armed commit fires (R55, R56). -/
def firedState (s : State) : State :=
  if s.changer.length = 0 then roleChange Role.switch Changer.steady s
  else
    roleChange Role.fire
      { state := .fading, target := none, length := s.changer.length, position := 1, direction := .forward } s

section
variable (s v told : State) (l : Link) (d : Device) (m : MemCtl) (c : Capture) (dec : Decoder) (n : Node) (p : Period)
  (left : Bool)

theorem settled_raise (f : Flag) :
    raise f (settled s v told l d m c dec n p left) = settled s v (raise f told) l d m c dec n p left := rfl

theorem settled_linkEvent :
    linkEvent (settled s v told l d m c dec n p false) =
      if v.changer.state = .armed then
        settled s (disarm v) (raise .commitLost told) l d m c dec n p false
      else settled s v told l d m c dec n p false := by
  unfold linkEvent
  by_cases h : v.changer.state = .armed
  · rw [if_pos h, if_pos (show (settled s v told l d m c dec n p false).changer.state = .armed from h)]
    rfl
  · rw [if_neg h, if_neg (show ¬(settled s v told l d m c dec n p false).changer.state = .armed from h)]

theorem settled_causes (hp : p.counts = false) :
    causesChanged (settled s v told l d m c dec n p false) =
      settled s v told l d m c dec (follow l n) p (decide (n.state = .run) && (l.link || l.lost || n.orderCause)) := by
  unfold causesChanged follow
  have ha : anyCause (settled s v told l d m c dec n p false) = (l.link || l.lost || n.orderCause) := rfl
  rw [ha]
  have hn : (settled s v told l d m c dec n p false).node = n := rfl
  rw [hn]
  generalize (l.link || l.lost || n.orderCause) = b
  have hpp : (some p).map (fun p : Period => { p with leftRun := p.leftRun || p.counts }) = some p := by
    rw [Option.map_some, show (p.leftRun || p.counts) = p.leftRun by rw [hp, Bool.or_false]]
  by_cases h1 : n.state = .run ∧ b = true
  · rw [if_pos h1, if_pos h1, h1.2]
    unfold leaveRun
    have hc : periodCounts (settled s v told l d m c dec n p false) = false := hp
    rw [hc, h1.1]
    show ({ settled s v told l d m c dec { n with state := .silent } p true with
      period := (some p).map fun p : Period => { p with leftRun := p.leftRun || p.counts } } : State) = _
    rw [hpp]
    rfl
  · rw [if_neg h1, if_neg h1]
    have hb : (decide (n.state = .run) && b) = false := by
      by_contra hh
      rw [Bool.not_eq_false, Bool.and_eq_true, decide_eq_true_eq] at hh
      exact h1 hh
    rw [hb]
    split
    · rfl
    · rfl

/-- The recorder after an offer that matches its trigger or not. -/
theorem settled_offer (o : Offer) :
    offerNow o (settled s v told l d m c dec n p left) =
      settled s v told l d m (c.offer p.processed p.seq o) dec n p left := rfl


/-- The commit fires in a frame period that has begun (R54 to R56). -/
theorem settled_fire (q : Seq) :
    offerSequence q (settled s s s l d m c dec n p false) =
      if s.changer.state == .armed && s.changer.target == some q then
        settled s (firedState s) (if s.changer.length == 0 then raiseCommitDone .notReverted s else s) l d m c dec n p false
      else settled s s s l d m c dec n p false := by
  unfold offerSequence
  have hf : firesOn q (settled s s s l d m c dec n p false) = (s.changer.state == .armed && s.changer.target == some q) := rfl
  rw [hf]
  by_cases h : (s.changer.state == .armed && s.changer.target == some q) = true
  · rw [if_pos h, if_pos h]
    unfold fire firedState
    by_cases hl : s.changer.length = 0
    · rw [if_pos (show (settled s s s l d m c dec n p false).changer.length = 0 from hl), if_pos hl,
        if_pos (beq_iff_eq.2 hl)]
      rfl
    · rw [if_neg (show ¬(settled s s s l d m c dec n p false).changer.length = 0 from hl), if_neg hl,
        if_neg (by rw [beq_iff_eq]; exact hl)]
      rfl
  · rw [if_neg h, if_neg h]

end

/-- A raise, its announcement worked out (R132, R134). -/
theorem raise_eq (f : Flag) (s : State) :
    raise f s =
      { s with
        events :=
          { s.events with
            flags := s.events.flags ||| f.mask
            notice :=
              if s.events.notice = .quiet ∧ (s.events.flags ||| f.mask) &&& s.events.enables ≠ 0 then .sent
              else s.events.notice }
        slot :=
          if s.events.notice = .quiet ∧ (s.events.flags ||| f.mask) &&& s.events.enables ≠ 0 then s.slot.place
          else s.slot } := by
  unfold raise raiseWith announce
  simp only [id]
  have hp : Events.pendingSet { s.events with flags := s.events.flags ||| f.mask } =
      (s.events.flags ||| f.mask) &&& s.events.enables := rfl
  rw [hp]
  split <;> rfl

/-- The order in which two flags are raised does not show. -/
theorem raise_comm (f g : Flag) (s : State) : raise f (raise g s) = raise g (raise f s) := by
  simp only [raise_eq]
  have hc : s.events.flags ||| f.mask ||| g.mask = s.events.flags ||| g.mask ||| f.mask := by
    rw [BitVec.or_assoc, BitVec.or_comm f.mask, BitVec.or_assoc]
  have mono : ∀ a b c : BitVec 17, a &&& c ≠ 0 → (a ||| b) &&& c ≠ 0 := by
    intro a b c h k
    apply h
    apply BitVec.eq_of_getLsbD_eq
    intro i _
    have e := congrArg (fun x : BitVec 17 => x.getLsbD i) k
    rw [show (0 : BitVec 17).getLsbD i = false from BitVec.getLsbD_zero] at e ⊢
    simp only [BitVec.getLsbD_and, BitVec.getLsbD_or] at e ⊢
    generalize a.getLsbD i = p at *
    generalize b.getLsbD i = q at *
    generalize c.getLsbD i = r at *
    revert p q r
    decide
  have hf := mono (s.events.flags ||| f.mask) g.mask s.events.enables
  have hg := mono (s.events.flags ||| g.mask) f.mask s.events.enables
  rw [← hc] at hg ⊢
  generalize s.events.flags ||| f.mask ||| g.mask = x at *
  generalize (s.events.flags ||| f.mask) &&& s.events.enables = y at *
  generalize (s.events.flags ||| g.mask) &&& s.events.enables = z at *
  generalize x &&& s.events.enables = w at *
  by_cases hq : s.events.notice = .quiet
  · by_cases hy : y = 0 <;> by_cases hz : z = 0 <;> by_cases hw : w = 0 <;> simp_all
  · simp [hq]

/-- A settled frame period is as its settlement says. -/
theorem settled_gives (x : Settlement) (memory : List Disturbance) (s : State) (p : Period) (v told : State)
    (hv : v = if x.offered && s.changer.state == .armed && s.changer.target == some x.seq then firedState s
      else if s.changer.state == .armed && (x.jump || x.linkSet || x.lostSet) then disarm s else s)
    (ht : told = raisedAll
      ((if x.jump then [Flag.sequenceJump] else []) ++ (if x.linkSet then [Flag.linkFault] else []) ++
        (if x.lostSet then [Flag.linkLost] else []) ++
          if s.changer.state == .armed && !(x.offered && s.changer.state == .armed && s.changer.target == some x.seq) &&
            (x.jump || x.linkSet || x.lostSet) then [Flag.commitLost] else [])
      (if x.offered && s.changer.state == .armed && s.changer.target == some x.seq && s.changer.length == 0 then
        raiseCommitDone .notReverted s else s))
    (hp : p.processed = engineRuns s.node.state ∧ p.seq = x.seq) :
    x.Gives memory s
      (settled s v told x.link (memory.foldl Device.disturb s.device)
        { s.mem with sizing := if s.node.state = .sizing then s.mem.sizing + 1 else s.mem.sizing }
        (if x.linkSet then (s.capture.offer p.processed p.seq (.sequence x.seq)).offer p.processed p.seq .linkFault
          else s.capture.offer p.processed p.seq (.sequence x.seq))
        (if x.linkSet then { s.decoder with protection := .closed } else s.decoder)
        { s.node with state := x.node } p x.leftRun) := by
  have offer_eq : ∀ (c : Capture) (o : Offer) (t : Trigger), (∀ u : Trigger, u.matches o = (u == t)) →
      c.offer p.processed p.seq o = if c.setUp.trigger == t then triggered (engineRuns s.node.state) x.seq c else c := by
    intro c o t h
    unfold Capture.offer
    rw [h, hp.1, hp.2]
    unfold triggered Capture.take
    cases hk : c.setUp.trigger == t
    · rw [Bool.and_false]
      rfl
    · rw [Bool.and_true]
      cases hr : engineRuns s.node.state
      · rfl
      · simp only [if_true]
        cases hs : c.state <;> simp
  have h1 := fun c : Capture => offer_eq c (.sequence x.seq) (.sequence x.seq) fun u => by
    rw [Bool.eq_iff_iff, beq_iff_eq]
    cases u with
    | sequence a => exact beq_iff_eq.trans ⟨fun h => by rw [h], fun h => Trigger.sequence.inj h⟩
    | _ => exact ⟨fun h => (by cases h), fun h => (by cases h)⟩
  have h2 := fun c : Capture => offer_eq c .linkFault .linkFault fun u => by
    rw [Bool.eq_iff_iff, beq_iff_eq]
    cases u with
    | linkFault => exact ⟨fun _ => rfl, fun _ => rfl⟩
    | _ => exact ⟨fun h => (by cases h), fun h => (by cases h)⟩
  refine ⟨v, fun hf hl => ?_, fun hf hl => ?_, fun hc => ?_, fun hf hc => ?_, ?_⟩
  · rw [hv, if_pos hf]
    unfold firedState
    rw [if_pos hl, ← switch_eq]
    exact roleChange_changed _ _ _
  · rw [hv, if_pos hf]
    unfold firedState
    rw [if_neg hl, ← fire_eq]
    exact roleChange_changed _ _ _
  · simp only [Bool.and_eq_true, Bool.not_eq_true'] at hc
    rw [hv, if_neg (by simp [hc.1.2]), if_pos (by simp [hc.1.1, hc.2]), ← disarm_eq]
    exact roleChange_changed _ _ _
  · rw [hv, if_neg (by simp [hf]), if_neg]
    intro h
    rw [hf, Bool.not_false, Bool.and_true] at hc
    rw [hc] at h
    cases h
  · subst ht
    unfold settled
    dsimp only
    simp only [h1, h2, Bool.true_and]
    cases x.linkSet <;> simp

/-! ### From a settlement to what it gives -/

/-- Where every window and the sweep's block exist, no frame period faults (R2; log 20). -/
theorem memoryExists_of (s : State) (h : BlocksExist s) : memoryExists s = true := by
  unfold memoryExists
  rw [Bool.and_eq_true]
  refine ⟨?_, decide_eq_true h.2⟩
  rw [Vector.all_eq_true]
  intro i hi
  have := h.1 ⟨i, hi⟩
  unfold lineOf at this
  simp only [Bool.or_eq_true, beq_iff_eq, decide_eq_true_eq]
  by_cases k : s.lines[i].state = .off
  · exact Or.inl k
  · exact Or.inr (this k)

/-- With no frame period in progress nothing ends. -/
theorem endPeriod_none (s : State) (h : s.period = none) : endPeriod s = s := by
  unfold endPeriod
  rw [if_pos (Or.inr h)]

/-- A frame-period command whose condition holds, with no frame period in progress, goes on. -/
theorem framePeriod_next (c : State → Bool) (f : State → State) (s : State) (hr : s.pins.resetHeld = false)
    (hp : s.period = none) (hm : BlocksExist s) (hc : c s = true) : framePeriod c f s = .next (f s) := by
  unfold framePeriod
  rw [endPeriod_none s hp, if_neg (by simp [hr, hc]), if_neg (by simp [memoryExists_of s hm])]

/-- The settlement of a frame period on the expected sequence, ahead of its errors, in settled form (R54, R92). -/
theorem expectedSettled_settled (s : State) (q : Seq) (g : Bool) (memory : List Disturbance) :
  ∃ v told,
    (v = if s.changer.state == .armed && s.changer.target == some q then firedState s else s) ∧
    (told =
      if s.changer.state == .armed && s.changer.target == some q && s.changer.length == 0 then
        raiseCommitDone .notReverted s
      else s) ∧
    expectedSettled q (beginPeriod q g memory s) =
      settled s v told { s.link with expected := q + 1 } (memory.foldl Device.disturb s.device)
        { s.mem with sizing := if s.node.state = .sizing then s.mem.sizing + 1 else s.mem.sizing }
        (s.capture.offer (engineRuns s.node.state) q (.sequence q)) s.decoder s.node
        (Period.begun q (engineRuns s.node.state) s.node.leaving g) false := by
  refine ⟨_, _, rfl, rfl, ?_⟩
  have hb : offerToCapture q (settle q (beginPeriod q g memory s)) =
      settled s s s { s.link with expected := q + 1 } (memory.foldl Device.disturb s.device)
        { s.mem with sizing := if s.node.state = .sizing then s.mem.sizing + 1 else s.mem.sizing }
        (s.capture.offer (engineRuns s.node.state) q (.sequence q)) s.decoder s.node
        (Period.begun q (engineRuns s.node.state) s.node.leaving g) false := rfl
  unfold expectedSettled
  rw [hb, settled_fire]
  cases s.changer.state == .armed && s.changer.target == some q <;> rfl

/-- After a fire no commit is armed. -/
theorem fired_not_armed (s : State) : (firedState s).changer.state ≠ .armed := by
  unfold firedState
  split <;> exact fun h => by cases h

/-- A settlement leaves the maps. -/
theorem Settlement.Gives.maps {x : Settlement} {m : List Disturbance} {s b : State} (h : x.Gives m s b) : b.maps = s.maps := by
  obtain ⟨v, _, _, _, _, e⟩ := h
  rw [e]

/-- One arrival judged, as the statements say it (R94). -/
theorem judge_eq (f : Frame) (l : Link) : (l.judge f).lock = arrivalJudged f l := by
  unfold arrivalJudged Link.judge Link.lock
  cases hk : f.checkGood
  · simp
  · simp only [Bool.true_eq_false, if_false, if_true]
    by_cases h1 : 0 < l.lockRun ∧ f.seq ≠ l.lockSeq + 1
    · simp only [if_pos h1]
    · simp only [if_neg h1]

/-- The arrivals judged in turn (R94): a fold over those taken, none of them after the lock. -/
theorem judgeAll_judges (fs : List Frame) (l : Link) :
    (l.judgeAll fs).1 = (l.judgeAll fs).2.foldl (fun l f => arrivalJudged f l) l ∧
      (∃ rest, fs = (l.judgeAll fs).2 ++ rest ∧ (rest ≠ [] → (l.judgeAll fs).1.receive = .locked)) ∧
      ∀ some_ rest, (l.judgeAll fs).2 = some_ ++ rest → rest ≠ [] →
        (some_.foldl (fun l f => arrivalJudged f l) l).receive = .search := by
  induction fs generalizing l with
  | nil => exact ⟨rfl, ⟨[], rfl, fun h => absurd rfl h⟩, fun a b h k => absurd (List.append_eq_nil_iff.1 h.symm).2 k⟩
  | cons f fs ih =>
    unfold Link.judgeAll
    split
    · rename_i hl
      exact ⟨rfl, ⟨f :: fs, rfl, fun _ => hl⟩, fun a b h k => absurd (List.append_eq_nil_iff.1 h.symm).2 k⟩
    · rename_i hl
      have hs : l.receive = .search := by cases h : l.receive <;> first | rfl | exact absurd h hl
      rw [judge_eq]
      obtain ⟨a, ⟨rest, b, c⟩, d⟩ := ih (arrivalJudged f l)
      refine ⟨a, ⟨rest, by rw [List.cons_append, ← b], c⟩, fun some_ rest' h k => ?_⟩
      cases some_ with
      | nil => exact hs
      | cons g some_ =>
        rw [List.cons_append, List.cons.injEq] at h
        rw [← h.1]
        exact d some_ rest' h.2 k

/-- A frame period's arrivals in SEARCH judged, as the statements say it (R91, R94). -/
theorem search_judges (arrivals : List Frame) (l : Link) :
    Judges arrivals l (l.search arrivals).1 (l.search arrivals).2 := by
  unfold Judges Link.search
  rw [show (fun f : Frame => bitsAt f.head 31 24 == 0xA5) = Frame.syncGood from rfl]
  cases h : arrivals.filter Frame.syncGood with
  | nil =>
    exact ⟨fun _ => ⟨rfl, rfl⟩, fun k => absurd rfl k, ⟨[], rfl, fun k => absurd rfl k⟩,
      fun a b e k => absurd (List.append_eq_nil_iff.1 e.symm).2 k⟩
  | cons f fs =>
    obtain ⟨a, b, c⟩ := judgeAll_judges (f :: fs) l
    exact ⟨fun k => absurd k (by simp), fun _ => a, b, c⟩

/-- An error counted, in settled form (R101). -/
theorem settled_error (s v told : State) (l d m c dec n p) (hp : p.counts = false) :
    errorCounted (settled s v told l d m c dec n p false) =
     let set := min 255 (l.lec + 8) == 255 && !l.link
     let l' :=
       { l with lec := min 255 (l.lec + 8), link := l.link || set, restorePending := l.restorePending || set }
     if set then settled s (if v.changer.state = .armed then disarm v else v)
        (if v.changer.state = .armed then raise .commitLost (raise .linkFault told) else raise .linkFault told) l' d m
        (c.offer p.processed p.seq .linkFault) { dec with protection := .closed } (follow l' n) p
        (decide (n.state = .run) && (l'.link || l'.lost || n.orderCause))
     else settled s v told l' d m c dec n p false := by
  unfold errorCounted
  dsimp only
  have hl : (settled s v told l d m c dec n p false).link = l := rfl
  rw [hl]
  by_cases h : min 255 (l.lec + 8) = 255 ∧ l.link = false
  · rw [if_pos h]
    have hs : (min 255 (l.lec + 8) == 255 && !l.link) = true := by rw [h.1, h.2]; rfl
    rw [hs, if_pos rfl]
    unfold linkSet
    show causesChanged
      (linkEvent
        (settled s v (raise .linkFault told)
          { l with lec := min 255 (l.lec + 8), link := true, restorePending := true } d m
          (c.offer p.processed p.seq .linkFault) { dec with protection := .closed } n p false)) = _
    rw [settled_linkEvent]
    have e :
        { l with lec := min 255 (l.lec + 8), link := true, restorePending := true } =
          { l with
            lec := min 255 (l.lec + 8), link := l.link || true, restorePending := l.restorePending || true } := by
      simp
    by_cases ha : v.changer.state = .armed
    · rw [if_pos ha, settled_causes _ _ _ _ _ _ _ _ _ _ hp, if_pos ha, if_pos ha, e]
    · rw [if_neg ha, settled_causes _ _ _ _ _ _ _ _ _ _ hp, if_neg ha, if_neg ha, e]
  · rw [if_neg h]
    have hs : (min 255 (l.lec + 8) == 255 && !l.link) = false := by
      by_contra hh
      simp at hh
      exact h ⟨by omega, hh.2⟩
    rw [hs]
    simp only [Bool.or_false]
    rfl

/-- A settlement that ends with an error counted is what its `Settlement` gives (R98, R99, R101). -/
theorem error_gives (x : Settlement) (memory : List Disturbance) (s v told : State) (l : Link) (n : Node) (gw : Bool)
    (hv : v = if s.changer.state == .armed && s.changer.target == some x.seq then firedState s else s)
    (ht :
      told =
        if s.changer.state == .armed && s.changer.target == some x.seq && s.changer.length == 0 then
          raiseCommitDone .notReverted s
        else s)
    (hx : x.offered = true ∧ x.jump = false ∧ x.lostSet = false)
    (hs : x.linkSet = (min 255 (l.lec + 8) == 255 && !l.link))
    (hl :
      x.link =
        { l with
          lec := min 255 (l.lec + 8), link := l.link || x.linkSet, restorePending := l.restorePending || x.linkSet })
    (hn : { s.node with state := x.node } = if x.linkSet then follow x.link n else n)
    (hk : engineRuns x.node = engineRuns s.node.state)
    (hr : x.leftRun = (x.linkSet && decide (n.state = .run))) :
    ∃ b, errorCounted (settled s v told l (memory.foldl Device.disturb s.device)
        { s.mem with sizing := if s.node.state = .sizing then s.mem.sizing + 1 else s.mem.sizing }
        (s.capture.offer (engineRuns s.node.state) x.seq (.sequence x.seq)) s.decoder n
        (Period.begun x.seq (engineRuns s.node.state) s.node.leaving gw) false) = b ∧ x.Gives memory s b ∧
      Begun x.seq gw b := by
  refine ⟨_, rfl, ?_⟩
  rw [settled_error _ _ _ _ _ _ _ _ _ _ rfl]
  dsimp only
  rw [← hs, ← hl]
  obtain ⟨h1, h2, h3⟩ := hx
  cases hset : x.linkSet
  · rw [if_neg (by simp)]
    rw [hset] at hn hr
    simp only [Bool.false_eq_true, if_false, Bool.false_and] at hn hr
    have g := settled_gives x memory s (Period.begun x.seq (engineRuns s.node.state) s.node.leaving gw) v told
      (by rw [hv, h1, h2, hset, h3]; simp) (by rw [ht, h1, h2, hset, h3]; simp [raisedAll]) ⟨rfl, rfl⟩
    rw [hset, hr, hn] at g
    simp only [Bool.false_eq_true, if_false] at g
    refine ⟨g, ?_⟩
    have hk' := hk
    unfold Begun
    rw [← hk]
    show some (Period.begun x.seq (engineRuns x.node) s.node.leaving gw) =
      some (Period.begun x.seq (engineRuns n.state) n.leaving gw)
    rw [← hn]
  · rw [if_pos rfl]
    rw [hset] at hn hr
    simp only [if_true, Bool.true_and] at hn hr
    have hf :
        v.changer.state = .armed ↔
          (s.changer.state == .armed) = true ∧
            ¬(s.changer.state == .armed && s.changer.target == some x.seq) = true := by
      rw [hv]
      split
      · rename_i k
        exact ⟨fun h => absurd h (fired_not_armed s), fun h => absurd k h.2⟩
      · rename_i k
        rw [beq_iff_eq]
        exact ⟨fun h => ⟨h, k⟩, fun h => h.1⟩
    have g := settled_gives x memory s (Period.begun x.seq (engineRuns s.node.state) s.node.leaving gw)
      (if v.changer.state = .armed then disarm v else v) 
      (if v.changer.state = .armed then raise .commitLost (raise .linkFault told) else raise .linkFault told)
      (by
        rw [h1, h2, hset, h3, Bool.true_and]
        by_cases k : v.changer.state = .armed
        · rw [if_pos k]
          obtain ⟨k1, k2⟩ := hf.1 k
          rw [hv, if_neg k2, if_neg k2, if_pos (by simp [k1])]
        · rw [if_neg k, hv]
          rw [hf] at k
          split
          · rfl
          · rename_i k2
            rw [if_neg]
            intro k1
            exact k ⟨by simpa using k1, k2⟩)
      (by
        rw [h1, h2, hset, h3, ht]
        by_cases k : v.changer.state = .armed
        · rw [if_pos k]
          obtain ⟨k1, k2⟩ := hf.1 k
          have k3 : s.changer.state = .armed := by simpa using k1
          have k4 : s.changer.target ≠ some x.seq := by simpa [k3] using k2
          simp [raisedAll, k3, k4]
        · rw [if_neg k]
          rw [hf] at k
          cases hA : (s.changer.state == .armed && s.changer.target == some x.seq) with
          | true => simp [raisedAll, hA]
          | false =>
            have : (s.changer.state == .armed) = false := by
              by_contra hh
              exact k ⟨by simpa using hh, by simp [hA]⟩
            simp [raisedAll, this]) ⟨rfl, rfl⟩
    rw [hset, hr, hn] at g
    simp only [if_true] at g
    refine ⟨?_, ?_⟩
    · have e : (decide (n.state = .run) && (l.link || true || l.lost || n.orderCause)) = decide (n.state = .run) := by
        simp
      rw [e]
      exact g
    · unfold Begun
      rw [← hk]
      show some (Period.begun x.seq (engineRuns x.node) s.node.leaving gw) =
        some (Period.begun x.seq (engineRuns (follow x.link n).state) (follow x.link n).leaving gw)
      rw [← hn]

/-- LOST cleared, in settled form (R104). -/
theorem lostCleared_settled (s v told : State) (l d m c dec n p) (hp : p.counts = false)
    (h1 : l.lost = true → n.state ≠ .run) (h2 : l.lost = false → n = n.told l.link false) :
    lostCleared (settled s v told l d m c dec n p false) =
      settled s v told { l with lost := false } d m c dec (n.told l.link false) p false := by
  unfold lostCleared
  by_cases h : l.lost = true
  · rw [if_pos (show (settled s v told l d m c dec n p false).link.lost = true from h)]
    show causesChanged (settled s v told { l with lost := false } d m c dec n p false) = _
    rw [settled_causes _ _ _ _ _ _ _ _ _ _ hp, follow_told,
      show decide (n.state = .run) = false from decide_eq_false (h1 h), Bool.false_and]
  · rw [if_neg (show ¬(settled s v told l d m c dec n p false).link.lost = true from h)]
    simp only [Bool.not_eq_true] at h
    rw [← h2 h]
    have : ({ l with lost := false } : Link) = l := by rw [← h]
    rw [this]

/-- LOST set, in settled form (R63, R100). -/
theorem lostSet_settled (s v told : State) (l d m c dec n p) (hp : p.counts = false) :
    lostSet (settled s v told l d m c dec n p false) =
      settled s (if v.changer.state = .armed then disarm v else v)
        (if v.changer.state = .armed then raise .commitLost (raise .linkLost told) else raise .linkLost told)
        { l with lost := true, restorePending := true } d m c dec (follow { l with lost := true } n) p
        (decide (n.state = .run)) := by
  unfold lostSet
  show causesChanged
    (linkEvent
      (settled s v (raise .linkLost told) { l with lost := true, restorePending := true } d m c dec n p false)) = _
  rw [settled_linkEvent]
  have e : (decide (n.state = .run) && (l.link || true || n.orderCause)) = decide (n.state = .run) := by simp
  by_cases h : v.changer.state = .armed
  · rw [if_pos h, settled_causes _ _ _ _ _ _ _ _ _ _ hp, if_pos h, if_pos h]
    show settled _ _ _ _ _ _ _ _ _ _ (decide (n.state = .run) && (l.link || true || n.orderCause)) = _
    rw [e]
    rfl
  · rw [if_neg h, settled_causes _ _ _ _ _ _ _ _ _ _ hp, if_neg h, if_neg h]
    show settled _ _ _ _ _ _ _ _ _ _ (decide (n.state = .run) && (l.link || true || n.orderCause)) = _
    rw [e]
    rfl

/-- An error forgiven, in settled form (R95, R101). -/
theorem forgiven_settled (s v told : State) (l d m c dec n p) (hp : p.counts = false)
    (hq : l.lost = false) (hno : n = n.told l.link false) :
    errorForgiven (settled s v told l d m c dec n p false) =
      let l' : Link := { l with lec := l.lec - 1, link := l.link && (l.lec - 1 != 0) }
      settled s v told l' d m c dec (n.told l'.link false) p false := by
  unfold errorForgiven
  dsimp only
  have e : (settled s v told l d m c dec n p false).link = l := rfl
  rw [e]
  by_cases h : l.lec - 1 = 0 ∧ l.link = true
  · rw [if_pos h]
    show causesChanged (settled s v told { l with lec := l.lec - 1, link := false } d m c dec n p false) = _
    rw [settled_causes _ _ _ _ _ _ _ _ _ _ hp, follow_told]
    have e1 : (l.link && (l.lec - 1 != 0)) = false := by rw [h.1, h.2]; rfl
    rw [e1]
    have e2 : (decide (n.state = .run) && (false || l.lost || n.orderCause)) = false := by
      rw [hq]
      by_contra hh
      simp only [Bool.not_eq_false, Bool.and_eq_true, decide_eq_true_eq, Bool.or_self, Bool.false_or] at hh
      have k := congrArg Node.state hno
      unfold Node.told at k
      dsimp only at k
      rw [if_pos (Or.inl hh.1), hh.1] at k
      rw [if_pos (Or.inr (Or.inr hh.2))] at k
      cases k
    show settled _ _ _ _ _ _ _ _ (n.told false l.lost) _ (decide (n.state = .run) && (false || l.lost || n.orderCause)) = _
    rw [e2, hq]
  · rw [if_neg h]
    have e1 : (l.link && (l.lec - 1 != 0)) = l.link := by
      cases hl : l.link
      · rfl
      · have : ¬ l.lec - 1 = 0 := fun k => h ⟨k, hl⟩
        simp [this]
    rw [e1, ← hno]
    rfl

end Sys2Proof.Machine
end

