-- ==== Sys2Proof/Tests/Slice0.lean ====
section
/-! SUPPORT. Small tests: ill-formed terms refused, the codes and fields of the link and of the memory word, one step of each
command on a small state with the values of the spec's worked examples, and for each statement with hypotheses a state and
operands that meet them. -/

set_option Elab.async false

namespace Sys2Proof.Tests

open Sys2Proof.Machine

/-! ### Small states -/

/-- A direct order and a group order with a body. -/
def asked (ws : List Word) : Order := { via := .direct, tag := 5, body := ws }

def called (ws : List Word) : Order := { via := .group, tag := 5, body := ws }

/-- In STANDBY and LOCKED at sequence 100, every rank PRESENT, no frame period in progress. -/
def bench : State :=
  { State.reset with
    link := { Link.initial with receive := .locked, startUp := false, expected := 100 }
    mem := { MemCtl.initial [] with present := Vector.replicate 4 true }
    node := { Node.initial with state := .standby }
    slot := { state := .empty, repeatMark := false } }

/-- The bench in a node state. -/
def inNode (n : NodeState) (s : State) : State := { s with node := { s.node with state := n } }

/-- A frame period in progress. -/
def during (p : Period) (s : State) : State := { s with period := some p }

/-- A frame period of a processed frame in progress. -/
def inPeriod (s : State) : State := during (Period.begun 100 true false true) s

/-- Protection as given. -/
def guarded (p : Protection) (s : State) : State := withProtection p s

/-- A line of 2 blocks from a base on, in a state. -/
def withLine (n : Line) (st : LineState) (base : Nat) (s : State) : State :=
  { s with lines := s.lines.set n { LineRec.initial with state := st, base, length := 2 } }

/-- A return queue of some returns. -/
def queued (n : Nat) (s : State) : State :=
  { s with arbiter := { s.arbiter with returns := List.replicate n { words := [1, 2, 3], isReset := false } } }

/-- The changer and the roles as given. -/
def withRoles (st : ChangerState) (a b : Role) (s : State) : State :=
  { s with
    changer := { Changer.steady with state := st, target := if st = .armed then some 104 else none, length := 4 }
    scenes := { s.scenes with a := { s.scenes.a with role := a }, b := { s.scenes.b with role := b } } }

/-- Bank B with a tap list. -/
def withTaps (ts : List Tap) (s : State) : State :=
  { s with scenes := { s.scenes with b := { s.scenes.b with bank := { s.scenes.b.bank with taps := ts } } } }

/-- An output's guard record as given. -/
def withOutput (c : Output) (g : GuardRec) (s : State) : State :=
  { s with guard := { s.guard with outputs := s.guard.outputs.set c g } }

/-- The capture recorder in a state. -/
def withCapture (st : CaptureState) (s : State) : State :=
  { s with capture := { s.capture with state := st, remaining := 1 } }

/-- A plain tap and a modulated one. -/
def plain : Tap := { line := 2, delay := 1000, gain := 16384, output := 5, modulation := none }

def moving : Tap :=
  { line := 3, delay := 500, gain := -8192, output := 5, modulation := some { depth := 4, period := 480, start := 75 } }

/-- A frame that the frame source sends, with a sequence. -/
def sent (q : Seq) : Frame := buildFrame q false (Vector.replicate 64 0) .idle 0

/-- The same frame with its check failed. -/
def spoilt (q : Seq) : Frame := { sent q with check := 0 }

/-- The state after a command; a command that does not answer a next state leaves `s`. -/
def after (c : Instr) (s : State) : State :=
  match exec c s with
  | .next t => t
  | _ => s

/-- A command answers a next state. -/
def goesOn (c : Instr) (s : State) : Bool :=
  match exec c s with
  | .next _ => true
  | _ => false

/-- The body of the return that a command queued last. -/
def answer (c : Instr) (s : State) : List Word :=
  (((after c s).arbiter.returns.getLast?).map fun r => (r.words.drop 1).dropLast).getD []

/-! ### Ill-formed commands -/

theorem test_wf_order_body : (Instr.go (asked (List.replicate 33 0))).wf = false ∧
    (Instr.go (asked (List.replicate 32 0))).wf = true := by decide

theorem test_wf_good_frame : (Instr.goodFrame (spoilt 1) []).wf = false ∧
    (Instr.goodFrame { sent 1 with head := 0 } []).wf = false := by decide +kernel

theorem test_wf_bad_frame : (Instr.badFrame (sent 1) []).wf = false ∧
    (Instr.badFrame { spoilt 1 with head := 0 } []).wf = false := by decide +kernel

theorem test_wf_resumption_frame : (Instr.resumptionFrame { sent 1 with head := 0 } []).wf = false := by decide +kernel

theorem test_wf_disturbance : (Instr.linkLost [.upset 16777216 1]).wf = false ∧
    (Instr.missingFramePeriod [.defect 16777216 1]).wf = false ∧
    (Instr.localFrame [] [.upset 16777215 1]).wf = true ∧
    (Instr.startUpSearchPeriod [] [.upset 16777216 1]).wf = false := by decide

theorem test_wf_unknown_order : (Instr.unknownOrder 0 9 (asked [])).wf = false ∧
    (Instr.unknownOrder 0 10 (asked [])).wf = true ∧ (Instr.unknownOrder 9 0 (asked [])).wf = true := by decide

/-! ### Codes and fields -/

/-- Bits 0, 1 and 23 have columns 7, 11 and 73 (R2). -/
theorem test_columns : columns.length = 24 ∧ columns.getD 0 0 = 7 ∧ columns.getD 1 0 = 11 ∧ columns.getD 23 0 = 73 := by
  decide

theorem test_word_code : checkWord (encodeWord 0x123456) = .sound 0x123456 ∧
    checkWord (encodeWord 0x123456 ^^^ 1#31 <<< 5) = .corrected 0x123456 5 ∧
    checkWord (encodeWord 0x123456 ^^^ 1#31 <<< 30) = .corrected 0x123456 30 ∧
    checkWord (encodeWord 0x123456 ^^^ 3#31) = .uncorrectable := by decide +kernel

/-- The CRC-16 of the four bytes "1234" and the CRC-32 of four zero bytes (R172, R173). -/
theorem test_crc : crc16 [0x31323334#32] = 0x5349#16 ∧ crc32 [0#32] = 0x38FB2284#32 := by decide +kernel

theorem test_frame_fields : (sent 0x1234).syncGood = true ∧ (sent 0x1234).checkGood = true ∧ (sent 0x1234).seq = 0x1234 ∧
    (sent 0x1234).head = 0xA5123400#32 ∧ (spoilt 7).checkGood = false := by decide +kernel

theorem test_head_fields : headWord 1 0x12 5 3 2 9 = 0x44943089#32 ∧ headClass 0x44943089#32 = 1 ∧
    headAddress 0x44943089#32 = 0x12 ∧ headSection 0x44943089#32 = 5 ∧ headVerb 0x44943089#32 = 3 ∧
    headLength 0x44943089#32 = 2 ∧ headTag 0x44943089#32 = 9 := by decide

/-- The delay of tap 1 in "one output over one frame": 501, and 64/256 of the way to 502 (R38). -/
theorem test_tap_delay : tapDelay moving 75 = (501, 64) := by decide

/-- Its interpolated sample (R39). -/
theorem test_interpolate : interpolate 40000 48000 64 = 42000 := by decide

/-- U(5) in STEADY, and at k = 1200 of 4800 (R45). -/
theorem test_pre_trim : steadyValue (1294336000 * 16384) = 39500 ∧
    fadingValue 4800 1200 (1294336000 * 16384) (327680000 * 32768) = 34625 := by decide

/-- The trimmed peak of block 3 in "an output driven into feedback" (R75). -/
theorem test_trimmed : trimmed { GuardRec.initial with trim := 1 } 2600000 = 2186292 := by decide

/-- Samples leave the part packed four in three words (R174). -/
theorem test_pack_samples : packSamples [0x123456, 0x789ABC, 0xDEF012, 0x345678] =
    [0x12345678#32, 0x9ABCDEF0#32, 0x12345678#32] ∧ packSamples [0x123456] = [0x12345600#32] := by decide

/-! ### One step of each command -/

theorem test_reset_pin : (after .resetPinAsserted (inPeriod bench)).pins.resetHeld = true ∧
    (after (.pinReset 9) (after .resetPinAsserted bench)).decoder.pattern = 9 ∧
    after (.go (asked [])) (after .resetPinAsserted bench) = after .resetPinAsserted bench := by decide +kernel

theorem test_sizing_end :
    (after .sizingEnd (inPeriod { inNode .sizing bench with mem := { MemCtl.initial [] with sizing := 96 } })).node.state =
      .standby ∧
    (after .sizingEnd (inPeriod { inNode .sizing bench with mem := { MemCtl.initial [] with sizing := 95 } })).node.state =
      .sizing := by decide +kernel

theorem test_reset_takes_effect :
    (after .resetTakesEffect
      { bench with period := some { Period.begun 100 true false true with resetDue := true }, fresh := 3 }).node.state = .sizing := by
  decide +kernel

theorem test_search_locks :
    (after (.startUpSearchPeriod [sent 41] [])
      { State.reset with link := { Link.initial with lockRun := 2, lockSeq := 40 } }).link.receive = .locked ∧
    (after (.startUpSearchPeriod [sent 43] [])
      { State.reset with link := { Link.initial with lockRun := 2, lockSeq := 40 } }).link.lockRun = 1 := by decide +kernel

/-- A frame period of the start-up search in which some frames arrive, the lock run at 1. -/
def searching (arrivals : List Frame) : State :=
  after (.startUpSearchPeriod arrivals []) { State.reset with link := { Link.initial with lockRun := 1, lockSeq := 40 } }

/-- Each arrival of a search period is judged and repeated, up to the one that locks; one without a good sync is none (R91 to
R94). -/
theorem test_search_judges_each : (searching [sent 41, sent 42, sent 43]).link.receive = .locked ∧
    (searching [sent 41, sent 42, sent 43]).link.expected = 43 ∧
    (searching [sent 41, sent 42, sent 43]).sent = [sent 41, sent 42] ∧
    (searching [spoilt 41, sent 42]).link.lockRun = 1 ∧ (searching [spoilt 41, sent 42]).sent = [spoilt 41, sent 42] ∧
    (searching [{ sent 41 with head := 0 }]).link.lockRun = 0 ∧ (searching [{ sent 41 with head := 0 }]).sent = [] := by
  decide +kernel

/-- An order has no effect in a frame period that gave the decoder no service word, nor while LOST is set (R103, R104, R169). -/
theorem test_orders_wait_for_service_words : ∀ s go, go = Instr.go (asked []) →
      s = { bench with link := { bench.link with receive := .search, lost := true, lockRun := 2, lockSeq := 40 } } →
    (after (.localFrame [sent 41] []) s).link.receive = .locked ∧
      after go (after (.localFrame [sent 41] []) s) = after (.localFrame [sent 41] []) s ∧
      after go (searching [sent 41, sent 42]) = searching [sent 41, sent 42] ∧
      after go (after (.badFrame (spoilt 100) []) bench) = after (.badFrame (spoilt 100) []) bench ∧
      after go (after (.missingFramePeriod []) bench) = after (.missingFramePeriod []) bench ∧
      (after go (after (.resumptionFrame (sent 100) []) (after (.localFrame [sent 41] []) s))).arbiter.returns.length = 1 := by
  rintro s go rfl rfl; decide +kernel

theorem test_start_up_limit :
    (after .startUpLimit
      (inPeriod { State.reset with link := { Link.initial with startUpCount := 480 } })).link.lost = true := by decide +kernel

theorem test_good_frame : (after (.goodFrame (sent 100) []) bench).link.expected = 101 ∧
    (after (.goodFrame (sent 105) []) bench).link.lec = 8 ∧ (after (.goodFrame (sent 105) []) bench).link.jumps = 1 := by
  decide +kernel

theorem test_bad_frame : (after (.badFrame (spoilt 7) []) bench).link.badFrames = 1 ∧
    (after (.badFrame (spoilt 7) []) bench).link.expected = 101 := by decide +kernel

theorem test_missing_frame : (after (.missingFramePeriod []) bench).link.missing = 1 ∧
    (after (.linkLost []) { bench with link := { bench.link with missing := 3 } }).link.lost = true ∧
    after (.linkLost []) bench = bench := by decide +kernel

theorem test_local_frame :
    (after (.localFrame [] []) { bench with link := { bench.link with receive := .search, lost := true } }).link.expected =
      101 := by decide +kernel

theorem test_resumption_frame :
    (after (.resumptionFrame (sent 100) []) { bench with link := { bench.link with lost := true } }).link.lost = false := by
  decide +kernel

/-- LINE-READY of "two lines brought into service": line 2 of 2 blocks after 2048 words. -/
theorem test_end_of_clearing :
    lineOf
      (after .endOfClearing
        (inPeriod { withLine 2 .clearing 4 bench with mem := { bench.mem with clearing := [2], zeroed := 2048 } })) 2 =
      { LineRec.initial with state := .running, base := 4, length := 2 } := by decide +kernel

theorem test_fire_frame :
    (after .fireFrame (withRoles .armed .live .armed { bench with link := { bench.link with expected := 104 } })).changer =
      { state := .fading, target := none, length := 4, position := 1, direction := .forward } := by decide +kernel

theorem test_fade_ends :
    (after .fadeEnd
      (inPeriod
        { withRoles .fading .outgoing .incoming bench with
          changer := { state := .fading, target := none, length := 4, position := 4, direction := .forward } })).scenes.b.role =
      .live ∧
    (after .revertedFadeEnd
      (inPeriod
        { withRoles .fading .outgoing .incoming bench with
          changer := { state := .fading, target := none, length := 4, position := 0, direction := .back } })).scenes.a.role =
      .live := by decide +kernel

/-- Block 2 of "an output driven into feedback and released": the strain count reaches 16. -/
theorem test_block_end :
    (GuardRec.judge
      { ceiling := 2000000, rise := 8, strainLimit := 16, maxSteps := 2, recovery := 10, clipRun := 0 }
      { GuardRec.initial with strain := 8, peak := 2600000 }) =
      ({ GuardRec.initial with state := .trimmed, trim := 1, peak := 2600000 }, some .guardStep) := by decide

theorem test_clip_run_mute :
    ((after (.clipRunMute 7)
      { bench with period := some { Period.begun 100 true false true with clipDue := [7] } }).guard.outputs[7]).cause =
      some .clip := by decide +kernel

theorem test_leaving_end :
    (after .leavingForStandbyEnd
      (inPeriod { bench with node := { bench.node with state := .run, ramp := 10, leaving := true } })).node =
      { Node.initial with state := .standby } := by decide +kernel

theorem test_sweep_complete :
    (after .sweepComplete
      (inPeriod { inNode .sweep bench with mem := { bench.mem with sweepEnded := true } })).mem.sweep.outcome = .complete := by
  decide +kernel

theorem test_capture_end : (after .captureEnd (inPeriod (withCapture .post bench))).capture.state = .done := by
  decide +kernel

theorem test_holdoff_expiry :
    (after .holdoffExpiry
      (inPeriod { bench with events := { bench.events with notice := .holdoff, timer := 1 } })).slot.state = .waiting := by
  decide +kernel

theorem test_own_starts :
    ((after .noticeStart
      { bench with
        period := some { Period.begun 100 true false true with ownStart := some (.notice, ⟨100, false, emptySlots⟩) } }).sent.map
          Frame.kind) = [.head] ∧
    ((after .returnStart
      { queued 1 bench with
        period := some { Period.begun 100 true false true with ownStart := some (.ret, ⟨100, false, emptySlots⟩) } }).sent.map
          (·.service)) = [1#32] := by decide +kernel

theorem test_unknown_order : answer (.unknownOrder 9 0 (asked [])) bench = [0x0B000000#32] ∧
    answer (.unknownOrder 0 10 (asked [])) bench = [0x0B000001#32] := by decide +kernel

theorem test_ident : (answer (.ident (asked [])) bench).take 4 =
    [0#32, 0x7420020F#32, 16384#32, 0x00FF0100#32] := by decide +kernel

theorem test_go_and_standby : answer (.go (asked [])) bench = [2#32] ∧
    (after (.go (asked [])) bench).node.state = .run ∧ answer (.standby (asked [])) (inNode .run bench) = [2#32] ∧
    (after (.standby (asked [])) (inNode .run bench)).node.leaving = true := by decide +kernel

theorem test_silence_and_resume : answer (.silence (asked [])) (inNode .run bench) = [4#32] ∧
    (after (.silence (called [])) (inNode .run bench)).node.state = .silent ∧
    answer (.resume (asked [])) (inNode .silent bench) = [0#32] ∧
    (after (.resume (called [])) (inNode .silent bench)).node.state = .run := by decide +kernel

theorem test_sweep : (after (.sweep (asked [])) bench).node.state = .sweep ∧
    answer (.sweep (asked [])) (withLine 3 .faulted 0 bench) = [0x03000301#32] := by decide +kernel

/-- "Opening protection with an interruption": step 3 out of its place closes. -/
theorem test_unlock_and_lock :
    (after (.unlock (asked [2])) (guarded .opening1 bench)).decoder.protection = .opening2 ∧
    answer (.unlock (asked [3])) (guarded .opening1 bench) = [0x03000000#32] ∧
    answer (.lockOrder (asked [])) (guarded .open_ bench) = [4#32] := by decide +kernel

theorem test_set_address :
    (after (.setAddress (asked [0x2A07])) (guarded .open_ bench)).decoder.pattern = 0x2A ∧
    answer (.setAddress (asked [0xFF00])) (guarded .open_ bench) = [0x06000000#32] ∧
    answer (.setAddress (asked [0x2A07])) bench = [0x04000000#32] := by decide +kernel

theorem test_reset_order :
    (after (.reset (asked [])) (guarded .open_ bench)).node.resetPending = true := by decide +kernel

theorem test_maps : answer (.writeInMap (asked [0x1705])) bench = [255#32] ∧
    answer (.writeOutMap (asked [0x0105])) (guarded .open_ (after (.writeOutMap (asked [0x0005])) (guarded .open_ bench))) =
      [0x06000020#32] ∧
    (answer (.readMap (asked [])) bench).length = 15 := by decide +kernel

/-- The rows of "two lines brought into service": WRITE-WINDOW, START, WRITE-FEED, STOP. -/
theorem test_write_window :
    lineOf (after (.writeWindow (asked [0, 0x00000004])) (guarded .open_ bench)) 0 =
      { LineRec.initial with base := 0, length := 4 } := by decide +kernel

theorem test_write_feed :
    answer (.writeFeed (asked [0x00000200, 0x03004000, 0, 0x81002328, 2000]))
      (withLine 1 .clearing 4 bench) = [0#32] ∧
    answer (.writeFeed (asked [0x00000200, 0x03004000, 0, 0x81002328, 2048]))
      (withLine 1 .clearing 4 bench) = [0x06000001#32] := by decide +kernel

theorem test_start_and_restart : (after (.start (asked [0])) bench).mem.clearing = [0] ∧
    answer (.start (asked [0])) (withLine 0 .running 0 bench) = [0x03000002#32] ∧
    (lineOf (after (.restart (asked [2]) false) (withLine 2 .faulted 4 bench)) 2).state = .clearing := by decide +kernel

theorem test_stop :
    (after (.stop (asked [1]) false)
      { withLine 1 .clearing 4 bench with mem := { bench.mem with clearing := [1], zeroed := 896 } }).mem.zeroed = 0 ∧
    answer (.stop (asked [2]) false) { withLine 2 .running 4 bench with scenes := { bench.scenes with inUse := 4 } } =
      [0x05000002#32] := by decide +kernel

theorem test_read_line : answer (.readLine (asked [2])) (withLine 2 .running 4 bench) =
    [0#32, 0x02000004#32, 0x00020000#32, 0#32, 0#32, 0#32, 0#32] := by decide +kernel

theorem test_header_and_output : (after (.writeHeader (asked [7, 96000])) bench).scenes.b.bank.defaultFade = 96000 ∧
    answer (.writeHeader (asked [7, 96001])) bench = [0x06000001#32] ∧
    (after (.writeOutput (asked [0x05010107, 0x8000])) bench).scenes.b.bank.outputs[5] =
      { enabled := true, gain := 0x8000, polarity := .inverted, profile := 7 } := by decide +kernel

/-- APPEND-TAP as in "building a staged scene to its budget": with 511 plain taps a modulated one would cost 513. -/
theorem test_taps :
    answer (.appendTap (asked [0x03050001, 500, 0x0004E000, 480, 75])) (withTaps [plain] bench) = [1#32] ∧
    answer (.appendTap (asked [0x03050001, 500, 0x0004E000, 480, 75])) (withTaps (List.replicate 511 plain) bench) =
      [0x080001FF#32] ∧
    (after (.replaceTap (asked [0, 0x03050001, 500, 0x0004E000, 480, 75])) (withTaps [plain] bench)).scenes.b.bank.taps =
      [moving] := by decide +kernel

theorem test_truncate_and_copy : answer (.truncate (asked [1])) (withTaps [moving, plain] bench) = [2#32] ∧
    answer (.truncate (asked [3])) (withTaps [moving, plain] bench) = [0x06000000#32] ∧
    (after (.copyLive (asked [])) (withTaps [moving] bench)).scenes.b.bank.taps = [] := by decide +kernel

theorem test_read_bank : answer (.readBank (asked [0x12010000])) (withTaps [moving] bench) =
    [0#32, 0x01010001#32, 1#32, 0x03050001#32, 500#32, 0x0004E000#32, 480#32, 75#32] ∧
    answer (.readBank (asked [0x50000000])) bench = [0x060000FF#32] := by decide +kernel

/-- COMMIT with S = 104 in "a scheduled fade turned back" (there 1004 at E = 1001), and one frame late. -/
theorem test_commit : answer (.commit (asked [0xC0000068, 4])) (inNode .run bench) = [104#32] ∧
    (after (.commit (called [0xC0000068, 4])) (inNode .run bench)).changer.state = .armed ∧
    answer (.commit (asked [0xC0000064, 4])) (inNode .run bench) = [0x0A000064#32] := by decide +kernel

theorem test_cancel_and_revert :
    (after (.cancel (asked [])) (withRoles .armed .live .armed bench)).scenes.b.role = .staged ∧
    answer (.cancel (asked [])) bench = [0x03000000#32] ∧
    (after (.revert (asked [])) (withRoles .fading .outgoing .incoming bench)).changer.direction = .back := by decide +kernel

/-- WRITE-PROFILE of profile 3 as in "an output driven into feedback and released". -/
theorem test_profiles : answer (.writeProfile (asked [0x03080200, 2000000, 0x0010000A])) bench = [0#32] ∧
    answer (.readProfile (asked [3])) (after (.writeProfile (asked [0x03080200, 2000000, 0x0010000A])) bench) =
      [0#32, 0x03080200#32, 2000000#32, 0x0010000A#32] ∧
    answer (.writeProfile (asked [0x03080201, 2000000, 0x0010000A])) bench = [0x06000006#32] := by decide +kernel

/-- RELEASE of output 12 in the same example: TRIMMED at max steps. -/
theorem test_guard_orders :
    answer (.release (asked [12])) (withOutput 12 { GuardRec.initial with state := .muted, cause := some .strain } bench) =
      [8#32] ∧
    answer (.release (asked [12])) bench = [0x03000000#32] ∧
    (answer (.readGuard (asked [0x1F01])) bench) = [0#32, 0#32, 0x1F000000#32, 0#32, 48#32] := by decide +kernel

theorem test_events : (answer (.readEvents (asked [])) bench).take 4 = [0#32, 1#32, 0x1FFFF#32, 0x010A0000#32] ∧
    (after (.readAndClear (asked [])) bench).events.flags = 0 ∧
    answer (.clearEvents (asked [3])) bench = [1#32] ∧
    (after (.writeEnables (asked [1])) { bench with events := { bench.events with notice := .quiet } }).slot.state =
      .waiting ∧
    (after (.writeHoldoff (asked [255])) bench).events.holdoff = 12240 := by decide +kernel

/-- A clear that names GUARD-STEP empties the guard-output set with GUARD-MUTE alone set, which stays (R133). -/
theorem test_clear_names_a_guard_flag : ∀ e, e = (after (.clearEvents (asked [0x80])) (raiseGuard .guardMute 5 bench)).events →
    (raiseGuard .guardMute 5 bench).events.guardOutputs = 32 ∧ e.guardOutputs = 0 ∧ e.has .guardMute = true := by
  rintro e rfl; decide +kernel

theorem test_checks : answer (.writeMode (asked [3])) bench = [2#32] ∧ answer (.writeMode (asked [4])) bench =
    [0x06000000#32] ∧
    answer (.readCheck (asked []))
      { bench with checks := { seen := 3, record := some ⟨.uncorrected, 0, 5, some 2, none, 9⟩, mode := .serious } } =
      [0#32, 0x02000F03#32, 0x901F0200#32, 0x00090005#32, 0#32, 0#32, 16384#32] ∧
    answer (.clearCheck (asked [])) { bench with checks := { seen := 3, record := none, mode := .serious } } = [3#32] ∧
    answer (.readBadBlocks (asked [1])) { bench with mem := { bench.mem with badBlocks := [4, 5, 6] } } =
      [0#32, 3#32, 0#32, 0#32, 0x00050006#32] := by decide +kernel

theorem test_capture_orders : answer (.setUp (asked [0x020C0101, 8191, 31])) bench = [0#32] ∧
    answer (.setUp (asked [0x020C0101, 8192, 31])) bench = [0x06000003#32] ∧
    answer (.arm (asked [])) bench = [2#32] ∧
    answer (.captureTrigger (asked [])) (withCapture .rolling bench) = [0#32] ∧
    answer (.captureTrigger (asked [])) bench = [0x03000000#32] ∧
    answer (.captureStop (asked [])) (withCapture .rolling bench) = [0#32] := by decide +kernel

theorem test_capture_reads : (answer (.readCapture (asked [])) (withCapture .rolling bench)).take 3 =
    [0#32, 2#32, 0x00000100#32] ∧
    answer (.readSamples (asked [1]))
      { bench with
        capture :=
          { bench.capture with state := .done, ring := [(0, 0x123456)], record := { CaptureRec.empty with held := 1 } } } =
      [0#32, 1#32, 0x12345600#32] := by decide +kernel

theorem test_link_orders : (answer (.readLink (asked [])) bench).take 3 = [0#32, 0x01000000#32, 100#32] ∧
    (after (.clearCounters (asked [])) { bench with link := { bench.link with jumps := 5 } }).link.jumps = 0 := by
  decide +kernel

/-- An order reaches a part whose receiver is LOCKED, not one in SEARCH (R103, R169). -/
theorem test_orders_in_search :
    after (.go (asked [])) { bench with link := { bench.link with receive := .search } } =
      { bench with link := { bench.link with receive := .search } } ∧
    (after (.go (asked [])) bench).node.state = .run := by decide +kernel

/-- READ-BANK in the frame period of a processed frame gives the phase that the next one will use (R34). -/
theorem test_read_bank_phase :
    (answer (.readBank (asked [0x02010000]))
      (after (.goodFrame (sent 100) [])
        { bench with
          scenes :=
            { bench.scenes with a := { bench.scenes.a with bank := { bench.scenes.a.bank with taps := [moving] }, phases := [75] } } })).getLast? =
      some 76#32 := by decide +kernel

/-- A block end of the frame period of a RELEASE leaves the recovery timer at 0 in either order (R86). -/
theorem test_release_at_block_end : ∀ s, s =
      during { Period.begun 100 true false true with counts := true }
        { withOutput 31 { GuardRec.initial with state := .muted, cause := some .strain } bench with
          guard :=
            { (withOutput 31 { GuardRec.initial with state := .muted, cause := some .strain } bench).guard with
              blockCount := 47 } } →
    (after .blockEnd (after (.release (asked [31])) s)).guard.outputs[31] =
        { GuardRec.initial with state := .trimmed, trim := 8 } ∧
      (after (.release (asked [31])) (after .blockEnd s)).guard.outputs[31] =
        { GuardRec.initial with state := .trimmed, trim := 8 } := by
  rintro s rfl; decide +kernel

/-- STANDBY at p = 0 ends at the end of the next processed frame, not of the one it was taken in (R163). -/
theorem test_standby_at_zero : ∀ s, s = { bench with node := { bench.node with state := .run, leaving := true } } →
    (endPeriod (during (Period.begun 100 true false true) s)).node.state = .run ∧
      (endPeriod (during (Period.begun 101 true true true) s)).node.state = .standby := by
  rintro s rfl; decide +kernel

/-- The frame period in which the END of the oldest of 8 returns leaves. -/
def returning : State :=
  after (.goodFrame (sent 100) [])
    { queued 8 bench with arbiter := { (queued 8 bench).arbiter with sending := some (.ownReturn 2) } }

/-- That return counts for an order of the same frame period, and no longer at its end (R120, R129). -/
theorem test_return_leaves_last : returning.arbiter.returns.length = 8 ∧
    (after (.go (asked [])) returning).node.state = .standby ∧
    (after (.go (asked [])) returning).events.flags.getLsbD 15 = true ∧ (endPeriod returning).arbiter.returns.length = 7 := by
  decide +kernel

/-- The frame period in which the rank under test stops answering a sweep. -/
def losing : State :=
  after (.goodFrame (sent 100) [.answers 0 (some 0)])
    { inNode .sweep bench with mem := { bench.mem with sweep := { bench.mem.sweep with outcome := .running, block := 7 } } }

/-- The sweep record names the next PRESENT rank from the end of that frame period on (R21). -/
theorem test_sweep_moves : losing.mem.present[(0 : Rank)] = false ∧ losing.mem.sweep.block = 7 ∧
    (endPeriod losing).mem.sweep.rank = 1 ∧ (endPeriod losing).mem.sweep.block = 4096 := by decide +kernel

/-! ### Witnesses

For each statement with hypotheses, states and operands that meet them. An order that reaches its owner is given with the
first word of its return, which shows the clause of the statement that it falls under; the values lie where clauses meet. -/

/-- A direct order reaches its owner, and its return begins with a word. -/
def replies (f : Order → Instr) (v : Verb) (s : State) (ws : List Word) (first : Word) : Bool :=
  decide (DirectReady v (asked ws) s) && (answer (f (asked ws)) s).headD 0xFFFFFFFF == first

/-- A group order reaches its owner and answers a next state. -/
def taken (f : Order → Instr) (v : Verb) (s : State) (ws : List Word) : Bool :=
  decide (GroupReady v (called ws) s) && goesOn (f (called ws)) s

/-- The bench with protection OPEN. -/
def openBench : State := guarded .open_ bench

/-- The bench held in reset. -/
def held : State := { bench with pins := { bench.pins with resetHeld := true } }

/-- The bench with a reset due at the end of the frame period in progress. -/
def resetDue : State := during { Period.begun 100 true false true with resetDue := true } bench

/-- A frame period closes on a state as it stands: no own message and no completed order is to come ahead of the close. -/
def closing (p : Period) (s : State) : Bool :=
  decide (p.ownStart = none) && s.decoder.ready.isNone && !s.pins.resetHeld

/-- Such a state meets the premise of the statements about the close. -/
theorem closes_of_closing {p : Period} {s : State} (h : closing p s = true) :
    Closes (during p s) (during p s) p (endPeriod (during p s)) := by
  simp only [closing, Bool.and_eq_true, decide_eq_true_eq, Option.isNone_iff_eq_none, Bool.not_eq_true'] at h
  refine ⟨h.2, by simp [during], ?_, rfl, rfl⟩
  simp [runReady, startOwn, waitingFor, during, h.1.1, h.1.2]

/-- The bench with causes held. -/
def caused (link lost order : Bool) (s : State) : State :=
  { s with link := { s.link with link, lost }, node := { s.node with orderCause := order } }

theorem witness_close : framePeriodCommand (.linkLost []) = true ∧
    closing { Period.begun 100 true false true with resetDue := true } bench = true ∧
    closing { Period.begun 100 true false true with returnLeft := true } (queued 8 bench) = true := by decide +kernel

theorem witness_queue : ({ bench with pending := [.go (asked [])] } : State).pending = .go (asked []) :: [] ∧
    bench.pending = [] ∧ bench.period = none ∧ held.pending = [] ∧ held.pins.resetHeld = true ∧
    (inPeriod bench).pending = [] ∧ (inPeriod bench).period ≠ none ∧ (inPeriod bench).pins.resetHeld = false := by
  decide +kernel

theorem witness_resets : held.pins.resetHeld = true ∧ Instr.go (asked []) ≠ .resetPinAsserted ∧
    DirectReady Verb.reset (asked []) openBench ∧ resetDue.pins.resetHeld = false ∧
    (resetDue.period.map (·.resetDue)) = some true ∧ resetDue.decoder.ready = none := by decide +kernel

theorem witness_direct_tests : commandVerb (.setAddress (asked [])) = some Verb.setAddress ∧
    (Instr.setAddress (asked [])).order = some (asked []) ∧ OrdersReach (queued 8 bench) ∧ OrdersReach (queued 7 bench) ∧
    ¬OrdersReach held ∧ ¬OrdersReach { bench with link := { bench.link with receive := .search } } ∧
    ¬OrdersReach { bench with begun := some false } ∧ ¬OrdersReach { bench with link := { bench.link with lost := true } } ∧
    ¬OrdersReach (during (Period.begun 100 true false false) bench) ∧ OrdersReach (inPeriod bench) ∧
    (queued 8 bench).arbiter.returns.length = 8 ∧ (queued 7 bench).arbiter.returns.length = 7 ∧
    Verb.setAddress.lengthOk (asked []) = false ∧ Verb.setAddress.lengthOk (asked [1]) = true ∧
    Verb.setAddress.guarded = true ∧ (queued 7 bench).decoder.protection ≠ .open_ := by decide +kernel

/-- Body lengths at their kinds, and what an order's owner sees of the decoder. -/
theorem witness_lengths_and_owner : Verb.reset.length = .words 0 ∧ Verb.writeFeed.length = .perTerm ∧
    Verb.writeFeed.lengthOk (asked [0x0100, 1, 2]) = true ∧ Verb.writeFeed.lengthOk (asked [0x0200, 1, 2]) = false ∧
    (opened Verb.go (asked []) (guarded .opening2 bench)).decoder.protection = .closed ∧
    (opened Verb.unlock (asked [3]) (guarded .opening2 bench)).decoder.protection = .opening2 ∧
    (opened Verb.unlock (asked []) (guarded .opening2 bench)).decoder.protection = .closed := by decide +kernel

theorem witness_group_tests : commandVerb (.go (called [])) = some Verb.go ∧ (Instr.go (called [])).order = some (called []) ∧
    OrdersReach bench ∧ Verb.go.groupable = false ∧ commandVerb (.commit (called [1])) = some Verb.commit ∧
    Verb.commit.groupable = true ∧ Verb.commit.lengthOk (called [1]) = false := by decide +kernel

theorem witness_unknown : [10, 3, 6, 10, 4, 5, 4, 6, 2].getD (8#4).toNat 0 ≤ (2#6).toNat ∧
    [10, 3, 6, 10, 4, 5, 4, 6, 2].getD (9#4).toNat 0 ≤ (0#6).toNat ∧ OrdersReach bench ∧
    answer (.unknownOrder 8 2 (asked [])) bench = [0x0B000001#32] ∧
    answer (.unknownOrder 9 0 (asked [])) (queued 7 bench) = [0x0B000000#32] ∧
    (after (.unknownOrder 15 63 (asked [])) (queued 8 bench)).events.flags.getLsbD 15 = true ∧
    (after (.unknownOrder 8 2 (called [])) bench).events.flags.getLsbD 16 = true := by decide +kernel

theorem witness_refused : commandVerb (.go (asked [])) = some Verb.go ∧ (Instr.go (asked [])).order = some (asked []) ∧
    replies .go Verb.go (inNode .run bench) [] 0x03000002 = true ∧
    replies .unlock Verb.unlock bench [5] 0x06000000 = true := by
  decide +kernel

theorem witness_protection : (Instr.go (asked [])).wf = true ∧ (Instr.go (asked [])).order = some (asked []) ∧
    OrdersReach (queued 8 bench) ∧ OrdersReach bench ∧ (queued 8 bench).arbiter.returns.length = 8 ∧
    (Instr.commit (called [0, 0])).wf = true ∧ (Instr.commit (called [0, 0])).order = some (called [0, 0]) ∧
    replies .unlock Verb.unlock openBench [7] 4 = true ∧ replies .unlock Verb.unlock bench [0] 0x06000000 = true ∧
    replies .unlock Verb.unlock bench [1] 1 = true ∧ replies .unlock Verb.unlock (guarded .opening1 bench) [2] 2 = true ∧
    replies .unlock Verb.unlock (guarded .opening2 bench) [3] 3 = true ∧
    replies .unlock Verb.unlock (guarded .opening3 bench) [4] 4 = true ∧
    replies .unlock Verb.unlock (guarded .opening2 bench) [2] 0x03000000 = true ∧
    replies .unlock Verb.unlock (guarded .opening1 bench) [3] 0x03000000 = true ∧
    replies .unlock Verb.unlock bench [4] 0x03000000 = true ∧ replies .lockOrder Verb.lock openBench [] 4 = true ∧
    replies .lockOrder Verb.lock (guarded .opening2 bench) [] 0 = true := by decide +kernel

theorem witness_completed_order :
    ∀ s, s = (fun (sec : BitVec 4) (verb : BitVec 6) =>
        { bench with decoder := { bench.decoder with ready := some { sec, verb, order := asked [] } } }) →
      commandVerb (.go (asked [])) = some Verb.go ∧ (Instr.go (asked [])).order = some (asked []) ∧
        met (.go (asked [])) (s 0 1) = s 0 1 ∧ OrdersReach (s 0 1) ∧
        (s 0 1).decoder.ready = some { sec := Verb.go.sec, verb := Verb.go.num, order := asked [] } ∧ OrdersReach (s 9 0) ∧
        [10, 3, 6, 10, 4, 5, 4, 6, 2].getD (9#4).toNat 0 ≤ (0#6).toNat ∧
        [10, 3, 6, 10, 4, 5, 4, 6, 2].getD (8#4).toNat 0 ≤ (2#6).toNat ∧
        (s 9 0).decoder.ready = some { sec := 9, verb := 0, order := asked [] } ∧ bench.decoder.ready = none := by
  rintro s rfl; refine ⟨rfl, rfl, rfl, ?_, rfl, ?_, ?_, ?_, rfl, rfl⟩ <;> decide +kernel

theorem witness_return : ∀ r : Reply, r = { result := .done, detail := 16777215, more := List.replicate 31 0 } →
    r.more.length ≤ 31 ∧ r.detail < 2 ^ 24 := by
  rintro r rfl; decide

theorem witness_address : DirectReady Verb.ident (asked []) bench ∧
    replies .setAddress Verb.setAddress openBench [0xFE00] 0 = true ∧
    replies .setAddress Verb.setAddress openBench [0xFF00] 0x06000000 = true := by decide +kernel

theorem witness_go : replies .go Verb.go bench [] 2 = true ∧ replies .go Verb.go (caused true false false bench) [] 3 = true ∧
    replies .go Verb.go (caused false false true bench) [] 3 = true ∧
    replies .go Verb.go (inNode .sizing bench) [] 0x03000000 = true := by decide +kernel

theorem witness_standby : replies .standby Verb.standby (inNode .run bench) [] 2 = true ∧
    replies .standby Verb.standby (inNode .silent bench) [] 3 = true ∧ replies .standby Verb.standby bench [] 1 = true ∧
    replies .standby Verb.standby (inNode .sizing bench) [] 0x02000000 = true ∧
    replies .standby Verb.standby (inNode .sweep bench) [] 4 = true := by decide +kernel

theorem witness_silence : replies .silence Verb.silence (inNode .run bench) [] 4 = true ∧
    taken .silence Verb.silence (inPeriod (inNode .run bench)) [] = true ∧
    replies .resume Verb.resume (inNode .silent (caused true false true bench)) [] 1 = true ∧
    taken .resume Verb.resume (inNode .run bench) [] = true ∧
    ((inNode .run bench).node.state = .run → (inNode .run bench).link.link = false ∧
    (inNode .run bench).link.lost = false) := by
  decide +kernel

/-- The bench with a set of ranks PRESENT. -/
def withRanks (p : Vector Bool 4) : State := { bench with mem := { bench.mem with present := p } }

theorem witness_sweep : replies .sweep Verb.sweep (inNode .sizing bench) [] 0x02000000 = true ∧
    replies .sweep Verb.sweep (inNode .run bench) [] 0x03000002 = true ∧
    replies .sweep Verb.sweep (withLine 63 .faulted 0 bench) [] 0x03003F01 = true ∧
    replies .sweep Verb.sweep (withRanks #v[false, false, false, true]) [] 0x01000000 = true ∧
    (withRanks #v[false, false, false, true]).mem.present[(3 : Rank)] = true ∧
    replies .sweep Verb.sweep (withRanks (Vector.replicate 4 false)) [] 0x01000000 = true := by decide +kernel

theorem witness_maps : replies .writeInMap Verb.writeInMap bench [0x1800] 0x06000000 = true ∧
    replies .writeInMap Verb.writeInMap bench [0x1740] 0x06000001 = true ∧
    replies .writeInMap Verb.writeInMap bench [0x17FE] 0x06000001 = true ∧
    replies .writeInMap Verb.writeInMap bench [0x173F] 255 = true ∧
    replies .writeInMap Verb.writeInMap bench [0x00FF] 255 = true ∧
    replies .writeOutMap Verb.writeOutMap openBench [0x2000] 0x06000000 = true ∧
    replies .writeOutMap Verb.writeOutMap openBench [0x1F40] 0x06000001 = true ∧
    replies .writeOutMap Verb.writeOutMap
      { openBench with maps := { openBench.maps with output := openBench.maps.output.set 30 (some 63) } } [0x1F3F]
      0x0600003E = true ∧
    replies .writeOutMap Verb.writeOutMap openBench [0x1F3F] 255 = true ∧
    replies .writeOutMap Verb.writeOutMap openBench [0x1FFF] 255 = true ∧ DirectReady Verb.readMap (asked []) bench := by
  decide +kernel

theorem witness_window : replies .writeWindow Verb.writeWindow (guarded .open_ (inNode .sizing bench)) [63, 1] 0x02000000 = true ∧
    replies .writeWindow Verb.writeWindow (withLine 63 .faulted 0 openBench) [63, 1] 0x05000003 = true ∧
    replies .writeWindow Verb.writeWindow openBench [63, 0x40000001] 0x06000000 = true ∧
    replies .writeWindow Verb.writeWindow openBench [63, 0x3FFF0000] 0x06000001 = true ∧
    replies .writeWindow Verb.writeWindow openBench [63, 0x3FFF0101] 0x06000001 = true ∧
    replies .writeWindow Verb.writeWindow openBench [63, 0x3FFF0100] 0 = true ∧ bitsAt 63#32 5 0 = (63 : Line).val := by
  decide +kernel

theorem witness_feed : replies .writeFeed Verb.writeFeed (inNode .sizing bench) [1] 0x02000000 = true ∧
    replies .writeFeed Verb.writeFeed bench ([0x00000701] ++ List.replicate 14 0) 0x06000006 = true ∧
    replies .writeFeed Verb.writeFeed bench [0x7EB90001] 0x06000007 = true ∧
    replies .writeFeed Verb.writeFeed bench [0x7EB80101, 0x18000000, 0] 0x06000000 = true ∧
    replies .writeFeed Verb.writeFeed (withLine 2 .running 0 bench) [0x00000201, 0x17000000, 0, 0x82000000, 2048]
      0x06000001 = true ∧
    replies .writeFeed Verb.writeFeed (withLine 2 .running 0 bench) [0x00000201, 0x17000000, 0, 0x8200799A, 2047]
      0x06000008 = true ∧
    replies .writeFeed Verb.writeFeed (withLine 2 .running 0 bench) [0x7EB80201, 0x17000000, 0, 0x82007999, 2047] 0 = true := by
  decide +kernel

/-- A line's record. -/
def withRecord (n : Line) (l : LineRec) (s : State) : State := { s with lines := s.lines.set n l }

theorem witness_placement :
    4096 < (lineOf (withRecord 1 { LineRec.initial with base := 4095, length := 2 } bench) 1).base % 4096 +
      (lineOf (withRecord 1 { LineRec.initial with base := 4095, length := 2 } bench) 1).length ∧
    placement (withRecord 1 { LineRec.initial with base := 4095, length := 2 } bench) 1 = some 0x101000 ∧
    placement (withRecord 1 { LineRec.initial with base := 4095 } (withRanks (Vector.replicate 4 false))) 1 =
      some 0x200FFF ∧
    placement { bench with mem := { bench.mem with badBlocks := [0] } } 1 = some 0x300000 ∧
    placement (withRecord 1 { LineRec.initial with base := 4, length := 2 } (withLine 2 .faulted 5 bench)) 1 =
      some 0x400005 ∧ placement bench 1 = none ∧
    (∀ b, (lineOf bench 1).base ≤ b ∧ b < (lineOf bench 1).base + (lineOf bench 1).length → b ∉ bench.mem.badBlocks) ∧
    (∀ m : Line, (lineOf bench m).state = .off) := by
  refine ⟨?_, ?_, ?_, ?_, ?_, ?_, fun b _ h => ?_, ?_⟩
  case refine_7 => exact absurd h (by show b ∉ ([] : List Nat); simp)
  all_goals decide +kernel

theorem witness_feed_recheck :
    feedRecheck (withRecord 1 { LineRec.initial with feed := [.input 23 0, .line 1 1023 0, .line 2 5 0] } bench) 1 = some 2 ∧
    feedRecheck (withRecord 1 { LineRec.initial with feed := [.line 1 1024 0] } bench) 1 = some 0 ∧
    feedRecheck (withRecord 1 { LineRec.initial with feed := [.input 0 0, .line 1 1023 0] } bench) 1 = none := by
  decide +kernel

theorem witness_start : bitsAt 63#32 5 0 = (63 : Line).val ∧
    replies .start Verb.start (inNode .sizing bench) [63] 0x02000000 = true ∧
    replies .start Verb.start (withLine 63 .clearing 0 bench) [63] 0x03000001 = true ∧
    replies .start Verb.start (withRanks (Vector.replicate 4 false)) [63] 0x07200000 = true ∧
    replies .start Verb.start (withRecord 63 { LineRec.initial with feed := [.line 63 1024 0] } bench) [63] 0x06000000 = true ∧
    replies .start Verb.start bench [63] 0x01000000 = true := by decide +kernel

theorem witness_restart : met (.restart (asked [63]) false) bench = bench ∧
    replies (.restart · false) Verb.restart (inNode .sweep bench) [63] 0x02000000 = true ∧
    replies (.restart · false) Verb.restart (withLine 63 .clearing 0 bench) [63] 0x05000001 = true ∧
    replies (.restart · false) Verb.restart bench [63] 0x03000000 = true ∧
    replies (.restart · false) Verb.restart (withLine 63 .running 4094 bench) [63] 0x01000000 = true := by decide +kernel

/-- A frame period in which line 2, RUNNING, has a fault due. -/
def faultComing : State :=
  during { Period.begun 100 true false true with faultDue := [2] } (withLine 2 .running 4 bench)

theorem witness_stop : replies (.stop · false) Verb.stop (inNode .sizing bench) [63] 0x02000000 = true ∧
    replies (.stop · false) Verb.stop { bench with scenes := { bench.scenes with inUse := 1#64 <<< 63 } } [63] 0x05000000 = true ∧
    replies (.stop · false) Verb.stop bench [63] 0 = true ∧ OrdersReach faultComing ∧
    faultComing.period = some { Period.begun 100 true false true with faultDue := [2] } ∧ (lineOf faultComing 2).state = .running ∧
    (2 : Line) ∉ faultComing.mem.clearing ∧ DirectReady Verb.stop (asked [2]) (met (.stop (asked [2]) true) faultComing) ∧
    DirectReady Verb.restart (asked [2]) (met (.restart (asked [2]) true) faultComing) ∧
    (∀ p, (inPeriod bench).period = some p → (2 : Line) ∉ p.faultDue) := by
  refine ⟨?_, ?_, ?_, ?_, ?_, ?_, ?_, ?_, ?_, ?_⟩
  case refine_10 => rintro p h; cases h; decide
  all_goals decide +kernel

theorem witness_read_line : DirectReady Verb.readLine (asked [63]) bench ∧
    (63 : Line).val = bitsAt (bodyWord (asked [63]) 1) 5 0 := by
  decide +kernel

theorem witness_staged : StagedIs bench.scenes bench.scenes.b (fun k => { bench.scenes with b := { bench.scenes.b with bank := k } }) ∧
    HoldsRole bench.scenes .live false bench.scenes.a ∧
    (withRoles .armed .live .armed bench).scenes.a.role ≠ .staged ∧
    (withRoles .armed .live .armed bench).scenes.b.role ≠ .staged ∧
    replies .copyLive Verb.copyLive (withRoles .armed .live .armed bench) [] 0x02000001 = true ∧
    replies .copyLive Verb.copyLive bench [] 0 = true ∧
    replies .truncate Verb.truncate (withTaps [plain] bench) [2] 0x06000000 = true ∧
    replies .truncate Verb.truncate (withTaps [plain] bench) [1] 1 = true := by
  refine ⟨.inr ⟨?_, rfl, rfl, rfl⟩, .inl ⟨rfl, rfl, rfl⟩, ?_, ?_, ?_, ?_, ?_, ?_⟩
  all_goals decide +kernel

theorem witness_scene_writes : replies .writeHeader Verb.writeHeader bench [0, 96001] 0x06000001 = true ∧
    replies .writeHeader Verb.writeHeader bench [0, 96000] 0 = true ∧
    replies .writeOutput Verb.writeOutput bench [0x20000000, 0] 0x06000000 = true ∧
    replies .writeOutput Verb.writeOutput bench [0x1F020000, 0] 0x06000001 = true ∧
    replies .writeOutput Verb.writeOutput bench [0x1F010200, 0] 0x06000003 = true ∧
    replies .writeOutput Verb.writeOutput bench [0x1F010108, 0] 0x06000004 = true ∧
    replies .writeOutput Verb.writeOutput bench [0x1F010107, 0xFFFF] 0 = true := by decide +kernel

/-- The bench whose STAGED bank costs 512 less some taps' cost. -/
def nearlyFull (short : Nat) : State := withTaps (List.replicate (512 - short) plain) bench

theorem witness_append_tap : replies .appendTap Verb.appendTap bench [0x40000000, 1, 0, 0, 0] 0x06000001 = true ∧
    replies .appendTap Verb.appendTap bench [0x3F000000, 0, 0, 0, 0] 0x06000002 = true ∧
    replies .appendTap Verb.appendTap bench [0x3F000000, 262144, 0, 0, 0] 0x06000002 = true ∧
    replies .appendTap Verb.appendTap bench [0x3F200000, 262143, 0, 0, 0] 0x06000003 = true ∧
    replies .appendTap Verb.appendTap bench [0x3F1F0001, 1, 0, 480, 0] 0x06000004 = true ∧
    replies .appendTap Verb.appendTap bench [0x3F1F0001, 1, 0x01000000, 480, 0] 0x06000004 = true ∧
    replies .appendTap Verb.appendTap bench [0x3F1F0001, 1, 0x00FF0000, 479, 0] 0x06000005 = true ∧
    replies .appendTap Verb.appendTap bench [0x3F1F0001, 1, 0x00FF0000, 480001, 0] 0x06000005 = true ∧
    replies .appendTap Verb.appendTap bench [0x3F1F0001, 1, 0x00010000, 480000, 480000] 0x06000006 = true ∧
    replies .appendTap Verb.appendTap bench [0x3F1F0001, 1, 0x00010000, 480000, 479999] 0 = true ∧
    replies .appendTap Verb.appendTap (nearlyFull 0) [0x3F1F0000, 1, 0, 0, 0] 0x08000200 = true ∧
    replies .appendTap Verb.appendTap (nearlyFull 1) [0x3F1F0000, 1, 0, 0, 0] 511 = true := by decide +kernel

theorem witness_replace_tap : replies .replaceTap Verb.replaceTap (withTaps [plain] bench) [1, 0, 1, 0, 0, 0] 0x06000000 = true ∧
    replies .replaceTap Verb.replaceTap (withTaps [plain] bench) [0, 0x40000000, 1, 0, 0, 0] 0x06000001 = true ∧
    replies .replaceTap Verb.replaceTap (nearlyFull 0) [511, 0x00000001, 1, 0x00010000, 480, 0] 0x08000200 = true ∧
    replies .replaceTap Verb.replaceTap (nearlyFull 1) [510, 0x00000001, 1, 0x00010000, 480, 0] 510 = true := by
  decide +kernel

theorem witness_read_bank : HoldsRole (withTaps [moving] bench).scenes .staged true (withTaps [moving] bench).scenes.b ∧
    replies .readBank Verb.readBank bench [0x50000000] 0x060000FF = true ∧
    replies .readBank Verb.readBank bench [0x13000000] 0x060000FF = true ∧
    replies .readBank Verb.readBank bench [0x40000000] 0x03000001 = true ∧
    replies .readBank Verb.readBank bench [0x10000000] 0 = true ∧
    replies .readBank Verb.readBank bench [0x11000020] 0x06000000 = true ∧
    replies .readBank Verb.readBank bench [0x1100001F] 0 = true ∧
    replies .readBank Verb.readBank bench [0x12000000] 0x06000001 = true ∧
    replies .readBank Verb.readBank bench [0x120B0000] 0x06000001 = true ∧
    replies .readBank Verb.readBank (withTaps [moving, moving, moving, moving, moving, moving] bench) [0x120A0000] 0 = true ∧
    answer (.readBank (asked [0x120A0000])) (withTaps (List.replicate 6 moving) bench) =
      [0#32, 0x01010006#32, 5#32] ++ (List.range 5).flatMap fun i =>
        [word (0x03050001 + 16 * i), 500, 0x0004E000, 480, 75] := by
  refine ⟨.inr ⟨?_, ?_, rfl, rfl⟩, ?_, ?_, ?_, ?_, ?_, ?_, ?_, ?_, ?_, ?_⟩
  all_goals decide +kernel

/-- The bench in RUN with one plain tap STAGED, its line RUNNING. -/
def readyToCommit : State := withTaps [plain] (withLine 2 .running 4 (inNode .run bench))

theorem witness_commit : ChangerLaw readyToCommit ∧ StagedIs readyToCommit.scenes readyToCommit.scenes.b
      (fun k => { readyToCommit.scenes with b := { readyToCommit.scenes.b with bank := k } }) ∧
    replies .commit Verb.commit bench [0, 0] 0x03000001 = true ∧
    replies .commit Verb.commit (caused true false false readyToCommit) [0, 0] 0x03000001 = true ∧
    replies .commit Verb.commit (withRoles .armed .live .armed readyToCommit) [0, 0] 0x02000001 = true ∧
    replies .commit Verb.commit readyToCommit [0x80000000, 96001] 0x06000000 = true ∧
    replies .commit Verb.commit readyToCommit [0xC0000064, 96000] 0x0A000064 = true ∧
    replies .commit Verb.commit readyToCommit [0x40008064, 0] 0x0A000064 = true ∧
    replies .commit Verb.commit readyToCommit [0xC0008063, 96000] 0x8063 = true ∧
    replies .commit Verb.commit readyToCommit [0, 0] 100 = true ∧
    replies .commit Verb.commit (withTaps [plain] (inNode .run bench)) [0, 0] 0x09100000 = true ∧
    replies .commit Verb.commit (withTaps [plain, { plain with delay := 2048 }] readyToCommit) [0, 0] 0x09200001 = true ∧
    replies .commit Verb.commit (withTaps [{ plain with delay := 2047 }] readyToCommit) [0, 0] 100 = true ∧
    taken .commit Verb.commit readyToCommit [0, 0] = true := by
  refine ⟨?_, .inr ⟨?_, ?_, rfl, rfl⟩, ?_, ?_, ?_, ?_, ?_, ?_, ?_, ?_, ?_, ?_, ?_, ?_⟩
  case refine_1 => unfold ChangerLaw; decide +kernel
  all_goals decide +kernel

theorem witness_cancel_and_revert : ChangerLaw (withRoles .armed .live .armed bench) ∧
    (withRoles .armed .live .armed bench).changer.target = some 104 ∧
    HoldsRole (withRoles .armed .live .armed bench).scenes .live false (withRoles .armed .live .armed bench).scenes.a ∧
    replies .cancel Verb.cancel (withRoles .armed .live .armed bench) [] 104 = true ∧
    taken .cancel Verb.cancel (withRoles .armed .live .armed bench) [] = true ∧
    replies .cancel Verb.cancel bench [] 0x03000000 = true ∧
    (∀ s, s = (fun d : Direction =>
        { withRoles .fading .outgoing .incoming bench with
          changer := { state := .fading, target := none, length := 4, position := 4, direction := d } }) →
      ChangerLaw (s .forward) ∧ replies .revert Verb.revert (s .forward) [] 4 = true ∧
        replies .revert Verb.revert (s .back) [] 0x03000003 = true) ∧
    replies .revert Verb.revert bench [] 0x03000000 = true := by
  refine ⟨?_, ?_, .inl ⟨?_, rfl, rfl⟩, ?_, ?_, ?_, ?_, ?_⟩
  case refine_1 => unfold ChangerLaw; decide +kernel
  case refine_7 => rintro s rfl; unfold ChangerLaw; decide +kernel
  all_goals decide +kernel

theorem witness_profiles : HoldsRole bench.scenes .live false bench.scenes.a ∧ bench.changer.state ≠ .fading ∧
    HoldsRole (withRoles .fading .outgoing .incoming bench).scenes .incoming true
      (withRoles .fading .outgoing .incoming bench).scenes.b ∧
    (withRoles .fading .outgoing .incoming bench).changer.state = .fading ∧
    replies .writeProfile Verb.writeProfile bench [0x08010100, 1, 0x0010000A] 0x06000000 = true ∧
    replies .writeProfile Verb.writeProfile bench [0x07010100, 0, 0x0010000A] 0x06000001 = true ∧
    replies .writeProfile Verb.writeProfile bench [0x07010100, 8388608, 0x0010000A] 0x06000001 = true ∧
    replies .writeProfile Verb.writeProfile bench [0x07100100, 1, 0x0010000A] 0x06000002 = true ∧
    replies .writeProfile Verb.writeProfile bench [0x070F0100, 1, 0x000F000A] 0x06000003 = true ∧
    replies .writeProfile Verb.writeProfile bench [0x070F1100, 1, 0x0010000A] 0x06000004 = true ∧
    replies .writeProfile Verb.writeProfile bench [0x070F1000, 1, 0x0FFF0009] 0x06000005 = true ∧
    replies .writeProfile Verb.writeProfile bench [0x070F1003, 8388607, 0x0FFFEA60] 0x06000006 = true ∧
    replies .writeProfile Verb.writeProfile bench [0x070F1004, 8388607, 0x0FFFEA60] 0 = true ∧
    replies .readProfile Verb.readProfile bench [8] 0x06000000 = true ∧
    replies .readProfile Verb.readProfile bench [7] 0 = true ∧ bitsAt 7#32 7 0 = (7 : Fin 8).val := by
  refine ⟨.inl ⟨?_, rfl, rfl⟩, ?_, .inr ⟨?_, ?_, rfl, rfl⟩, ?_, ?_, ?_, ?_, ?_, ?_, ?_, ?_, ?_, ?_, ?_, ?_, ?_⟩
  all_goals decide +kernel

/-- The bench with output 31 MUTED by strain. -/
def mutedBench : State := withOutput 31 { GuardRec.initial with state := .muted, cause := some .strain } bench

theorem witness_guard_orders : replies .readGuard Verb.readGuard bench [0x2001] 0x06000000 = true ∧
    replies .readGuard Verb.readGuard bench [0x1F00] 0x06000001 = true ∧
    replies .readGuard Verb.readGuard bench [0x1F09] 0x06000001 = true ∧
    replies .readGuard Verb.readGuard bench [0x1F08] 0 = true ∧
    replies .release Verb.release mutedBench [32] 0x06000000 = true ∧
    replies .release Verb.release bench [31] 0x03000000 = true ∧
    replies .release Verb.release mutedBench [31] 8 = true := by decide +kernel

/-- The bench in QUIET with a flag set and no flag enabled. -/
def quietBench : State := { bench with events := { bench.events with notice := .quiet, enables := 0 } }

theorem witness_event_orders : DirectReady Verb.readEvents (asked []) bench ∧ DirectReady Verb.readAndClear (asked []) bench ∧
    replies .clearEvents Verb.clearEvents bench [1] 1 = true ∧ taken .clearEvents Verb.clearEvents bench [1] = true ∧
    quietBench.events.notice = .quiet ∧ quietBench.events.flags &&& (1#32).setWidth 17 ≠ 0 ∧
    replies .writeEnables Verb.writeEnables quietBench [1] 0 = true ∧
    replies .writeEnables Verb.writeEnables bench [1] 0x1FFFF = true ∧
    replies .writeHoldoff Verb.writeHoldoff bench [0] 0x06000000 = true ∧
    replies .writeHoldoff Verb.writeHoldoff bench [256] 0x06000000 = true ∧
    replies .writeHoldoff Verb.writeHoldoff bench [1] 10 = true ∧
    replies .writeHoldoff Verb.writeHoldoff bench [255] 10 = true := by
  decide +kernel

theorem witness_check_orders : DirectReady Verb.readCheck (asked []) bench ∧
    replies .clearCheck Verb.clearCheck bench [] 0 = true ∧ replies .writeMode Verb.writeMode bench [4] 0x06000000 = true ∧
    replies .writeMode Verb.writeMode bench [3] 2 = true ∧ ReportingMode.code .all = 3 ∧
    DirectReady Verb.readBadBlocks (asked [65535]) bench := by decide +kernel

theorem witness_set_up : replies .setUp Verb.setUp (withCapture .post bench) [0, 1, 0] 0x02000003 = true ∧
    replies .setUp Verb.setUp bench [0x03000000, 1, 0] 0x06000000 = true ∧
    replies .setUp Verb.setUp bench [0x00180000, 1, 0] 0x06000001 = true ∧
    replies .setUp Verb.setUp bench [0x01400000, 1, 0] 0x06000001 = true ∧
    replies .setUp Verb.setUp bench [0x02200000, 1, 0] 0x06000001 = true ∧
    replies .setUp Verb.setUp bench [0x021F0200, 1, 0] 0x06000002 = true ∧
    replies .setUp Verb.setUp bench [0x013F0000, 8193, 0] 0x06000003 = true ∧
    replies .setUp Verb.setUp bench [0x00170106, 8191, 0] 0x06000004 = true ∧
    replies .setUp Verb.setUp bench [0x00170002, 8192, 32] 0x06000005 = true ∧
    replies .setUp Verb.setUp bench [0x00170002, 8192, 31] 0 = true ∧
    replies .setUp Verb.setUp bench [0x013F0104, 0, 0xFFFF] 0 = true := by decide +kernel

theorem witness_captures : replies .arm Verb.arm (withCapture .waiting bench) [] 0x02000001 = true ∧
    replies .arm Verb.arm bench [] 2 = true ∧
    replies .captureTrigger Verb.captureTrigger (withCapture .done bench) [] 0x03000004 = true ∧
    replies .captureTrigger Verb.captureTrigger (withCapture .rolling (inNode .sizing bench)) [] 0x03000005 = true ∧
    replies .captureTrigger Verb.captureTrigger (withCapture .waiting (inPeriod bench)) [] 0 = true ∧
    taken .captureTrigger Verb.captureTrigger (withCapture .rolling bench) [] = true ∧
    replies .captureStop Verb.captureStop bench [] 0x03000000 = true ∧
    replies .captureStop Verb.captureStop (withCapture .waiting bench) [] 0 = true ∧
    replies .captureStop Verb.captureStop (withCapture .rolling bench) [] 0 = true ∧
    replies .captureStop Verb.captureStop (withCapture .post bench) [] 0 = true ∧
    (withCapture .post bench).capture.remaining ≠ (withCapture .post bench).capture.setUp.extent + 1 ∧
    replies .captureStop Verb.captureStop
      { bench with capture := { bench.capture with state := .post, remaining := 4097 } } [] 0 = true := by decide +kernel

theorem witness_recordings : DirectReady Verb.readCapture (asked []) bench ∧
    replies .readSamples Verb.readSamples bench [1] 0x03000000 = true ∧
    replies .readSamples Verb.readSamples (withCapture .done bench) [0x20000001] 0x06000000 = true ∧
    replies .readSamples Verb.readSamples (withCapture .done bench) [0x1FFF0000] 0x06000001 = true ∧
    replies .readSamples Verb.readSamples (withCapture .done bench) [0x1FFF0021] 0x06000001 = true ∧
    replies .readSamples Verb.readSamples (withCapture .done bench) [0x1FFF0020] 0 = true ∧
    DirectReady Verb.readLink (asked []) bench ∧
    replies .clearCounters Verb.clearCounters bench [] 0 = true := by decide +kernel

/-! Events of the part and frame periods. -/

theorem witness_ends : ∀ s, s = (fun (n : NodeState) (m : MemCtl) (l : Link) =>
      inPeriod { withLine 2 .clearing 4 (inNode n bench) with mem := m, link := l }) →
    (s .sizing bench.mem bench.link).pins.resetHeld = false ∧
      (s .sizing bench.mem bench.link).period = some (Period.begun 100 true false true) ∧
      (s .sizing { bench.mem with sizing := 96 } bench.link).mem.sizing = 96 ∧
      (s .sizing bench.mem bench.link).node.state = .sizing ∧
      (s .run { bench.mem with clearing := [2], zeroed := 2048 } bench.link).mem.clearing = [2] ∧
      1024 * (lineOf (s .run { bench.mem with clearing := [2], zeroed := 2048 } bench.link) 2).length = 2048 ∧
      (s .sweep { bench.mem with sweepEnded := true } bench.link).node.state = .sweep ∧
      (s .sweep { bench.mem with sweepEnded := true } bench.link).mem.sweepEnded = true ∧
      (s .run bench.mem { bench.link with startUp := true, startUpCount := 480 }).link.startUp = true ∧
      (s .run bench.mem { bench.link with startUp := true, startUpCount := 480 }).link.startUpCount = 480 := by
  rintro s rfl; decide +kernel

/-- The bench at the end of its start-up search, 480 frame periods of it done. -/
def limited (s : State) : State :=
  { s with link := { s.link with receive := .search, startUp := true, startUpCount := 480 } }

/-- The bench in SWEEP at rank 0, with ranks PRESENT, its last block tested or not. -/
def sweeping (present : Vector Bool 4) (ended : Bool) : State :=
  { inNode .sweep bench with mem := { bench.mem with present, sweepEnded := ended } }

/-- Line 2 with its clearing done and line 3 RUNNING with a fault due at the end of the frame period in progress. -/
def clearedAndFaulted : State :=
  { withLine 3 .running 8 (withLine 2 .clearing 4 bench) with mem := { bench.mem with clearing := [2], zeroed := 2048 } }

theorem witness_close_of_lines_and_sweep : ∀ p, p = { Period.begun 100 true false true with faultDue := [3] } →
    p.resetDue = false ∧ closing p (inNode .sizing bench) = true ∧ closing p clearedAndFaulted = true ∧
      clearedAndFaulted.mem.clearing = [2] ∧ 1024 * (lineOf clearedAndFaulted 2).length = 2048 ∧
      (lineOf clearedAndFaulted 2).state ≠ .running ∧ (3 : Line) ∈ p.faultDue ∧
      (lineOf clearedAndFaulted 3).state = .running ∧
      closing p (sweeping (Vector.replicate 4 true) true) = true ∧
      closing p (sweeping #v[false, false, true, true] false) = true ∧
      (sweeping #v[false, false, true, true] false).mem.present[(0 : Rank)] = false ∧
      (sweeping #v[false, false, true, true] false).mem.present[(2 : Rank)] = true ∧
      (∀ q : Rank, 0 < q → q < 2 → (sweeping #v[false, false, true, true] false).mem.present[q] = false) ∧
      (sweeping (Vector.replicate 4 true) false).mem.present[(0 : Rank)] = true ∧ closing p (limited bench) = true ∧
      (limited bench).link.startUpCount = 480 := by
  rintro p rfl; decide +kernel

/-- The bench ARMED for sequence 100, the one expected, with a fade length. -/
def armedNow (length : Nat) : State :=
  { withRoles .armed .live .armed bench with
    changer := { state := .armed, target := some 100, length, position := 0, direction := .forward } }

/-- The bench FADING, in a processed frame period, at a position of 4 and in a direction. -/
def fadingAt (k : Nat) (d : Direction) : State :=
  inPeriod
    { withRoles .fading .outgoing .incoming bench with
      changer := { state := .fading, target := none, length := 4, position := k, direction := d } }

theorem witness_close_of_a_fade : ∀ s, s = (fun k d => { fadingAt k d with period := none }) →
    closing (Period.begun 100 true false true) (s 4 .forward) = true ∧ closing (Period.begun 100 true false true) (s 0 .back) = true ∧
      closing (Period.begun 100 true false true) (s 3 .forward) = true ∧ closing (Period.begun 100 true false true) (s 1 .back) = true ∧
      closing (Period.begun 100 false false false) (s 4 .forward) = true ∧
      closing (Period.begun 100 false false false) (limited (armedNow 0)) = true ∧
      (limited (armedNow 0)).changer.state = .armed ∧ (limited (armedNow 0)).link.startUp = true ∧
      closing (Period.begun 100 true false true) (armedNow 4) = true ∧ (armedNow 4).link.startUp = false := by
  rintro s rfl; decide +kernel

theorem witness_fades : (armedNow 0).pins.resetHeld = false ∧ (endPeriod (armedNow 0)).link.startUp = false ∧
    (endPeriod (armedNow 0)).changer.state = .armed ∧
    (endPeriod (armedNow 0)).changer.target = some (endPeriod (armedNow 0)).link.expected ∧
    (endPeriod (armedNow 0)).changer.length = 0 ∧ (endPeriod (armedNow 4)).changer.length = 4 ∧
    (fadingAt 4 .forward).period = some (Period.begun 100 true false true) ∧ (Period.begun 100 true false true).processed = true ∧
    (fadingAt 4 .forward).pins.resetHeld = false ∧ (fadingAt 4 .forward).changer.state = .fading ∧
    (fadingAt 4 .forward).changer.position = (fadingAt 4 .forward).changer.length ∧
    (fadingAt 0 .back).changer.position = 0 ∧ (fadingAt 0 .back).changer.direction = .back ∧
    (fadingAt 3 .forward).changer.position < (fadingAt 3 .forward).changer.length ∧
    (fadingAt 1 .back).changer.position ≠ 0 := by decide +kernel

/-- A frame period in progress, of a frame that counts for the guard. -/
def counting (p : Period) (n : Nat) : State := during p { bench with guard := { bench.guard with blockCount := n } }

theorem witness_guard : ∀ (g : GuardRec) (p q : Profile), g = { GuardRec.initial with state := .trimmed, trim := 1 } →
    p = Profile.initial → q = { Profile.initial with clipRun := 4 } →
    ({ g with state := .muted } : GuardRec).state = .muted ∧
      p.ceiling < ({ g with peak := p.ceiling + 1 } : GuardRec).peak ∧ g.strain + p.rise < p.strainLimit ∧
      p.strainLimit ≤ ({ g with strain := p.strainLimit - p.rise } : GuardRec).strain + p.rise ∧
      g.trim < p.maxSteps ∧ p.maxSteps ≤ ({ g with trim := p.maxSteps } : GuardRec).trim ∧
      ({ g with peak := p.ceiling } : GuardRec).peak ≤ p.ceiling ∧ GuardRec.initial.state = .open_ ∧
      g.recovery + 1 < p.recovery ∧ p.recovery ≤ ({ g with recovery := p.recovery - 1 } : GuardRec).recovery + 1 ∧
      2 ≤ ({ g with trim := 2 } : GuardRec).trim ∧ g.trim ≤ 1 := by
  rintro g p q rfl rfl rfl; decide

theorem witness_block_end : ∀ (p : Period), p = { Period.begun 100 true false true with counts := true, clipDue := [31] } →
    (counting p 47).pins.resetHeld = false ∧ (counting p 47).period = some p ∧ BlockDue (counting p 47) p ∧
      (31 : Output) ∈ p.clipDue ∧ ((counting p 47).guard.outputs[(31 : Output)]).state ≠ .muted ∧
      closing p (counting p 47) = true ∧ closing p (counting p 46) = true ∧ ¬BlockDue (counting p 46) p ∧
      clipMutedAt (counting p 46) p 31 = true ∧ closing { p with leftRun := true } (counting p 46) = true ∧
      closing { p with processed := false } (counting p 46) = true ∧ p.leftRun = false ∧
      (counting p 46).node.state ≠ .run ∧ engineRuns (inNode .run bench).node.state = true ∧
      engineRuns bench.node.state = true ∧ bench.node.state ≠ .run := by
  rintro p rfl; decide +kernel

theorem witness_node_and_notice : ∀ (p : Period) (s : NodeState → BitVec 17 → State), p = Period.begun 100 true false true →
    (s = fun n flags =>
      during p
        { bench with
          node := { state := n, orderCause := false, ramp := 10, leaving := true, resetPending := false },
          events := { bench.events with notice := .holdoff, timer := 1, flags } }) →
    (s .run 1).pins.resetHeld = false ∧ (s .run 1).period = some p ∧ p.processed = true ∧ p.rampDone = false ∧
      (s .run 1).node.leaving = true ∧ (s .run 1).node.state = .run ∧ (s .silent 0).node.state = .silent ∧
      (s .run 1).node.ramp = 10 ∧ (s .run 1).events.notice = .holdoff ∧ (s .run 1).events.timerFresh = false ∧
      (s .run 1).events.timer = 1 ∧ (s .run 1).events.flags &&& (s .run 1).events.enables ≠ 0 ∧
      (s .silent 0).events.flags &&& (s .silent 0).events.enables = 0 ∧ closing p (s .run 1) = true ∧
      closing p (s .silent 0) = true := by
  rintro p s rfl rfl; decide +kernel

/-- The bench leaving for STANDBY in a node state, at a ramp position. -/
def leavingAt (n : NodeState) (ramp : Nat) : State :=
  { bench with node := { state := n, orderCause := false, ramp, leaving := true, resetPending := false } }

/-- The bench in HOLDOFF with a timer, set in the frame period in progress or before it. -/
def holding (timer : Nat) (timerFresh : Bool) : State :=
  { bench with events := { bench.events with notice := .holdoff, timer, timerFresh } }

/-- Leaving at p = 0 ends only in a frame period that began with the mark set; the timer keeps its value in the one that set
it. -/
theorem witness_close_of_node_and_timer : ∀ p, p = (Period.begun 100 true · true) →
    (leavingAt .run 0).node.ramp = 0 ∧ (p true).leaving = true ∧ (p false).leaving = false ∧
      closing (p true) (leavingAt .run 0) = true ∧ closing (p false) (leavingAt .silent 0) = true ∧
      closing (p false) (leavingAt .run 10) = true ∧ closing (p false) (leavingAt .run 11) = true ∧
      closing (p false) (limited (leavingAt .run 11)) = true ∧
      closing { p false with rampDone := true } (leavingAt .run 10) = true ∧
      closing (p false) (sweeping (Vector.replicate 4 true) true) = true ∧
      closing (p false) { inNode .sizing bench with mem := { bench.mem with sizing := 96 } } = true ∧
      closing (p false) (holding 480 true) = true ∧ closing (p false) (holding 2 false) = true ∧
      closing (p false) (holding 1 false) = true ∧ bench.events.notice ≠ .holdoff := by
  rintro p rfl; decide +kernel

theorem witness_capture_end : ∀ p, p = Period.begun 100 true false true →
    p.resetDue = false ∧ closing p (withCapture .post bench) = true ∧
      (captureAtClose (during p (withCapture .post bench)) p).state = .post ∧
      (captureAtClose (during p (withCapture .post bench)) p).remaining = 1 ∧
      closing p (withCapture .rolling bench) = true ∧
      (captureAtClose (during p (withCapture .rolling bench)) p).state = .rolling ∧
      closing p (withCapture .waiting bench) = true ∧
      (captureAtClose (during p (withCapture .waiting bench)) p).state = .waiting ∧
      closing (Period.begun 100 false false false) (withCapture .post bench) = true := by
  rintro p rfl; decide +kernel

theorem witness_own_starts : ∀ (o : OwnStart) (s : State), o = .notice ∨ o = .ret →
    s = during { Period.begun 100 true false true with ownStart := some (o, ⟨100, false, Vector.replicate 64 0⟩) } (queued 1 bench) →
    s.pins.resetHeld = false ∧ (s.period.map (·.ownStart)) = some (some (o, ⟨100, false, Vector.replicate 64 0⟩)) ∧
      s.arbiter.returns = { words := [1, 2, 3], isReset := false } :: [] := by
  rintro o s - rfl; exact ⟨rfl, rfl, rfl⟩

/-- No frame period is in progress, and the receiver and the rest of the state meet the premises of the statements about frame
periods. -/
def awaits (r : ReceiveState) (s : State) : Bool :=
  decide
    (s.pins.resetHeld = false ∧ s.period = none ∧ s.link.receive = r ∧
      ((∀ n : Line, (lineOf s n).state ≠ .off → (lineOf s n).base + (lineOf s n).length ≤ 16384) ∧
        s.mem.sweep.block < 16384) ∧
      (s.node.state = .run → s.link.link = false ∧ s.link.lost = false ∧ s.node.orderCause = false) ∧
      (s.node.state = .silent → s.link.link = true ∨ s.link.lost = true ∨ s.node.orderCause = true))

theorem premises_of_awaits {r : ReceiveState} {s : State} (h : awaits r s = true) :
    s.pins.resetHeld = false ∧ s.period = none ∧ s.link.receive = r ∧ BlocksExist s ∧ NodeFollows s := by
  unfold awaits at h; have g := of_decide_eq_true h; exact g

/-- The bench with a receiver. -/
def withLink (l : Link) : State := { bench with link := l }

theorem witness_good_frame : awaits .locked bench = true ∧ OutputMapLaw bench ∧
    OutputMapLaw { bench with maps := { bench.maps with output := bench.maps.output.set 3 (some 7) } } ∧
    (sent 100).syncGood = true ∧ (sent 100).checkGood = true ∧ bench.begun = none ∧ (sent 105).seq ≠ bench.link.expected ∧
    (sent 100).seq = bench.link.expected ∧ awaits .locked { bench with begun := some true } = true ∧
    awaits .locked (armedNow 0) = true ∧
    awaits .locked (armedNow 4) = true ∧ awaits .locked (withLink { bench.link with lec := 247 }) = true ∧
    awaits .locked (withLink { bench.link with lec := 1, link := true, restorePending := true }) = true ∧
    awaits .locked (inNode .silent (caused false true false bench)) = true ∧
    (inNode .silent (caused false true false bench)).link.lost = true := by
  have unmapped : ∀ c : Output, bench.maps.output[c] = none := by decide +kernel
  refine ⟨?_, fun c d i h => ?_, fun c d i hc hd => ?_, ?_⟩
  · decide +kernel
  · rw [unmapped c] at h; cases h
  · have one : ∀ e : Output, (bench.maps.output.set 3 (some 7))[e] ≠ none → e = 3 := by decide +kernel
    exact (one c (by rw [hc]; simp)).trans (one d (by rw [hd]; simp)).symm
  · decide +kernel

theorem witness_bad_and_missing : (spoilt 100).syncGood = true ∧ (spoilt 100).checkGood = false ∧
    awaits .locked (withLink { bench.link with missing := 2, lec := 247 }) = true ∧
    awaits .locked (withLink { bench.link with missing := 3, lost := true }) = true ∧ awaits .locked (armedNow 0) = true := by
  decide +kernel

theorem witness_search : awaits .search (withLink { bench.link with receive := .search, startUp := true }) = true ∧
    awaits .search (withLink { bench.link with receive := .search, lost := true, lockRun := 2, lockSeq := 99 }) = true := by
  decide +kernel

/-- The delay memory of a state with one line not OFF is placed by its window and its rank alone. -/
theorem placement_of_one {s : State} {k : Line} (off : ∀ n, n ≠ k → (lineOf s n).state = .off) (hc : ClearingLaw s)
    (hw : WindowLaw s) (hq : s.node.state ≠ .sizing ∧ s.node.state ≠ .sweep) (hb : s.mem.badBlocks = [])
    (hp : ∀ r : Rank, s.mem.present[r] = true) : PlacementLaw s := by
  refine ⟨hc, fun h => ?_, hw, fun m n hmn hm hn => ?_, fun n _ b _ => ⟨by simp [hb], hp _⟩⟩
  · rcases h with h | h
    · exact absurd h hq.1
    · exact absurd h hq.2
  · have one : ∀ j, (lineOf s j).state ≠ .off → j = k := fun j hj => Classical.byContradiction fun h => hj (off j h)
    exact absurd ((one m hm).trans (one n hn).symm) hmn

/-- The bench with line 2 CLEARING, some of its words zeroed. -/
def clearingAt (zeroed : Nat) : State :=
  { withLine 2 .clearing 4 bench with mem := { bench.mem with clearing := [2], zeroed } }

theorem witness_frame_writes : framePeriodCommand (.goodFrame (sent 100) []) = true ∧
    (Instr.goodFrame (sent 100) []).disturbances = [] ∧
    goesOn (.goodFrame (sent 100) []) (withLine 2 .running 4 bench) = true ∧
    (∀ n : Line, (lineOf (endPeriod (withLine 2 .running 4 bench)) n).state ≠ .off ∨
        n ∈ (endPeriod (withLine 2 .running 4 bench)).mem.clearing →
      4095 / 1024 < (lineOf (endPeriod (withLine 2 .running 4 bench)) n).base) ∧
    (endPeriod (withLine 2 .running 4 bench)).node.state ≠ .sweep := by decide +kernel

theorem witness_memory_writes : ∀ s, s = withLine 2 .running 4 bench ∨ s = clearingAt 1984 ∨ s = clearingAt 2048 →
    engineRuns s.node.state = true ∧ Answering s ∧ MemoryLaw s ∧ PlacementLaw s := by
  rintro s (rfl | rfl | rfl) <;> refine ⟨?_, ?_, ?_, placement_of_one (k := 2) ?_ ?_ ?_ ?_ rfl ?_⟩
  all_goals first
    | (unfold Answering; decide +kernel)
    | (unfold MemoryLaw; decide +kernel)
    | (unfold ClearingLaw; decide +kernel)
    | (unfold WindowLaw; decide +kernel)
    | decide +kernel

/-- The bench in SWEEP at a block and a frame of it, its rank answering or not. -/
def sweepingAt (block frame : Nat) (life : Option Nat) : State :=
  { inNode .sweep bench with
    mem := { bench.mem with sweep := { outcome := .running, rank := 0, block, added := 0 }, sweepFrame := frame }
    device := { bench.device with life := bench.device.life.set 0 life } }

theorem witness_sweep_frames : ∀ s, s = sweepingAt 7 15 none ∨ s = sweepingAt 4094 31 none ∨ s = sweepingAt 4095 31 none ∨
      s = sweepingAt 7 16 (some 0) →
    s.node.state = .sweep ∧ MemoryLaw s ∧ BadBlockLaw s ∧ s.mem.sweep.block / 4096 = s.mem.sweep.rank.val ∧
      s.mem.sweepEnded = false ∧ s.mem.sweepFrame ≤ 31 ∧ s.mem.present[s.mem.sweep.rank] = true ∧
      (s.device.life[s.mem.sweep.rank] = none ∨ s.device.life[s.mem.sweep.rank] = some 0) := by
  have empty : ∀ (block frame : Nat) (life : Option Nat), block < 16384 → BadBlockLaw (sweepingAt block frame life) :=
    fun _ _ _ h => ⟨.nil, fun b hb => absurd hb (by show b ∉ ([] : List Nat); simp), h⟩
  rintro s (rfl | rfl | rfl | rfl) <;> refine ⟨?_, ?_, empty _ _ _ ?_, ?_⟩
  all_goals first
    | (unfold MemoryLaw; decide +kernel)
    | decide +kernel

/-- The serving of a frame of the bench, word 5 standing with bits turned over, the rank answering or not. -/
def serving (turned : MemWord) (life : Option Nat) : Serve :=
  Serve.begin_
    { bench with
      device :=
        { bench.device with words := [(5, encodeWord 0x123456 ^^^ turned)], life := bench.device.life.set 0 life } }
    100

/-- The sweep with no rank PRESENT, and at an ABSENT rank with a PRESENT one after it (R20, R21). -/
theorem witness_sweep_without_rank : ∀ s, s = (fun present : Vector Bool 4 =>
      { sweepingAt 0 0 none with mem := { (sweepingAt 0 0 none).mem with present } }) →
    (s (Vector.replicate 4 false)).node.state = .sweep ∧
      (s (Vector.replicate 4 false)).mem.present[(s (Vector.replicate 4 false)).mem.sweep.rank] = false ∧
      (engineStep 100 noInputs (s (Vector.replicate 4 false))).mem.sweepEnded = true ∧
      (endPeriod (after (.goodFrame (sent 100) []) (s (Vector.replicate 4 false)))).mem.sweep.outcome = .complete ∧
      (engineStep 100 noInputs (s ((Vector.replicate 4 false).set 2 true))).mem.sweep.rank = 2 := by
  rintro s rfl; decide +kernel

theorem witness_memory_reads : ∀ v : Serve, v = serving 0 none → v.present[(Fin.ofNat 4 (5 / 4194304) : Rank)] = true ∧
    v.device.life[(0 : Rank)] = none ∧ checkWord (v.device.words.read 5 ^^^ v.device.defects.read 5) = .sound 0x123456 ∧
    checkWord ((serving 32 none).device.words.read 5) = .corrected 0x123456 5 ∧
    checkWord ((serving 3 none).device.words.read 5) = .uncorrectable ∧
    (serving 0 (some 0)).present[(0 : Rank)] = true ∧ (serving 0 (some 0)).device.life[(0 : Rank)] = some 0 ∧
    (Serve.begin_ State.reset 0).present[(0 : Rank)] = false ∧ Memory.wf v.device.words = true ∧
    Memory.wf v.device.defects = true := by
  rintro v rfl; decide +kernel

/-- A decoder whose open direct message has had its one body word, or none. -/
def openAt (bodies : Nat) (v : Disposition) (discarded : Bool) : Decoder :=
  { Decoder.initial 7 0xFF with
    inbound := some { head := headWord 0 7 0 6 1 9, disposition := v, bodies, discarded, id := 4 }
    buffer := headWord 0 7 0 6 1 9 :: List.replicate bodies 1 }

theorem witness_decoder : (Decoder.initial 7 0xFF).inbound = none ∧ (openAt 0 .direct false).inbound.isSome = true ∧
    headLength (headWord 0 7 0 6 1 9) = 1 ∧
    (((openAt 1 .direct false).take .tail ((crc16 (openAt 1 .direct false).buffer).setWidth 32)).decoder.ready.isSome) = true ∧
    ((openAt 1 .direct false).take .tail 0).discards = 1 ∧ ((openAt 0 .direct false).take .tail 0).discards = 1 ∧
    ((openAt 1 .direct false).take .body 0).discards = 1 ∧
    ((openAt 1 .forwardOnly false).take .body 0).arriving.isSome = true := by
  decide +kernel

theorem witness_arbiter : ∀ (a : Arbiter) (r : Return) (w : TransitWord), r = { words := [1, 2, 3], isReset := true } →
    w = { kind := .body, word := 1, message := 4 } → a = { sending := some (.ownReturn 1), transit := [w], returns := [r] } →
    1 + 1 < r.words.length ∧ r.words.length ≤ 2 + 1 ∧ a.returns = r :: [] ∧ w.message = 4 ∧ w.kind ≠ .head ∧
      (∀ p, ({ a with sending := some (.direct 4 0) } : Arbiter).sending ≠ some (.ownReturn p)) ∧
      (∀ ws p, ({ a with sending := some (.direct 4 0) } : Arbiter).sending ≠ some (.ownNotice ws p)) ∧
      (∀ p, ({ a with sending := none } : Arbiter).sending ≠ some (.ownReturn p)) ∧
      ({ a with transit := [] } : Arbiter).transit = [] ∧ (∀ x ∈ a.transit, x.message = 4 → x.kind ≠ .head) ∧
      (∃ p, a.sending = some (.ownReturn p)) ∧ (∀ p, ({ a with sending := some (.queued 4 2) } : Arbiter).sending ≠
        some (.ownReturn p)) ∧ ({ a with sending := some (.queued 4 2) } : Arbiter).sending = some (.queued 4 2) ∧
      ¬(∀ x ∈ ({ a with transit := [{ w with kind := .head }] } : Arbiter).transit, x.message = 4 → x.kind ≠ .head) := by
  rintro a r w rfl rfl rfl; simp

theorem witness_arithmetic : moving.modulation = some { depth := 4, period := 480, start := 75 } ∧ 479 < 480 ∧
    plain.modulation = none ∧ bench.changer.state ≠ .fading ∧ (fadingAt 3 .forward).changer.state = .fading := by
  decide +kernel

/-- The bench meets the laws that a step keeps, with a word in its delay memory, and steps to itself. -/
theorem witness_laws : step bench = .next bench ∧
    MemoryLaw { bench with device := { bench.device with words := [(0, 5), (16777215, 7)], defects := [(3, 1)] } } ∧
    ExistsLaw bench ∧ SceneLaw bench ∧ CostLaw bench ∧ RampLaw bench ∧ MuteLaw bench ∧ LinkLaw bench ∧
    QueueLaw bench ∧ EventLaw bench ∧ NodeFollows bench := by
  have off : ∀ n : Line, (lineOf bench n).state = .off := by decide +kernel
  refine ⟨?_, ?_, ⟨⟨?_, fun _ => off, ?_, fun m n _ h => absurd (off m) h, fun n h => ?_⟩, ?_⟩, ⟨?_, ?_, ?_, ?_⟩, ?_, ?_, ?_,
    ?_, ?_, ?_, ?_⟩
  · rfl
  · unfold MemoryLaw; decide +kernel
  · unfold ClearingLaw; decide +kernel
  · unfold WindowLaw; decide +kernel
  · rw [off n] at h; simp at h
  · decide +kernel
  · unfold ChangerLaw; decide +kernel
  · unfold InUseLaw; decide +kernel
  · exact fun t h => absurd h (by show t ∉ ([] : List Tap); simp)
  · exact fun t h => absurd h (by show t ∉ ([] : List Tap); simp)
  · unfold CostLaw; decide +kernel
  · unfold RampLaw; decide +kernel
  · unfold MuteLaw; decide +kernel
  · unfold LinkLaw; decide +kernel
  · unfold QueueLaw; decide +kernel
  · unfold EventLaw; decide +kernel
  · unfold NodeFollows; decide +kernel

theorem witness_transit_and_marks : TransitLaw bench ∧ BadBlockLaw bench ∧
    BadBlockLaw { bench with mem := { bench.mem with badBlocks := [0, 16383] } } := by
  have none_ : ∀ b : Nat, b ∉ bench.mem.badBlocks := fun b => by show b ∉ ([] : List Nat); simp
  refine ⟨⟨?_, fun r h => ?_, fun p h => ?_, fun ws p h => ?_, fun p h => ?_⟩,
    ⟨.nil, fun b h => absurd h (none_ b), ?_⟩, ?_, ?_, ?_⟩
  · decide +kernel
  · exact absurd h (by show r ∉ ([] : List Return); simp)
  · exact absurd h (by show none ≠ some (Sending.ownReturn p); simp)
  · exact absurd h (by show none ≠ some (Sending.ownNotice ws p); simp)
  · exact absurd h (by show none ≠ some p; simp)
  all_goals decide +kernel

/-- The capture recorder's law at its bounds, and the law of the phases with a modulated tap in a LIVE bank. -/
theorem witness_capture_and_phases :
    CaptureLaw { bench with capture := { bench.capture with writeIndex := 8191, ring := [(0, 1), (8191, 2)] } } ∧
    CaptureLaw { withCapture .post bench with
      capture := { (withCapture .post bench).capture with remaining := 8192, record := { CaptureRec.empty with held := 8192 } } } ∧
    ¬CaptureLaw { bench with capture := { bench.capture with writeIndex := 8192 } } ∧ CaptureLaw State.reset ∧ PhaseLaw bench ∧
    PhaseLaw
      { bench with
        scenes :=
          { bench.scenes with
            a := { bench.scenes.a with bank := { bench.scenes.a.bank with taps := [moving, plain] }, phases := [479, 0] } } } := by
  unfold CaptureLaw Capture.inRange SetUp.inRange PhaseLaw BankSlot.inRange
  refine ⟨?_, ?_, ?_, ?_, ?_, ?_⟩
  all_goals first
    | decide +kernel
    | simp [bench, State.reset, Scenes.initial, Bank.initial, Tap.inRange, moving, plain]

theorem witness_more_laws : FeedLaw bench ∧ Answering bench ∧ OutputMapLaw bench ∧ TrimLaw bench := by
  have unmapped : ∀ c : Output, bench.maps.output[c] = none := by decide +kernel
  refine ⟨?_, ?_, fun c d i h => ?_, ⟨?_, ?_, ?_⟩⟩
  · unfold FeedLaw; decide +kernel
  · unfold Answering; decide +kernel
  · rw [unmapped c] at h; cases h
  · unfold ChangerLaw; decide +kernel
  · decide +kernel
  · decide +kernel

end Sys2Proof.Tests
end

section
/-! SUPPORT. The orders that write the STAGED bank (R27 to R33): which bank that is and what writing it does to the scene
store, said once; then what such an order answers, with a STAGED bank and without one. -/

namespace Sys2Proof.Machine

/-! ### The banks by their roles (R26, R27) -/

theorem HoldsRole.withRole {sc : Scenes} {r : Role} {isB : Bool} {b : BankSlot} (h : HoldsRole sc r isB b) :
    sc.withRole r = b := by
  obtain ⟨ha, rfl, -⟩ | ⟨ha, -, rfl, -⟩ := h
  · exact if_pos ha
  · exact if_neg ha

theorem StagedIs.holdsRole {sc : Scenes} {b : BankSlot} {edit : Bank → Scenes} (h : StagedIs sc b edit) :
    ∃ isB, HoldsRole sc .staged isB b := by
  obtain ⟨ha, hb, -⟩ | ⟨ha, hr, hb, -⟩ := h
  · exact ⟨false, .inl ⟨ha, hb, rfl⟩⟩
  · exact ⟨true, .inr ⟨ha, hr, hb, rfl⟩⟩

theorem StagedIs.withRole {sc : Scenes} {b : BankSlot} {edit : Bank → Scenes} (h : StagedIs sc b edit) :
    sc.withRole .staged = b := h.holdsRole.elim fun _ => HoldsRole.withRole

theorem StagedIs.writeStaged {sc : Scenes} {b : BankSlot} {edit : Bank → Scenes} (h : StagedIs sc b edit) (k : Bank) :
    sc.writeStaged k = edit k := by
  obtain ⟨ha, -, rfl⟩ | ⟨ha, -, -, rfl⟩ := h
  · exact if_pos ha
  · exact if_neg ha

theorem hasRole_iff {sc : Scenes} {r : Role} : sc.hasRole r = true ↔ sc.a.role = r ∨ sc.b.role = r := by
  simp [Scenes.hasRole]

theorem StagedIs.hasRole {sc : Scenes} {b : BankSlot} {edit : Bank → Scenes} (h : StagedIs sc b edit) :
    sc.hasRole .staged = true := by
  obtain ⟨ha, -⟩ | ⟨-, hr, -⟩ := h
  · exact hasRole_iff.mpr (.inl ha)
  · exact hasRole_iff.mpr (.inr hr)

/-- The owner of an order sees the scene store as it stands, so the STAGED bank is the same one. -/
theorem staged_opened (v : Verb) (o : Order) {s : State} {b : BankSlot} {edit : Bank → Scenes}
    (h : StagedIs s.scenes b edit) : staged (opened v o s) = b.bank := congrArg BankSlot.bank h.withRole

theorem writeStaged_opened (v : Verb) (o : Order) {s : State} {b : BankSlot} {edit : Bank → Scenes}
    (h : StagedIs s.scenes b edit) (k : Bank) :
    writeStaged k (opened v o s) = { opened v o s with scenes := edit k } := by
  rw [← h.writeStaged k]
  rfl

/-! ### Scene-writing orders (R27) -/

/-- With a STAGED bank a scene-writing order is its owner's. -/
theorem editing_direct {v : Verb} (owner : Order → State → Reply × State) {o : Order} {s : State} {b : BankSlot}
    {edit : Bank → Scenes} (h : StagedIs s.scenes b edit) (hd : DirectReady v o s) :
    orderCommand v (editing owner) o s =
      .next (returned v o (owner o (opened v o s)).1 (owner o (opened v o s)).2) := by
  have e : editing owner o (opened v o s) = owner o (opened v o s) := if_pos h.hasRole
  rw [orderCommand_direct _ hd, e]

/-- Without a STAGED bank a scene-writing order is refused, whatever its owner. -/
theorem editing_busy {v : Verb} (owner : Order → State → Reply × State) {o : Order} {s : State}
    (ha : s.scenes.a.role ≠ .staged) (hb : s.scenes.b.role ≠ .staged) (hd : DirectReady v o s) :
    orderCommand v (editing owner) o s =
      .next (returned v o (Reply.refusal .busy s.changer.state.code) (opened v o s)) := by
  have unstaged : ¬s.scenes.hasRole .staged = true := fun h => (hasRole_iff.mp h).elim ha hb
  have e : editing owner o (opened v o s) = refuse .busy s.changer.state.code (opened v o s) := if_neg unstaged
  rw [orderCommand_direct _ hd, e]
  rfl

/-- The verbs 0 to 5 of section SCENE are the ones that write a bank (R27, R119). -/
theorem ownerOf_sceneWriting {n : Nat} {x : Verb × (Order → State → Reply × State)} (hn : n ≤ 5)
    (h : ownerOf 3 n = some x) : ∃ owner, x.2 = editing owner := by
  interval_cases n <;> cases h <;> exact ⟨_, rfl⟩

/-- Only STOP and RESTART of section LINE can meet a fault first (R16). -/
theorem met_of_sec_ne {c : Instr} {v : Verb} (hv : commandVerb c = some v) (hs : v.sec ≠ 2) (s : State) :
    met c s = s := by
  unfold met
  split
  · cases hv
    exact absurd rfl hs
  · cases hv
    exact absurd rfl hs
  · rfl

theorem exec_sceneWriting {c : Instr} {v : Verb} {o : Order} (hv : commandVerb c = some v) (ho : c.order = some o)
    (hs : v.sec = 3) (hn : v.num.toNat ≤ 5) :
    ∃ owner, ∀ s, exec c s = orderCommand v (editing owner) o s := by
  obtain ⟨owner, he, hf⟩ := command_owner hv ho
  rw [hs] at hf
  obtain ⟨inner, rfl⟩ := ownerOf_sceneWriting hn hf
  exact ⟨inner, fun s => by rw [he, met_of_sec_ne hv (by rw [hs]; decide)]⟩

/-! ### TRUNCATE and COPY-LIVE (R25, R32, R33) -/

theorem tapsCost_eq_sum (ts : List Tap) :
    tapsCost ts = (ts.map fun t => if t.modulation.isSome then 2 else 1).sum := rfl

section
variable {o : Order} {s : State} {b : BankSlot} {edit : Bank → Scenes}

theorem exec_truncate_beyond (h : StagedIs s.scenes b edit) (hd : DirectReady Verb.truncate o s)
    (hn : b.bank.taps.length < bitsAt (bodyWord o 1) 15 0) :
    exec (.truncate o) s =
      .next (returned Verb.truncate o (Reply.refusal .range 0) (opened Verb.truncate o s)) := by
  have e : truncateOwner o (opened Verb.truncate o s) = refuse .range 0 (opened Verb.truncate o s) :=
    if_pos (by rwa [staged_opened _ _ h])
  show orderCommand Verb.truncate (editing truncateOwner) o s = _
  rw [editing_direct _ h hd, e]
  rfl

theorem exec_truncate_within (h : StagedIs s.scenes b edit) (hd : DirectReady Verb.truncate o s)
    (hn : bitsAt (bodyWord o 1) 15 0 ≤ b.bank.taps.length) :
    exec (.truncate o) s =
      .next
        (returned Verb.truncate o (Reply.done (tapsCost (b.bank.taps.take (bitsAt (bodyWord o 1) 15 0))))
          { opened Verb.truncate o s with
            scenes := edit { b.bank with taps := b.bank.taps.take (bitsAt (bodyWord o 1) 15 0) } }) := by
  show orderCommand Verb.truncate (editing truncateOwner) o s = _
  rw [editing_direct _ h hd]
  unfold truncateOwner
  simp only [staged_opened _ _ h, writeStaged_opened _ _ h, if_neg (Nat.not_lt.mpr hn)]
  rfl

theorem exec_copyLive (h : StagedIs s.scenes b edit) (hd : DirectReady Verb.copyLive o s) {isB : Bool}
    {live : BankSlot} (hl : HoldsRole s.scenes .live isB live) :
    exec (.copyLive o) s =
      .next
        (returned Verb.copyLive o (Reply.done (tapsCost live.bank.taps))
          { opened Verb.copyLive o s with scenes := edit live.bank }) := by
  have el : (opened Verb.copyLive o s).scenes.withRole .live = live := hl.withRole
  show orderCommand Verb.copyLive (editing copyLiveOwner) o s = _
  rw [editing_direct _ h hd]
  unfold copyLiveOwner
  simp only [el, writeStaged_opened _ _ h]
  rfl

end

/-- Settles O26: every scene-writing order stands behind one STAGED test, so the refusal is the same for all of them; with a
STAGED bank the answer is that of the order's own rule. -/
theorem stagedBankIsEditedOrBusy : Obligations.StagedBankIsEditedOrBusy := by
  refine ⟨tapsCost_eq_sum, fun c v o s hv ho hs hn hd ha hb => ?busy, fun o s b edit h => ⟨fun hd => ?truncate, ?copyLive⟩⟩
  case busy =>
    obtain ⟨owner, he⟩ := exec_sceneWriting hv ho hs hn
    rw [he, editing_busy owner ha hb hd]
  case truncate => exact ⟨exec_truncate_beyond h hd, exec_truncate_within h hd⟩
  case copyLive => exact fun hd _ _ hl => exec_copyLive h hd hl

end Sys2Proof.Machine
end

section
/-! SUPPORT. The orders that write the event unit's settings (R138, R139): when an enable set that is written announces, and
what the two orders answer. -/

namespace Sys2Proof.Machine

/-! ### A replaced enable set (R134, R138) -/

theorem announce_pending {e : Events} (n : NoticeSlot) (hq : e.notice = .quiet) (hp : e.pendingSet ≠ 0) :
    announce e n = ({ e with notice := .sent }, n.place) := if_pos ⟨hq, hp⟩

theorem announce_nothing {e : Events} (n : NoticeSlot) (h : e.notice ≠ .quiet ∨ e.pendingSet = 0) :
    announce e n = (e, n) := if_neg fun k => h.elim (absurd k.1) k.2

theorem enablesWritten_pending {enables : BitVec 17} {s : State} (hq : s.events.notice = .quiet)
    (hp : s.events.flags &&& enables ≠ 0) :
    enablesWritten enables s =
      { s with events := { s.events with enables, notice := .sent }, slot := s.slot.place } := by
  unfold enablesWritten
  rw [announce_pending (e := { s.events with enables }) s.slot hq hp]

theorem enablesWritten_nothing_pending {enables : BitVec 17} {s : State}
    (h : s.events.notice ≠ .quiet ∨ s.events.flags &&& enables = 0) :
    enablesWritten enables s = { s with events := { s.events with enables } } := by
  unfold enablesWritten
  rw [announce_nothing (e := { s.events with enables }) s.slot h]

/-! ### WRITE-ENABLES and WRITE-HOLDOFF at their owners (R138, R139) -/

theorem exec_writeEnables {o : Order} {s : State} (hd : DirectReady Verb.writeEnables o s) :
    exec (.writeEnables o) s =
      .next
        (returned Verb.writeEnables o (Reply.done s.events.enables.toNat)
          (enablesWritten ((bodyWord o 1).setWidth 17) (opened Verb.writeEnables o s))) :=
  orderCommand_direct writeEnablesOwner hd

theorem exec_writeHoldoff_beyond {o : Order} {s : State} (hd : DirectReady Verb.writeHoldoff o s)
    (h : bitsAt (bodyWord o 1) 15 0 = 0 ∨ 255 < bitsAt (bodyWord o 1) 15 0) :
    exec (.writeHoldoff o) s =
      .next (returned Verb.writeHoldoff o (Reply.refusal .range 0) (opened Verb.writeHoldoff o s)) := by
  have e : writeHoldoffOwner o (opened Verb.writeHoldoff o s) = refuse .range 0 (opened Verb.writeHoldoff o s) := if_pos h
  show orderCommand Verb.writeHoldoff writeHoldoffOwner o s = _
  rw [orderCommand_direct _ hd, e]
  rfl

theorem exec_writeHoldoff_within {o : Order} {s : State} (hd : DirectReady Verb.writeHoldoff o s)
    (h₁ : 1 ≤ bitsAt (bodyWord o 1) 15 0) (h₂ : bitsAt (bodyWord o 1) 15 0 ≤ 255) :
    exec (.writeHoldoff o) s =
      .next
        (returned Verb.writeHoldoff o (Reply.done (s.events.holdoff / 48))
          { opened Verb.writeHoldoff o s with
            events := { s.events with holdoff := 48 * bitsAt (bodyWord o 1) 15 0 } }) := by
  have inRange : ¬(bitsAt (bodyWord o 1) 15 0 = 0 ∨ 255 < bitsAt (bodyWord o 1) 15 0) := by omega
  have e : writeHoldoffOwner o (opened Verb.writeHoldoff o s) =
      done (s.events.holdoff / 48)
        { opened Verb.writeHoldoff o s with
          events := { s.events with holdoff := 48 * bitsAt (bodyWord o 1) 15 0 } } := if_neg inRange
  show orderCommand Verb.writeHoldoff writeHoldoffOwner o s = _
  rw [orderCommand_direct _ hd, e]
  rfl

/-- Settles O36: WRITE-ENABLES is one announcement over the new enable set, WRITE-HOLDOFF one range test; the owner sees the
event unit and the notice slot as they stand. -/
theorem enablesAndHoldoffAreWritten : Obligations.EnablesAndHoldoffAreWritten := by
  refine ⟨?unprotected, fun _ _ => rfl, fun o s =>
    ⟨fun hd => ⟨fun hq hp => ?announced, fun h => ?silent⟩, fun hd => ?holdoff⟩⟩
  case unprotected =>
    rintro v (rfl | rfl)
    · exact ⟨rfl, rfl⟩
    · exact ⟨rfl, rfl⟩
  case announced =>
    rw [exec_writeEnables hd, enablesWritten_pending (s := opened Verb.writeEnables o s) hq hp]
    rfl
  case silent =>
    rw [exec_writeEnables hd, enablesWritten_nothing_pending (s := opened Verb.writeEnables o s) h]
    rfl
  case holdoff => exact ⟨exec_writeHoldoff_beyond hd, exec_writeHoldoff_within hd⟩

end Sys2Proof.Machine
end

section
/-! SUPPORT. The laws that every step keeps, where each single move keeps them; and that a frame-period command never stops in
a state with the law of placement. -/

namespace Sys2Proof.Machine

/-- What every move keeps, a step keeps. -/
theorem step_keeps {P : State → Prop} (h : ∀ {s t}, Move s t → P s → P t) {s t : State} (hs : step s = .next t) (p : P s) :
    P t := (step_moves s t hs).keep (fun _ _ => h) p

/-- Settles O57: every move keeps the canonical form. -/
theorem stepKeepsTheMemoryForm : Obligations.StepKeepsTheMemoryForm := fun _ _ p h => step_keeps Move.memoryLaw h p

/-- Settles O59: every move keeps each of the laws. -/
theorem stepKeepsSceneLineAndMapLaws : Obligations.StepKeepsSceneLineAndMapLaws := fun _ _ h =>
  ⟨step_keeps Move.sceneLaw h, step_keeps Move.feedLaw h, step_keeps Move.costLaw h, step_keeps Move.outputMapLaw h,
    step_keeps Move.phaseLaw h⟩

/-! ### No stop from a state with the law of placement (R2; log 20) -/

/-- A window that ends within the rank of its base block ends within the delay memory. -/
theorem ExistsLaw.blocksExist {s : State} (h : ExistsLaw s) : BlocksExist s := by
  obtain ⟨⟨-, -, windows, -, -⟩, block⟩ := h
  refine ⟨fun n on => ?_, block⟩
  obtain ⟨hb, -, -, hw⟩ := windows n
  have := hw on
  omega

/-- A command answers a next state: it does not stop. -/
def GoesOn (o : Host.Outcome State Fault Refusal) : Prop := ∃ t, o = .next t

theorem framePeriod_goesOn (c : State → Bool) (f : State → State) {s : State} (h : ExistsLaw s) :
    GoesOn (framePeriod c f s) := by
  have there : memoryExists (endPeriod s) = true :=
    memoryExists_of _ ((endPeriod_moves s).keep (fun _ _ => Move.existsLaw) h).blocksExist
  unfold framePeriod
  rw [there]
  split
  · exact ⟨_, rfl⟩
  · exact ⟨_, rfl⟩

theorem eventCommand_goesOn (due : State → Bool) (effect : State → State) (s : State) :
    GoesOn (eventCommand due effect s) := by
  unfold eventCommand
  split
  · exact ⟨_, rfl⟩
  · exact ⟨_, rfl⟩

theorem orderCommand_goesOn (v : Verb) (owner : Order → State → Reply × State) (o : Order) (s : State) :
    GoesOn (orderCommand v owner o s) := by
  unfold orderCommand
  split
  · exact ⟨_, rfl⟩
  · exact ⟨_, rfl⟩

/-- A command of the pin answers a next state; one of an unassigned verb, of an event or of a verb always does; one that brings
a frame period does where the delay memory has every window. -/
theorem exec_goesOn (c : Instr) {s : State} (h : ExistsLaw s) : GoesOn (exec c s) := by
  cases c <;> simp only [exec]
  case resetPinAsserted => exact ⟨_, rfl⟩
  case pinReset => exact ⟨_, rfl⟩
  case unknownOrder sec verb o =>
    unfold execUnknownOrder
    split
    · exact ⟨_, rfl⟩
    · exact ⟨_, rfl⟩
  all_goals first
    | exact framePeriod_goesOn _ _ h
    | exact eventCommand_goesOn _ _ _
    | exact orderCommand_goesOn _ _ _ _

/-- The law of placement does not speak of the queue. -/
theorem ExistsLaw.pending {s : State} (h : ExistsLaw s) (q : List Instr) : ExistsLaw { s with pending := q } :=
  (Move.free s s.sent s.period s.begun s.fresh s.checks s.pins q).existsLaw h

theorem step_goesOn {s : State} (h : ExistsLaw s) : GoesOn (step s) := by
  unfold step
  split
  · exact ⟨_, rfl⟩
  · exact exec_goesOn _ (h.pending _)

end Sys2Proof.Machine
end

section
/-! SUPPORT. How many words a reply carries beyond its first: the packings of R174 and the lists that the reads return, and
with them that no return is longer than its message may be (R117, R128). -/

namespace Sys2Proof.Machine

theorem packHalves_length (l : List Nat) : (packHalves l).length = (l.length + 1) / 2 := by
  induction l using packHalves.induct with
  | case1 a b rest ih => simp only [packHalves, List.length_cons, ih]; omega
  | case2 a => simp [packHalves]
  | case3 => simp [packHalves]

theorem packBytes_length (l : List Nat) : (packBytes l).length = l.length / 4 := by
  induction l using packBytes.induct with
  | case1 a b c d rest ih => simp only [packBytes, List.length_cons, ih]; omega
  | case2 l h =>
    match l, h with
    | [], _ => simp [packBytes]
    | [_], _ => simp [packBytes]
    | [_, _], _ => simp [packBytes]
    | [_, _, _], _ => simp [packBytes]
    | a :: b :: c :: d :: rest, h => exact absurd rfl (h a b c d rest)

theorem packSamples_length (l : List Sample) : (packSamples l).length = (24 * l.length + 31) / 32 := by
  induction l using packSamples.induct with
  | case1 a b c d rest ih => simp only [packSamples, List.length_cons, ih]; omega
  | case2 a b c => simp [packSamples]
  | case3 a b => simp [packSamples]
  | case4 a => simp [packSamples]
  | case5 => simp [packSamples]

theorem Term.words_length (t : Term) : t.words.length = 2 := by
  cases t with
  | input => rfl
  | line => rfl

theorem lineWords_length (s : State) (n : Line) : (lineWords s n).length = 6 + 2 * (lineOf s n).feed.length := by
  simp [lineWords, List.length_flatMap, Term.words_length]
  omega

theorem mapWords_length (m : Maps) : (mapWords m).length = 14 := by simp [mapWords, packBytes_length]

theorem tapsReturned_fit (active : Bool) (ts : List Tap) (ps : List Nat) (i n room : Nat) :
    (tapsReturned active ts ps i n room).flatten.length ≤ room := by
  induction ts generalizing ps i n room with
  | nil => simp [tapsReturned]
  | cons t ts ih =>
    cases n with
    | zero => simp [tapsReturned]
    | succ n =>
      unfold tapsReturned
      dsimp only
      split
      · have := ih ps.tail (i + 1) n (room - (t.words active i (ps.headD 0)).length)
        simp only [List.flatten_cons, List.length_append]
        omega
      · simp

/-- The outputs `first` to `first + count − 1` are a stretch of the list of all. -/
theorem outputsFrom_eq (first : Output) (count : Nat) (h : count ≤ 8) :
    outputsFrom first count = ((List.finRange 32).drop first).take count := by
  have all : ∀ (f : Fin 32) (c : Fin 9), outputsFrom f c.val = ((List.finRange 32).drop f).take c.val := by
    decide +kernel
  exact all first ⟨count, by omega⟩

theorem outputsFrom_length (first : Output) (count : Nat) (h : count ≤ 8) : (outputsFrom first count).length ≤ 8 := by
  rw [outputsFrom_eq first count h, List.length_take]
  omega

theorem GuardRec.words_length (c : Output) (p : Fin 8) (g : GuardRec) : (g.words c p).length = 3 := rfl

theorem readPart_more (part count index : Nat) (isB : Bool) (b : BankSlot) (s : State) :
    (readPart part count index isB b s).1.more.length ≤ 31 := by
  unfold readPart
  split
  · simp [reads]
  · split
    · simp [refuse]
    · simp [reads, OutputRec.words]
  · split
    · simp [refuse]
    · have := tapsReturned_fit b.role.active (b.bank.taps.drop index) (b.phases.drop index) index count 29
      simp only [reads, List.length_cons]
      omega

end Sys2Proof.Machine
end

section
/-! SUPPORT. The bad-block map under its operations (R19, R21, R22), and what every operation beside the service arbiter leaves
of the part's own messages: with the row of moves that an operation is, what the laws of the bad-block map and of the transit
queue need of it. -/

namespace Sys2Proof.Machine

/-! ### The bad-block map (R19, R21) -/

theorem mem_markBlock (l : List Nat) (b c : Nat) : c ∈ markBlock l b ↔ c ∈ l ∨ c = b := by
  induction l with
  | nil => simp [markBlock]
  | cons x xs ih =>
    unfold markBlock
    split
    · simp only [List.mem_cons]
      tauto
    · split
      · next _ h => subst h; simp only [List.mem_cons]; tauto
      · simp only [List.mem_cons, ih]
        tauto

theorem markBlock_ascending {l : List Nat} (h : l.Pairwise (· < ·)) (b : Nat) : (markBlock l b).Pairwise (· < ·) := by
  induction l with
  | nil => simp [markBlock]
  | cons x xs ih =>
    obtain ⟨above, rest⟩ := List.pairwise_cons.mp h
    unfold markBlock
    split
    · next below =>
      refine List.pairwise_cons.mpr ⟨fun y hy => ?_, h⟩
      obtain rfl | hy := List.mem_cons.mp hy
      · exact below
      · exact below.trans (above y hy)
    · split
      · exact h
      · next hb hx =>
        refine List.pairwise_cons.mpr ⟨fun y hy => ?_, ih rest⟩
        obtain hy | rfl := (mem_markBlock xs b y).mp hy
        · exact above y hy
        · omega

/-- The law of the bad-block map speaks of the memory controller alone. -/
def MemCtl.marksHold (m : MemCtl) : Prop :=
  m.badBlocks.Pairwise (· < ·) ∧ (∀ b ∈ m.badBlocks, b < 16384) ∧ m.sweep.block < 16384

theorem badBlockLaw_iff (s : State) : BadBlockLaw s ↔ s.mem.marksHold := Iff.rfl

theorem MemCtl.marksHold.of_eq {m k : MemCtl} (h : m.marksHold) (hb : k.badBlocks = m.badBlocks)
    (hs : k.sweep.block < 16384) : k.marksHold := by
  obtain ⟨h1, h2, -⟩ := h
  exact ⟨hb ▸ h1, hb ▸ h2, hs⟩

theorem markTested_badBlocks (m : MemCtl) (b : Nat) :
    b ∈ m.markTested.badBlocks ↔ b ∈ m.badBlocks ∨ (m.sweepFailed = true ∧ b = m.sweep.block) := by
  unfold MemCtl.markTested
  split
  · next h => simp only [mem_markBlock, h, true_and]
  · next h => simp only [h, Bool.false_eq_true, false_and, or_false]

theorem MemCtl.marksHold.markTested {m : MemCtl} (h : m.marksHold) : m.markTested.marksHold := by
  obtain ⟨ascending, below, block⟩ := h
  refine ⟨?_, fun b hb => ?_, ?_⟩
  · unfold MemCtl.markTested
    split
    · exact markBlock_ascending ascending _
    · exact ascending
  · obtain hb | ⟨-, rfl⟩ := (markTested_badBlocks m b).mp hb
    · exact below b hb
    · exact block
  · rw [(markTested_keeps m).2.2.1]
    exact block

theorem MemCtl.marksHold.sweepTo {m : MemCtl} (h : m.marksHold) (r : Option Rank) : (m.sweepTo r).marksHold :=
  h.of_eq (sweepTo_keeps m r).2.2.1 ((sweepTo_keeps m r).2.2.2 h.2.2)

theorem firstBlock_end (r : Rank) : firstBlock r + Config.blocksPerRank ≤ 16384 := by
  show r.val * 4096 + 4096 ≤ 16384
  omega

theorem MemCtl.marksHold.sweepResult {m : MemCtl} (h : m.marksHold) (failed : Bool) : (m.sweepResult failed).marksHold := by
  unfold MemCtl.sweepResult
  split
  · unfold MemCtl.frameTested
    split
    · have k : MemCtl.marksHold { m with sweepFailed := m.sweepFailed || failed } := h
      unfold MemCtl.blockTested
      dsimp only
      split
      · next inRank => exact k.markTested.of_eq rfl (Nat.lt_of_lt_of_le inRank (firstBlock_end _))
      · exact k.markTested.sweepTo _
    · exact h
  · exact h

/-! ### Bystanders of the sweep and the service arbiter -/

/-- What the frame period in progress holds of the part's own messages: the one that starts in it, and whether the END of a
return has left. -/
def ownPart (s : State) : Option (Option (OwnStart × Draft) × Bool) := s.period.map fun p => (p.ownStart, p.returnLeft)

theorem ownPart_map {s t : State} (f : Period → Period) (h : t.period = s.period.map f)
    (hf : ∀ p, (f p).ownStart = p.ownStart ∧ (f p).returnLeft = p.returnLeft) : ownPart t = ownPart s := by
  unfold ownPart
  rw [h, Option.map_map]
  congr 1
  funext p
  exact Prod.ext (hf p).1 (hf p).2

/-- An operation that keeps the law of the bad-block map and leaves the service arbiter and the part's own messages alone. -/
structure Bystander (s t : State) : Prop where
  marks : BadBlockLaw s → BadBlockLaw t
  arbiter : t.arbiter = s.arbiter
  own : ownPart t = ownPart s

theorem Bystander.none (s : State) : Bystander s s := ⟨id, rfl, rfl⟩

theorem Bystander.after {s t u : State} (b : Bystander t u) (a : Bystander s t) : Bystander s u :=
  ⟨b.marks ∘ a.marks, b.arbiter.trans a.arbiter, b.own.trans a.own⟩

theorem Bystander.and {s t u : State} (a : Bystander s t) (b : Bystander t u) : Bystander s u :=
  ⟨b.marks ∘ a.marks, b.arbiter.trans a.arbiter, b.own.trans a.own⟩

theorem Bystander.of_eq {s t : State} (hb : t.mem.badBlocks = s.mem.badBlocks) (hs : t.mem.sweep = s.mem.sweep)
    (ha : t.arbiter = s.arbiter) (ho : t.period = s.period) : Bystander s t :=
  ⟨fun h => MemCtl.marksHold.of_eq h hb (hs ▸ h.2.2), ha, by unfold ownPart; rw [ho]⟩

theorem Bystander.ifThen {c : Prop} [Decidable c] {s t : State} (h : c → Bystander s t) :
    Bystander s (if c then t else s) := by
  split
  · exact h ‹_›
  · exact .none s

theorem Bystander.fold {α : Type} {f : State → α → State} (h : ∀ s a, Bystander s (f s a)) (l : List α) (s : State) :
    Bystander s (l.foldl f s) := by
  induction l generalizing s with
  | nil => exact .none s
  | cons a l ih => exact (h s a).and (ih _)

theorem raiseWith_bystander (f : Flag) (d : Events → Events) (s : State) : Bystander s (raiseWith f d s) :=
  .of_eq rfl rfl rfl rfl

theorem raiseFault_bystander (ns : List Line) (s : State) : Bystander s (raiseFault ns s) := by
  unfold raiseFault
  split
  · exact .none s
  · exact raiseWith_bystander _ _ _

theorem makeFaulted_bystander (ns : List Line) (s : State) : Bystander s (makeFaulted ns s) := by
  unfold makeFaulted
  refine (raiseFault_bystander _ _).after ?_
  exact .of_eq rfl rfl rfl rfl

theorem takeFaults_bystander (f : Line → Bool) (s : State) : Bystander s (takeFaults f s) := by
  unfold takeFaults
  split
  · exact makeFaulted_bystander _ _
  · exact .none s

theorem leaveRun_bystander (n : NodeState) (s : State) : Bystander s (leaveRun n s) :=
  ⟨id, rfl, ownPart_map _ rfl fun _ => ⟨rfl, rfl⟩⟩

theorem causesChanged_bystander (s : State) : Bystander s (causesChanged s) := by
  unfold causesChanged
  split
  · exact leaveRun_bystander _ _
  · exact .ifThen fun _ => .of_eq rfl rfl rfl rfl

theorem linkEvent_bystander (s : State) : Bystander s (linkEvent s) := .ifThen fun _ => .of_eq rfl rfl rfl rfl

theorem lostSet_bystander (s : State) : Bystander s (lostSet s) := by
  unfold lostSet
  refine (causesChanged_bystander _).after ((linkEvent_bystander _).after ?_)
  exact .of_eq rfl rfl rfl rfl

theorem guardEvent_bystander (f : Flag) (c : Output) (s : State) : Bystander s (guardEvent f c s) := by
  rw [guardEvent_same]
  exact .of_eq rfl rfl rfl rfl

theorem judgeOutput_bystander (s : State) (c : Output) : Bystander s (judgeOutput s c) := by
  unfold judgeOutput
  dsimp only
  split
  · refine (guardEvent_bystander _ _ _).after ?_
    exact .of_eq rfl rfl rfl rfl
  · exact .of_eq rfl rfl rfl rfl

theorem countBlock_bystander (n : Nat) (s : State) : Bystander s (countBlock n s) :=
  ⟨id, rfl, ownPart_map _ rfl fun _ => ⟨rfl, rfl⟩⟩

theorem blockEnds_bystander (s : State) : Bystander s (blockEnds s) :=
  (Bystander.fold judgeOutput_bystander _ s).and ((countBlock_bystander 0 _).and (.of_eq rfl rfl rfl rfl))

theorem clipMutes_bystander (c : Output) (s : State) : Bystander s (clipMutes c s) := by
  unfold clipMutes
  refine (guardEvent_bystander _ _ _).after ?_
  exact ⟨id, rfl, ownPart_map _ rfl fun _ => ⟨rfl, rfl⟩⟩

theorem clearingEnds_bystander (s : State) : Bystander s (clearingEnds s) := by
  unfold clearingEnds
  split
  · exact .of_eq rfl rfl rfl rfl
  · exact .none s

theorem leavingEnds_bystander (s : State) : Bystander s (leavingEnds s) := by
  unfold leavingEnds
  dsimp only
  split
  · exact (leaveRun_bystander .standby s).and ⟨id, rfl, ownPart_map _ rfl fun _ => ⟨rfl, rfl⟩⟩
  · exact ⟨id, rfl, ownPart_map _ rfl fun _ => ⟨rfl, rfl⟩⟩

theorem sweepEnds_bystander (o : SweepOutcome) (s : State) : Bystander s (sweepEnds o s) := ⟨id, rfl, rfl⟩

theorem sweepMoves_bystander (s : State) : Bystander s (sweepMoves s) :=
  .ifThen fun _ => ⟨fun h => MemCtl.marksHold.sweepTo h _, rfl, rfl⟩

theorem samplingStep_bystander (s : State) : Bystander s (samplingStep s) := by
  unfold samplingStep
  split
  · unfold raiseIf
    split
    · exact .of_eq rfl rfl rfl rfl
    · exact .of_eq rfl rfl rfl rfl
  · exact .none s

theorem holdoffTick_bystander (s : State) : Bystander s (holdoffTick s) := by
  unfold holdoffTick
  split
  · exact .of_eq rfl rfl rfl rfl
  · exact .of_eq rfl rfl rfl rfl

/-! ### The engine -/

theorem recordCheck_bystander (s : State) (c : Check) : Bystander s (recordCheck s c) := by
  unfold recordCheck raiseIf
  split
  · exact .of_eq rfl rfl rfl rfl
  · exact .of_eq rfl rfl rfl rfl

theorem recordChecks_bystander (cs : List Check) (s : State) : Bystander s (recordChecks cs s) := by
  unfold recordChecks
  split
  · exact .fold recordCheck_bystander _ _
  · refine (Bystander.fold recordCheck_bystander _ _).after ?_
    exact .of_eq rfl rfl rfl rfl

theorem commitServe_bystander (v : Serve) (s : State) : Bystander s (commitServe v s) := by
  unfold commitServe ranksGone
  refine (recordChecks_bystander _ _).after ((Bystander.fold (fun s _ => makeFaulted_bystander _ s) _ _).after ?_)
  exact .of_eq rfl rfl rfl rfl

theorem overMem_bystander {f : MemCtl → MemCtl} (h : ∀ m, m.marksHold → (f m).marksHold) (s : State) :
    Bystander s (overMem f s) :=
  ⟨h s.mem, rfl, rfl⟩

theorem sweepStep_bystander (seq : Seq) (s : State) : Bystander s (sweepStep seq s) := by
  unfold sweepStep
  split
  · exact .none s
  · split
    · exact (overMem_bystander (fun _ h => h.sweepResult _) _).after (commitServe_bystander _ s)
    · exact overMem_bystander (fun _ h => h.sweepTo _) s

theorem clearingStep_bystander (head : Option Line) (seq : Seq) (s : State) : Bystander s (clearingStep head seq s) := by
  unfold clearingStep
  split
  · refine .ifThen fun _ => (commitServe_bystander _ _).after ?_
    exact .of_eq rfl rfl rfl rfl
  · exact .none s

theorem engineStep_bystander (seq : Seq) (inputs : Vector Int 24) (s : State) : Bystander s (engineStep seq inputs s) := by
  unfold engineStep afterReads
  split
  · refine (clearingStep_bystander _ _ _).after ((commitServe_bystander _ _).after ?_)
    exact .of_eq rfl rfl rfl rfl
  · exact .ifThen fun _ => sweepStep_bystander _ _

theorem engineTaken_bystander (seq : Seq) (inputs : Vector Int 24) (s : State) : Bystander s (engineTaken seq inputs s) :=
  (engineStep_bystander seq inputs s).and ⟨id, rfl, ownPart_map _ rfl fun _ => ⟨rfl, rfl⟩⟩

/-! ### The receiver's settlement -/

theorem offerNow_bystander (o : Offer) (s : State) : Bystander s (offerNow o s) := .of_eq rfl rfl rfl rfl

theorem offerSequence_bystander (seq : Seq) (s : State) : Bystander s (offerSequence seq s) := by
  unfold offerSequence
  refine .ifThen fun _ => ?_
  unfold fire
  split
  · exact .of_eq rfl rfl rfl rfl
  · exact .of_eq rfl rfl rfl rfl

theorem expectedSettled_bystander (seq : Seq) (s : State) : Bystander s (expectedSettled seq s) := by
  unfold expectedSettled
  refine (offerSequence_bystander _ _).after ?_
  exact .of_eq rfl rfl rfl rfl

theorem linkSet_bystander (s : State) : Bystander s (linkSet s) := by
  unfold linkSet
  refine (causesChanged_bystander _).after ((linkEvent_bystander _).after ?_)
  exact .of_eq rfl rfl rfl rfl

theorem errorCounted_bystander (s : State) : Bystander s (errorCounted s) := by
  unfold errorCounted
  dsimp only
  split
  · refine (linkSet_bystander _).after ?_
    exact .of_eq rfl rfl rfl rfl
  · exact .of_eq rfl rfl rfl rfl

theorem errorForgiven_bystander (s : State) : Bystander s (errorForgiven s) := by
  unfold errorForgiven
  dsimp only
  split
  · refine (causesChanged_bystander _).after ?_
    exact .of_eq rfl rfl rfl rfl
  · exact .of_eq rfl rfl rfl rfl

theorem lostCleared_bystander (s : State) : Bystander s (lostCleared s) := by
  unfold lostCleared
  refine .ifThen fun _ => (causesChanged_bystander _).after ?_
  exact .of_eq rfl rfl rfl rfl

theorem jumpTaken_bystander (s : State) : Bystander s (jumpTaken s) := by
  unfold jumpTaken
  refine (errorCounted_bystander _).after ((linkEvent_bystander _).after ?_)
  exact .of_eq rfl rfl rfl rfl

theorem goodCounted_bystander (s : State) : Bystander s (goodCounted s) := .of_eq rfl rfl rfl rfl

theorem goodSettled_bystander (jump : Bool) (seq : Seq) (s : State) : Bystander s (goodSettled jump seq s) := by
  have offered : Bystander s (offerToCapture seq (settle seq s)) := by
    refine (offerNow_bystander _ _).after ?_
    exact .of_eq rfl rfl rfl rfl
  unfold goodSettled
  split
  · exact (jumpTaken_bystander _).after ((goodCounted_bystander _).after ((lostCleared_bystander _).after offered))
  · exact (errorForgiven_bystander _).after
      ((goodCounted_bystander _).after
        ((lostCleared_bystander _).after ((offerSequence_bystander _ _).after offered)))

theorem linkRestored_bystander (s : State) : Bystander s (linkRestored s) := .ifThen fun _ => .of_eq rfl rfl rfl rfl

end Sys2Proof.Machine
end

section
/-! SUPPORT. The stages of the end of a frame period, the owners of the orders and the events of the part as bystanders of the
sweep and the service arbiter. -/

namespace Sys2Proof.Machine

/-! ### The stages of the end of a frame period -/

theorem roleChange_bystander (f : Role → Role) (c : Changer) (s : State) : Bystander s (roleChange f c s) :=
  .of_eq rfl rfl rfl rfl

theorem fadeEnds_bystander (s : State) : Bystander s (fadeEnds s) := .of_eq rfl rfl rfl rfl

theorem revertedFadeEnds_bystander (s : State) : Bystander s (revertedFadeEnds s) := .of_eq rfl rfl rfl rfl

theorem sizingEnds_bystander (s : State) : Bystander s (sizingEnds s) := .of_eq rfl rfl rfl rfl

theorem startUpEnds_bystander (s : State) : Bystander s (startUpEnds s) := by
  unfold startUpEnds
  refine (lostSet_bystander _).after ?_
  exact .of_eq rfl rfl rfl rfl

theorem blockAtEnd_bystander (s : State) : Bystander s (blockAtEnd s) := by
  unfold blockAtEnd
  split
  · exact blockEnds_bystander s
  · exact .ifThen fun _ => countBlock_bystander _ s

theorem clipsAtEnd_bystander (s : State) : Bystander s (clipsAtEnd s) :=
  .fold (fun s c => .ifThen fun _ => clipMutes_bystander c s) _ s

theorem clearingAtEnd_bystander (s : State) : Bystander s (clearingAtEnd s) := .ifThen fun _ => clearingEnds_bystander s

theorem fadeAtEnd_bystander (s : State) : Bystander s (fadeAtEnd s) := by
  unfold fadeAtEnd
  split
  · exact fadeEnds_bystander s
  · split
    · exact revertedFadeEnds_bystander s
    · exact .ifThen fun _ => .of_eq rfl rfl rfl rfl

theorem muteRampsAtEnd_bystander (s : State) : Bystander s (muteRampsAtEnd s) := .ifThen fun _ => .of_eq rfl rfl rfl rfl

theorem rampAtEnd_bystander (s : State) : Bystander s (rampAtEnd s) := by
  unfold rampAtEnd
  split
  · exact leavingEnds_bystander s
  · split
    · exact .ifThen fun _ => .of_eq rfl rfl rfl rfl
    · exact .none s

theorem sweepAtEnd_bystander (s : State) : Bystander s (sweepAtEnd s) := by
  unfold sweepAtEnd
  split
  · exact sweepEnds_bystander _ s
  · exact sweepMoves_bystander s

theorem limitAtEnd_bystander (s : State) : Bystander s (limitAtEnd s) := .ifThen fun _ => startUpEnds_bystander s

theorem sizingAtEnd_bystander (s : State) : Bystander s (sizingAtEnd s) := .ifThen fun _ => sizingEnds_bystander s

theorem abandonAtEnd_bystander (s : State) : Bystander s (abandonAtEnd s) := .of_eq rfl rfl rfl rfl

/-- Between the part's own messages and the last step, the end of a frame period is a bystander. -/
theorem beforeSampling_bystander (s : State) : Bystander (returnLeaves (runReady (startOwn s))) (beforeSampling s) := by
  unfold beforeSampling
  dsimp only
  generalize returnLeaves (runReady (startOwn s)) = t
  have lines := (clearingAtEnd_bystander _).after
    ((takeFaults_bystander (fun _ => true) _).after ((clipsAtEnd_bystander _).after (blockAtEnd_bystander t)))
  have ramps := (rampAtEnd_bystander _).after ((muteRampsAtEnd_bystander _).after ((fadeAtEnd_bystander _).after lines))
  have node := (sizingAtEnd_bystander _).after ((limitAtEnd_bystander _).after ((sweepAtEnd_bystander _).after ramps))
  exact (holdoffTick_bystander _).after ((abandonAtEnd_bystander _).after node)

/-! ### The owners -/

/-- An owner's execution of an order as a bystander, with a return that fits its message: the feed list that READ-LINE returns
holds at most six terms (R7, R117). -/
structure OwnerStands (s : State) (a : Reply × State) : Prop where
  stands : Bystander s a.2
  fits : FeedLaw s → a.1.more.length ≤ 31

theorem OwnerStands.plain {s t : State} (r : Result) (d : Nat) (h : Bystander s t) :
    OwnerStands s ({ result := r, detail := d, more := [] }, t) :=
  ⟨h, fun _ => Nat.zero_le 31⟩

theorem OwnerStands.refuse (r : Result) (d : Nat) (s : State) : OwnerStands s (refuse r d s) := .plain r d (.none s)

theorem OwnerStands.done {s t : State} (d : Nat) (h : Bystander s t) : OwnerStands s (done d t) := .plain _ d h

theorem OwnerStands.accepted {s t : State} (h : Bystander s t) : OwnerStands s (accepted t) := .plain _ 0 h

theorem OwnerStands.reads {ws : List Word} (s : State) (h : FeedLaw s → ws.length ≤ 31) : OwnerStands s (reads ws s) :=
  ⟨.none s, h⟩

/-- An owner that changes nothing but the blocks that no law of the sweep and of the arbiter speaks of. -/
theorem OwnerStands.doneAside {s t : State} (d : Nat) (hm : t.mem = s.mem) (ha : t.arbiter = s.arbiter)
    (hp : t.period = s.period) : OwnerStands s (Machine.done d t) :=
  .done d (.of_eq (by rw [hm]) (by rw [hm]) ha hp)

theorem standbyOwner_stands (o : Order) (s : State) : OwnerStands s (standbyOwner o s) := by
  unfold standbyOwner
  split
  · exact .refuse _ _ s
  · exact .done _ (.none s)
  · exact .done _ ⟨fun h => MemCtl.marksHold.markTested h, rfl, rfl⟩
  · exact .doneAside _ rfl rfl rfl
  · exact .doneAside _ rfl rfl rfl

theorem orderCauseIs_bystander (b : Bool) (s : State) : Bystander s (orderCauseIs b s) := by
  unfold orderCauseIs
  refine (causesChanged_bystander _).after ?_
  exact .of_eq rfl rfl rfl rfl

theorem nextPresent_block_lt (present : Vector Bool 4) :
    ((nextPresent present 0).map firstBlock).getD 0 < 16384 := by
  cases nextPresent present 0 with
  | none => show 0 < 16384; omega
  | some r =>
    have := firstBlock_end r
    show firstBlock r < 16384
    unfold Config.blocksPerRank at this
    omega

theorem sweepStarts_bystander (s : State) : Bystander s (sweepStarts s) :=
  ⟨fun h => MemCtl.marksHold.of_eq h rfl (nextPresent_block_lt _), rfl, rfl⟩

theorem sweepOwner_stands (o : Order) (s : State) : OwnerStands s (sweepOwner o s) := by
  unfold sweepOwner
  split
  · exact .refuse _ _ s
  · split
    · exact .refuse _ _ s
    · exact .accepted (sweepStarts_bystander s)

theorem placeAndClear_stands (n : Line) (s : State) : OwnerStands s (placeAndClear n s) := by
  unfold placeAndClear
  split
  · exact .refuse _ _ s
  · split
    · exact .refuse _ _ s
    · exact .accepted (.of_eq rfl rfl rfl rfl)

theorem stopOwner_stands (o : Order) (s : State) : OwnerStands s (stopOwner o s) := by
  unfold stopOwner
  dsimp only
  split
  · exact .refuse _ _ s
  · split
    · exact .refuse _ _ s
    · exact .done _ (.of_eq rfl rfl rfl rfl)

theorem releaseOwner_stands (o : Order) (s : State) : OwnerStands s (releaseOwner o s) := by
  unfold releaseOwner
  split
  · exact .refuse _ _ s
  · split
    · exact .done _ ⟨id, rfl, ownPart_map _ rfl fun _ => ⟨rfl, rfl⟩⟩
    · exact .refuse _ _ s

theorem readPart_stands (part count index : Nat) (isB : Bool) (b : BankSlot) (s : State) :
    OwnerStands s (readPart part count index isB b s) :=
  ⟨by rw [readPart_same]; exact .none s, fun _ => readPart_more part count index isB b s⟩

theorem readSamplesOwner_stands (o : Order) (s : State) : OwnerStands s (readSamplesOwner o s) := by
  unfold readSamplesOwner
  dsimp only
  split
  · exact .refuse _ _ s
  · split
    · exact .refuse _ _ s
    · split
      · exact .refuse _ _ s
      · refine .reads s fun _ => ?_
        simp only [List.length_cons, packSamples_length, List.length_map, positionsReturned, List.length_range]
        omega

theorem readGuardOwner_stands (o : Order) (s : State) : OwnerStands s (readGuardOwner o s) := by
  unfold readGuardOwner
  dsimp only
  split
  · exact .refuse _ _ s
  · split
    · exact .refuse _ _ s
    · next first _ hn =>
      refine .reads s fun _ => ?_
      have few := outputsFrom_length first (bitsAt (bodyWord o 1) 7 0) (by omega)
      simp only [List.length_cons, List.length_flatMap, GuardRec.words_length, List.map_const', List.sum_replicate,
        smul_eq_mul]
      omega

theorem readLineOwner_stands (o : Order) (s : State) : OwnerStands s (readLineOwner o s) := by
  refine .reads s fun h => ?_
  obtain ⟨-, -, few⟩ := h (lineField (bodyWord o 1))
  rw [lineWords_length]
  omega

theorem badBlockWords_length (m : MemCtl) (start : Nat) : (badBlockWords m start).length ≤ 31 := by
  have few : ((m.badBlocks.drop start).take 32).length ≤ 32 := List.length_take_le _ _
  simp only [badBlockWords, List.length_append, List.length_cons, List.length_nil, packHalves_length]
  omega

theorem checkWords_length (c : Option Check) : (checkWords c).length = 2 := by cases c <;> rfl

/-- An owner of scene-writing orders stands where its edit does. -/
theorem editing_stands {owner : Order → State → Reply × State} (h : ∀ o s, OwnerStands s (owner o s)) (o : Order)
    (s : State) : OwnerStands s (editing owner o s) := by
  unfold editing
  split
  · exact h o s
  · exact .refuse _ _ _

theorem readCheckWords_length (s : State) : (readCheckWords s).length = 6 := by
  simp only [readCheckWords, List.length_cons, List.length_append, checkWords_length, List.length_nil]

theorem Profile.words_length (n : Fin 8) (p : Profile) : (p.words n).length = 3 := rfl

/-- Every owner is a bystander of the sweep and of the service arbiter, and its returns fit their messages. -/
theorem ownerOf_stands (c v : Nat) (x : Verb × (Order → State → Reply × State)) (h : ownerOf c v = some x) (o : Order)
    (s : State) : OwnerStands s (x.2 o s) := by
  unfold ownerOf at h
  split at h
  all_goals cases h
  case h_1.refl => exact .reads s fun _ => (by decide : 8 ≤ 31)
  case h_3.refl => exact standbyOwner_stands o s
  case h_4.refl => exact .done _ (orderCauseIs_bystander _ s)
  case h_5.refl => exact .done _ (orderCauseIs_bystander _ s)
  case h_6.refl => exact sweepOwner_stands o s
  case h_13.refl => exact .reads s fun _ => (mapWords_length _).le.trans (by decide)
  case h_17.refl => exact stopOwner_stands o s
  case h_19.refl => exact readLineOwner_stands o s
  case h_32.refl => exact readGuardOwner_stands o s
  case h_33.refl => exact releaseOwner_stands o s
  case h_34.refl => exact .reads s fun _ => (by decide : 11 ≤ 31)
  case h_36.refl => exact ⟨.of_eq rfl rfl rfl rfl, fun _ => (by decide : 11 ≤ 31)⟩
  case h_39.refl => exact .reads s fun _ => (readCheckWords_length s).le.trans (by decide)
  case h_42.refl => exact .reads s fun _ => badBlockWords_length _ _
  case h_47.refl => exact .reads s fun _ => (by decide : 8 ≤ 31)
  case h_48.refl => exact readSamplesOwner_stands o s
  case h_49.refl => exact .reads s fun _ => (by decide : 6 ≤ 31)
  all_goals try refine editing_stands (fun o s => ?_) o s
  all_goals try dsimp only
  all_goals first
    | unfold goOwner | unfold unlockOwner | unfold lockOwner | unfold setAddressOwner | unfold resetOwner
    | unfold writeInMapOwner | unfold writeOutMapOwner | unfold writeWindowOwner | unfold writeFeedOwner
    | unfold startOwner | unfold restartOwner | unfold writeHeaderOwner | unfold writeOutputOwner
    | unfold appendTapOwner | unfold replaceTapOwner | unfold truncateOwner | unfold copyLiveOwner | unfold readBankOwner
    | unfold commitOwner | unfold cancelOwner | unfold revertOwner | unfold writeProfileOwner | unfold readProfileOwner
    | unfold clearEventsOwner | unfold writeEnablesOwner | unfold writeHoldoffOwner | unfold clearCheckOwner
    | unfold writeModeOwner | unfold setUpOwner | unfold armOwner | unfold captureTriggerOwner | unfold captureStopOwner
    | unfold clearCountersOwner
  all_goals try dsimp only
  all_goals repeat' split
  all_goals first
    | exact .refuse _ _ _
    | exact .plain _ _ (.of_eq rfl rfl rfl rfl)
    | exact placeAndClear_stands _ _
    | exact readPart_stands _ _ _ _ _ _
    | exact .reads s fun _ => (Profile.words_length _ _).le.trans (by decide)

end Sys2Proof.Machine
end

section
/-! SUPPORT. The bounds of the service arbiter under its choices (R125 to R129). -/

namespace Sys2Proof.Machine

/-- The bounds of the arbiter's queues and of the own message in progress: what the law of the transit queue says of the
arbiter alone. -/
def Arbiter.inBounds (a : Arbiter) : Prop :=
  a.transit.length ≤ 33 ∧ (∀ r ∈ a.returns, 3 ≤ r.words.length ∧ r.words.length ≤ 34) ∧
    ∀ ws p, a.own = some (ws, p) → ws.length ≤ 34 ∧ a.transit.length < p ∧ p < ws.length

/-- What the law says of an own message that waits for its frame period's end, and of a return whose END has left. -/
def Arbiter.awaits (a : Arbiter) (waiting : Option (OwnStart × Draft)) (left : Bool) : Prop :=
  (∀ o d, waiting = some (o, d) → a.transit = [] ∧ a.own = none ∧ left = false ∧ (o = .ret → a.returns ≠ [])) ∧
    (left = true → a.own = none)

theorem Arbiter.own_ownReturn {a : Arbiter} {p : Nat} (h : a.sending = some (.ownReturn p)) :
    a.own = some (((a.returns.head?).map (·.words)).getD [], p) := by
  unfold Arbiter.own
  rw [h]

theorem Arbiter.own_ownNotice {a : Arbiter} {ws : List Word} {p : Nat} (h : a.sending = some (.ownNotice ws p)) :
    a.own = some (ws, p) := by
  unfold Arbiter.own
  rw [h]

theorem transitLaw_iff (s : State) :
    TransitLaw s ↔ s.arbiter.inBounds ∧ ∀ p, s.period = some p → s.arbiter.awaits p.ownStart p.returnLeft := by
  unfold TransitLaw Arbiter.inBounds
  constructor
  · rintro ⟨transit, returns, ret, notice, period⟩
    refine ⟨⟨transit, returns, fun ws p own => ?_⟩, period⟩
    unfold Arbiter.own at own
    split at own
    · next q sending =>
      obtain ⟨r, rest, hr, low, high⟩ := ret q sending
      rw [hr] at own
      cases own
      exact ⟨(returns r (hr ▸ List.mem_cons_self)).2, low, high⟩
    · next sending =>
      cases own
      exact notice _ _ sending
    · cases own
  · rintro ⟨⟨transit, returns, own⟩, period⟩
    refine ⟨transit, returns, fun p sending => ?_, fun ws p sending => own _ _ (Arbiter.own_ownNotice sending), period⟩
    obtain ⟨-, low, high⟩ := own _ _ (Arbiter.own_ownReturn sending)
    match hr : s.arbiter.returns with
    | [] => simp [hr] at high
    | r :: rest => exact ⟨r, rest, rfl, low, by simpa [hr] using high⟩

/-- A change that shortens the transit queue, and leaves the returns and the own message, keeps the bounds. -/
theorem Arbiter.inBounds.shorter {a b : Arbiter} (h : a.inBounds) (ht : b.transit.length ≤ a.transit.length)
    (hr : b.returns = a.returns) (ho : b.own = a.own) : b.inBounds := by
  obtain ⟨transit, returns, own⟩ := h
  refine ⟨ht.trans transit, hr ▸ returns, fun ws p hb => ?_⟩
  obtain ⟨few, low, high⟩ := own ws p (ho ▸ hb)
  exact ⟨few, ht.trans_lt low, high⟩

/-- With no own message in progress the bounds are those of the queues. -/
theorem Arbiter.inBounds.of_none {a b : Arbiter} (h : a.inBounds) (ht : b.transit.length ≤ 33)
    (hr : b.returns = a.returns) (ho : b.own = none) : b.inBounds :=
  ⟨ht, hr ▸ h.2.1, fun ws p hb => by rw [ho] at hb; cases hb⟩

theorem Arbiter.awaits_nothing (a : Arbiter) : a.awaits none false := ⟨fun _ _ h => (nomatch h), fun h => (nomatch h)⟩

theorem Arbiter.own_advance {a : Arbiter} {ws : List Word} {p : Nat} (h : a.own = some (ws, p)) (ts : List TransitWord) :
    Arbiter.own { a with sending := a.sending.map Sending.advance, transit := ts } = some (ws, p + 1) := by
  unfold Arbiter.own at h ⊢
  split at h
  · next hs => cases h; simp only [hs, Option.map_some, Sending.advance]
  · next hs => cases h; simp only [hs, Option.map_some, Sending.advance]
  · cases h

/-- What follows a forwarded word that leaves is no own message. -/
theorem Arbiter.own_sendingAfter {a : Arbiter} (h : a.own = none) {begin_ : Nat → Nat → Sending}
    (hb : begin_ = .direct ∨ begin_ = .queued) (w : TransitWord) (ts : List TransitWord) :
    Arbiter.own { a with sending := sendingAfter begin_ a.sending w, transit := ts } = none := by
  unfold sendingAfter
  cases w.kind with
  | tail => rfl
  | head => obtain rfl | rfl := hb <;> rfl
  | idle | body =>
    unfold Arbiter.own at h ⊢
    cases hs : a.sending with
    | none => rfl
    | some x => cases x <;> simp_all [Sending.advance]

theorem joined_length (ts : List TransitWord) (x : Option TransitWord) : (joined ts x).length ≤ ts.length + 1 := by
  cases x <;> simp [joined]

/-- The own message that waits for the frame period's end, of what leaves. -/
def Leaving.waits (d : Draft) : Leaving → Option (OwnStart × Draft)
  | .word _ _ => none
  | .start own => some (own, d)

/-- A choice that leaves the arbiter in its bounds and its own message as the law has it. -/
structure Choice.Sound (c : Choice) : Prop where
  bounds : c.arbiter.inBounds
  waits : ∀ d, c.arbiter.awaits (c.leaving.waits d) c.returnLeft

theorem chooseOwn_sound {ws : List Word} {p : Nat} (arriving : Option TransitWord) {a : Arbiter} (n : NoticeSlot)
    (h : a.inBounds) (own : a.own = some (ws, p)) : (chooseOwn ws p arriving a n).Sound := by
  obtain ⟨-, returns, bounds⟩ := h
  obtain ⟨few, low, high⟩ := bounds ws p own
  have join := joined_length a.transit arriving
  unfold chooseOwn
  split
  · next more =>
    refine ⟨⟨by dsimp only; omega, returns, fun ws' q hq => ?_⟩, fun d => Arbiter.awaits_nothing _⟩
    rw [Arbiter.own_advance own] at hq
    cases hq
    exact ⟨few, by dsimp only; omega, more⟩
  · exact ⟨⟨by dsimp only; omega, returns, fun _ _ hq => by cases hq⟩, fun d => ⟨fun _ _ h => (nomatch h), fun _ => rfl⟩⟩

theorem chooseOther_sound (waiting : Bool) (arriving : Option TransitWord) {a : Arbiter} (n : NoticeSlot)
    (h : a.inBounds) (own : a.own = none) : (chooseOther waiting arriving a n).Sound := by
  unfold chooseOther
  split
  · next t ts ht =>
    have room : ts.length + 1 ≤ 33 := by simpa [ht] using h.1
    exact ⟨h.of_none ((joined_length ts arriving).trans room) rfl (Arbiter.own_sendingAfter own (Or.inr rfl) t _),
      fun d => Arbiter.awaits_nothing _⟩
  · next empty =>
    split
    · next w =>
      exact ⟨h.of_none h.1 rfl (Arbiter.own_sendingAfter own (Or.inl rfl) w _), fun d => Arbiter.awaits_nothing _⟩
    · refine ⟨h.of_none h.1 rfl rfl, fun d => ?_⟩
      dsimp only
      split
      · exact ⟨fun o _ e => ⟨empty, rfl, rfl, by cases e; simp⟩, fun e => by cases e⟩
      · split
        · next some_ => exact ⟨fun o _ e => ⟨empty, rfl, rfl, fun _ => some_⟩, fun e => by cases e⟩
        · exact Arbiter.awaits_nothing _

theorem choose_sound (waiting : Bool) (arriving : Option TransitWord) {a : Arbiter} (n : NoticeSlot) (h : a.inBounds) :
    (a.choose waiting arriving n).Sound := by
  unfold Arbiter.choose
  split
  · next own => exact chooseOwn_sound arriving n h own
  · next own =>
    split
    · unfold chooseDirect
      split
      · exact ⟨h.of_none h.1 rfl (Arbiter.own_sendingAfter own (Or.inl rfl) _ _), fun d => Arbiter.awaits_nothing _⟩
      · exact chooseOther_sound waiting none n h own
    · exact chooseOther_sound waiting arriving n h own

theorem Arbiter.own_remove (a : Arbiter) (m : Nat) : (a.remove m).own = a.own := by
  unfold Arbiter.remove Arbiter.own
  dsimp only
  cases hs : a.sending with
  | none => rfl
  | some x =>
    cases x with
    | ownReturn p => rfl
    | ownNotice ws p => rfl
    | direct k p => by_cases h : k = m <;> simp [h]
    | queued k p => by_cases h : k = m <;> simp [h]

theorem Arbiter.inBounds.remove {a : Arbiter} (h : a.inBounds) (m : Nat) : (a.remove m).inBounds :=
  h.shorter (List.length_filter_le _ _) rfl (a.own_remove m)

theorem chooseAbandoned_sound (waiting : Bool) (m : Option Nat) {a : Arbiter} (n : NoticeSlot) (h : a.inBounds) :
    (a.chooseAbandoned waiting m n).Sound := by
  unfold Arbiter.chooseAbandoned
  split
  · exact choose_sound waiting none n h
  · split
    · exact ⟨h.remove _, fun d => Arbiter.awaits_nothing _⟩
    · exact choose_sound waiting none n (h.remove _)

theorem chosen_sound (waiting : Bool) (e : Heard) {s : State} (h : s.arbiter.inBounds) : (chosen waiting e s).Sound := by
  unfold chosen
  split
  · exact chooseAbandoned_sound waiting _ _ h
  · exact choose_sound waiting _ _ h

/-- The own message that waits has started with a first word of at least two. -/
theorem Arbiter.inBounds.starts {a : Arbiter} (h : a.inBounds) (empty : a.transit = []) {x : Sending} {ws : List Word}
    (hx : Arbiter.own { a with sending := some x } = some (ws, 1)) (low : 1 < ws.length) (high : ws.length ≤ 34) :
    Arbiter.inBounds { a with sending := some x } := by
  refine ⟨h.1, h.2.1, fun ws' p hp => ?_⟩
  rw [hx] at hp
  cases hp
  exact ⟨high, by simp [empty], low⟩

/-- A return that joins the queue is not the own message in progress: that one is at the queue's head. -/
theorem Arbiter.inBounds.own_queued {a : Arbiter} (h : a.inBounds) (r : Return) :
    Arbiter.own { a with returns := a.returns ++ [r] } = a.own := by
  match hs : a.sending, hr : a.returns with
  | some (.ownReturn p), [] =>
    have own := Arbiter.own_ownReturn hs
    rw [hr] at own
    exact absurd (h.2.2 _ _ own).2.2 (Nat.not_lt_zero p)
  | some (.ownReturn p), _ :: _ => simp [Arbiter.own, hs, hr]
  | some (.ownNotice _ _), _ => simp [Arbiter.own, hs]
  | some (.direct _ _), _ => simp [Arbiter.own, hs]
  | some (.queued _ _), _ => simp [Arbiter.own, hs]
  | none, _ => simp [Arbiter.own, hs]

theorem Arbiter.inBounds.queued {a : Arbiter} (h : a.inBounds) {r : Return} (low : 3 ≤ r.words.length)
    (high : r.words.length ≤ 34) : Arbiter.inBounds { a with returns := a.returns ++ [r] } := by
  refine ⟨h.1, fun q hq => ?_, fun ws p hp => h.2.2 ws p ((h.own_queued r).symm.trans hp)⟩
  obtain hq | hq := List.mem_append.mp hq
  · exact h.2.1 q hq
  · rw [List.mem_singleton.mp hq]
    exact ⟨low, high⟩

/-- A return that joins the queue changes nothing for the own message that waits. -/
theorem Arbiter.awaits.queued {a : Arbiter} (h : a.inBounds) {w : Option (OwnStart × Draft)} {left : Bool}
    (k : a.awaits w left) (r : Return) : Arbiter.awaits { a with returns := a.returns ++ [r] } w left := by
  obtain ⟨waits, gone⟩ := k
  have own := h.own_queued r
  refine ⟨fun o d hw => ?_, fun hl => own.trans (gone hl)⟩
  obtain ⟨empty, none_, here, -⟩ := waits o d hw
  exact ⟨empty, own.trans none_, here, fun _ => by simp⟩

end Sys2Proof.Machine
end

section
/-! SUPPORT. What every step keeps of the bad-block map and of the transit queue: each operation as a row of moves that keeps
both laws, the feed lists' law granted (R7, R19, R126, R128, R129). -/

namespace Sys2Proof.Machine

/-- A row of moves that keeps the laws of the bad-block map and of the transit queue. -/
structure KeepsLaws (s t : State) : Prop where
  moves : Moves s t
  marks : BadBlockLaw s → BadBlockLaw t
  transit : FeedLaw s → TransitLaw s → TransitLaw t

theorem KeepsLaws.none (s : State) : KeepsLaws s s := ⟨.none, id, fun _ => id⟩

theorem KeepsLaws.and {s t u : State} (a : KeepsLaws s t) (b : KeepsLaws t u) : KeepsLaws s u :=
  ⟨a.moves.and b.moves, b.marks ∘ a.marks,
    fun f h => b.transit (a.moves.keep (fun _ _ => Move.feedLaw) f) (a.transit f h)⟩

theorem KeepsLaws.ifThen {c : Prop} [Decidable c] {s t : State} (h : c → KeepsLaws s t) : KeepsLaws s (if c then t else s) := by
  split
  · exact h ‹_›
  · exact .none s

/-- The frame period in progress holds the same of the part's own messages. -/
theorem ownPart_period {s t : State} (h : ownPart t = ownPart s) {p : Period} (ht : t.period = some p) :
    ∃ q, s.period = some q ∧ q.ownStart = p.ownStart ∧ q.returnLeft = p.returnLeft := by
  unfold ownPart at h
  rw [ht] at h
  match hs : s.period with
  | Option.none => rw [hs] at h; cases h
  | some q =>
    rw [hs] at h
    obtain ⟨start, left⟩ := Prod.ext_iff.mp (Option.some.inj h)
    exact ⟨q, rfl, start.symm, left.symm⟩

theorem Bystander.transitLaw {s t : State} (b : Bystander s t) (h : TransitLaw s) : TransitLaw t := by
  obtain ⟨bounds, waits⟩ := (transitLaw_iff s).mp h
  refine (transitLaw_iff t).mpr ⟨b.arbiter ▸ bounds, fun p hp => ?_⟩
  obtain ⟨q, hq, start, left⟩ := ownPart_period b.own hp
  rw [b.arbiter, ← start, ← left]
  exact waits q hq

theorem Bystander.keepsLaws {s t : State} (b : Bystander s t) (m : Moves s t) : KeepsLaws s t :=
  ⟨m, b.marks, fun _ => b.transitLaw⟩

theorem KeepsLaws.of_eq {s t : State} (m : Moves s t) (hb : t.mem.badBlocks = s.mem.badBlocks)
    (hs : t.mem.sweep = s.mem.sweep) (ha : t.arbiter = s.arbiter) (ho : t.period = s.period) : KeepsLaws s t :=
  (Bystander.of_eq hb hs ha ho).keepsLaws m

/-! ### The part's own messages -/

theorem waitingFor_some {o : OwnStart} {s : State} {d : Draft} (h : waitingFor o s = some d) :
    ∃ p, s.period = some p ∧ p.ownStart = some (o, d) := by
  unfold waitingFor at h
  split at h
  · next o' d' hp =>
    obtain ⟨p, hs, start⟩ := Option.bind_eq_some_iff.mp hp
    split at h
    · next same =>
      cases h
      subst same
      exact ⟨p, hs, start⟩
    · cases h
  · cases h

/-- An own message that starts keeps the law, where its HEAD is the first of its words. -/
theorem started_transitLaw {s t : State} (h : TransitLaw s) {o : OwnStart} {d : Draft} (hw : waitingFor o s = some d)
    {x : Sending} {ws : List Word} (ha : t.arbiter = { s.arbiter with sending := some x })
    (hp : t.period = s.period.map fun p => { p with ownStart := Option.none })
    (own : t.arbiter.own = some (ws, 1)) (low : 1 < ws.length) (high : ws.length ≤ 34) : TransitLaw t := by
  obtain ⟨bounds, waits⟩ := (transitLaw_iff s).mp h
  obtain ⟨p, hs, start⟩ := waitingFor_some hw
  obtain ⟨empty, -, here, -⟩ := (waits p hs).1 o d start
  refine (transitLaw_iff t).mpr ⟨ha ▸ bounds.starts empty (ha ▸ own) low high, fun q hq => ?_⟩
  rw [hp, hs] at hq
  cases hq
  show t.arbiter.awaits Option.none p.returnLeft
  rw [here]
  exact Arbiter.awaits_nothing _

theorem message_length (ws : List Word) : (message ws).length = ws.length + 1 := by simp [message]

theorem noticeWords_length (p : BitVec 8) (e : Events) : (noticeWords p e).length = 10 := rfl

theorem startOwn_keepsLaws (s : State) : KeepsLaws s (startOwn s) := by
  refine ⟨startOwn_moves s, fun h => ?_, fun _ h => ?_⟩
  · unfold startOwn
    split
    · exact h
    · split
      · exact h
      · exact h
  · unfold startOwn
    split
    · next d hw =>
      exact started_transitLaw h hw rfl rfl (Arbiter.own_ownNotice rfl)
        ((by decide : 1 < 10).trans_eq (noticeWords_length _ _).symm) ((noticeWords_length _ _).le.trans (by decide))
    · split
      · next d hw =>
        obtain ⟨bounds, waits⟩ := (transitLaw_iff s).mp h
        obtain ⟨p, hs, start⟩ := waitingFor_some hw
        obtain ⟨-, -, -, some_⟩ := (waits p hs).1 .ret d start
        match hr : s.arbiter.returns with
        | [] => exact absurd hr (some_ rfl)
        | r :: rest =>
          obtain ⟨low, high⟩ := bounds.2.1 r (hr ▸ List.mem_cons_self)
          have words : ((s.arbiter.returns.head?).map (·.words)).getD [] = r.words := by rw [hr]; rfl
          exact started_transitLaw h hw rfl rfl ((Arbiter.own_ownReturn rfl).trans (by rw [← words]; rfl)) (by omega) high
      · exact h

theorem Arbiter.own_none_of_sending {a b : Arbiter} (h : b.sending = a.sending) (ha : a.own = Option.none) :
    b.own = Option.none := by
  unfold Arbiter.own at ha ⊢
  rw [h]
  split at ha
  · cases ha
  · cases ha
  · next other notice => rfl

theorem returnLeaves_transitLaw {s : State} (h : TransitLaw s) : TransitLaw (returnLeaves s) := by
  unfold returnLeaves
  split
  · next left =>
    obtain ⟨bounds, waits⟩ := (transitLaw_iff s).mp h
    obtain ⟨p, hs, left⟩ : ∃ p, s.period = some p ∧ p.returnLeft = true := by
      cases hs : s.period with
      | none => rw [hs] at left; cases left
      | some p => exact ⟨p, rfl, by simpa [hs] using left⟩
    have own : Arbiter.own { s.arbiter with returns := s.arbiter.returns.tail } = Option.none := by
      refine Arbiter.own_none_of_sending ?_ ((waits p hs).2 left)
      rfl
    refine (transitLaw_iff _).mpr
      ⟨⟨bounds.1, fun r hr => bounds.2.1 r (List.mem_of_mem_tail hr), fun ws q hq => ?_⟩, fun q hq => ?_⟩
    · cases own.symm.trans hq
    · cases hs.symm.trans hq
      refine ⟨fun o d start => ?_, fun _ => own⟩
      obtain ⟨-, -, here, -⟩ := (waits p hs).1 o d start
      cases left.symm.trans here
  · exact h

theorem returnLeaves_keepsLaws (s : State) : KeepsLaws s (returnLeaves s) := by
  refine ⟨returnLeaves_moves s, fun h => ?_, fun _ => returnLeaves_transitLaw⟩
  unfold returnLeaves
  split
  · exact h
  · exact h

/-! ### Orders -/

/-- A return that fits its message joins the queue. -/
theorem KeepsLaws.queued {s t : State} (k : KeepsLaws s t) (sec : BitVec 4) (verb tag : BitVec 6) (isReset : Bool)
    {r : Reply} (room : t.arbiter.returns.length < 8) (fits : FeedLaw s → r.more.length ≤ 31) :
    KeepsLaws s (enqueue sec verb tag isReset r t) := by
  refine ⟨k.moves.and (Move.queued t sec verb tag isReset r room).one, k.marks, fun f h => ?_⟩
  obtain ⟨bounds, waits⟩ := (transitLaw_iff t).mp (k.transit f h)
  have few := fits f
  have words : (returnWords t.decoder.pattern sec verb tag r).length = r.more.length + 3 := by
    simp only [returnWords, message_length, Reply.body, List.length_cons]
  exact (transitLaw_iff _).mpr
    ⟨bounds.queued (by dsimp only; omega) (by dsimp only; omega), fun p hp => (waits p hp).queued bounds _⟩

theorem raise_keepsLaws (f : Flag) (s : State) : KeepsLaws s (raise f s) :=
  .of_eq (Move.raised s f).one rfl rfl rfl rfl

theorem raiseRefused_keepsLaws (c : BitVec 4) (v : BitVec 6) (r : Result) (s : State) : KeepsLaws s (raiseRefused c v r s) :=
  .of_eq (Move.raisedRefused s c v r).one rfl rfl rfl rfl

theorem withProtection_keepsLaws (p : Protection) (s : State) : KeepsLaws s (withProtection p s) :=
  .of_eq (withProtection_moves p s) rfl rfl rfl rfl

section Owners

variable {v : Verb} {owner : Order → State → Reply × State} (hm : OwnerMoves v owner)
  (hs : ∀ o s, OwnerStands s (owner o s))

include hs in
theorem answerDirect_stands (o : Order) (s : State) : OwnerStands s (answerDirect v owner o s) := by
  unfold answerDirect
  split
  · exact .refuse _ _ s
  · split
    · exact .refuse _ _ s
    · exact hs o s

include hs in
theorem answerGroup_stands (o : Order) (s : State) : OwnerStands s (answerGroup v owner o s) := by
  unfold answerGroup
  split
  · exact .refuse _ _ s
  · split
    · exact .refuse _ _ s
    · exact hs o s

include hm hs

theorem performDirect_keepsLaws (o : Order) (s : State) : KeepsLaws s (performDirect v owner o s) := by
  unfold performDirect
  split
  · exact raise_keepsLaws _ s
  · next room =>
    have opened := withProtection_keepsLaws (protectionBefore v o s.decoder.protection) s
    have stands := answerDirect_stands hs (v := v) o (withProtection (protectionBefore v o s.decoder.protection) s)
    obtain ⟨moves, same⟩ := answerDirect_moves hm o (withProtection (protectionBefore v o s.decoder.protection) s)
    refine (opened.and (stands.stands.keepsLaws moves)).queued _ _ _ _ ?_ stands.fits
    rw [same]
    exact room_of_not_full room

theorem perform_keepsLaws (o : Order) (s : State) : KeepsLaws s (perform v owner o s) := by
  unfold perform
  split
  · exact performDirect_keepsLaws hm hs o s
  · have answered := (answerGroup_stands hs (v := v) o s).stands.keepsLaws (answerGroup_moves hm o s)
    unfold performGroup
    dsimp only
    split
    · exact answered
    · exact answered.and (raiseRefused_keepsLaws _ _ _ _)

end Owners

theorem performUnknown_keepsLaws (c : BitVec 4) (v : BitVec 6) (o : Order) (s : State) :
    KeepsLaws s (performUnknown c v o s) := by
  unfold performUnknown
  split
  · split
    · exact raise_keepsLaws _ s
    · next room =>
      exact (withProtection_keepsLaws _ s).queued _ _ _ _ (room_of_not_full room) fun _ => Nat.zero_le 31
  · exact raiseRefused_keepsLaws _ _ _ s

theorem runReady_keepsLaws (s : State) : KeepsLaws s (runReady s) := by
  unfold runReady
  split
  · next r _ =>
    have heard : KeepsLaws s { s with decoder := { s.decoder with ready := Option.none } } :=
      .of_eq (Move.decoder s { s.decoder with ready := Option.none } (Or.inl rfl)).one rfl rfl rfl rfl
    refine heard.and ?_
    unfold runOrder
    split
    · next h => exact perform_keepsLaws (ownerOf_moves _ _ _ h) (ownerOf_stands _ _ _ h) _ _
    · exact performUnknown_keepsLaws _ _ _ _
  · exact .none s

theorem consume_keepsLaws (sec : BitVec 4) (verb : BitVec 6) (o : Order) (s : State) :
    KeepsLaws s (consume sec verb o s) :=
  .of_eq (consume_moves sec verb o s) rfl rfl rfl rfl

/-! ### The end of a frame period -/

/-- A reset empties the arbiter and ends the frame period; the bad-block map is kept or cleared. -/
theorem resetState_keepsLaws (pattern mask : BitVec 8) (bad : List Nat) (pins : Pins) (s : State)
    (hp : pattern = s.decoder.pattern ∨ pattern ≠ 0xFF) (hb : bad = s.mem.badBlocks ∨ bad = []) :
    KeepsLaws s (resetState pattern mask bad pins s) where
  moves := (Move.reset s pattern mask bad pins hp).one
  marks := by
    rintro ⟨ascending, below, -⟩
    obtain rfl | rfl := hb
    · exact ⟨ascending, below, (by decide : 0 < 16384)⟩
    · exact ⟨List.Pairwise.nil, by simp [resetState, MemCtl.initial], (by decide : 0 < 16384)⟩
  transit := fun _ _ => by
    refine (transitLaw_iff _).mpr ⟨⟨(by decide : 0 ≤ 33), fun r hr => ?_, fun ws p hw => ?_⟩, fun p hp => ?_⟩
    · cases hr
    · cases hw
    · cases hp

theorem orderResetState_keepsLaws (s : State) : KeepsLaws s (orderResetState s) :=
  resetState_keepsLaws _ _ _ _ s (Or.inl rfl) (Or.inl rfl)

/-- With no frame period in progress nothing waits for its end. -/
theorem periodOver_keepsLaws (s : State) : KeepsLaws s { s with period := Option.none } where
  moves := period_moves s Option.none
  marks := id
  transit := fun _ h => (transitLaw_iff _).mpr ⟨((transitLaw_iff s).mp h).1, fun _ hp => nomatch hp⟩

theorem lastStep_keepsLaws (s : State) : KeepsLaws s (lastStep s) := by
  unfold lastStep
  split
  · exact orderResetState_keepsLaws s
  · exact ((samplingStep_bystander s).keepsLaws (samplingStep_moves s)).and (periodOver_keepsLaws _)

theorem beforeSampling_keepsLaws (s : State) : KeepsLaws s (beforeSampling s) := by
  have own := ((startOwn_keepsLaws s).and (runReady_keepsLaws _)).and (returnLeaves_keepsLaws _)
  have stands := beforeSampling_bystander s
  exact ⟨beforeSampling_moves s, stands.marks ∘ own.marks, fun f h => stands.transitLaw (own.transit f h)⟩

theorem endPeriod_keepsLaws (s : State) : KeepsLaws s (endPeriod s) := by
  unfold endPeriod
  split
  · exact .none s
  · exact (beforeSampling_keepsLaws s).and (lastStep_keepsLaws _)

/-! ### Frame periods -/

theorem beginPeriod_keepsLaws (q : Seq) (g : Bool) (ds : List Disturbance) (s : State) :
    KeepsLaws s (beginPeriod q g ds s) where
  moves := beginPeriod_moves q g ds s
  marks := id
  transit := fun _ h => (transitLaw_iff _).mpr
    ⟨((transitLaw_iff s).mp h).1, fun p hp => by cases hp; exact Arbiter.awaits_nothing _⟩

theorem serve_keepsLaws (w : Bool) (v : Service) (d : Draft) (s : State) : KeepsLaws s (serve w v d s) where
  moves := serve_moves w v d s
  marks := id
  transit := fun _ h => by
    obtain ⟨bounds, waits⟩ := chosen_sound w (s.decoder.hear v) ((transitLaw_iff s).mp h).1
    refine (transitLaw_iff _).mpr ⟨bounds, fun p hp => ?_⟩
    obtain ⟨q, -, rfl⟩ := Option.map_eq_some_iff.mp hp
    exact waits d

theorem handle_keepsLaws (w : Bool) (q : Seq) (inputs : Vector Int 24) (slots : Vector Word 64) (damaged : Bool)
    (v : Service) (s : State) : KeepsLaws s (handle w q inputs slots damaged v s) :=
  (((engineTaken_bystander q inputs s).keepsLaws (engineTaken_moves q inputs s)).and (serve_keepsLaws _ _ _ _)).and
    ((linkRestored_bystander _).keepsLaws (linkRestored_moves _))

/-- A frame period whose settlement is a bystander. -/
theorem handled_keepsLaws {q : Seq} {g : Bool} {ds : List Disturbance} {s t : State}
    (b : Bystander (beginPeriod q g ds s) t) (m : Moves (beginPeriod q g ds s) t) (w : Bool) (r : Seq)
    (inputs : Vector Int 24) (slots : Vector Word 64) (damaged : Bool) (v : Service) :
    KeepsLaws s (handle w r inputs slots damaged v t) :=
  ((beginPeriod_keepsLaws q g ds s).and (b.keepsLaws m)).and (handle_keepsLaws _ _ _ _ _ _ _)

theorem goodFrame_keepsLaws (f : Frame) (ds : List Disturbance) (s : State) : KeepsLaws s (goodFrame f ds s) :=
  handled_keepsLaws (goodSettled_bystander _ _ _) (goodSettled_moves _ _ _) _ _ _ _ _ _

theorem badCounted_bystander (n : Nat) (s : State) : Bystander s (badCounted n s) := .of_eq rfl rfl rfl rfl

theorem searchEntered_bystander (s : State) : Bystander s (searchEntered s) := .of_eq rfl rfl rfl rfl

theorem judged_bystander (a : List Frame) (s : State) : Bystander s (judged a s) := .of_eq rfl rfl rfl rfl

theorem badFrame_keepsLaws (f : Frame) (ds : List Disturbance) (s : State) : KeepsLaws s (badFrame f ds s) :=
  handled_keepsLaws
    ((errorCounted_bystander _).after
      ((badCounted_bystander 0 _).after ((lostCleared_bystander _).after (expectedSettled_bystander _ _))))
    ((((expectedSettled_moves _ _).and (lostCleared_moves _)).and (badCounted_moves 0 _ (by decide))).and
      (errorCounted_moves _)) _ _ _ _ _ _

theorem missingFrame_keepsLaws (ds : List Disturbance) (s : State) (h : s.link.missing < 3) :
    KeepsLaws s (missingFrame ds s) :=
  handled_keepsLaws
    ((errorCounted_bystander _).after ((badCounted_bystander _ _).after (expectedSettled_bystander _ _)))
    (((expectedSettled_moves _ _).and (badCounted_moves _ _ (by omega))).and (errorCounted_moves _)) _ _ _ _ _ _

theorem lostFrame_keepsLaws (ds : List Disturbance) (s : State) : KeepsLaws s (lostFrame ds s) :=
  handled_keepsLaws
    ((lostSet_bystander _).after ((searchEntered_bystander _).after (expectedSettled_bystander _ _)))
    (((expectedSettled_moves _ _).and (searchEntered_moves _)).and (lostSet_moves _)) _ _ _ _ _ _

theorem localFrame_keepsLaws (a : List Frame) (ds : List Disturbance) (s : State) : KeepsLaws s (localFrame a ds s) :=
  (handled_keepsLaws (expectedSettled_bystander _ _) (expectedSettled_moves _ _) _ _ _ _ _ _).and
    ((judged_bystander a _).keepsLaws (judged_moves a _))

theorem searchPeriod_keepsLaws (a : List Frame) (ds : List Disturbance) (s : State) :
    KeepsLaws s (searchPeriod a ds s) := by
  have begins := beginPeriod_keepsLaws s.link.expected false ds s
  have stands : Bystander (beginPeriod s.link.expected false ds s) (searchPeriod a ds s) := by
    unfold searchPeriod
    refine (judged_bystander a _).after (Bystander.after ?_ (engineTaken_bystander s.link.expected noInputs _))
    exact .of_eq rfl rfl rfl rfl
  exact ⟨searchPeriod_moves a ds s, stands.marks ∘ begins.marks, fun f h => stands.transitLaw (begins.transit f h)⟩

/-! ### Commands and steps -/

/-- What an outcome comes to when every next state that it answers keeps the laws. -/
def AnswersKept (s : State) (o : Host.Outcome State Fault Refusal) : Prop := ∀ t, o = .next t → KeepsLaws s t

theorem AnswersKept.next {s t : State} (h : KeepsLaws s t) : AnswersKept s (.next t) := by
  rintro _ ⟨⟩
  exact h

theorem AnswersKept.after {s t : State} {o : Host.Outcome State Fault Refusal} (h : KeepsLaws s t)
    (k : AnswersKept t o) : AnswersKept s o := fun u e => h.and (k u e)

theorem framePeriod_answersKept {c : State → Bool} {f : State → State} (s : State)
    (h : ∀ t, KeepsLaws t (f t)) : AnswersKept s (framePeriod c f s) := by
  unfold framePeriod
  split
  · exact .next (.none s)
  · split
    · rintro t ⟨⟩
    · exact .next ((endPeriod_keepsLaws s).and (h _))

theorem eventCommand_answersKept {due : State → Bool} {effect : State → State} (s : State)
    (h : due s = true → KeepsLaws s (effect s)) : AnswersKept s (eventCommand due effect s) := by
  unfold eventCommand
  split
  · next due_ => exact .next (h due_.2)
  · exact .next (.none s)

theorem faultAhead_keepsLaws (b : Bool) (o : Order) (s : State) : KeepsLaws s (faultAhead b o s) :=
  .ifThen fun _ => (takeFaults_bystander _ s).keepsLaws (takeFaults_moves _ s)

theorem met_keepsLaws (c : Instr) (s : State) : KeepsLaws s (met c s) := by
  unfold met
  split
  · exact faultAhead_keepsLaws _ _ s
  · exact faultAhead_keepsLaws _ _ s
  · exact .none s

theorem order_answersKept {c : Instr} {v : Verb} {o : Order} (hv : commandVerb c = some v) (ho : c.order = some o)
    (s : State) : AnswersKept s (exec c s) := by
  obtain ⟨owner, command, table⟩ := command_owner hv ho
  rw [command]
  refine .after (met_keepsLaws c s) ?_
  unfold orderCommand
  split
  · exact .next ((consume_keepsLaws _ _ _ _).and (perform_keepsLaws (ownerOf_moves _ _ _ table) (ownerOf_stands _ _ _ table) o _))
  · exact .next (.none _)

theorem order_of_commandVerb {c : Instr} {v : Verb} (h : commandVerb c = some v) : ∃ o, c.order = some o := by
  cases c <;> simp only [commandVerb, reduceCtorEq] at h <;> exact ⟨_, rfl⟩

theorem fire_bystander (s : State) : Bystander s (fire s) := by
  unfold fire
  split
  · exact .of_eq rfl rfl rfl rfl
  · exact .of_eq rfl rfl rfl rfl

theorem resetPinAsserted_keepsLaws (s : State) :
    KeepsLaws s
      { s with pins := { s.pins with resetHeld := true }, sent := [], period := Option.none, begun := Option.none } :=
  (periodOver_keepsLaws s).and
    (.of_eq (Move.free _ [] _ Option.none s.fresh s.checks _ s.pending).one rfl rfl rfl rfl)

theorem fireFrame_answersKept (s : State) : AnswersKept s (execFireFrame s) := by
  refine eventCommand_answersKept s fun h => ?_
  simp only [fireDue, Bool.and_eq_true] at h
  have noted := begun_moves (endPeriod s) (some (noticeWaiting (endPeriod s)))
  have fires := fire_moves { endPeriod s with begun := some (noticeWaiting (endPeriod s)) } (armed_of_fires h.2)
  exact ((endPeriod_keepsLaws s).and (.of_eq noted rfl rfl rfl rfl)).and ((fire_bystander _).keepsLaws fires)

/-- A command that is not of an assigned verb keeps the laws. -/
theorem exec_answersKept_of_noVerb {c : Instr} (hv : commandVerb c = Option.none) (s : State) :
    AnswersKept s (exec c s) := by
  cases c <;> simp only [commandVerb, reduceCtorEq] at hv <;> simp only [exec]
  case resetPinAsserted => exact .next (resetPinAsserted_keepsLaws s)
  case pinReset pins => exact .next (resetState_keepsLaws _ _ _ _ s (Or.inr (pattern_of_pins pins)) (Or.inr rfl))
  case sizingEnd =>
    refine eventCommand_answersKept s fun h => (sizingEnds_bystander s).keepsLaws (Move.sized s ?_).one
    simp only [sizingEndDue, Bool.and_eq_true, beq_iff_eq] at h
    exact h.2.1
  case resetTakesEffect =>
    exact eventCommand_answersKept s fun _ => (runReady_keepsLaws s).and (orderResetState_keepsLaws _)
  case startUpLimit => exact eventCommand_answersKept s fun _ => (startUpEnds_bystander s).keepsLaws (startUpEnds_moves s)
  case startUpSearchPeriod a ds => exact framePeriod_answersKept s fun t => searchPeriod_keepsLaws a ds t
  case goodFrame f ds => exact framePeriod_answersKept s fun t => goodFrame_keepsLaws f ds t
  case badFrame f ds => exact framePeriod_answersKept s fun t => badFrame_keepsLaws f ds t
  case missingFramePeriod ds =>
    refine framePeriod_answersKept s fun t => ?_
    split
    · next few => exact missingFrame_keepsLaws ds t few
    · exact lostFrame_keepsLaws ds t
  case linkLost ds => exact framePeriod_answersKept s fun t => lostFrame_keepsLaws ds t
  case localFrame a ds => exact framePeriod_answersKept s fun t => localFrame_keepsLaws a ds t
  case resumptionFrame f ds =>
    refine framePeriod_answersKept s fun t => ?_
    split
    · exact goodFrame_keepsLaws f ds t
    · exact badFrame_keepsLaws f ds t
  case endOfClearing =>
    exact eventCommand_answersKept s fun _ => (clearingEnds_bystander s).keepsLaws (clearingEnds_moves s)
  case fireFrame => exact fireFrame_answersKept s
  case fadeEnd =>
    exact eventCommand_answersKept s fun h =>
      (fadeEnds_bystander s).keepsLaws (fadeEnds_moves s (fading_of_fadeEndDue s h))
  case revertedFadeEnd =>
    exact eventCommand_answersKept s fun h =>
      (revertedFadeEnds_bystander s).keepsLaws (revertedFadeEnds_moves s (fading_of_revertedFadeEndDue s h))
  case blockEnd => exact eventCommand_answersKept s fun _ => (blockEnds_bystander s).keepsLaws (blockEnds_moves s)
  case clipRunMute c => exact eventCommand_answersKept s fun _ => (clipMutes_bystander c s).keepsLaws (clipMutes_moves c s)
  case leavingForStandbyEnd =>
    exact eventCommand_answersKept s fun _ => (leavingEnds_bystander s).keepsLaws (leavingEnds_moves s)
  case sweepComplete => exact eventCommand_answersKept s fun _ => (sweepEnds_bystander _ s).keepsLaws (sweepEnds_moves _ s)
  case captureEnd => exact eventCommand_answersKept s fun _ => endPeriod_keepsLaws s
  case holdoffExpiry => exact eventCommand_answersKept s fun _ => .of_eq (Move.expired s).one rfl rfl rfl rfl
  case noticeStart => exact eventCommand_answersKept s fun _ => startOwn_keepsLaws s
  case returnStart => exact eventCommand_answersKept s fun _ => startOwn_keepsLaws s
  case unknownOrder c v o =>
    unfold execUnknownOrder
    split
    · exact .next ((consume_keepsLaws c v o s).and (performUnknown_keepsLaws _ _ _ _))
    · exact .next (.none s)

theorem exec_answersKept (c : Instr) (s : State) : AnswersKept s (exec c s) := by
  match hv : commandVerb c with
  | some v =>
    obtain ⟨o, ho⟩ := order_of_commandVerb hv
    exact order_answersKept hv ho s
  | Option.none => exact exec_answersKept_of_noVerb hv s

theorem step_keepsLaws {s t : State} (h : step s = .next t) : KeepsLaws s t := by
  unfold step at h
  split at h
  · cases h
    exact endPeriod_keepsLaws s
  · next c rest _ =>
    have queue : KeepsLaws s { s with pending := rest } :=
      .of_eq (Move.free s s.sent s.period s.begun s.fresh s.checks s.pins rest).one rfl rfl rfl rfl
    exact queue.and (exec_answersKept c _ t h)

/-- Settles O58: the law of placement is kept move by move, and from it every frame-period command finds the delay memory that
it needs; the bad-block map changes only by marks of blocks below 16384. -/
theorem stepKeepsPlacementAndNeverFaults : Obligations.StepKeepsPlacementAndNeverFaults := fun _ =>
  ⟨fun h => ⟨fun _ hs => step_keeps Move.existsLaw hs h, step_goesOn h⟩, fun h _ hs => (step_keepsLaws hs).marks h⟩

/-- Settles O60: each law but that of the transit queue is kept move by move; that one by the arbiter's choices and by the
returns, whose lengths are bounded. -/
theorem stepKeepsGuardLinkAndEventLaws : Obligations.StepKeepsGuardLinkAndEventLaws := fun _ _ h =>
  ⟨step_keeps Move.trimLaw h, step_keeps Move.rampLaw h, step_keeps Move.muteLaw h, step_keeps Move.linkLaw h,
    step_keeps Move.queueLaw h, (step_keepsLaws h).transit, step_keeps Move.eventLaw h, step_keeps Move.nodeFollows h,
    step_keeps Move.captureLaw h⟩

end Sys2Proof.Machine
end

section
/-! SUPPORT. The step at the front of the queue, and what the resets leave (R166 to R168). -/

namespace Sys2Proof.Machine

/-- Settles O1, by the definition of a step. -/
theorem stepRunsFrontCommand : Obligations.StepRunsFrontCommand := fun _ _ s h => by
  unfold step
  rw [h]

/-! ### The reset values -/

theorem reset_line (n : Line) : lineOf State.reset n = LineRec.initial := by
  simp [lineOf, State.reset]

theorem reset_output (c : Output) : State.reset.guard.outputs[c] = GuardRec.initial := by
  simp [State.reset, Guard.initial]

theorem reset_profile (p : Fin 8) : State.reset.guard.profiles[p] = Profile.initial := by
  simp [State.reset, Guard.initial]

theorem reset_outputMap (c : Output) : State.reset.maps.output[c] = none := by simp [State.reset, Maps.initial]

/-- Settles O4, item by item. -/
theorem resetValuesAreTheSpecs : Obligations.ResetValuesAreTheSpecs := by
  refine ⟨reset_line, ⟨fun r => ?_, by decide, rfl, rfl, rfl, rfl⟩, fun b hb => ?_, ⟨rfl, rfl, rfl⟩, rfl, reset_profile,
    reset_output, rfl, ⟨rfl, rfl, rfl, rfl, rfl, rfl, rfl, rfl, rfl, rfl, rfl, rfl, rfl, rfl⟩,
    ⟨fun i => ?_, reset_outputMap⟩, ⟨rfl, rfl, rfl, rfl, rfl⟩, ⟨rfl, rfl, rfl, rfl⟩, ⟨rfl, rfl, rfl⟩, rfl,
    ⟨rfl, rfl, rfl, rfl, rfl, rfl, rfl, rfl, rfl, rfl⟩, ⟨rfl, rfl, rfl⟩, rfl⟩
  · simp [State.reset, MemCtl.initial]
  · obtain rfl | rfl := hb
    · exact ⟨rfl, rfl, rfl, rfl, fun c => by simp [State.reset, Scenes.initial, Bank.initial, OutputRec.initial]⟩
    · exact ⟨rfl, rfl, rfl, rfl, fun c => by simp [State.reset, Scenes.initial, Bank.initial, OutputRec.initial]⟩
  · simp [State.reset, Maps.initial]

/-! ### The laws at reset -/

theorem reset_feedLaw : FeedLaw State.reset := fun n => by
  rw [reset_line]
  decide

theorem reset_sceneLaw : SceneLaw State.reset := by
  refine ⟨⟨rfl, rfl, by decide, by decide⟩, ?_, ?_, ?_⟩
  · unfold InUseLaw
    decide
  · exact fun _ h => nomatch h
  · exact fun _ h => nomatch h

theorem reset_outputMapLaw : OutputMapLaw State.reset := fun c _ _ h => by
  rw [reset_outputMap] at h
  cases h

theorem reset_placementLaw : PlacementLaw State.reset := by
  have off (n : Line) : (lineOf State.reset n).state = .off := by rw [reset_line]; rfl
  refine ⟨⟨List.nodup_nil, fun n => ?_⟩, fun _ => off, fun n => ?_, fun m _ _ h => absurd (off m) h, fun n h => ?_⟩
  · rw [off]
    exact ⟨fun h => (nomatch h), fun h => (nomatch h)⟩
  · rw [reset_line]
    decide
  · rw [off] at h
    exact absurd h (by decide)

theorem reset_trimLaw : TrimLaw State.reset := by
  refine ⟨reset_sceneLaw.1, fun p => ?_, fun c => ?_⟩
  · rw [reset_profile]
    decide
  · unfold inForce
    rw [reset_output, reset_profile]
    decide

theorem reset_rampLaw : RampLaw State.reset := ⟨by decide, fun c => by rw [reset_output]; decide⟩

theorem reset_muteLaw : MuteLaw State.reset := fun c => by
  rw [reset_output]
  decide

theorem reset_transitLaw : TransitLaw State.reset :=
  ⟨by decide, fun _ h => (nomatch h), fun _ h => (nomatch h), fun _ _ h => (nomatch h), fun _ h => (nomatch h)⟩

theorem reset_linkLaw : LinkLaw State.reset := by
  unfold LinkLaw
  decide

theorem reset_eventLaw : EventLaw State.reset := by
  unfold EventLaw
  decide

theorem reset_phaseLaw : PhaseLaw State.reset := by
  have empty (r : Role) : BankSlot.inRange { bank := Bank.initial, role := r, phases := [] } :=
    ⟨fun _ h => (nomatch h), fun _ => rfl, fun _ _ => rfl, fun _ h => (nomatch h)⟩
  exact ⟨empty .live, empty .staged⟩

theorem reset_captureLaw : CaptureLaw State.reset :=
  ⟨⟨by decide, by decide⟩, by decide, by decide, by decide, by decide, by decide, by decide, by decide, by decide, rfl,
    fun _ h => nomatch h⟩

/-- Settles O3: every law holds of the reset values, most of them since nothing is in use. -/
theorem resetMeetsEveryLaw : Obligations.ResetMeetsEveryLaw :=
  ⟨reset_feedLaw, ⟨by decide, by decide⟩, reset_sceneLaw, reset_outputMapLaw, ⟨reset_placementLaw, by decide⟩, reset_trimLaw,
    reset_rampLaw, reset_muteLaw, reset_linkLaw, ⟨by decide, by decide⟩, reset_transitLaw, reset_eventLaw,
    ⟨List.Pairwise.nil, fun _ h => (nomatch h), by decide⟩, ⟨rfl, rfl⟩, ⟨by decide, by decide⟩, reset_phaseLaw,
    reset_captureLaw⟩

/-! ### The reset pin and the RESET order -/

theorem resetState_atResetValues (pattern mask : BitVec 8) (bad : List Nat) (pins : Pins) (s : State) :
    AtResetValues pattern mask bad (resetState pattern mask bad pins s) :=
  ⟨rfl, rfl, rfl, rfl, rfl, rfl, rfl, rfl, rfl, rfl, rfl, rfl, rfl, rfl, rfl, rfl, rfl⟩

theorem met_held (c : Instr) {s : State} (h : s.pins.resetHeld = true) : met c s = s := by
  unfold met
  split
  · exact faultAhead_held _ _ h
  · exact faultAhead_held _ _ h
  · rfl

/-- In a part held in reset no command but the pin's own comes about. -/
theorem exec_held {c : Instr} {s : State} (h : s.pins.resetHeld = true) (ha : c ≠ .resetPinAsserted)
    (hr : ∀ pins, c ≠ .pinReset pins) : exec c s = .next s := by
  match hv : commandVerb c with
  | some v =>
    obtain ⟨o, ho⟩ := order_of_commandVerb hv
    obtain ⟨owner, he, -⟩ := command_owner hv ho
    rw [he, met_held c h]
    exact orderCommand_held _ _ _ h
  | none =>
    cases c <;> simp only [commandVerb, reduceCtorEq] at hv <;> simp only [exec]
    case resetPinAsserted => exact absurd rfl ha
    case pinReset pins => exact absurd rfl (hr pins)
    case unknownOrder => exact if_neg fun k => OrdersReach.not_held h (ordersReach_iff.mp k.1)
    case startUpSearchPeriod => exact framePeriod_held _ _ h
    case goodFrame => exact framePeriod_held _ _ h
    case badFrame => exact framePeriod_held _ _ h
    case missingFramePeriod => exact framePeriod_held _ _ h
    case linkLost => exact framePeriod_held _ _ h
    case localFrame => exact framePeriod_held _ _ h
    case resumptionFrame => exact framePeriod_held _ _ h
    all_goals exact eventCommand_held _ _ h

/-- Settles O5: the pin is the part's only input while it is held. -/
theorem resetPinHoldsAndReleasesThePart : Obligations.ResetPinHoldsAndReleasesThePart := fun s =>
  ⟨rfl, fun h _ ha hr => exec_held h ha hr, fun _ => ⟨_, rfl, resetState_atResetValues _ _ _ _ s, rfl⟩⟩

theorem exec_reset {o : Order} {s : State} (hd : DirectReady Verb.reset o s) :
    exec (.reset o) s =
      .next
        (enqueue 0 9 o.tag true (Reply.done 0)
          { opened Verb.reset o s with node := { s.node with resetPending := true } }) :=
  orderCommand_direct resetOwner hd

/-- The numbers of a verb are those it is found under. -/
theorem ownerOf_numbers {c v : Nat} {x : Verb × (Order → State → Reply × State)} (h : ownerOf c v = some x) :
    x.1.sec.toNat = c ∧ x.1.num.toNat = v := by
  unfold ownerOf at h
  split at h <;> cases h <;> exact ⟨rfl, rfl⟩

/-- A verb has one owner. -/
theorem ownerOf_unique {c v : Nat} {x : Verb × (Order → State → Reply × State)} (h : ownerOf c v = some x) {w : Verb}
    (hw : x.1 = w) {owner : Order → State → Reply × State} (k : ownerOf w.sec.toNat w.num.toNat = some (w, owner)) :
    x.2 = owner := by
  obtain ⟨y, f⟩ := x
  obtain rfl : y = w := hw
  obtain ⟨rfl, rfl⟩ := ownerOf_numbers h
  exact (Prod.ext_iff.mp (Option.some.inj (h.symm.trans k))).2

/-- What every owner keeps, whatever it answers: the devices, the pins and the queue of commands. -/
structure Outside (s t : State) : Prop where
  device : t.device = s.device
  pins : t.pins = s.pins
  pending : t.pending = s.pending

theorem Outside.none (s : State) : Outside s s := ⟨rfl, rfl, rfl⟩

theorem Outside.and {s t u : State} (a : Outside s t) (b : Outside t u) : Outside s u :=
  ⟨b.device.trans a.device, b.pins.trans a.pins, b.pending.trans a.pending⟩

theorem ownerOf_outside {c v : Nat} {x : Verb × (Order → State → Reply × State)} (h : ownerOf c v = some x) (o : Order)
    (s : State) : Outside s (x.2 o s).2 := by
  obtain ⟨⟨unlock, -⟩, ⟨lock, -⟩, address, -⟩ := decoderOwner_fair o s
  by_cases hu : x.1 = Verb.unlock
  · rw [ownerOf_unique h hu rfl, unlock]
    exact ⟨rfl, rfl, rfl⟩
  by_cases hl : x.1 = Verb.lock
  · rw [ownerOf_unique h hl rfl, lock]
    exact ⟨rfl, rfl, rfl⟩
  by_cases ha : x.1 = Verb.setAddress
  · rw [ownerOf_unique h ha rfl]
    exact ⟨address.device, address.pins, address.pending⟩
  have fair := ownerOf_fair c v x h hu hl ha o s
  exact ⟨fair.device, fair.pins, fair.pending⟩

theorem answerDirect_outside {v : Verb} {owner : Order → State → Reply × State} (h : ∀ o s, Outside s (owner o s).2)
    (o : Order) (s : State) : Outside s (answerDirect v owner o s).2 := by
  unfold answerDirect
  split
  · exact .none s
  · split
    · exact .none s
    · exact h o s

theorem answerGroup_outside {v : Verb} {owner : Order → State → Reply × State} (h : ∀ o s, Outside s (owner o s).2)
    (o : Order) (s : State) : Outside s (answerGroup v owner o s).2 := by
  unfold answerGroup
  split
  · exact .none s
  · split
    · exact .none s
    · exact h o s

theorem perform_outside {v : Verb} {owner : Order → State → Reply × State} (h : ∀ o s, Outside s (owner o s).2)
    (o : Order) (s : State) : Outside s (perform v owner o s) := by
  unfold perform performDirect performGroup
  split
  · split
    · exact ⟨rfl, rfl, rfl⟩
    · have answered := answerDirect_outside (v := v) h o (withProtection (protectionBefore v o s.decoder.protection) s)
      exact ⟨answered.device, answered.pins, answered.pending⟩
  · have answered := answerGroup_outside (v := v) h o s
    dsimp only
    split
    · exact answered
    · exact answered.and ⟨rfl, rfl, rfl⟩

theorem performUnknown_outside (c : BitVec 4) (v : BitVec 6) (o : Order) (s : State) :
    Outside s (performUnknown c v o s) := by
  unfold performUnknown
  split
  · split
    · exact ⟨rfl, rfl, rfl⟩
    · exact ⟨rfl, rfl, rfl⟩
  · exact ⟨rfl, rfl, rfl⟩

theorem runReady_outside (s : State) : Outside s (runReady s) := by
  unfold runReady runOrder
  split
  · next r _ =>
    have taken : Outside s { s with decoder := { s.decoder with ready := Option.none } } := ⟨rfl, rfl, rfl⟩
    refine taken.and ?_
    split
    · next h => exact perform_outside (fun o s => ownerOf_outside h o s) _ _
    · exact performUnknown_outside _ _ _ _
  · exact .none s

/-- Settles O6: the RESET order only marks; the reset takes effect behind the completed order, which leaves the pins. -/
theorem resetOrderWaitsForItsReturn : Obligations.ResetOrderWaitsForItsReturn := by
  refine ⟨fun o s hd => exec_reset hd, fun s released due => ?_⟩
  have taken : exec .resetTakesEffect s = .next (orderResetState (runReady s)) := by
    refine eventCommand_due (fun s => orderResetState (runReady s)) released ?_
    unfold resetDue
    rw [due]
    rfl
  refine ⟨_, taken, resetState_atResetValues _ _ _ _ _, ?_, fun idle => ?_⟩
  · exact (runReady_outside s).pins
  · have same : runReady s = s := by
      unfold runReady
      rw [idle]
    rw [same]
    exact resetState_atResetValues _ _ _ _ _

end Sys2Proof.Machine
end

section
/-! SUPPORT. Words of the link: the fields of frames, HEADs and body words, the two checks, and the return as a message
(R89, R110, R119 to R121, R128, R172 to R174). -/

namespace Sys2Proof.Machine

/-! ### Fields -/

/-- The service kind that a code of two bits gives has that code. -/
theorem code_ofCode {n : Nat} (h : n < 4) : (ServiceKind.ofCode n).code = n := by
  interval_cases n <;> rfl

theorem bitsAt_lt (w : Word) (hi lo : Nat) : bitsAt w hi lo < 2 ^ (hi + 1 - lo) := Nat.mod_lt _ (Nat.two_pow_pos _)

/-- A field of `n` bits as a bit vector of that width. -/
theorem ofNat_bitsAt_toNat (w : Word) (hi lo : Nat) :
    (BitVec.ofNat (hi + 1 - lo) (bitsAt w hi lo)).toNat = bitsAt w hi lo := by
  rw [BitVec.toNat_ofNat, Nat.mod_eq_of_lt (bitsAt_lt w hi lo)]

theorem frame_fields (f : Frame) :
    f.syncGood = (bitsAt f.head 31 24 == 0xA5) ∧ f.seq.toNat = bitsAt f.head 23 8 ∧ f.damaged = f.head.getLsbD 5 ∧
      bitsAt f.head 7 6 =
        (match f.kind with
          | .idle => 0
          | .head => 1
          | .body => 2
          | .tail => 3) ∧
      (f.checkGood = true ↔ f.check = crc32 (f.head :: (f.slots.toList ++ [f.service]))) := by
  refine ⟨rfl, ofNat_bitsAt_toNat f.head 23 8, rfl, ?_, beq_iff_eq⟩
  have kind : f.kind.code = bitsAt f.head 7 6 := code_ofCode (bitsAt_lt f.head 7 6)
  rw [← kind]
  cases f.kind <;> rfl

theorem frameOf_eq (seq : Seq) (damaged : Bool) (slots : Vector Word 64) (kind : ServiceKind) (service : Word) :
    frameOf seq damaged slots kind service = buildFrame seq damaged slots kind service := by
  cases kind <;> rfl

theorem frameOf_fields (seq : Seq) (damaged : Bool) (slots : Vector Word 64) (kind : ServiceKind) (service : Word) :
    let f := frameOf seq damaged slots kind service
    f.syncGood = true ∧ f.seq = seq ∧ f.kind = kind ∧ f.damaged = damaged ∧ f.slots = slots ∧ f.service = service ∧
      f.checkGood = true := by
  obtain ⟨sync, check, hseq, hdamaged, hkind, hservice⟩ := buildFrame_reads seq damaged slots kind service
  rw [frameOf_eq]
  exact ⟨sync, hseq, hkind, hdamaged, rfl, hservice, check⟩

theorem lengthOk_iff (v : Verb) (o : Order) :
    (∀ n : Nat, v.length = .words n → (v.lengthOk o = true ↔ o.body.length = n)) ∧
      (v.length = .perTerm → (v.lengthOk o = true ↔ o.body.length = 1 + 2 * bitsAt (bodyWord o 1) 15 8)) := by
  unfold Verb.lengthOk
  refine ⟨fun n h => ?_, fun h => ?_⟩
  · simp only [h, beq_iff_eq]
  · simp only [h, beq_iff_eq, feedCount]

/-- Settles O7: the tables by evaluation, the fields by the arithmetic of their places in the word. -/
theorem verbsAndCodesAreAsAssigned : Obligations.VerbsAndCodesAreAsAssigned := by
  refine ⟨fun o b => ⟨rfl, rfl, rfl, rfl, rfl, rfl, rfl, rfl, rfl⟩, fun v o => ?_,
    ⟨rfl, rfl, rfl, rfl, rfl, rfl, rfl, rfl, rfl, rfl, rfl⟩, frame_fields, frameOf_fields, fun w => ?_⟩
  · obtain ⟨words, perTerm⟩ := lengthOk_iff v o
    exact ⟨words, perTerm, fun _ => rfl, fun _ _ _ => ⟨rfl, rfl⟩⟩
  · exact ⟨by unfold headClass bitsAt; omega, ofNat_bitsAt_toNat w 29 22, ofNat_bitsAt_toNat w 21 18,
      ofNat_bitsAt_toNat w 17 12, rfl, (ofNat_bitsAt_toNat w 5 0).trans (by unfold bitsAt; omega)⟩

/-! ### The two checks (R172, R173) -/

/-- The match that has the register worked out changes nothing. -/
theorem crcWords_cons {n : Nat} (poly r : BitVec n) (w : Word) (ws : List Word) :
    crcWords poly r (w :: ws) = crcWords poly (crcWord poly r w) ws := by
  have back : BitVec.ofNat n (crcWord poly r w).toNat = crcWord poly r w := by simp
  rw [crcWords]
  split
  · next h => rw [← back, h]; rfl
  · next h => rw [← back, h]

/-- One data bit into the register, as R172 and R173 say it. -/
def crcShift {n : Nat} (poly r : BitVec n) (b : Bool) : BitVec n :=
  if r.getLsbD (n - 1) = b then r <<< 1 else (r <<< 1) ^^^ poly

theorem crcBit_eq_shift {n : Nat} (poly r : BitVec n) (b : Bool) : crcBit poly r b = crcShift poly r b := by
  unfold crcBit crcShift
  rw [BitVec.msb_eq_getLsbD_last]
  by_cases h : r.getLsbD (n - 1) = b <;> simp [h]

/-- The bits of words, from the most significant down. -/
def bitsDown (ws : List Word) : List Bool := ws.flatMap fun w => (List.range 32).map fun i => w.getLsbD (31 - i)

theorem crcWord_eq_foldl {n : Nat} (poly r : BitVec n) (w : Word) :
    crcWord poly r w = ((List.range 32).map fun i => w.getLsbD (31 - i)).foldl (crcShift poly) r := by
  unfold crcWord
  rw [List.foldl_map]
  refine List.foldl_ext _ _ _ fun a i hi => ?_
  rw [crcBit_eq_shift, BitVec.getMsbD]
  have := List.mem_range.mp hi
  simp [this]

theorem crcWords_eq_foldl {n : Nat} (poly r : BitVec n) (ws : List Word) :
    crcWords poly r ws = (bitsDown ws).foldl (crcShift poly) r := by
  induction ws generalizing r with
  | nil => rfl
  | cons w ws ih =>
    rw [crcWords_cons, ih, crcWord_eq_foldl]
    simp only [bitsDown, List.flatMap_cons, List.foldl_append]

/-! ### The return as a message (R121, R128) -/

theorem headWord_toNat {cls : Nat} (address : BitVec 8) (sec : BitVec 4) (verb : BitVec 6) {length : Nat} (tag : BitVec 6)
    (hc : cls < 4) (hl : length < 64) :
    (headWord cls address sec verb length tag).toNat =
      cls * 2 ^ 30 + address.toNat * 2 ^ 22 + sec.toNat * 2 ^ 18 + verb.toNat * 2 ^ 12 + length * 2 ^ 6 + tag.toNat := by
  have ha := address.isLt
  have hs := sec.isLt
  have hv := verb.isLt
  have ht := tag.isLt
  exact word_toNat _ (by omega)

theorem headWord_fields {cls : Nat} (address : BitVec 8) (sec : BitVec 4) (verb : BitVec 6) {length : Nat} (tag : BitVec 6)
    (hc : cls < 4) (hl : length < 64) :
    let w := headWord cls address sec verb length tag
    headClass w = cls ∧ headAddress w = address ∧ headSection w = sec ∧ headVerb w = verb ∧ headLength w = length ∧
      headTag w = tag := by
  intro w
  have hw : w.toNat = _ := headWord_toNat address sec verb tag hc hl
  have ha := address.isLt
  have hs := sec.isLt
  have hv := verb.isLt
  have ht := tag.isLt
  refine ⟨?_, ?_, ?_, ?_, ?_, ?_⟩
  · unfold headClass bitsAt
    omega
  · exact BitVec.eq_of_toNat_eq ((ofNat_bitsAt_toNat w 29 22).trans (by unfold bitsAt; omega))
  · exact BitVec.eq_of_toNat_eq ((ofNat_bitsAt_toNat w 21 18).trans (by unfold bitsAt; omega))
  · exact BitVec.eq_of_toNat_eq ((ofNat_bitsAt_toNat w 17 12).trans (by unfold bitsAt; omega))
  · unfold headLength bitsAt
    omega
  · exact BitVec.eq_of_toNat_eq ((ofNat_bitsAt_toNat w 5 0).trans (by unfold bitsAt; omega))

theorem resultCode_lt (r : Result) : resultCode r < 13 := by cases r <;> decide

/-- Settles O14: the checks are folds over the words' bits; the HEAD's fields are read back from their places. -/
theorem returnIsAWholeMessage : Obligations.ReturnIsAWholeMessage := by
  refine ⟨fun ws => ⟨crcWords_eq_foldl _ _ ws, congrArg (~~~ ·) (crcWords_eq_foldl _ _ ws)⟩, ?_⟩
  intro sec verb tag isReset r s few small
  have bodyLength : r.body.length = r.more.length + 1 := rfl
  obtain ⟨cls, address, hsec, hverb, length, htag⟩ :=
    headWord_fields (cls := 1) (length := r.body.length) s.decoder.pattern sec verb tag (by decide) (by omega)
  have first : (word (resultCode r.result * 2 ^ 24 + r.detail)).toNat = resultCode r.result * 2 ^ 24 + r.detail := by
    have := resultCode_lt r.result
    exact word_toNat _ (by omega)
  refine ⟨_, _, rfl, cls, address, hsec, hverb, length, htag, ?_, ?_⟩
  · have := resultCode_lt r.result
    unfold bitsAt
    omega
  · unfold bitsAt
    omega

end Sys2Proof.Machine
end

section
/-! SUPPORT. The tests of an order ahead of its owner, and what of the state outside its owner's block an order moves
(R16, R119 to R124). -/

namespace Sys2Proof.Machine

/-! ### The state in which a command meets the decoder (R16) -/

theorem met_period (c : Instr) (s : State) : (met c s).period = s.period := by
  have ahead (b : Bool) (o : Order) : (faultAhead b o s).period = s.period := by
    unfold faultAhead
    split
    · rw [takeFaults_same]
    · rfl
  unfold met
  split
  · exact ahead _ _
  · exact ahead _ _
  · rfl

theorem OrdersReach.met {s : State} (h : OrdersReach s) (c : Instr) : OrdersReach (met c s) := by
  obtain ⟨hpins, -, -, -, hlink, hbegun⟩ := met_keeps c s
  unfold OrdersReach
  rw [hpins, hlink, hbegun, met_period]
  exact h

theorem met_unreached (c : Instr) {s : State} (h : ¬OrdersReach s) : Machine.met c s = s := by
  unfold Machine.met
  split
  · exact faultAhead_unreached _ _ h
  · exact faultAhead_unreached _ _ h
  · rfl

/-! ### The tests of R120 and R122 -/

theorem exec_unreached {c : Instr} {o : Order} {s : State} (ho : c.order = some o) (h : ¬OrdersReach s) :
    exec c s = .next s := by
  match hv : commandVerb c with
  | some v =>
    obtain ⟨owner, he, -⟩ := command_owner hv ho
    rw [he, met_unreached c h]
    exact orderCommand_unreached _ _ _ h
  | none =>
    cases c <;> simp only [commandVerb, reduceCtorEq] at hv <;> simp only [Instr.order, reduceCtorEq] at ho
    exact if_neg fun k => h (ordersReach_iff.mp k.1)

/-- Settles O8: each test of R120 in turn, on the state that the command meets. -/
theorem directOrdersAreTestedInOrder : Obligations.DirectOrdersAreTestedInOrder := by
  refine ⟨fun c v o s hv ho hd hr => ?_, fun c o s ho h => exec_unreached ho h⟩
  obtain ⟨owner, he, -⟩ := command_owner hv ho
  obtain ⟨-, hdec, harb, -⟩ := met_keeps c s
  rw [he, ← harb, ← hdec]
  refine ⟨orderCommand_full owner (hr.met c) hd, orderCommand_length owner (hr.met c) hd, fun room len guarded => ?_⟩
  refine orderCommand_protected owner (hr.met c) hd room len guarded ?_
  rintro rfl
  cases guarded

/-- Settles O9: the tests of R122, on the state that the command meets. -/
theorem groupOrdersAreTestedInOrder : Obligations.GroupOrdersAreTestedInOrder := by
  intro c v o s hv ho hd hr
  obtain ⟨owner, he, -⟩ := command_owner hv ho
  rw [he]
  exact ⟨orderCommand_notGroup owner (hr.met c) hd, orderCommand_groupLength owner (hr.met c) hd⟩

/-! ### UNKNOWN (R119) -/

theorem exec_unknownOrder {sec : BitVec 4} {verb : BitVec 6} {o : Order} {s : State} (hr : OrdersReach s)
    (h : [10, 3, 6, 10, 4, 5, 4, 6, 2].getD sec.toNat 0 ≤ verb.toNat) :
    exec (.unknownOrder sec verb o) s = .next (performUnknown sec verb o (consume sec verb o s)) :=
  if_pos ⟨ordersReach_iff.mpr hr, decide_eq_false (Nat.not_lt.mpr h)⟩

/-- Settles O10. -/
theorem unknownOrdersAreRefused : Obligations.UnknownOrdersAreRefused := by
  intro sec verb o s hr h
  rw [exec_unknownOrder hr h]
  refine ⟨fun hd room => ?_, fun hd full => ?_, fun hd => ?_⟩
  · have notFull : returnsFull (consume sec verb o s) = false := returnsFull_false room
    simp only [performUnknown, hd, notFull]
    rfl
  · have isFull : returnsFull (consume sec verb o s) = true := returnsFull_true full
    simp only [performUnknown, hd, isFull]
    rfl
  · simp only [performUnknown, hd]

/-! ### Refusals (R121) -/

theorem taken_of_refused {r : Reply} (hd : r.result ≠ .done) (ha : r.result ≠ .accepted) : r.taken = false := by
  simp [Reply.taken, hd, ha]

/-- A refused order leaves the owner's state, but for the protection that a refused UNLOCK closes. -/
theorem ownerOf_refused {c v : Nat} {x : Verb × (Order → State → Reply × State)} (h : ownerOf c v = some x) (o : Order)
    (s : State) (hr : (x.2 o s).1.taken = false) :
    (x.2 o s).2 = if x.1 = Verb.unlock then withProtection .closed s else s := by
  obtain ⟨⟨-, unlock⟩, ⟨-, lock⟩, address, -⟩ := decoderOwner_fair o s
  by_cases hu : x.1 = Verb.unlock
  · rw [if_pos hu]
    rw [ownerOf_unique h hu rfl] at hr ⊢
    exact unlock hr
  rw [if_neg hu]
  by_cases hl : x.1 = Verb.lock
  · rw [ownerOf_unique h hl rfl] at hr
    exact absurd hr (by rw [lock]; decide)
  by_cases ha : x.1 = Verb.setAddress
  · rw [ownerOf_unique h ha rfl] at hr ⊢
    exact address.refused hr
  exact (ownerOf_fair c v x h hu hl ha o s).refused hr

/-- Settles O11. -/
theorem refusedOrdersChangeNothing : Obligations.RefusedOrdersChangeNothing := by
  intro c v o s hv ho hd
  obtain ⟨owner, he, table⟩ := command_owner hv ho
  refine ⟨owner, table, ?_, ?_, fun notDone notAccepted => ?_⟩
  · rw [he]
    exact orderCommand_direct owner hd
  · have same : (opened v o (met c s)).device = s.device := (met_keeps c s).2.2.2.1
    exact (ownerOf_outside table o _).device.trans same
  · exact ownerOf_refused table o _ (taken_of_refused notDone notAccepted)

/-! ### The completed order (log 3) -/

theorem consume_ready {sec : BitVec 4} {verb : BitVec 6} {o : Order} {s : State}
    (h : s.decoder.ready = some { sec, verb, order := o }) :
    consume sec verb o s = { s with decoder := { s.decoder with ready := none } } := by
  unfold consume
  rw [if_pos h]

theorem runReady_some {r : ReadyOrder} {s : State} (h : s.decoder.ready = some r) :
    runReady s = runOrder r { s with decoder := { s.decoder with ready := none } } := by
  unfold runReady
  rw [h]

theorem runReady_none {s : State} (h : s.decoder.ready = none) : runReady s = s := by
  unfold runReady
  rw [h]

theorem ownerOf_assigned {c v : Nat} {x : Verb × (Order → State → Reply × State)} (h : ownerOf c v = some x) :
    v < [10, 3, 6, 10, 4, 5, 4, 6, 2].getD c 0 := by
  unfold ownerOf at h
  split at h <;> cases h <;> decide

/-- A number above a section's verbs is in no row of the table. -/
theorem ownerOf_unassigned {sec : BitVec 4} {verb : BitVec 6}
    (h : [10, 3, 6, 10, 4, 5, 4, 6, 2].getD sec.toNat 0 ≤ verb.toNat) : ownerOf sec.toNat verb.toNat = none := by
  match hx : ownerOf sec.toNat verb.toNat with
  | some x => exact absurd (ownerOf_assigned hx) (Nat.not_lt.mpr h)
  | none => rfl

/-- Settles O13: a command takes the order that it names out of the decoder and executes it, which is what the close does. -/
theorem completedOrderRunsAsItsCommand : Obligations.CompletedOrderRunsAsItsCommand := by
  refine ⟨fun c v o s hv ho hm hr ready => ?_, fun sec verb o s h hr ready => ?_, fun s => runReady_none⟩
  · obtain ⟨owner, he, table⟩ := command_owner hv ho
    rw [he, hm, runReady_some ready, ← consume_ready ready]
    unfold orderCommand runOrder
    rw [if_pos (ordersReach_iff.mpr hr), table]
  · rw [exec_unknownOrder hr h, runReady_some ready, ← consume_ready ready]
    unfold runOrder
    rw [ownerOf_unassigned h]

end Sys2Proof.Machine
end

section
/-! SUPPORT. How orders move protection (R123, R124). -/

namespace Sys2Proof.Machine

/-! ### What an owner sees of it -/

theorem lengthOk_unlock (o : Order) : (Verb.unlock.lengthOk o = true) = (o.body.length = 1) :=
  propext ((lengthOk_iff Verb.unlock o).1 1 rfl)

theorem break_eq (p : Protection) : p.break_ = if p = .open_ then .open_ else .closed := by cases p <;> rfl

theorem protectionBefore_eq (v : Verb) (o : Order) (p : Protection) :
    protectionBefore v o p =
      if v = Verb.unlock ∧ o.body.length = 1 then p else if p = .open_ then .open_ else .closed := by
  unfold protectionBefore
  rw [break_eq]
  by_cases hv : v = Verb.unlock
  · subst hv
    simp only [lengthOk_unlock]
  · simp only [hv, false_and]

theorem protectionBefore_of_ne {v : Verb} (h : v ≠ Verb.unlock) (o : Order) (p : Protection) :
    protectionBefore v o p = if p = .open_ then .open_ else .closed := by
  rw [protectionBefore_eq, if_neg fun k => h k.1]

/-! ### What an order leaves of it -/

/-- Only UNLOCK and LOCK move protection in their own execution. -/
theorem ownerOf_protection {c v : Nat} {x : Verb × (Order → State → Reply × State)} (h : ownerOf c v = some x)
    (hu : x.1 ≠ Verb.unlock) (hl : x.1 ≠ Verb.lock) (o : Order) (s : State) :
    (x.2 o s).2.decoder.protection = s.decoder.protection := by
  by_cases ha : x.1 = Verb.setAddress
  · rw [ownerOf_unique h ha rfl]
    exact (decoderOwner_fair o s).2.2.2
  · rw [(ownerOf_fair c v x h hu hl ha o s).decoder]

/-- A next state with a protection state given. -/
def LeavesProtection (p : Protection) (x : Host.Outcome State Fault Refusal) : Prop :=
  ∃ t, x = .next t ∧ t.decoder.protection = p

section Orders

variable {v : Verb} {owner : Order → State → Reply × State} {o : Order} {s : State}

theorem orderCommand_leaves_direct (hr : OrdersReach s) (hd : o.via = .direct) (room : s.arbiter.returns.length < 8)
    (hu : v ≠ Verb.unlock) (hp : ∀ t, (owner o t).2.decoder.protection = t.decoder.protection) :
    LeavesProtection (if s.decoder.protection = .open_ then .open_ else .closed) (orderCommand v owner o s) := by
  have notFull : returnsFull (consume v.sec v.num o s) = false := returnsFull_false room
  have answered : (answerDirect v owner o (opened v o s)).2.decoder.protection = (opened v o s).decoder.protection := by
    unfold answerDirect
    split
    · rfl
    · split
      · rfl
      · exact hp _
  refine ⟨perform v owner o (consume v.sec v.num o s), if_pos (ordersReach_iff.mpr hr), ?_⟩
  simp only [perform, hd, performDirect, notFull]
  exact answered.trans (protectionBefore_of_ne hu o _)

theorem orderCommand_leaves_full (hr : OrdersReach s) (hd : o.via = .direct) (full : 8 ≤ s.arbiter.returns.length) :
    LeavesProtection s.decoder.protection (orderCommand v owner o s) :=
  ⟨_, orderCommand_full owner hr hd full, rfl⟩

theorem orderCommand_leaves_group (hr : OrdersReach s) (hd : o.via = .group)
    (hp : v.groupable = true → ∀ t, (owner o t).2.decoder.protection = t.decoder.protection) :
    LeavesProtection s.decoder.protection (orderCommand v owner o s) := by
  have answered : (answerGroup v owner o (heard v o s)).2.decoder.protection = s.decoder.protection := by
    unfold answerGroup
    split
    · rfl
    · next capable =>
      split
      · rfl
      · exact hp (Bool.not_eq_false _ ▸ capable) _
  refine ⟨perform v owner o (consume v.sec v.num o s), if_pos (ordersReach_iff.mpr hr), ?_⟩
  simp only [perform, hd, performGroup]
  split
  · exact answered
  · exact answered

end Orders

theorem commandVerb_unlock {c : Instr} (h : commandVerb c = some Verb.unlock) : ∃ o, c = .unlock o := by
  cases c <;> simp only [commandVerb, reduceCtorEq] at h
  case unlock o => exact ⟨o, rfl⟩
  all_goals exact absurd h (by decide)

theorem commandVerb_lock {c : Instr} (h : commandVerb c = some Verb.lock) : ∃ o, c = .lockOrder o := by
  cases c <;> simp only [commandVerb, reduceCtorEq] at h
  case lockOrder o => exact ⟨o, rfl⟩
  all_goals exact absurd h (by decide)

theorem ne_unlock_of_groupable {v : Verb} (h : v.groupable = true) : v ≠ Verb.unlock ∧ v ≠ Verb.lock := by
  constructor <;> (rintro rfl; cases h)

theorem met_protection (c : Instr) (s : State) : (met c s).decoder.protection = s.decoder.protection := by
  rw [(met_keeps c s).2.1]

theorem met_arbiter (c : Instr) (s : State) : (met c s).arbiter = s.arbiter := (met_keeps c s).2.2.1

/-- A command of no assigned verb that carries an order is UNKNOWN_ORDER. -/
theorem unknownOrder_of_noVerb {c : Instr} {o : Order} (hv : commandVerb c = none) (ho : c.order = some o) :
    ∃ sec verb, c = .unknownOrder sec verb o := by
  cases c <;> simp only [commandVerb, reduceCtorEq] at hv <;> simp only [Instr.order, reduceCtorEq] at ho
  cases ho
  exact ⟨_, _, rfl⟩

section Commands

variable {c : Instr} {o : Order} {s : State}

theorem exec_leaves_direct (hw : c.wf = true) (ho : c.order = some o) (hr : OrdersReach s) (hd : o.via = .direct)
    (room : s.arbiter.returns.length < 8) (hu : ∀ p, c ≠ .unlock p) (hl : ∀ p, c ≠ .lockOrder p) :
    LeavesProtection (if s.decoder.protection = .open_ then .open_ else .closed) (exec c s) := by
  match hv : commandVerb c with
  | some v =>
    obtain ⟨owner, he, table⟩ := command_owner hv ho
    have notUnlock : v ≠ Verb.unlock := fun e => (commandVerb_unlock (e ▸ hv)).elim hu
    have notLock : v ≠ Verb.lock := fun e => (commandVerb_lock (e ▸ hv)).elim hl
    rw [he, ← met_protection c s]
    exact orderCommand_leaves_direct (hr.met c) hd (met_arbiter c s ▸ room) notUnlock
      (ownerOf_protection table notUnlock notLock o)
  | none =>
    obtain ⟨sec, verb, rfl⟩ := unknownOrder_of_noVerb hv ho
    simp only [Instr.wf, Bool.and_eq_true, Bool.not_eq_true', assigned, decide_eq_false_iff_not, Nat.not_lt] at hw
    rw [← break_eq]
    exact ⟨_, (unknownOrdersAreRefused sec verb o s hr hw.1).1 hd room, rfl⟩

theorem exec_leaves_full (hw : c.wf = true) (ho : c.order = some o) (hr : OrdersReach s) (hd : o.via = .direct)
    (full : 8 ≤ s.arbiter.returns.length) : LeavesProtection s.decoder.protection (exec c s) := by
  match hv : commandVerb c with
  | some v =>
    obtain ⟨owner, he, -⟩ := command_owner hv ho
    rw [he, ← met_protection c s]
    exact orderCommand_leaves_full (hr.met c) hd (met_arbiter c s ▸ full)
  | none =>
    obtain ⟨sec, verb, rfl⟩ := unknownOrder_of_noVerb hv ho
    simp only [Instr.wf, Bool.and_eq_true, Bool.not_eq_true', assigned, decide_eq_false_iff_not, Nat.not_lt] at hw
    exact ⟨_, (unknownOrdersAreRefused sec verb o s hr hw.1).2.1 hd full, rfl⟩

theorem exec_leaves_group (hw : c.wf = true) (ho : c.order = some o) (hr : OrdersReach s) (hd : o.via = .group) :
    LeavesProtection s.decoder.protection (exec c s) := by
  match hv : commandVerb c with
  | some v =>
    obtain ⟨owner, he, table⟩ := command_owner hv ho
    rw [he, ← met_protection c s]
    refine orderCommand_leaves_group (hr.met c) hd fun capable => ?_
    obtain ⟨notUnlock, notLock⟩ := ne_unlock_of_groupable capable
    exact ownerOf_protection table notUnlock notLock o
  | none =>
    obtain ⟨sec, verb, rfl⟩ := unknownOrder_of_noVerb hv ho
    simp only [Instr.wf, Bool.and_eq_true, Bool.not_eq_true', assigned, decide_eq_false_iff_not, Nat.not_lt] at hw
    exact ⟨_, (unknownOrdersAreRefused sec verb o s hr hw.1).2.2 hd, rfl⟩

end Commands

/-! ### UNLOCK and LOCK -/

section

variable {o : Order} {s : State}

/-- The owner of UNLOCK sees protection as it stands. -/
theorem opened_unlock_protection (hd : DirectReady Verb.unlock o s) :
    (opened Verb.unlock o s).decoder.protection = s.decoder.protection := by
  obtain ⟨-, -, -, len, -⟩ := hd
  exact if_pos ⟨rfl, len⟩

theorem exec_unlock_opens (hd : DirectReady Verb.unlock o s) {q : Protection} (hq : q ≠ .closed)
    (h : s.decoder.protection.unlock (bitsAt (bodyWord o 1) 7 0) = q) :
    exec (.unlock o) s =
      .next (returned Verb.unlock o (Reply.done q.code) (withProtection q (opened Verb.unlock o s))) := by
  have e : unlockOwner o (opened Verb.unlock o s) = done q.code (withProtection q (opened Verb.unlock o s)) := by
    unfold unlockOwner
    dsimp only
    rw [opened_unlock_protection hd, h]
    exact if_pos hq
  show orderCommand Verb.unlock unlockOwner o s = _
  rw [orderCommand_direct _ hd, e]
  rfl

theorem exec_unlock_refused (hd : DirectReady Verb.unlock o s) {r : Result}
    (h : s.decoder.protection.unlock (bitsAt (bodyWord o 1) 7 0) = .closed)
    (hr : r = if 1 ≤ bitsAt (bodyWord o 1) 7 0 ∧ bitsAt (bodyWord o 1) 7 0 ≤ 4 then .state else .range) :
    exec (.unlock o) s =
      .next (returned Verb.unlock o (Reply.refusal r 0) (withProtection .closed (opened Verb.unlock o s))) := by
  have e : unlockOwner o (opened Verb.unlock o s) = refuse r 0 (withProtection .closed (opened Verb.unlock o s)) := by
    unfold unlockOwner
    dsimp only
    rw [opened_unlock_protection hd, h, hr, if_neg (by decide)]
    split
    · rfl
    · rfl
  show orderCommand Verb.unlock unlockOwner o s = _
  rw [orderCommand_direct _ hd, e]
  rfl

theorem exec_lockOrder (hd : DirectReady Verb.lock o s) :
    exec (.lockOrder o) s =
      .next
        (returned Verb.lock o (Reply.done (if s.decoder.protection = .open_ then 4 else 0))
          (withProtection .closed (opened Verb.lock o s))) := by
  have former : (opened Verb.lock o s).decoder.protection.code = if s.decoder.protection = .open_ then 4 else 0 := by
    show (protectionBefore Verb.lock o s.decoder.protection).code = _
    rw [protectionBefore_of_ne (by decide)]
    split
    · rfl
    · rfl
  rw [← former]
  exact orderCommand_direct lockOwner hd

end

/-- An UNLOCK with no step of R123 leads to CLOSED. -/
theorem unlock_noStep {p : Protection} {n : Nat} (hp : p ≠ .open_) (h : n = 0 ∨ 4 < n) : p.unlock n = .closed := by
  unfold Protection.unlock
  split
  · exact absurd rfl hp
  all_goals first | omega | rfl

/-- Settles O12: the break of R123 comes ahead of the owner, the steps in UNLOCK's own execution. -/
theorem protectionMovesStepByStep : Obligations.ProtectionMovesStepByStep := by
  refine ⟨fun v o s => ⟨rfl, ?_⟩, fun c o s hw ho hr => ⟨?_, ?_, ?_⟩, fun o s => ⟨fun hd => ?_, exec_lockOrder⟩⟩
  · show withProtection (protectionBefore v o s.decoder.protection) (consume v.sec v.num o s) = _
    rw [protectionBefore_eq]
    rfl
  · exact exec_leaves_direct hw ho hr
  · exact exec_leaves_full hw ho hr
  · exact exec_leaves_group hw ho hr
  · have step : bitsAt (bodyWord o 1) 7 0 = (bodyWord o 1).toNat % 256 := by unfold bitsAt; omega
    have opens := @exec_unlock_opens o s hd
    have refused := @exec_unlock_refused o s hd
    rw [step] at opens refused
    generalize (bodyWord o 1).toNat % 256 = n at opens refused
    generalize s.decoder.protection = p at opens refused
    dsimp only
    refine ⟨?_, ?_, ?_, ?_, ?_, ?_, ?_, ?_, ?_⟩
    · rintro rfl
      exact opens (by decide) rfl
    · exact fun hp h => refused (unlock_noStep hp h) (by rw [if_neg (by omega)])
    · rintro hp rfl
      exact opens (by decide) (by revert hp; cases p <;> simp [Protection.unlock])
    · rintro rfl rfl
      exact opens (by decide) rfl
    · rintro rfl rfl
      exact opens (by decide) rfl
    · rintro rfl rfl
      exact opens (by decide) rfl
    all_goals
      rintro hp rfl hq
      exact refused (by revert hp hq; cases p <;> simp [Protection.unlock]) rfl

end Sys2Proof.Machine
end

section
/-! SUPPORT. The orders of section 0 NODE (R20, R22, R116, R160 to R164, R170): what each answers, case by case. -/

namespace Sys2Proof.Machine

/-! ### An order's answer from its owner's -/

theorem orderCommand_answers {v : Verb} {owner : Order → State → Reply × State} {o : Order} {s t : State} {r : Reply}
    (hd : DirectReady v o s) (e : owner o (opened v o s) = (r, t)) :
    orderCommand v owner o s = .next (returned v o r t) := by
  rw [orderCommand_direct owner hd, e]

theorem orderCommand_answersGroup {v : Verb} {owner : Order → State → Reply × State} {o : Order} {s t : State} {r : Reply}
    (hd : GroupReady v o s) (hg : v.groupable = true) (e : owner o (heard v o s) = (r, t)) :
    orderCommand v owner o s = .next (if r.taken then t else raiseRefused v.sec v.num r.result t) := by
  rw [orderCommand_group owner hd hg, e]

/-! ### IDENT and SET-ADDRESS -/

theorem vector_four {α : Type} (v : Vector α 4) : v.toList = [v[0], v[1], v[2], v[3]] := by
  refine List.ext_getElem (by simp) fun i h _ => ?_
  have : i < 4 := by simpa using h
  interval_cases i <;> rfl

theorem presentBlocks_eq (m : MemCtl) :
    presentBlocks m = 4096 * (bit m.present[0] + bit m.present[1] + bit m.present[2] + bit m.present[3]) := by
  unfold presentBlocks
  rw [vector_four]
  have counts (a b c d : Bool) : [a, b, c, d].count true = bit a + bit b + bit c + bit d := by decide +revert
  rw [counts]
  rfl

theorem opened_protection_code {v : Verb} (h : v ≠ Verb.unlock) (o : Order) (s : State) :
    (opened v o s).decoder.protection.code = if s.decoder.protection = .open_ then 4 else 0 := by
  show (protectionBefore v o s.decoder.protection).code = _
  rw [protectionBefore_of_ne h]
  split
  · rfl
  · rfl

section

variable {o : Order} {s : State}

theorem setAddress_refused (hd : DirectReady Verb.setAddress o s) (h : bitsAt (bodyWord o 1) 15 8 = 255) :
    exec (.setAddress o) s =
      .next (returned Verb.setAddress o (Reply.refusal .range 0) (opened Verb.setAddress o s)) :=
  orderCommand_answers (owner := setAddressOwner) hd (if_pos h)

theorem setAddress_taken (hd : DirectReady Verb.setAddress o s) (h : bitsAt (bodyWord o 1) 15 8 ≠ 255) :
    exec (.setAddress o) s =
      .next
        (returned Verb.setAddress o (Reply.done s.decoder.pattern.toNat)
          { opened Verb.setAddress o s with
            decoder :=
              { (opened Verb.setAddress o s).decoder with
                pattern := BitVec.ofNat 8 (bitsAt (bodyWord o 1) 15 8)
                mask := BitVec.ofNat 8 (bitsAt (bodyWord o 1) 7 0) } }) :=
  orderCommand_answers (owner := setAddressOwner) hd (if_neg h)

end

/-- Settles O15. -/
theorem partIsIdentifiedAndAddressed : Obligations.PartIsIdentifiedAndAddressed := by
  refine ⟨fun o s hd => ?_, fun o s hd => ?_⟩
  · rw [← opened_protection_code (v := Verb.ident) (by decide) o s]
    dsimp only
    rw [← presentBlocks_eq]
    exact orderCommand_direct identOwner hd
  · have high : bitsAt (bodyWord o 1) 15 8 = (bodyWord o 1).toNat / 256 % 256 := rfl
    have low : bitsAt (bodyWord o 1) 7 0 = (bodyWord o 1).toNat % 256 := by unfold bitsAt; omega
    dsimp only
    rw [← high, ← low]
    exact ⟨setAddress_refused hd, setAddress_taken hd⟩

/-! ### GO and STANDBY -/

theorem anyCause_eq_true (s : State) :
    anyCause s = true ↔ s.link.link = true ∨ s.link.lost = true ∨ s.node.orderCause = true := by
  simp only [anyCause, Bool.or_eq_true, or_assoc]

theorem anyCause_eq_false (s : State) :
    anyCause s = false ↔ s.link.link = false ∧ s.link.lost = false ∧ s.node.orderCause = false := by
  simp only [anyCause, Bool.or_eq_false_iff, and_assoc]

section

variable {o : Order} {s : State}

theorem exec_go_run (hd : DirectReady Verb.go o s) (h : s.node.state = .standby) (clear : anyCause s = false) :
    exec (.go o) s =
      .next (returned Verb.go o (Reply.done 2) { opened Verb.go o s with node := { s.node with state := .run } }) :=
  orderCommand_answers (owner := goOwner) hd
    ((if_pos h).trans (if_neg (show ¬anyCause (opened Verb.go o s) = true from ne_true_of_eq_false clear)))

theorem exec_go_silent (hd : DirectReady Verb.go o s) (h : s.node.state = .standby) (cause : anyCause s = true) :
    exec (.go o) s =
      .next (returned Verb.go o (Reply.done 3) { opened Verb.go o s with node := { s.node with state := .silent } }) :=
  orderCommand_answers (owner := goOwner) hd
    ((if_pos h).trans (if_pos (show anyCause (opened Verb.go o s) = true from cause)))

theorem exec_go_refused (hd : DirectReady Verb.go o s) (h : s.node.state ≠ .standby) :
    exec (.go o) s =
      .next (returned Verb.go o (Reply.refusal .state s.node.state.code) (opened Verb.go o s)) :=
  orderCommand_answers (owner := goOwner) hd (if_neg h)

/-- What the owner of STANDBY answers in a node state. -/
theorem exec_standby (hd : DirectReady Verb.standby o s) {r : Reply} {t : State}
    (e : standbyOwner o (opened Verb.standby o s) = (r, t)) :
    exec (.standby o) s = .next (returned Verb.standby o r t) := orderCommand_answers (owner := standbyOwner) hd e

end

section

variable (o : Order) {s : State}

theorem standbyOwner_sizing (h : s.node.state = .sizing) : standbyOwner o s = refuse .busy 0 s := by
  unfold standbyOwner
  rw [h]

theorem standbyOwner_standby (h : s.node.state = .standby) : standbyOwner o s = done NodeState.standby.code s := by
  unfold standbyOwner
  rw [h]

theorem standbyOwner_sweep (h : s.node.state = .sweep) :
    standbyOwner o s = done NodeState.sweep.code (sweepCutShort s) := by
  unfold standbyOwner
  rw [h]

theorem standbyOwner_leaves (h : s.node.state = .run ∨ s.node.state = .silent) :
    standbyOwner o s = done s.node.state.code { s with node := { s.node with leaving := true } } := by
  unfold standbyOwner
  obtain h | h := h
  · simp only [h]
  · simp only [h]

end

theorem markTested_sweep (m : MemCtl) :
    m.markTested.sweep =
      { m.sweep with
        added := if m.sweepFailed = true ∧ m.sweep.block ∉ m.badBlocks then m.sweep.added + 1 else m.sweep.added } := by
  unfold MemCtl.markTested
  by_cases hf : m.sweepFailed = true
  · by_cases hb : m.sweep.block ∈ m.badBlocks
    · simp [hf, hb]
    · simp [hf, hb]
  · simp [hf]

theorem markTested_rest (m : MemCtl) :
    m.markTested = { m with badBlocks := m.markTested.badBlocks, sweep := m.markTested.sweep } := by
  unfold MemCtl.markTested
  split
  · rfl
  · rfl

/-- Settles O16: GO is two tests; STANDBY is one case for each node state, in SWEEP the record of a sweep cut short. -/
theorem goAndStandbyMoveTheNode : Obligations.GoAndStandbyMoveTheNode := by
  intro o s
  refine ⟨fun hd => ⟨fun h hl ho hc => exec_go_run hd h ((anyCause_eq_false s).mpr ⟨hl, ho, hc⟩),
    fun h cause => exec_go_silent hd h ((anyCause_eq_true s).mpr cause), exec_go_refused hd⟩,
    fun hd => ⟨?_, fun h => ?_, fun h => ?_, fun h => ?_⟩⟩
  · exact fun h => exec_standby hd (standbyOwner_leaves (s := opened Verb.standby o s) o h)
  · exact exec_standby hd (standbyOwner_standby (s := opened Verb.standby o s) o h)
  · exact exec_standby hd (standbyOwner_sizing (s := opened Verb.standby o s) o h)
  · have answered := exec_standby hd (standbyOwner_sweep (s := opened Verb.standby o s) o h)
    refine ⟨_, answered, markTested_badBlocks s.mem, ?_, ?_⟩
    · show { s.mem.markTested.sweep with outcome := SweepOutcome.cutShort } = _
      rw [markTested_sweep]
    · show { s.mem.markTested with
        sweep := { s.mem.markTested.sweep with outcome := .cutShort }, sweepEnded := false, sweepFrame := 0
        sweepFailed := false } = _
      rw [markTested_rest]
      rfl

/-! ### SILENCE and RESUME -/

/-- The state with the cause ORDER set (R78, R160). -/
theorem orderCauseIs_true (s : State) :
    orderCauseIs true s =
      { s with
        node :=
          { s.node with orderCause := true, state := if s.node.state = .run then .silent else s.node.state }
        guard := if s.node.state = .run ∧ (s.period.map (·.counts)).getD false = false then s.guard.abandon else s.guard
        period :=
          if s.node.state = .run then s.period.map fun p => { p with leftRun := p.leftRun || p.counts }
          else s.period } := by
  have cause : anyCause { s with node := { s.node with orderCause := true } } = true :=
    (anyCause_eq_true _).mpr (Or.inr (Or.inr rfl))
  unfold orderCauseIs causesChanged
  rw [cause]
  by_cases run : s.node.state = .run
  · cases counts : (s.period.map (·.counts)).getD false
    · simp [run, leaveRun, periodCounts, counts]
    · simp [run, leaveRun, periodCounts, counts]
  · simp [run]

/-- The state with the cause ORDER clear (R160): a node in RUN has no other cause. -/
theorem orderCauseIs_false {s : State} (h : s.node.state = .run → s.link.link = false ∧ s.link.lost = false) :
    orderCauseIs false s =
      { s with
        node :=
          { s.node with
            orderCause := false
            state :=
              if s.node.state = .silent ∧ s.link.link = false ∧ s.link.lost = false then .run else s.node.state } } := by
  have causes : anyCause { s with node := { s.node with orderCause := false } } = (s.link.link || s.link.lost) :=
    Bool.or_false _
  unfold orderCauseIs causesChanged
  rw [causes]
  by_cases run : s.node.state = .run
  · obtain ⟨link, lost⟩ := h run
    simp [run, link, lost]
  · cases link : s.link.link <;> cases lost : s.link.lost <;> by_cases silent : s.node.state = .silent <;>
      simp [run, silent]

theorem causeCode_orderCauseIs (b : Bool) (s : State) :
    causeCode (orderCauseIs b s) = bit s.link.link + 2 * bit s.link.lost + 4 * bit b := by
  have link : (orderCauseIs b s).link = s.link := (causesChanged_keeps _).2.2.2.2.1
  have cause : (orderCauseIs b s).node.orderCause = b := by
    unfold orderCauseIs causesChanged
    split
    · rfl
    · split
      · rfl
      · rfl
  unfold causeCode
  rw [link, cause]

/-- Settles O17: both orders give the cause ORDER a value and let the node state follow. -/
theorem silenceAndResumeActOnTheNode : Obligations.SilenceAndResumeActOnTheNode := by
  intro o s
  have silenced (t : State) : silenceOwner o t =
      (Reply.done (bit t.link.link + 2 * bit t.link.lost + 4), _) :=
    Prod.ext (congrArg Reply.done (causeCode_orderCauseIs true t)) (orderCauseIs_true t)
  have resumed (t : State) (h : t.node.state = .run → t.link.link = false ∧ t.link.lost = false) : resumeOwner o t =
      (Reply.done (bit t.link.link + 2 * bit t.link.lost), _) :=
    Prod.ext (congrArg Reply.done (causeCode_orderCauseIs false t)) (orderCauseIs_false h)
  exact ⟨fun hd => orderCommand_answers hd (silenced _), fun hd => orderCommand_answersGroup hd rfl (silenced _),
    fun clear => ⟨fun hd => orderCommand_answers hd (resumed (opened Verb.resume o s) clear),
      fun hd => orderCommand_answersGroup hd rfl (resumed (heard Verb.resume o s) clear)⟩⟩

/-! ### SWEEP -/

/-- A search of the indexes in order finds the first that meets the condition. -/
theorem find?_finRange {n : Nat} {p : Fin n → Bool} {i : Fin n} (hi : p i = true) (below : ∀ j < i, p j = false) :
    (List.finRange n).find? p = some i := by
  refine List.find?_eq_some_iff_getElem.mpr ⟨hi, i.val, by simp, by simp, fun j hj => ?_⟩
  simpa using below ⟨j, by omega⟩ hj

theorem lowestOn_some {s : State} {n : Line} (h : (lineOf s n).state ≠ .off) (below : ∀ m < n, (lineOf s m).state = .off) :
    lowestOn s = some n :=
  find?_finRange (bne_iff_ne.mpr h) fun m hm => by
    have off : s.lines[m].state = .off := below m hm
    rw [off]
    rfl

theorem lowestOn_of_off {s : State} (h : ∀ n : Line, (lineOf s n).state = .off) : lowestOn s = none :=
  List.find?_eq_none.mpr fun n _ => by
    have off : s.lines[n].state = .off := h n
    rw [off]
    decide

theorem nextPresent_some {present : Vector Bool 4} {r : Rank} (h : present[r] = true)
    (below : ∀ q < r, present[q] = false) : nextPresent present 0 = some r :=
  find?_finRange (by simpa using h) fun q hq => by simpa using below q hq

theorem nextPresent_none {present : Vector Bool 4} (h : ∀ r : Rank, present[r] = false) : nextPresent present 0 = none :=
  List.find?_eq_none.mpr fun r _ => by simpa using h r

section

variable {o : Order} {s : State}

theorem exec_sweep_sizing (hd : DirectReady Verb.sweep o s) (h : s.node.state = .sizing) :
    exec (.sweep o) s = .next (returned Verb.sweep o (Reply.refusal .busy 0) (opened Verb.sweep o s)) :=
  orderCommand_answers (owner := sweepOwner) hd (if_pos h)

theorem exec_sweep_refused (hd : DirectReady Verb.sweep o s) (hs : s.node.state ≠ .sizing)
    (h : s.node.state ≠ .standby ∨ lowestOn s ≠ none) :
    exec (.sweep o) s =
      .next (returned Verb.sweep o (Reply.refusal .state (sweepDetail s)) (opened Verb.sweep o s)) :=
  orderCommand_answers (owner := sweepOwner) hd ((if_neg hs).trans (if_pos h))

theorem exec_sweep_starts (hd : DirectReady Verb.sweep o s) (h : s.node.state = .standby) (off : lowestOn s = none) :
    exec (.sweep o) s =
      .next
        (returned Verb.sweep o { result := .accepted, detail := 0, more := [] } (sweepStarts (opened Verb.sweep o s))) := by
  refine orderCommand_answers (owner := sweepOwner) hd ((if_neg ?_).trans (if_neg ?_))
  · show s.node.state ≠ .sizing
    rw [h]
    decide
  · show ¬(s.node.state ≠ .standby ∨ lowestOn s ≠ none)
    simp only [h, off, ne_eq, not_true_eq_false, or_self, not_false_eq_true]

end

/-- Settles O18. -/
theorem sweepStartsWithEveryLineOff : Obligations.SweepStartsWithEveryLineOff := by
  intro o s hd
  refine ⟨exec_sweep_sizing hd, fun hs hn => ?_, fun n h on below => ?_, fun h off => ⟨fun r present below => ?_, fun absent => ?_⟩⟩
  · have detail : sweepDetail s = s.node.state.code := by
      unfold sweepDetail
      rw [if_neg hn]
      rfl
    rw [exec_sweep_refused hd hs (Or.inl hn), detail]
  · have lowest := lowestOn_some on below
    have detail : sweepDetail s = 1 + 256 * n.val := by
      unfold sweepDetail
      rw [if_pos h, lowest, h]
      show 1 + n.val * 256 = _
      omega
    rw [exec_sweep_refused hd (by rw [h]; decide) (Or.inr (by rw [lowest]; exact Option.some_ne_none n)), detail]
  · have first : nextPresent (opened Verb.sweep o s).mem.present 0 = some r := nextPresent_some present below
    rw [exec_sweep_starts hd h (lowestOn_of_off off)]
    unfold sweepStarts
    rw [first]
    have block : firstBlock r = 4096 * r.val := Nat.mul_comm _ _
    simp only [Option.map_some, Option.getD_some, block]
    rfl
  · have first : nextPresent (opened Verb.sweep o s).mem.present 0 = none := nextPresent_none absent
    rw [exec_sweep_starts hd h (lowestOn_of_off off)]
    unfold sweepStarts
    rw [first]
    rfl

end Sys2Proof.Machine
end

section
/-! SUPPORT. The orders of section 1 SLOTS (R106 to R108), and of fields of numbers: an index in its range, a slot entry,
numbers packed four to a word (R173, R174). -/

namespace Sys2Proof.Machine

/-! ### Fields -/

theorem index?_some {n k : Nat} {i : Fin n} (h : i.val = k) : index? n k = some i := by
  subst h
  exact dif_pos i.isLt

theorem index?_none {n k : Nat} (h : n ≤ k) : index? n k = none := dif_neg (Nat.not_lt.mpr h)

theorem slotByte_eq (e : Option Slot) : slotByte e = (e.map (·.val)).getD 255 := by cases e <;> rfl

theorem slotField_none {k : Nat} (h : 64 ≤ k) (hn : k ≠ 255) : slotField k = none := by
  unfold slotField
  rw [if_neg hn, dif_neg (Nat.not_lt.mpr h)]

theorem slotField_some {k : Nat} {e : Option Slot} (h : (e.map (·.val)).getD 255 = k) : slotField k = some e := by
  subst h
  cases e with
  | none => rfl
  | some i =>
    have below : i.val ≠ 255 := by omega
    show slotField i.val = _
    unfold slotField
    rw [if_neg below, dif_pos i.isLt]

/-- A number packed four to a word is read back at its place. -/
theorem packBytes_get (l : List Nat) (small : ∀ x ∈ l, x < 256) (whole : l.length % 4 = 0) :
    ∀ k < l.length, bitsAt ((packBytes l).getD (k / 4) 0) (31 - 8 * (k % 4)) (24 - 8 * (k % 4)) = l.getD k 0 := by
  induction l using packBytes.induct with
  | case1 a b c d rest ih =>
    intro k hk
    simp only [List.mem_cons, forall_eq_or_imp] at small
    obtain ⟨ha, hb, hc, hd, small⟩ := small
    simp only [List.length_cons] at whole hk
    unfold packBytes
    by_cases first : k < 4
    · have packed := word_toNat (a * 2 ^ 24 + b * 2 ^ 16 + c * 2 ^ 8 + d) (by omega)
      have here : k / 4 = 0 := by omega
      rw [here, List.getD_cons_zero]
      unfold bitsAt
      interval_cases k
      · show (word _).toNat / 2 ^ 24 % 2 ^ 8 = a
        omega
      · show (word _).toNat / 2 ^ 16 % 2 ^ 8 = b
        omega
      · show (word _).toNat / 2 ^ 8 % 2 ^ 8 = c
        omega
      · show (word _).toNat / 2 ^ 0 % 2 ^ 8 = d
        omega
    · obtain ⟨j, rfl⟩ : ∃ j, k = j + 4 := ⟨k - 4, by omega⟩
      have later := ih small (by omega) j (by omega)
      have place : (j + 4) / 4 = j / 4 + 1 := by omega
      rw [place, List.getD_cons_succ, Nat.add_mod_right, later]
      rfl
  | case2 l h =>
    intro k hk
    match l, h with
    | [], _ => exact absurd hk (Nat.not_lt_zero k)
    | [_], _ => simp at whole
    | [_, _], _ => simp at whole
    | [_, _, _], _ => simp at whole
    | a :: b :: c :: d :: rest, h => exact absurd rfl (h a b c d rest)

/-! ### The maps -/

section

variable {o : Order} {s : State}

theorem exec_writeInMap (hd : DirectReady Verb.writeInMap o s) {r : Reply} {t : State}
    (e : writeInMapOwner o (opened Verb.writeInMap o s) = (r, t)) :
    exec (.writeInMap o) s = .next (returned Verb.writeInMap o r t) := orderCommand_answers hd e

theorem writeInMapOwner_channel (h : 24 ≤ bitsAt (bodyWord o 1) 15 8) : writeInMapOwner o s = refuse .range 0 s := by
  unfold writeInMapOwner
  rw [index?_none h]

theorem writeInMapOwner_slot {c : InCh} (hc : c.val = bitsAt (bodyWord o 1) 15 8) (h : 64 ≤ bitsAt (bodyWord o 1) 7 0)
    (hn : bitsAt (bodyWord o 1) 7 0 ≠ 255) : writeInMapOwner o s = refuse .range 1 s := by
  unfold writeInMapOwner
  rw [index?_some hc, slotField_none h hn]

theorem writeInMapOwner_taken {c : InCh} {e : Option Slot} (hc : c.val = bitsAt (bodyWord o 1) 15 8)
    (he : (e.map (·.val)).getD 255 = bitsAt (bodyWord o 1) 7 0) :
    writeInMapOwner o s =
      done ((s.maps.input[c].map (·.val)).getD 255) { s with maps := { s.maps with input := s.maps.input.set c e } } := by
  unfold writeInMapOwner
  rw [index?_some hc, slotField_some he, ← slotByte_eq]

theorem exec_writeOutMap (hd : DirectReady Verb.writeOutMap o s) {r : Reply} {t : State}
    (e : writeOutMapOwner o (opened Verb.writeOutMap o s) = (r, t)) :
    exec (.writeOutMap o) s = .next (returned Verb.writeOutMap o r t) := orderCommand_answers hd e

theorem writeOutMapOwner_channel (h : 32 ≤ bitsAt (bodyWord o 1) 15 8) : writeOutMapOwner o s = refuse .range 0 s := by
  unfold writeOutMapOwner
  rw [index?_none h]

theorem writeOutMapOwner_slot {c : Output} (hc : c.val = bitsAt (bodyWord o 1) 15 8)
    (h : 64 ≤ bitsAt (bodyWord o 1) 7 0) (hn : bitsAt (bodyWord o 1) 7 0 ≠ 255) :
    writeOutMapOwner o s = refuse .range 1 s := by
  unfold writeOutMapOwner
  rw [index?_some hc, slotField_none h hn]

theorem writeOutMapOwner_held {c d : Output} {e : Option Slot} (hc : c.val = bitsAt (bodyWord o 1) 15 8)
    (he : (e.map (·.val)).getD 255 = bitsAt (bodyWord o 1) 7 0) (hh : holder s.maps c e = some d) :
    writeOutMapOwner o s = refuse .range (32 + d.val) s := by
  unfold writeOutMapOwner
  simp only [index?_some hc, slotField_some he, hh]

theorem writeOutMapOwner_taken {c : Output} {e : Option Slot} (hc : c.val = bitsAt (bodyWord o 1) 15 8)
    (he : (e.map (·.val)).getD 255 = bitsAt (bodyWord o 1) 7 0) (hh : holder s.maps c e = none) :
    writeOutMapOwner o s =
      done ((s.maps.output[c].map (·.val)).getD 255)
        { s with maps := { s.maps with output := s.maps.output.set c e } } := by
  unfold writeOutMapOwner
  simp only [index?_some hc, slotField_some he, hh, ← slotByte_eq]

end

/-- The lowest other output channel with the slot holds it. -/
theorem holder_some {m : Maps} {c d : Output} {i : Slot} (hd : d ≠ c) (hi : m.output[d] = some i)
    (below : ∀ e < d, e ≠ c → m.output[e] ≠ some i) : holder m c (some i) = some d :=
  find?_finRange (by simpa using ⟨hd, hi⟩) fun e he => by simpa using below e he

theorem holder_none {m : Maps} {c : Output} {e : Option Slot}
    (h : ∀ (d : Output) (i : Slot), d ≠ c → e = some i → m.output[d] ≠ some i) : holder m c e = none := by
  cases e with
  | none => rfl
  | some i => exact List.find?_eq_none.mpr fun d _ => by simpa using fun hd => h d i hd rfl

theorem slotByte_lt (e : Option Slot) : slotByte e < 256 := by
  cases e with
  | none => decide
  | some i => exact Nat.lt_trans i.isLt (by decide)

theorem mapWords_get (m : Maps) (k : Nat) (hk : k < 56) :
    bitsAt ((mapWords m).getD (k / 4) 0) (31 - 8 * (k % 4)) (24 - 8 * (k % 4)) =
      (m.input.toList.map slotByte ++ m.output.toList.map slotByte).getD k 0 := by
  have length : (m.input.toList.map slotByte ++ m.output.toList.map slotByte).length = 56 := by simp
  refine packBytes_get _ (fun x hx => ?_) (by rw [length]) k (by rw [length]; exact hk)
  obtain hx | hx := List.mem_append.mp hx
  · obtain ⟨e, -, rfl⟩ := List.mem_map.mp hx
    exact slotByte_lt e
  · obtain ⟨e, -, rfl⟩ := List.mem_map.mp hx
    exact slotByte_lt e

/-- Settles O19. -/
theorem mapsAreWrittenAndRead : Obligations.MapsAreWrittenAndRead := by
  refine ⟨fun o s => ?_, fun o s hd => ⟨mapWords s.maps, ?_, mapWords_length _, ?_⟩⟩
  · have low : bitsAt (bodyWord o 1) 7 0 = (bodyWord o 1).toNat % 256 := by unfold bitsAt; omega
    have high : bitsAt (bodyWord o 1) 15 8 = (bodyWord o 1).toNat / 256 % 256 := rfl
    dsimp only
    rw [← low, ← high]
    refine ⟨fun hd => ⟨?_, ?_, ?_⟩, fun hd => ⟨?_, ?_, ?_, ?_⟩⟩
    · exact fun h => exec_writeInMap hd (writeInMapOwner_channel h)
    · exact fun hc h hn => exec_writeInMap hd (writeInMapOwner_slot (c := ⟨_, hc⟩) rfl h hn)
    · exact fun c e hc he => exec_writeInMap hd (writeInMapOwner_taken hc he)
    · exact fun h => exec_writeOutMap hd (writeOutMapOwner_channel h)
    · exact fun hc h hn => exec_writeOutMap hd (writeOutMapOwner_slot (c := ⟨_, hc⟩) rfl h hn)
    · intro d i hc hi hne held below
      refine exec_writeOutMap hd (writeOutMapOwner_held (c := ⟨_, hc⟩) (e := some i) rfl hi (holder_some ?_ held ?_))
      · exact fun e => hne (congrArg Fin.val e)
      · exact fun e he hn => below e he fun k => hn (Fin.ext k)
    · exact fun c e hc he h => exec_writeOutMap hd (writeOutMapOwner_taken hc he (holder_none h))
  · exact orderCommand_direct readMapOwner hd
  · intro k hk
    have entries : slotByte = fun e : Option Slot => (e.map (·.val)).getD 255 := funext slotByte_eq
    rw [mapWords_get s.maps k hk, entries]

end Sys2Proof.Machine
end

section
/-! SUPPORT. Orders whose owner takes its tests in a list: the reply of the first that holds, and the effect where none does;
with them WRITE-WINDOW, START, RESTART, STOP and READ-LINE of section 2 LINES (R5, R10, R11, R13, R14, R16, R18). -/

namespace Sys2Proof.Machine

/-! ### Tests in order -/

/-- What an owner answers that takes a list of tests: on the state as it finds it the reply of the first that holds, or the
answer of the order taken. -/
def tested (tests : List (Bool × Reply)) (s : State) (a : Reply × State) : Reply × State :=
  ((firstFailing tests).map fun r => (r, s)).getD a

theorem tested_nil (s : State) (a : Reply × State) : tested [] s a = a := rfl

theorem tested_cons (b : Bool) (r : Reply) (tests : List (Bool × Reply)) (s : State) (a : Reply × State) :
    tested ((b, r) :: tests) s a = if b = true then (r, s) else tested tests s a := by
  unfold tested firstFailing
  cases b
  · rfl
  · rfl

theorem orderCommand_tested {v : Verb} {owner : Order → State → Reply × State} {o : Order} {s t : State}
    {tests : List (Bool × Reply)} {r₀ : Reply} (hd : DirectReady v o s)
    (e : owner o (opened v o s) = tested tests (opened v o s) (r₀, t)) :
    (∀ r, firstFailing tests = some r → orderCommand v owner o s = .next (returned v o r (opened v o s))) ∧
      (firstFailing tests = none → orderCommand v owner o s = .next (returned v o r₀ t)) := by
  refine ⟨fun r h => orderCommand_answers hd (e.trans ?_), fun h => orderCommand_answers hd (e.trans ?_)⟩
  · unfold tested
    rw [h]
    rfl
  · unfold tested
    rw [h]
    rfl

theorem lineField_eq {w : Word} {n : Line} (h : n.val = bitsAt w 5 0) : lineField w = n :=
  Fin.ext (by rw [lineField, ← h, Fin.val_ofNat, Nat.mod_eq_of_lt n.isLt])

/-! ### WRITE-WINDOW -/

theorem writeWindowOwner_tested (o : Order) (s : State) (n : Line) (h : n.val = bitsAt (bodyWord o 1) 5 0) :
    writeWindowOwner o s =
      tested
        [ (s.node.state == .sizing, Reply.refusal .busy 0),
          ((lineOf s n).state != .off, Reply.refusal .inUse (lineOf s n).state.code),
          (decide (16383 < bitsAt (bodyWord o 2) 31 16), Reply.refusal .range 0),
          (decide (bitsAt (bodyWord o 2) 15 0 = 0 ∨ 256 < bitsAt (bodyWord o 2) 15 0), Reply.refusal .range 1) ] s
        (Reply.done 0,
          { s with
            lines :=
              s.lines.set n
                { lineOf s n with base := bitsAt (bodyWord o 2) 31 16, length := bitsAt (bodyWord o 2) 15 0 } }) := by
  unfold writeWindowOwner
  simp only [lineField_eq h, tested_cons, tested_nil, beq_iff_eq, bne_iff_ne, decide_eq_true_eq]
  rfl

/-- Settles O20. -/
theorem writeWindowSetsAnIdleLinesWindow : Obligations.WriteWindowSetsAnIdleLinesWindow := by
  intro o s n hd h
  exact orderCommand_tested (owner := writeWindowOwner) hd (writeWindowOwner_tested o _ n h)

/-! ### START and RESTART -/

/-- The two last tests of START and RESTART. -/
def placedTests (s : State) (n : Line) : List (Bool × Reply) :=
  [ ((placement s n).isSome, Reply.refusal .place ((placement s n).getD 0)),
    ((feedRecheck s n).isSome, Reply.refusal .range ((feedRecheck s n).getD 0)) ]

theorem placeAndClear_tested (n : Line) (s : State) :
    placeAndClear n s = tested (placedTests s n) s (accepted (beginClearing n s)) := by
  unfold placeAndClear placedTests
  simp only [tested_cons, tested_nil]
  cases placement s n with
  | some d => rfl
  | none =>
    cases feedRecheck s n with
    | some i => rfl
    | none => rfl

theorem startOwner_tested (o : Order) (s : State) (n : Line) (h : n.val = bitsAt (bodyWord o 1) 5 0) :
    startOwner o s =
      tested
        ([ (s.node.state == .sizing || s.node.state == .sweep, Reply.refusal .busy 0),
            ((lineOf s n).state != .off, Reply.refusal .state (lineOf s n).state.code) ] ++ placedTests s n) s
        (accepted (beginClearing n s)) := by
  unfold startOwner
  simp only [lineField_eq h, placeAndClear_tested, List.cons_append, List.nil_append, tested_cons, Bool.or_eq_true,
    beq_iff_eq, bne_iff_ne]
  rfl

theorem restartOwner_tested (o : Order) (s : State) (n : Line) (h : n.val = bitsAt (bodyWord o 1) 5 0) :
    restartOwner o s =
      tested
        ([ (s.node.state == .sizing || s.node.state == .sweep, Reply.refusal .busy 0),
            ((lineOf s n).state == .clearing, Reply.refusal .inUse 1),
            ((lineOf s n).state == .off, Reply.refusal .state 0) ] ++ placedTests s n) s
        (accepted (beginClearing n s)) := by
  unfold restartOwner
  simp only [lineField_eq h, placeAndClear_tested, List.cons_append, List.nil_append, tested_cons, Bool.or_eq_true,
    beq_iff_eq]
  split
  · rfl
  · split
    · next clearing => rw [clearing]; rfl
    · split
      · next off => rw [off]; rfl
      · rfl

/-- Settles O23. -/
theorem startAndRestartBeginClearing : Obligations.StartAndRestartBeginClearing := by
  intro o s n b h
  exact ⟨fun hd => orderCommand_tested (owner := startOwner) hd (startOwner_tested o _ n h),
    fun hd => orderCommand_tested (owner := restartOwner) hd (restartOwner_tested o _ n h)⟩

/-! ### STOP, and the fault that goes ahead of it (R13, R16) -/

theorem unlist_one (m : MemCtl) (n : Line) :
    (m.unlist fun k => k == n) =
      { m with
        clearing := m.clearing.filter fun k => decide (k ≠ n)
        zeroed := if m.clearing.head? = some n then 0 else m.zeroed } := by
  unfold MemCtl.unlist
  congr 1
  · exact List.filter_congr fun k _ => by simp [beq_eq_decide]
  · cases m.clearing.head? with
    | none => rfl
    | some k => simp

theorem stopOwner_tested (o : Order) (s : State) (n : Line) (h : n.val = bitsAt (bodyWord o 1) 5 0) :
    stopOwner o s =
      tested
        [ (s.node.state == .sizing, Reply.refusal .busy 0),
          (s.scenes.inUse.getLsbD n.val, Reply.refusal .inUse (lineOf s n).state.code) ] s
        (Reply.done 0,
          { s with
            lines := s.lines.set n { lineOf s n with state := .off }
            mem :=
              { s.mem with
                clearing := s.mem.clearing.filter fun k => decide (k ≠ n)
                zeroed := if s.mem.clearing.head? = some n then 0 else s.mem.zeroed } }) := by
  unfold stopOwner
  simp only [lineField_eq h, unlist_one, tested_cons, tested_nil, beq_iff_eq]
  rfl

theorem makeFaulted_nil (s : State) : makeFaulted [] s = s := by
  have lines : (Vector.ofFn fun n => s.lines[n]) = s.lines := by
    ext i hi
    simp
  have mem : (s.mem.unlist fun _ => false) = s.mem := by
    unfold MemCtl.unlist
    cases s.mem.clearing.head? <;> simp
  unfold makeFaulted raiseFault
  simp only [List.not_mem_nil, if_false, decide_false, lines, mem, List.isEmpty_nil, if_true]

/-- One line made FAULTED that is not on the clearing work list. -/
theorem makeFaulted_one {n : Line} {s : State} (h : n ∉ s.mem.clearing) :
    makeFaulted [n] s =
      raiseWith .lineFault (fun e => { e with faultedLines := e.faultedLines ||| 1#64 <<< n.val })
        { s with lines := s.lines.set n { lineOf s n with state := .faulted } } := by
  have lines : (Vector.ofFn fun m => if m = n then { s.lines[m] with state := .faulted } else s.lines[m]) =
      s.lines.set n { lineOf s n with state := .faulted } := by
    ext i hi
    rw [Vector.getElem_ofFn, Vector.getElem_set]
    by_cases here : n.val = i
    · subst here
      rw [if_pos (Fin.ext rfl), if_pos rfl]
      rfl
    · rw [if_neg fun e => here (congrArg Fin.val e.symm), if_neg here]
      rfl
  have mem : (s.mem.unlist fun m => decide (m = n)) = s.mem := by
    have head : (s.mem.clearing.head?.map fun m => decide (m = n)).getD false = false := by
      match hc : s.mem.clearing with
      | [] => rfl
      | m :: rest => exact decide_eq_false fun e => h (by rw [hc, e]; exact List.mem_cons_self)
    have kept : (s.mem.clearing.filter fun m => !decide (m = n)) = s.mem.clearing :=
      List.filter_eq_self.mpr fun m hm => by simpa using fun e : m = n => h (e ▸ hm)
    unfold MemCtl.unlist
    rw [head, kept]
    rfl
  unfold makeFaulted raiseFault
  simp only [List.mem_singleton, lines, mem]
  rfl

/-- The fault of the line that an order names, where it is due. -/
theorem faultsNow_named {s : State} {ns : List Line} {n : Line} (h : n ∈ ns) (hr : (lineOf s n).state = .running) :
    (faultsNow s ns).filter (fun m => m == n) = [n] := by
  have once : (faultsNow s ns).Nodup := (List.nodup_finRange 64).filter _
  have due : n ∈ faultsNow s ns := List.mem_filter.mpr ⟨List.mem_finRange n, by simpa using ⟨h, hr⟩⟩
  rw [List.filter_beq, List.count_eq_one_of_mem once due]
  rfl

theorem faultsNow_other {s : State} {ns : List Line} {n : Line} (h : n ∉ ns ∨ (lineOf s n).state ≠ .running) :
    (faultsNow s ns).filter (fun m => m == n) = [] := by
  refine List.filter_eq_nil_iff.mpr fun m hm here => ?_
  obtain rfl : m = n := by simpa using here
  have due := (List.mem_filter.mp hm).2
  simp only [Bool.and_eq_true, decide_eq_true_eq, beq_iff_eq] at due
  exact h.elim (fun k => k due.1) (fun k => k due.2)

theorem faultAhead_false (o : Order) (s : State) : faultAhead false o s = s := if_neg fun h => by cases h.1

theorem takeFaults_some {s : State} {p : Period} (hp : s.period = some p) (f : Line → Bool) :
    takeFaults f s = makeFaulted ((faultsNow s p.faultDue).filter f) s := by
  unfold takeFaults
  rw [hp]

theorem takeFaults_none {s : State} (hp : s.period = none) (f : Line → Bool) : takeFaults f s = s := by
  unfold takeFaults
  rw [hp]

theorem faultAhead_due {o : Order} {s : State} {n : Line} {p : Period} (h : n.val = bitsAt (bodyWord o 1) 5 0)
    (hr : OrdersReach s) (hp : s.period = some p) (hd : n ∈ p.faultDue) (running : (lineOf s n).state = .running)
    (unlisted : n ∉ s.mem.clearing) :
    faultAhead true o s =
      raiseWith .lineFault (fun e => { e with faultedLines := e.faultedLines ||| 1#64 <<< n.val })
        { s with lines := s.lines.set n { lineOf s n with state := .faulted } } := by
  unfold faultAhead
  rw [if_pos ⟨rfl, ordersReach_iff.mpr hr⟩, takeFaults_some hp, lineField_eq h, faultsNow_named hd running,
    makeFaulted_one unlisted]

theorem faultAhead_notDue {o : Order} {s : State} {n : Line} (h : n.val = bitsAt (bodyWord o 1) 5 0)
    (hd : ∀ p : Period, s.period = some p → n ∉ p.faultDue ∨ (lineOf s n).state ≠ .running) :
    faultAhead true o s = s := by
  unfold faultAhead
  split
  · match hp : s.period with
    | none => exact takeFaults_none hp _
    | some p => rw [takeFaults_some hp, lineField_eq h, faultsNow_other (hd p hp), makeFaulted_nil]
  · rfl

/-- Settles O24: STOP in two tests; what it and RESTART meet is the fault of their one line, taken or not. -/
theorem stopTakesAnUnusedLineOff : Obligations.StopTakesAnUnusedLineOff := by
  refine ⟨fun o s n b h hd => orderCommand_tested (owner := stopOwner) hd (stopOwner_tested o _ n h), fun o s n h => ⟨?_, ?_, ?_⟩⟩
  · exact ⟨faultAhead_false o s, faultAhead_false o s⟩
  · exact fun hr p hp hd running unlisted =>
      ⟨faultAhead_due h hr hp hd running unlisted, faultAhead_due h hr hp hd running unlisted⟩
  · exact fun hd => ⟨faultAhead_notDue h hd, faultAhead_notDue h hd⟩

/-! ### READ-LINE -/

theorem clearingPlace_eq (s : State) (n : Line) :
    clearingPlace s n =
      (if (lineOf s n).state = .clearing then s.mem.clearing.idxOf n else 0,
        if (lineOf s n).state = .clearing ∧ s.mem.clearing.idxOf n = 0 then s.mem.zeroed else 0) := by
  unfold clearingPlace
  by_cases h : (lineOf s n).state = .clearing
  · simp [h]
  · simp [h]

/-- Settles O25. -/
theorem readLineReportsTheRecord : Obligations.ReadLineReportsTheRecord := by
  intro o s n hd h
  have words : Term.words = fun t : Term =>
      match t with
      | .input c g => [word (c.val * 2 ^ 24 + g.toNat), 0]
      | .line m d g => [word (1 * 2 ^ 31 + m.val * 2 ^ 24 + g.toNat), word d] := by
    funext t
    cases t with
    | input => rfl
    | line => rfl
  refine orderCommand_answers (owner := readLineOwner) hd ?_
  unfold readLineOwner lineWords
  rw [lineField_eq h, clearingPlace_eq, words]
  rfl

end Sys2Proof.Machine
end

section
/-! SUPPORT. The placement test, the feed re-check and WRITE-FEED (R6, R7, R10): each search of a list finds the first entry
that the rule names. -/

namespace Sys2Proof.Machine

/-! ### The placement test (R6) -/

theorem blocks_find_some {l : LineRec} {p : Nat → Bool} {b : Nat} (low : l.base ≤ b) (high : b < l.base + l.length)
    (hb : p b = true) (below : ∀ c < b, l.base ≤ c ∧ c < l.base + l.length → p c = false) : l.blocks.find? p = some b := by
  unfold LineRec.blocks
  rw [List.find?_map, Option.map_eq_some_iff]
  refine ⟨b - l.base, List.find?_range_eq_some.mpr ⟨?_, List.mem_range.mpr (by omega), fun j hj => ?_⟩, by omega⟩
  · simpa [Function.comp_apply, Nat.add_sub_cancel' low] using hb
  · simpa using below (l.base + j) (by omega) (by omega)

theorem blocks_find_none {l : LineRec} {p : Nat → Bool}
    (h : ∀ b, l.base ≤ b ∧ b < l.base + l.length → p b = false) : l.blocks.find? p = none := by
  refine List.find?_eq_none.mpr fun b hb => ?_
  obtain ⟨i, hi, rfl⟩ := List.mem_map.mp hb
  have := List.mem_range.mp hi
  simpa using h (l.base + i) (by omega)

theorem sharedWith_iff (s : State) (n : Line) (b : Nat) :
    sharedWith s n b = true ↔
      ∃ m : Line, m ≠ n ∧ (lineOf s m).state ≠ .off ∧ (lineOf s m).base ≤ b ∧
        b < (lineOf s m).base + (lineOf s m).length := by
  simp [sharedWith, LineRec.covers, allLines, and_assoc]

section

variable {s : State} {n : Line}

theorem placement_crosses (h : 4096 < (lineOf s n).base % 4096 + (lineOf s n).length) :
    placement s n = some (1 * 2 ^ 20 + ((lineOf s n).base / 4096 + 1) * 4096) := if_pos h

theorem placement_absent (h : (lineOf s n).base % 4096 + (lineOf s n).length ≤ 4096)
    (hp : s.mem.present[rankOfBlock (lineOf s n).base] = false) :
    placement s n = some (2 * 2 ^ 20 + (lineOf s n).base) := (if_neg (Nat.not_lt.mpr h)).trans (if_pos hp)

/-- The placement test of a window within a PRESENT rank. -/
theorem placement_within (h : (lineOf s n).base % 4096 + (lineOf s n).length ≤ 4096)
    (hp : s.mem.present[rankOfBlock (lineOf s n).base] = true) :
    placement s n =
      ((lineOf s n).blocks.find? fun b => decide (b ∈ s.mem.badBlocks)).elim
        (((lineOf s n).blocks.find? fun b => sharedWith s n b).map (placeDetail 4)) fun b => some (placeDetail 3 b) := by
  refine (if_neg (Nat.not_lt.mpr h)).trans ((if_neg (ne_false_of_eq_true hp)).trans ?_)
  cases (lineOf s n).blocks.find? fun b => decide (b ∈ s.mem.badBlocks) with
  | none => rfl
  | some b => rfl

end

/-! ### The feed re-check (R10) -/

theorem findIdx?_eq_some {α : Type} {l : List α} {p : α → Bool} {i : Nat} {x : α} (hx : l[i]? = some x) (hp : p x = true)
    (below : ∀ j y, j < i → l[j]? = some y → p y = false) : l.findIdx? p = some i := by
  obtain ⟨hi, rfl⟩ := List.getElem?_eq_some_iff.mp hx
  refine List.findIdx?_eq_some_iff_getElem.mpr ⟨hi, hp, fun j hj => ?_⟩
  have := below j l[j] hj (List.getElem?_eq_getElem (by omega))
  simp [this]

theorem termPasses_false (s : State) (n : Line) (t : Term) :
    termPasses s n t = false ↔
      match t with
      | .input _ _ => False
      | .line m d _ => (m ≠ n ∧ (lineOf s m).state = .off) ∨ 1024 * (lineOf s m).length ≤ d := by
  cases t with
  | input => simp [termPasses]
  | line m d g =>
    have samples : (lineOf s m).samples = 1024 * (lineOf s m).length := Nat.mul_comm _ _
    simp only [termPasses, Bool.and_eq_false_iff, Bool.or_eq_false_iff, decide_eq_false_iff_not, bne_eq_false_iff_eq,
      samples, Nat.not_lt]

/-- Settles O22: the placement test is read off its definition, each search finding the lowest block of the window. -/
theorem placementAndFeedRecheckGoInOrder : Obligations.PlacementAndFeedRecheckGoInOrder := by
  refine ⟨fun s n => ⟨placement_crosses, fun h => ⟨placement_absent h, fun hp => ⟨?_, fun sound => ⟨?_, ?_⟩⟩⟩⟩,
    fun s n => ⟨?_, ?_⟩⟩
  · intro b hb bad below
    rw [placement_within h hp,
      blocks_find_some hb.1 hb.2 (decide_eq_true bad) fun c hc hw => decide_eq_false (below c hc hw)]
    rfl
  · intro b hb shared below
    rw [placement_within h hp, blocks_find_none fun c hc => decide_eq_false (sound c hc),
      blocks_find_some hb.1 hb.2 ((sharedWith_iff s n b).mpr shared)
        fun c hc hw => eq_false_of_ne_true (mt (sharedWith_iff s n c).mp (below c hc hw))]
    rfl
  · intro apart
    rw [placement_within h hp, blocks_find_none fun c hc => decide_eq_false (sound c hc),
      blocks_find_none fun c hc => eq_false_of_ne_true (mt (sharedWith_iff s n c).mp (apart c hc))]
    rfl
  · intro i t ht fails below
    refine findIdx?_eq_some ht ?_ fun j t' hj ht' => ?_
    · rw [Bool.not_eq_true', termPasses_false]
      exact fails
    · have passes := below j t' hj ht'
      rw [Bool.not_eq_false', ← Bool.not_eq_false, termPasses_false]
      exact passes
  · intro passes
    refine List.findIdx?_eq_none_iff.mpr fun t ht => ?_
    have := passes t ht
    rw [Bool.not_eq_false', ← Bool.not_eq_false, termPasses_false]
    exact this

/-! ### WRITE-FEED (R7) -/

/-- The terms of an even number of words, by their indexes. -/
theorem termFields_eq (ws : List Word) (m : Nat) (h : ws.length = 2 * m) :
    termFields ws = (List.range m).map fun k => termField (ws.getD (2 * k) 0) (ws.getD (2 * k + 1) 0) := by
  induction m generalizing ws with
  | zero =>
    obtain rfl := List.length_eq_zero_iff.mp h
    rfl
  | succ m ih =>
    match ws, h with
    | a :: b :: rest, h =>
      rw [termFields, ih rest (by simpa [Nat.mul_add] using h), List.range_succ_eq_map, List.map_cons, List.map_map]
      rfl
    | [_], h => simp at h; omega

/-- The conditions under which a term of WRITE-FEED is out of range, in words of R7. -/
def feedOutOfRange (s : State) (a b : Word) : Prop :=
  if bitAt a 31 = true then
    bitsAt b 23 0 = 0 ∨ 262143 < bitsAt b 23 0 ∨ (lineOf s (Fin.ofNat 64 (bitsAt a 29 24))).state = .off ∨
      1024 * (lineOf s (Fin.ofNat 64 (bitsAt a 29 24))).length ≤ bitsAt b 23 0
  else 23 < bitsAt a 29 24

/-- The term that two words of WRITE-FEED give where they are in range. -/
def feedTerm (a b : Word) : Term :=
  if bitAt a 31 = true then .line (Fin.ofNat 64 (bitsAt a 29 24)) (bitsAt b 23 0) (gainOf a)
  else .input (Fin.ofNat 24 (bitsAt a 29 24)) (gainOf a)

theorem termInRange_false (s : State) (a b : Word) :
    termInRange s (termField a b) = false ↔ feedOutOfRange s a b := by
  unfold termField feedOutOfRange
  by_cases line : bitAt a 31 = true
  · have samples (n : Line) : (lineOf s n).samples = 1024 * (lineOf s n).length := Nat.mul_comm _ _
    rw [if_pos line, if_pos line]
    simp only [termInRange, Bool.and_eq_false_iff, decide_eq_false_iff_not, bne_eq_false_iff_eq, samples, Nat.not_lt,
      Nat.not_le, Nat.lt_one_iff, or_assoc]
  · rw [if_neg line, if_neg line]
    by_cases channel : 24 ≤ bitsAt a 29 24
    · rw [index?_none channel]
      exact iff_of_true rfl channel
    · rw [index?_some (n := 24) (i := ⟨bitsAt a 29 24, Nat.lt_of_not_le channel⟩) rfl]
      exact iff_of_false Bool.noConfusion channel

theorem termField_inRange {s : State} {a b : Word} (h : ¬feedOutOfRange s a b) : termField a b = some (feedTerm a b) := by
  unfold feedOutOfRange at h
  unfold termField feedTerm
  by_cases line : bitAt a 31 = true
  · rw [if_pos line, if_pos line]
  · rw [if_neg line] at h
    rw [if_neg line, if_neg line]
    have channel : (Fin.ofNat 24 (bitsAt a 29 24)).val = bitsAt a 29 24 := Nat.mod_eq_of_lt (by omega)
    rw [index?_some channel]
    rfl

theorem carriedTerms_eq {o : Order} (h : Verb.writeFeed.lengthOk o = true) :
    carriedTerms o =
      (List.range (feedCount o)).map fun k => termField (bodyWord o (2 + 2 * k)) (bodyWord o (3 + 2 * k)) := by
  have length : o.body.length = 1 + 2 * feedCount o := (lengthOk_iff Verb.writeFeed o).2 rfl |>.mp h
  have tail (i : Nat) : o.body.tail.getD i 0 = bodyWord o (i + 2) := by
    cases hb : o.body with
    | nil => rw [hb] at length; simp at length; omega
    | cons w ws => rw [bodyWord, hb]; rfl
  unfold carriedTerms
  rw [termFields_eq _ (feedCount o) (by rw [List.length_tail]; omega)]
  refine List.map_congr_left fun k _ => ?_
  rw [tail, tail, Nat.add_comm (2 * k) 2, Nat.add_comm (2 * k + 1) 2, show 2 + (2 * k + 1) = 3 + 2 * k by omega]

section

variable {o : Order} {s : State}

theorem exec_writeFeed (hd : DirectReady Verb.writeFeed o s) {r : Reply} {t : State}
    (e : writeFeedOwner o (opened Verb.writeFeed o s) = (r, t)) :
    exec (.writeFeed o) s = .next (returned Verb.writeFeed o r t) := orderCommand_answers hd e

/-- WRITE-FEED past the tests of its first word. -/
theorem writeFeedOwner_terms (hs : s.node.state ≠ .sizing) (hc : feedCount o ≤ 6)
    (hd : bitsAt (bodyWord o 1) 31 16 ≤ 32440) {x : Option Nat}
    (hx : (carriedTerms o).findIdx? (fun t => !termInRange s t) = x) :
    writeFeedOwner o s =
      x.elim
        (if 31129 < recirculation ((carriedTerms o).filterMap id) then refuse .range 8 s
          else
            done 0
              (overLine (lineField (bodyWord o 1))
                (fun l => { l with feed := (carriedTerms o).filterMap id, damping := bitsAt (bodyWord o 1) 31 16 }) s))
        fun i => refuse .range i s := by
  subst hx
  refine (if_neg hs).trans ((if_neg (Nat.not_lt.mpr hc)).trans ((if_neg (Nat.not_lt.mpr hd)).trans ?_))
  cases (carriedTerms o).findIdx? (fun t => !termInRange s t) with
  | none => rfl
  | some i => rfl

theorem writeFeedOwner_term (hs : s.node.state ≠ .sizing) (hl : Verb.writeFeed.lengthOk o = true) (hc : feedCount o ≤ 6)
    (hd : bitsAt (bodyWord o 1) 31 16 ≤ 32440) {k : Nat} (hk : k < feedCount o)
    (out : feedOutOfRange s (bodyWord o (2 + 2 * k)) (bodyWord o (3 + 2 * k)))
    (below : ∀ j < k, ¬feedOutOfRange s (bodyWord o (2 + 2 * j)) (bodyWord o (3 + 2 * j))) :
    writeFeedOwner o s = refuse .range k s := by
  have first : (carriedTerms o).findIdx? (fun t => !termInRange s t) = some k := by
    rw [carriedTerms_eq hl]
    refine findIdx?_eq_some (x := termField (bodyWord o (2 + 2 * k)) (bodyWord o (3 + 2 * k))) ?_ ?_ fun j t hj ht => ?_
    · simp [List.getElem?_range hk]
    · rw [Bool.not_eq_true']
      exact (termInRange_false _ _ _).mpr out
    · obtain rfl : _ = t := by simpa [List.getElem?_range (hj.trans hk)] using ht
      rw [Bool.not_eq_false', ← Bool.not_eq_false]
      exact mt (termInRange_false _ _ _).mp (below j hj)
  exact writeFeedOwner_terms hs hc hd first

theorem writeFeedOwner_inRange (hs : s.node.state ≠ .sizing) (hl : Verb.writeFeed.lengthOk o = true)
    (hc : feedCount o ≤ 6) (hd : bitsAt (bodyWord o 1) 31 16 ≤ 32440)
    (inRange : ∀ k < feedCount o, ¬feedOutOfRange s (bodyWord o (2 + 2 * k)) (bodyWord o (3 + 2 * k)))
    {feed : List Term}
    (hf : feed = (List.range (feedCount o)).map fun k => feedTerm (bodyWord o (2 + 2 * k)) (bodyWord o (3 + 2 * k))) :
    writeFeedOwner o s =
      if 31129 < recirculation feed then refuse .range 8 s
      else
        done 0
          (overLine (lineField (bodyWord o 1))
            (fun l => { l with feed := feed, damping := bitsAt (bodyWord o 1) 31 16 }) s) := by
  have terms : carriedTerms o = feed.map some := by
    rw [carriedTerms_eq hl, hf, List.map_map]
    exact List.map_congr_left fun k hk => termField_inRange (inRange k (List.mem_range.mp hk))
  have none_ : (carriedTerms o).findIdx? (fun t => !termInRange s t) = none := by
    rw [carriedTerms_eq hl]
    refine List.findIdx?_eq_none_iff.mpr fun t ht => ?_
    obtain ⟨k, hk, rfl⟩ := List.mem_map.mp ht
    rw [Bool.not_eq_false', ← Bool.not_eq_false]
    exact mt (termInRange_false _ _ _).mp (inRange k (List.mem_range.mp hk))
  have kept : (carriedTerms o).filterMap id = feed := by
    rw [terms, List.filterMap_map]
    exact List.filterMap_some
  rw [writeFeedOwner_terms hs hc hd none_, kept]
  rfl

end

theorem recirculation_eq (ts : List Term) :
    recirculation ts =
      (ts.map fun t =>
        match t with
        | .input _ _ => 0
        | .line _ _ g => g.toInt.natAbs).sum := by
  unfold recirculation
  refine congrArg List.sum (List.map_congr_left fun t _ => ?_)
  cases t with
  | input => rfl
  | line => rfl

/-- Settles O21. -/
theorem writeFeedReplacesListAndDamping : Obligations.WriteFeedReplacesListAndDamping := by
  intro o s n hd h
  obtain ⟨-, -, -, hl, -⟩ := id hd
  refine ⟨fun sizing => exec_writeFeed hd (if_pos sizing), fun hs => ⟨fun hc => ?_, fun hc hb => ?_, fun hc hb => ⟨?_, ?_⟩⟩⟩
  · exact exec_writeFeed hd ((if_neg hs).trans (if_pos hc))
  · exact exec_writeFeed hd ((if_neg hs).trans ((if_neg (Nat.not_lt.mpr hc)).trans (if_pos hb)))
  · exact fun k hk out below =>
      exec_writeFeed hd (writeFeedOwner_term (s := opened Verb.writeFeed o s) hs hl hc hb hk out below)
  · intro inRange
    have owner := writeFeedOwner_inRange (s := opened Verb.writeFeed o s) hs hl hc hb inRange rfl
    refine ⟨recirculation_eq _, fun beyond => ?_, fun within => ?_⟩
    · refine exec_writeFeed hd (owner.trans (if_pos ?_))
      rw [recirculation_eq]
      exact beyond
    · refine exec_writeFeed hd (owner.trans ((if_neg ?_).trans ?_))
      · rw [recirculation_eq]
        exact Nat.not_lt.mpr within
      · rw [lineField_eq h]
        rfl

end Sys2Proof.Machine
end

section
/-! SUPPORT. WRITE-HEADER, WRITE-OUTPUT, APPEND-TAP and REPLACE-TAP on the STAGED bank (R28 to R31). -/

namespace Sys2Proof.Machine

/-! ### Tests in order on the STAGED bank -/

theorem firstFailing_none {tests : List (Bool × Reply)} (h : firstFailing tests = none) {b : Bool} {r : Reply}
    (ht : (b, r) ∈ tests) : b = false := by
  have := List.find?_eq_none.mp (Option.map_eq_none_iff.mp h) (b, r) ht
  simpa using this

/-- A scene-writing order whose owner takes its tests in a list. -/
theorem editing_tested {v : Verb} {owner : Order → State → Reply × State} {o : Order} {s t : State} {b : BankSlot}
    {edit : Bank → Scenes} {tests : List (Bool × Reply)} {r₀ : Reply} (h : StagedIs s.scenes b edit)
    (hd : DirectReady v o s) (e : owner o (opened v o s) = tested tests (opened v o s) (r₀, t)) :
    (∀ r, firstFailing tests = some r → orderCommand v (editing owner) o s = .next (returned v o r (opened v o s))) ∧
      (firstFailing tests = none → orderCommand v (editing owner) o s = .next (returned v o r₀ t)) :=
  orderCommand_tested hd ((if_pos h.hasRole).trans e)

/-! ### WRITE-HEADER and WRITE-OUTPUT -/

section

variable {o : Order} {s : State} {b : BankSlot} {edit : Bank → Scenes}

theorem exec_writeHeader_refused (h : StagedIs s.scenes b edit) (hd : DirectReady Verb.writeHeader o s)
    (long : 96000 < bitsAt (bodyWord o 2) 23 0) :
    exec (.writeHeader o) s =
      .next (returned Verb.writeHeader o (Reply.refusal .range 1) (opened Verb.writeHeader o s)) :=
  orderCommand_answers (owner := editing writeHeaderOwner) hd ((if_pos h.hasRole).trans (if_pos long))

theorem exec_writeHeader_taken (h : StagedIs s.scenes b edit) (hd : DirectReady Verb.writeHeader o s)
    (short : bitsAt (bodyWord o 2) 23 0 ≤ 96000) :
    exec (.writeHeader o) s =
      .next
        (returned Verb.writeHeader o (Reply.done 0)
          { opened Verb.writeHeader o s with
            scenes := edit { b.bank with tag := bodyWord o 1, defaultFade := bitsAt (bodyWord o 2) 23 0 } }) := by
  rw [← writeStaged_opened Verb.writeHeader o h, ← staged_opened Verb.writeHeader o h]
  exact orderCommand_answers (owner := editing writeHeaderOwner) hd
    ((if_pos h.hasRole).trans (if_neg (Nat.not_lt.mpr short)))

end

theorem writeOutputOwner_tested (o : Order) (s : State) :
    writeOutputOwner o s =
      tested
        [ (decide (31 < bitsAt (bodyWord o 1) 31 24), Reply.refusal .range 0),
          (decide (1 < bitsAt (bodyWord o 1) 23 16), Reply.refusal .range 1),
          (decide (1 < bitsAt (bodyWord o 1) 15 8), Reply.refusal .range 3),
          (decide (7 < bitsAt (bodyWord o 1) 7 0), Reply.refusal .range 4) ] s
        (Reply.done 0,
          writeStaged
            { staged s with
              outputs := (staged s).outputs.set (Fin.ofNat 32 (bitsAt (bodyWord o 1) 31 24)) (outputField o) } s) := by
  unfold writeOutputOwner
  simp only [tested_cons, tested_nil, decide_eq_true_eq]
  by_cases channel : 31 < bitsAt (bodyWord o 1) 31 24
  · rw [if_pos channel, index?_none channel]
    rfl
  · have inRange : (Fin.ofNat 32 (bitsAt (bodyWord o 1) 31 24)).val = bitsAt (bodyWord o 1) 31 24 :=
      Nat.mod_eq_of_lt (by omega)
    rw [if_neg channel, index?_some inRange]
    rfl

/-- Settles O27. -/
theorem headerAndOutputAreWrittenWhole : Obligations.HeaderAndOutputAreWrittenWhole := by
  intro o s b edit h
  refine ⟨fun hd => ⟨exec_writeHeader_refused h hd, exec_writeHeader_taken h hd⟩, fun hd => ?_⟩
  obtain ⟨refused, taken⟩ := editing_tested h hd (writeOutputOwner_tested o (opened Verb.writeOutput o s))
  refine ⟨refused, fun none_ c p hc hp => (taken none_).trans ?_⟩
  have channel : Fin.ofNat 32 (bitsAt (bodyWord o 1) 31 24) = c :=
    Fin.ext ((congrArg (· % 32) hc.symm).trans (Nat.mod_eq_of_lt c.isLt))
  have profile : Fin.ofNat 8 (bitsAt (bodyWord o 1) 7 0) = p :=
    Fin.ext ((congrArg (· % 8) hp.symm).trans (Nat.mod_eq_of_lt p.isLt))
  rw [writeStaged_opened _ _ h, staged_opened _ _ h]
  simp only [channel, outputField, profile]
  rfl

/-! ### APPEND-TAP and REPLACE-TAP -/

/-- The field checks of a tap order in their order (R30). -/
def TapFields.checks (f : TapFields) : List (Bool × Reply) :=
  [ (decide (63 < f.line), Reply.refusal .range 1),
    (decide (f.delay = 0 ∨ 262143 < f.delay), Reply.refusal .range 2),
    (decide (31 < f.output), Reply.refusal .range 3),
    (f.modulated && decide (f.depth = 0 ∨ 255 < f.depth), Reply.refusal .range 4),
    (f.modulated && decide (f.period < 480 ∨ 480000 < f.period), Reply.refusal .range 5),
    (f.modulated && decide (f.period ≤ f.start), Reply.refusal .range 6) ]

/-- The checks are those that the owner takes, ahead of what follows them. -/
theorem TapFields.checks_tested (f : TapFields) (tests : List (Bool × Reply)) (s : State) (a : Reply × State) :
    tested (f.checks ++ tests) s a = f.refused.elim (tested tests s a) fun d => (Reply.refusal .range d, s) := by
  unfold TapFields.checks TapFields.refused
  simp only [List.cons_append, List.nil_append, tested_cons, Bool.and_eq_true, decide_eq_true_eq]
  cases f.modulated with
  | false =>
    simp only [Bool.false_eq_true, false_and, if_false, if_true]
    split
    · rfl
    · split
      · rfl
      · split
        · rfl
        · rfl
  | true =>
    simp only [true_and, Bool.true_eq_false, if_false]
    split
    · rfl
    · split
      · rfl
      · split
        · rfl
        · split
          · rfl
          · split
            · rfl
            · split
              · rfl
              · rfl

theorem TapFields.tap_cost (f : TapFields) : f.tap.cost = if f.modulated = true then 2 else 1 := by
  unfold TapFields.tap Tap.cost
  cases f.modulated with
  | false => rfl
  | true => rfl

/-- The tap that fields in their ranges give holds them. -/
theorem TapFields.tap_holds {f : TapFields} {tests : List (Bool × Reply)} (h : firstFailing tests = none)
    (hc : ∀ x ∈ f.checks, x ∈ tests) :
    f.tap.line.val = f.line ∧ f.tap.delay = f.delay ∧ f.tap.gain = f.gain ∧ f.tap.output.val = f.output ∧
      f.tap.modulation =
        if f.modulated = true then some { depth := f.depth, period := f.period, start := f.start } else none := by
  have line : decide (63 < f.line) = false := firstFailing_none h (hc _ List.mem_cons_self)
  have output : decide (31 < f.output) = false :=
    firstFailing_none h (hc _ (List.mem_cons_of_mem _ (List.mem_cons_of_mem _ List.mem_cons_self)))
  simp only [decide_eq_false_iff_not, Nat.not_lt] at line output
  exact ⟨Nat.mod_eq_of_lt (by omega), rfl, rfl, Nat.mod_eq_of_lt (by omega), rfl⟩

theorem appendTapOwner_tested (o : Order) (s : State) :
    appendTapOwner o s =
      tested
        ((tapFields o 1).checks ++
          [ (decide (512 < tapsCost (staged s).taps + if (tapFields o 1).modulated = true then 2 else 1),
              Reply.refusal .budget (tapsCost (staged s).taps)) ]) s
        (Reply.done (staged s).taps.length,
          writeStaged { staged s with taps := (staged s).taps ++ [(tapFields o 1).tap] } s) := by
  rw [TapFields.checks_tested, ← TapFields.tap_cost]
  unfold appendTapOwner
  simp only [tested_cons, tested_nil, decide_eq_true_eq]
  cases (tapFields o 1).refused with
  | none => rfl
  | some d => rfl

/-- A tap replaced: the cost of the list without the old tap and with the new one (R31). -/
theorem tapsCost_set {ts : List Tap} {i : Nat} {x : Tap} (hx : ts[i]? = some x) (t : Tap) :
    tapsCost (ts.set i t) + x.cost = tapsCost ts + t.cost := by
  induction ts generalizing i with
  | nil => simp at hx
  | cons y ys ih =>
    unfold tapsCost at ih ⊢
    cases i with
    | zero =>
      obtain rfl : y = x := by simpa using hx
      simp only [List.set_cons_zero, List.map_cons, List.sum_cons]
      omega
    | succ i =>
      have rest := ih (i := i) (by simpa using hx)
      simp only [List.set_cons_succ, List.map_cons, List.sum_cons]
      omega

theorem tapsCost_replaced {ts : List Tap} {i : Nat} (hi : i < ts.length) (t : Tap) :
    tapsCost (replaced ts i t) =
      tapsCost ts - ((ts[i]?).map fun t => if t.modulation.isSome then 2 else 1).getD 0 + t.cost := by
  have old : ts[i]? = some ts[i] := List.getElem?_eq_getElem hi
  have sum := tapsCost_set old t
  have held : ts[i].cost ≤ tapsCost ts := by
    have := tapsCost_set old ts[i]
    rw [List.set_getElem_self] at this
    exact List.single_le_sum (by simp) _ (List.mem_map_of_mem (List.getElem_mem hi))
  rw [old]
  show tapsCost (ts.set i t) = tapsCost ts - ts[i].cost + t.cost
  omega

theorem replaceTapOwner_tested (o : Order) (s : State) :
    replaceTapOwner o s =
      tested
        ((decide ((staged s).taps.length ≤ bitsAt (bodyWord o 1) 15 0), Reply.refusal .range 0) ::
          (tapFields o 2).checks ++
            [ (decide
                  (512 <
                    tapsCost (staged s).taps -
                        (((staged s).taps[bitsAt (bodyWord o 1) 15 0]?).map fun t =>
                          if t.modulation.isSome then 2 else 1).getD 0 +
                      if (tapFields o 2).modulated = true then 2 else 1),
                Reply.refusal .budget (tapsCost (staged s).taps)) ]) s
        (Reply.done (bitsAt (bodyWord o 1) 15 0),
          writeStaged
            { staged s with taps := (staged s).taps.set (bitsAt (bodyWord o 1) 15 0) (tapFields o 2).tap } s) := by
  rw [List.cons_append, tested_cons, TapFields.checks_tested, ← TapFields.tap_cost]
  unfold replaceTapOwner
  simp only [tested_cons, tested_nil, decide_eq_true_eq]
  split
  · rfl
  · next within =>
    rw [tapsCost_replaced (Nat.lt_of_not_le within)]
    cases (tapFields o 2).refused with
    | none => rfl
    | some d => rfl

/-- Settles O28. -/
theorem tapsAreAppendedAndReplaced : Obligations.TapsAreAppendedAndReplaced := by
  intro o s b edit h
  refine ⟨fun hd => ?_, fun hd => ?_⟩
  · have owner := appendTapOwner_tested o (opened Verb.appendTap o s)
    rw [writeStaged_opened _ _ h, staged_opened _ _ h] at owner
    obtain ⟨refused, taken⟩ := editing_tested h hd owner
    exact ⟨refused, fun none_ => ⟨(tapFields o 1).tap, TapFields.tap_holds none_ fun x hx => List.mem_append_left _ hx, taken none_⟩⟩
  · have owner := replaceTapOwner_tested o (opened Verb.replaceTap o s)
    rw [writeStaged_opened _ _ h, staged_opened _ _ h] at owner
    obtain ⟨refused, taken⟩ := editing_tested h hd owner
    exact ⟨refused, fun none_ =>
      ⟨(tapFields o 2).tap, TapFields.tap_holds none_ fun x hx => List.mem_append_left _ (List.mem_cons_of_mem _ hx),
        taken none_⟩⟩

end Sys2Proof.Machine
end

section
/-! SUPPORT. READ-BANK (R34, R173, R174): the parts of a bank by its role, and how many taps one return holds. -/

namespace Sys2Proof.Machine

/-! ### The taps of a return -/

/-- The words of a bank's taps from the tap `i` on, each with its index and its phase. -/
def tapWords (active : Bool) (phases : List Nat) (ts : List Tap) (i : Nat) : List (List Word) :=
  (ts.zipIdx i).map fun x => x.1.words active x.2 (phases.getD x.2 0)

theorem tapWords_cons (active : Bool) (phases : List Nat) (t : Tap) (ts : List Tap) (i : Nat) :
    tapWords active phases (t :: ts) i =
      t.words active i (phases.getD i 0) :: tapWords active phases ts (i + 1) := rfl

theorem zipIdx_drop {α : Type} (l : List α) (k i : Nat) : (l.zipIdx i).drop k = (l.drop k).zipIdx (i + k) := by
  induction l generalizing k i with
  | nil => simp
  | cons x l ih =>
    cases k with
    | zero => rfl
    | succ k =>
      rw [List.zipIdx_cons, List.drop_succ_cons, List.drop_succ_cons, ih k (i + 1)]
      congr 1
      omega

/-- A return holds the taps from its first index on, `n` of them or as many as there are and as its room takes whole. -/
theorem tapsReturned_takes (active : Bool) (phases : List Nat) (ts : List Tap) (i n room : Nat) :
    ∃ m ≤ n,
      m ≤ (tapWords active phases ts i).length ∧ (((tapWords active phases ts i).take m).flatten).length ≤ room ∧
        (m = n ∨ m = (tapWords active phases ts i).length ∨
          room < (((tapWords active phases ts i).take (m + 1)).flatten).length) ∧
        tapsReturned active ts (phases.drop i) i n room = (tapWords active phases ts i).take m := by
  induction ts generalizing i n room with
  | nil => exact ⟨0, Nat.zero_le _, Nat.zero_le _, Nat.zero_le _, Or.inr (Or.inl rfl), by simp [tapsReturned, tapWords]⟩
  | cons t ts ih =>
    cases n with
    | zero => exact ⟨0, Nat.zero_le _, Nat.zero_le _, Nat.zero_le _, Or.inl rfl, by simp [tapsReturned]⟩
    | succ n =>
      rw [tapWords_cons]
      have phase : (phases.drop i).headD 0 = phases.getD i 0 := by simp [List.headD_eq_head?_getD]
      unfold tapsReturned
      rw [phase, List.tail_drop]
      dsimp only
      split
      · next fits =>
        obtain ⟨m, le, within, room', stops, eq⟩ :=
          ih (i + 1) n (room - (t.words active i (phases.getD i 0)).length)
        refine ⟨m + 1, Nat.succ_le_succ le, Nat.succ_le_succ within, ?_, ?_, by rw [eq]; rfl⟩
        · simp only [List.take_succ_cons, List.flatten_cons, List.length_append]
          omega
        · simp only [List.take_succ_cons, List.flatten_cons, List.length_append, List.length_cons] at stops ⊢
          omega
      · next over_ =>
        refine ⟨0, Nat.zero_le _, Nat.zero_le _, Nat.zero_le _, Or.inr (Or.inr ?_), by simp⟩
        simpa using over_

/-! ### The owner, by role and part -/

theorem roleOf_code (r : Role) : roleOf r.code = some r := by
  cases r with
  | live => rfl
  | staged => rfl
  | armed => rfl
  | incoming => rfl
  | outgoing => rfl

theorem roleOf_none {n : Nat} (h : 4 < n) : roleOf n = none := by
  unfold roleOf
  match n, h with
  | _ + 5, _ => rfl

theorem Polarity.code_eq (p : Polarity) : p.code = if p = .inverted then 1 else 0 := by
  cases p with
  | normal => rfl
  | inverted => rfl

theorem Role.active_eq (r : Role) : r.active = decide (r = .live ∨ r = .incoming ∨ r = .outgoing) := by
  cases r with
  | live => rfl
  | staged => rfl
  | armed => rfl
  | incoming => rfl
  | outgoing => rfl

section

variable {o : Order} {s : State} {role : Role}

theorem readBankOwner_range (h : 4 < bitsAt (bodyWord o 1) 31 28 ∨ 2 < bitsAt (bodyWord o 1) 27 24) :
    readBankOwner o s = (Reply.refusal .range 0xFF, s) := by
  unfold readBankOwner
  dsimp only
  split
  · rfl
  · next r hr =>
    have known : ¬4 < bitsAt (bodyWord o 1) 31 28 := fun big => by rw [roleOf_none big] at hr; cases hr
    rw [if_pos (h.resolve_left known)]
    rfl

theorem readBankOwner_known (hc : role.code = bitsAt (bodyWord o 1) 31 28) (hp : bitsAt (bodyWord o 1) 27 24 ≤ 2) :
    readBankOwner o s =
      if s.scenes.a.role = role then
        readPart (bitsAt (bodyWord o 1) 27 24) (bitsAt (bodyWord o 1) 23 16) (bitsAt (bodyWord o 1) 15 0) false s.scenes.a s
      else if s.scenes.b.role = role then
        readPart (bitsAt (bodyWord o 1) 27 24) (bitsAt (bodyWord o 1) 23 16) (bitsAt (bodyWord o 1) 15 0) true s.scenes.b s
      else (Reply.refusal .state (s.scenes.a.role.code * 2 ^ 4 + s.scenes.b.role.code), s) := by
  unfold readBankOwner
  dsimp only
  rw [← hc, roleOf_code]
  exact if_neg (Nat.not_lt.mpr hp)

theorem readBankOwner_absent (hc : role.code = bitsAt (bodyWord o 1) 31 28) (hp : bitsAt (bodyWord o 1) 27 24 ≤ 2)
    (ha : s.scenes.a.role ≠ role) (hb : s.scenes.b.role ≠ role) :
    readBankOwner o s = (Reply.refusal .state (s.scenes.a.role.code * 2 ^ 4 + s.scenes.b.role.code), s) :=
  (readBankOwner_known hc hp).trans ((if_neg ha).trans (if_neg hb))

theorem readBankOwner_held {isB : Bool} {b : BankSlot} (hc : role.code = bitsAt (bodyWord o 1) 31 28)
    (hp : bitsAt (bodyWord o 1) 27 24 ≤ 2) (h : HoldsRole s.scenes role isB b) :
    readBankOwner o s =
      readPart (bitsAt (bodyWord o 1) 27 24) (bitsAt (bodyWord o 1) 23 16) (bitsAt (bodyWord o 1) 15 0) isB b s := by
  rw [readBankOwner_known hc hp]
  obtain ⟨ha, rfl, rfl⟩ | ⟨ha, hb, rfl, rfl⟩ := h
  · exact if_pos ha
  · exact (if_neg ha).trans (if_pos hb)

end

theorem HoldsRole.role_eq {sc : Scenes} {r : Role} {isB : Bool} {b : BankSlot} (h : HoldsRole sc r isB b) :
    b.role = r := by
  obtain ⟨ha, rfl, -⟩ | ⟨-, hb, rfl, -⟩ := h
  · exact ha
  · exact hb

/-- Settles O29: the code that selects nothing, the role that neither bank has, and the three parts of the bank that has it. -/
theorem readBankGivesPartsByRole : Obligations.ReadBankGivesPartsByRole := by
  intro o s hd
  extract_lets u code part count index gives
  have answers {r : Reply} (e : readBankOwner o u = (r, u)) : gives r :=
    orderCommand_answers (owner := readBankOwner) hd e
  refine ⟨fun h => answers (readBankOwner_range h), fun role hc hp =>
    ⟨fun ha hb => answers (readBankOwner_absent hc hp ha hb), fun isB b held => ?_⟩⟩
  extract_lets first active words all
  have owner : readBankOwner o u = readPart part count index isB b u := readBankOwner_held hc hp held
  have first_eq (low : Nat) : word (bankWord isB b + low) = first low := by
    unfold bankWord
    rw [held.role_eq]
  have all_eq : all = tapWords b.role.active b.phases (b.bank.taps.drop index) index := by
    rw [held.role_eq, Role.active_eq]
    have from_ : b.bank.taps.zipIdx.drop index = (b.bank.taps.drop index).zipIdx index := by
      rw [zipIdx_drop, Nat.zero_add]
    unfold tapWords
    rw [← from_]
    refine List.map_congr_left fun x _ => ?_
    unfold Tap.words
    cases hm : x.1.modulation with
    | none => simp [words, hm, bit]
    | some m => simp [words, hm, bit, active]
  refine ⟨fun h0 => answers ?_, fun h1 big => answers ?_, fun h1 c hc => answers ?_, fun h2 wrong => answers ?_,
    fun h2 some_ most => ?_⟩
  · rw [owner, h0, ← first_eq]
    rfl
  · rw [owner, h1]
    unfold readPart
    rw [index?_none big]
    rfl
  · rw [owner, h1, ← first_eq]
    unfold readPart
    rw [index?_some hc]
    simp only [OutputRec.words, Polarity.code_eq]
    rfl
  · rw [owner, h2]
    exact if_pos wrong
  · obtain ⟨m, le, within, room, stops, eq⟩ :=
      tapsReturned_takes b.role.active b.phases (b.bank.taps.drop index) index count 29
    rw [← all_eq] at within room stops eq
    refine ⟨m, le, within, room, stops, answers ?_⟩
    have length : (tapsReturned b.role.active (b.bank.taps.drop index) (b.phases.drop index) index count 29).length = m := by
      rw [eq, List.length_take, Nat.min_eq_left within]
    rw [owner, h2, ← first_eq]
    refine (if_neg (by omega)).trans ?_
    rw [length, eq]
    rfl

end Sys2Proof.Machine
end

section
/-! SUPPORT. COMMIT, CANCEL and REVERT (R47 to R53, R60, R61): what a group-capable order answers either way it comes, and
what arming and disarming leave of the roles, the phases, the guard and the in-use set. -/

namespace Sys2Proof.Machine

section

variable {c : Instr} {v : Verb} {owner : Order → State → Reply × State} {o : Order} {s : State} {r : Reply}

/-- A group-capable order that is taken, whatever the decoder holds. -/
theorem answers_taken {effect : State → State} (hc : exec c s = orderCommand v owner o s) (hg : v.groupable = true)
    (taken : r.taken = true)
    (e : ∀ d : Decoder, owner o { s with decoder := d } = (r, effect { s with decoder := d })) :
    Answers c v o s r effect := by
  refine ⟨fun hd => hc.trans (orderCommand_answers hd (e _)), fun hd => ?_⟩
  rw [hc, orderCommand_answersGroup hd hg (e _), if_pos taken, if_pos taken]
  rfl

/-- A group-capable order that is refused, whatever the decoder holds. -/
theorem answers_refused (hc : exec c s = orderCommand v owner o s) (hg : v.groupable = true) (refused : r.taken = false)
    (e : ∀ d : Decoder, owner o { s with decoder := d } = (r, { s with decoder := d })) :
    Answers c v o s r id := by
  have not_taken : ¬r.taken = true := ne_true_of_eq_false refused
  refine ⟨fun hd => hc.trans (orderCommand_answers hd (e _)), fun hd => ?_⟩
  rw [hc, orderCommand_answersGroup hd hg (e _), if_neg not_taken, if_neg not_taken]
  rfl

end

/-! ### Role changes that keep the LIVE bank -/

theorem adjustWhere_nowhere (g : Guard) {c : Output → Bool} (p : Output → Profile) (h : ∀ d, c d = false) :
    g.adjustWhere c p = g := by
  have outputs : (Vector.ofFn fun d => if c d then (g.outputs[d]).adjust (p d) else g.outputs[d]) = g.outputs :=
    Vector.ext fun i hi => by
      rw [Vector.getElem_ofFn, h, if_neg Bool.false_ne_true]
      rfl
  unfold Guard.adjustWhere
  rw [outputs]

theorem profileInForce_live {ch : ChangerState} (h : ch ≠ .fading) (sc : Scenes) (c : Output) :
    profileInForce ch sc c = (sc.withRole .live).bank.outputs[c].profile := by
  cases ch with
  | steady => rfl
  | armed => rfl
  | fading => exact absurd rfl h

theorem changeRoles_live {f : Role → Role} (hf : ∀ r, f r = .live ↔ r = .live) (sc : Scenes) :
    ((sc.changeRoles f).withRole .live).bank = (sc.withRole .live).bank := by
  unfold Scenes.withRole
  show BankSlot.bank (if f sc.a.role = .live then sc.a.toRole _ else sc.b.toRole _) = _
  by_cases h : sc.a.role = .live
  · rw [if_pos ((hf _).mpr h), if_pos h]
    rfl
  · rw [if_neg fun k => h ((hf _).mp k), if_neg h]
    rfl

/-- Where the LIVE bank stays and no fade is in progress, before or after, a role change leaves the guard (R74). -/
theorem roleChange_keepsLive {f : Role → Role} (hf : ∀ r, f r = .live ↔ r = .live) {ch : Changer} {s : State}
    (before : s.changer.state ≠ .fading) (after : ch.state ≠ .fading) :
    roleChange f ch s = { s with scenes := s.scenes.changeRoles f, changer := ch } := by
  have same (c : Output) :
      profileInForce s.changer.state s.scenes c = profileInForce ch.state (s.scenes.changeRoles f) c := by
    rw [profileInForce_live before, profileInForce_live after, changeRoles_live hf]
  unfold roleChange
  rw [adjustWhere_nowhere _ _ fun c => by simpa using same c]

theorem arm_live (r : Role) : r.arm = .live ↔ r = .live := by cases r <;> decide

theorem disarm_live (r : Role) : r.disarm = .live ↔ r = .live := by cases r <;> decide

/-- The roles in STEADY, bank by bank. -/
theorem ChangerLaw.steadyRoles {s : State} (h : ChangerLaw s) (hs : s.changer.state = .steady) :
    (s.scenes.a.role = .live ∧ s.scenes.b.role = .staged) ∨ (s.scenes.a.role = .staged ∧ s.scenes.b.role = .live) := by
  have pair := h.1
  rw [hs] at pair
  simpa [rolePair] using pair

/-- The roles in ARMED, bank by bank. -/
theorem ChangerLaw.armedRoles {s : State} (h : ChangerLaw s) (hs : s.changer.state = .armed) :
    (s.scenes.a.role = .live ∧ s.scenes.b.role = .armed) ∨ (s.scenes.a.role = .armed ∧ s.scenes.b.role = .live) := by
  have pair := h.1
  rw [hs] at pair
  simpa [rolePair] using pair

theorem toRole_arm {b : BankSlot} (h : b.role = .live ∨ b.role = .staged) :
    b.toRole b.role.arm = { b with role := if b.role = .staged then .armed else b.role } := by
  unfold BankSlot.toRole
  obtain h | h := h
  · simp [h, Role.arm]
  · simp [h, Role.arm]

theorem toRole_disarm {b : BankSlot} (h : b.role = .live ∨ b.role = .armed) :
    b.toRole b.role.disarm = if b.role = .armed then { b with role := .staged, phases := [] } else b := by
  unfold BankSlot.toRole
  obtain h | h := h
  · simp [h, Role.disarm]
    rw [← h]
  · simp [h, Role.disarm]

theorem changeRoles_inUse (f : Role → Role) (sc : Scenes) (n : Line) :
    (sc.changeRoles f).inUse.getLsbD n.val = true ↔
      (f sc.a.role ≠ .staged ∧ ∃ t ∈ sc.a.bank.taps, t.line = n) ∨
        (f sc.b.role ≠ .staged ∧ ∃ t ∈ sc.b.bank.taps, t.line = n) := by
  show (BankSlot.used _ ||| BankSlot.used _).getLsbD n.val = true ↔ _
  rw [BitVec.getLsbD_or, Bool.or_eq_true, used_get, used_get]
  rfl

theorem arm_ne_staged (r : Role) : r.arm ≠ .staged := by cases r <;> decide

/-! ### The taps that fail a commit (R51) -/

theorem firstBadTap_found {s : State} {ts : List Tap} {i : Nat} {t : Tap} {reason : Nat} (ht : ts[i]? = some t)
    (fails : tapFails s t = some reason) (before : ∀ t' ∈ ts.take i, tapFails s t' = none) (k : Nat) :
    firstBadTap s ts k = some (reason * 2 ^ 20 + (k + i)) := by
  induction ts generalizing i k with
  | nil => simp at ht
  | cons x xs ih =>
    unfold firstBadTap
    cases i with
    | zero =>
      obtain rfl : x = t := by simpa using ht
      rw [fails]
      rfl
    | succ i =>
      rw [before x (by simp)]
      have rest := ih (i := i) (by simpa using ht) (fun t' h => before t' (by simp [h])) (k + 1)
      dsimp only
      rw [rest]
      congr 2
      omega

theorem firstBadTap_eq_none {s : State} {ts : List Tap} (h : ∀ t ∈ ts, tapFails s t = none) (k : Nat) :
    firstBadTap s ts k = none := by
  induction ts generalizing k with
  | nil => rfl
  | cons x xs ih =>
    unfold firstBadTap
    rw [h x List.mem_cons_self]
    exact ih (fun t ht => h t (List.mem_cons_of_mem _ ht)) (k + 1)

/-! ### COMMIT at its owner -/

section

variable (o : Order) (s : State)

/-- The five tests of COMMIT before its taps are looked at, in their order (R49 to R51). -/
def commitTests : List (Bool × Reply) :=
  [ (s.node.state != .run && s.node.state != .silent, Reply.refusal .state s.node.state.code),
    (s.link.link || s.link.lost, Reply.refusal .state (bit s.link.link + 2 * bit s.link.lost)),
    (s.changer.state != .steady, Reply.refusal .busy s.changer.state.code),
    (bitAt (bodyWord o 1) 31 && decide (96000 < bitsAt (bodyWord o 2) 23 0), Reply.refusal .range 0),
    (bitAt (bodyWord o 1) 30 &&
        decide
          (((if bitAt (bodyWord o 1) 30 = true then BitVec.ofNat 16 (bitsAt (bodyWord o 1) 15 0) else s.link.expected) -
                s.link.expected).toNat = 0 ∨
            32767 <
              ((if bitAt (bodyWord o 1) 30 = true then BitVec.ofNat 16 (bitsAt (bodyWord o 1) 15 0) else s.link.expected) -
                s.link.expected).toNat),
      Reply.refusal .late s.link.expected.toNat) ]

theorem commitTarget_getD :
    (commitTarget o).getD s.link.expected =
      if bitAt (bodyWord o 1) 30 = true then BitVec.ofNat 16 (bitsAt (bodyWord o 1) 15 0) else s.link.expected := by
  unfold commitTarget
  split
  · rfl
  · rfl

theorem commitOwner_tested :
    commitOwner o s =
      tested (commitTests o s) s
        ((firstBadTap s (staged s).taps 0).elim
          (done ((commitTarget o).getD s.link.expected).toNat
            (armCommit ((commitTarget o).getD s.link.expected) (commitLength o s) s))
          fun detail => refuse .badTap detail s) := by
  have late : ((commitTarget o).map (isLate s.link.expected)).getD false = true ↔
      bitAt (bodyWord o 1) 30 = true ∧
        (((if bitAt (bodyWord o 1) 30 = true then BitVec.ofNat 16 (bitsAt (bodyWord o 1) 15 0) else s.link.expected) -
              s.link.expected).toNat = 0 ∨
          32767 <
            ((if bitAt (bodyWord o 1) 30 = true then BitVec.ofNat 16 (bitsAt (bodyWord o 1) 15 0) else s.link.expected) -
              s.link.expected).toNat) := by
    unfold commitTarget isLate
    cases bitAt (bodyWord o 1) 30 with
    | false => simp
    | true => simp
  unfold commitOwner commitTests
  simp only [late, tested_cons, tested_nil, Bool.and_eq_true, Bool.or_eq_true, bne_iff_ne, decide_eq_true_eq]
  cases firstBadTap s (staged s).taps 0 with
  | none => rfl
  | some d => rfl

variable {o s}

theorem tested_failing {tests : List (Bool × Reply)} {r : Reply} (h : firstFailing tests = some r) (a : Reply × State) :
    tested tests s a = (r, s) := by
  unfold tested
  rw [h]
  rfl

theorem tested_passing {tests : List (Bool × Reply)} (h : firstFailing tests = none) (a : Reply × State) :
    tested tests s a = a := by
  unfold tested
  rw [h]
  rfl

/-- The arming of a commit in STEADY (R52). -/
theorem armCommit_steady (h : ChangerLaw s) (steady : s.changer.state = .steady) (target : Seq) (length : Nat) :
    armCommit target length s =
      { s with
        scenes :=
          { a := { s.scenes.a with role := if s.scenes.a.role = .staged then .armed else s.scenes.a.role }
            b := { s.scenes.b with role := if s.scenes.b.role = .staged then .armed else s.scenes.b.role }
            inUse := (s.scenes.changeRoles Role.arm).inUse }
        changer := { state := .armed, target := some target, length, position := 0, direction := .forward } } := by
  have roles := h.steadyRoles steady
  have a : s.scenes.a.role = .live ∨ s.scenes.a.role = .staged := roles.imp And.left And.left
  have b : s.scenes.b.role = .live ∨ s.scenes.b.role = .staged := roles.symm.imp And.right And.right
  unfold armCommit
  rw [roleChange_keepsLive arm_live (by rw [steady]; decide) (show ChangerState.armed ≠ .fading by decide), ← toRole_arm a, ← toRole_arm b]
  rfl

theorem disarm_armed (h : ChangerLaw s) (armed : s.changer.state = .armed) :
    disarm s =
      { s with
        scenes :=
          { a := if s.scenes.a.role = .armed then { s.scenes.a with role := .staged, phases := [] } else s.scenes.a
            b := if s.scenes.b.role = .armed then { s.scenes.b with role := .staged, phases := [] } else s.scenes.b
            inUse := (s.scenes.changeRoles Role.disarm).inUse }
        changer := { state := .steady, target := none, length := 0, position := 0, direction := .forward } } := by
  have roles := h.armedRoles armed
  have a : s.scenes.a.role = .live ∨ s.scenes.a.role = .armed := roles.imp And.left And.left
  have b : s.scenes.b.role = .live ∨ s.scenes.b.role = .armed := roles.symm.imp And.right And.right
  unfold disarm
  rw [roleChange_keepsLive disarm_live (by rw [armed]; decide) (by decide), ← toRole_disarm a, ← toRole_disarm b]
  rfl

end

/-- Settles O30: five tests, then the taps in their order, then the arming. -/
theorem commitArmsTheStagedBank : Obligations.CommitArmsTheStagedBank := by
  intro o s b edit law
  extract_lets given length hasTarget target ahead early fails
  refine ⟨fun r failing => ?_, fun passing isStaged => ?_⟩
  · have refused : r.taken = false := by
      obtain ⟨x, hx, rfl⟩ := Option.map_eq_some_iff.mp failing
      have := List.mem_of_find?_eq_some hx
      simp only [early, List.mem_cons, List.not_mem_nil, or_false] at this
      obtain rfl | rfl | rfl | rfl | rfl := this <;> rfl
    exact answers_refused (owner := commitOwner) rfl rfl refused fun d =>
      (commitOwner_tested o _).trans (tested_failing failing _)
  have tapFails_eq (d : Decoder) (t : Tap) :
      tapFails { s with decoder := d } t = if fails t = 0 then none else some (fails t) := by
    have samples : (lineOf s t.line).samples = 1024 * (lineOf s t.line).length := Nat.mul_comm _ _
    unfold tapFails
    show (if (lineOf s t.line).state = .off then _ else
      if (lineOf s t.line).samples ≤ _ then _ else _) = _
    rw [samples]
    unfold fails
    split
    · rfl
    · split
      · rfl
      · rfl
  have taps (d : Decoder) : staged { s with decoder := d } = b.bank := congrArg BankSlot.bank isStaged.withRole
  have owner (d : Decoder) := (commitOwner_tested o { s with decoder := d }).trans (tested_passing passing _)
  refine ⟨fun i t ht bad before => ?_, fun standing => ?_⟩
  · refine answers_refused (owner := commitOwner) rfl rfl rfl fun d => (owner d).trans ?_
    rw [taps d, firstBadTap_found ht ((tapFails_eq d t).trans (if_neg bad))
      (fun t' h => (tapFails_eq d t').trans (if_pos (before t' h))), Nat.zero_add]
    rfl
  · have steady : s.changer.state = .steady := by
      have : (s.changer.state != .steady) = false := 
        firstFailing_none passing (List.mem_of_getElem? (i := 2) rfl)
      simpa using this
    refine ⟨(s.scenes.changeRoles Role.arm).inUse, fun n => ?_,
      answers_taken (owner := commitOwner) rfl rfl rfl fun d => (owner d).trans ?_⟩
    · rw [changeRoles_inUse]
      simp only [ne_eq, arm_ne_staged, not_false_eq_true, true_and, List.mem_append, or_and_right, exists_or]
    · rw [taps d, firstBadTap_eq_none fun t h => (tapFails_eq d t).trans (if_pos (standing t h))]
      rw [commitTarget_getD, armCommit_steady (s := { s with decoder := d }) law steady]
      unfold commitLength
      rw [taps d]
      rfl

/-! ### CANCEL and REVERT -/

section

variable (o : Order) {s : State}

theorem cancelOwner_armed (h : s.changer.state = .armed) :
    cancelOwner o s = done ((s.changer.target.map (·.toNat)).getD 0) (disarm s) := by
  unfold cancelOwner
  rw [h]

theorem cancelOwner_refused (h : s.changer.state ≠ .armed) :
    cancelOwner o s = refuse .state s.changer.state.code s := by
  unfold cancelOwner
  split
  · next armed => exact absurd armed h
  · rfl

theorem revertOwner_forward (h : s.changer.state = .fading) (hd : s.changer.direction = .forward) :
    revertOwner o s = done s.changer.position { s with changer := { s.changer with direction := .back } } := by
  unfold revertOwner
  rw [h, hd]

theorem revertOwner_back (h : s.changer.state = .fading) (hd : s.changer.direction = .back) :
    revertOwner o s = refuse .state 3 s := by
  unfold revertOwner
  rw [h, hd]

theorem revertOwner_refused (h : s.changer.state ≠ .fading) :
    revertOwner o s = refuse .state s.changer.state.code s := by
  unfold revertOwner
  split
  · next fading => exact absurd fading h
  · rfl

end

/-- Settles O31. -/
theorem cancelAndRevertActOnTheChanger : Obligations.CancelAndRevertActOnTheChanger := by
  intro o s law
  refine ⟨fun target armed ht => ⟨(s.scenes.changeRoles Role.disarm).inUse, fun isB live held n => ?_, ?_⟩, fun h => ?_,
    fun h hd => ?_, fun h hd => ?_, fun h => ?_⟩
  · rw [changeRoles_inUse]
    obtain ⟨a, b⟩ | ⟨a, b⟩ := law.armedRoles armed
    · obtain ⟨-, rfl, -⟩ | ⟨ha, -⟩ := held
      · simp [a, b, Role.disarm]
      · exact absurd a ha
    · obtain ⟨ha, -⟩ | ⟨-, -, rfl, -⟩ := held
      · rw [a] at ha
        cases ha
      · simp [a, b, Role.disarm]
  · refine answers_taken (owner := cancelOwner) rfl rfl rfl fun d => ?_
    rw [cancelOwner_armed o (s := { s with decoder := d }) armed, disarm_armed (s := { s with decoder := d }) law armed]
    simp only [ht]
    rfl
  · exact answers_refused (owner := cancelOwner) rfl rfl rfl fun d => cancelOwner_refused o (s := { s with decoder := d }) h
  · exact answers_taken (owner := revertOwner) rfl rfl rfl fun d => revertOwner_forward o (s := { s with decoder := d }) h hd
  · exact answers_refused (owner := revertOwner) rfl rfl rfl fun d => revertOwner_back o (s := { s with decoder := d }) h hd
  · exact answers_refused (owner := revertOwner) rfl rfl rfl fun d => revertOwner_refused o (s := { s with decoder := d }) h

end Sys2Proof.Machine
end

section
/-! SUPPORT. The orders of section 4 GUARD (R70 to R74, R84, R86, R88, R174): profiles and guard records, read, replaced and
released. -/

namespace Sys2Proof.Machine

/-! ### The profile in force (R74) -/

theorem profileInForce_steadyOrArmed {s : State} {isB : Bool} {b : BankSlot} (c : Output) (h : s.changer.state ≠ .fading)
    (held : HoldsRole s.scenes .live isB b) :
    profileInForce s.changer.state s.scenes c = b.bank.outputs[c].profile := by
  rw [profileInForce_live h, held.withRole]

theorem profileInForce_fading {s : State} {isB : Bool} {b : BankSlot} (c : Output) (h : s.changer.state = .fading)
    (held : HoldsRole s.scenes .incoming isB b) :
    profileInForce s.changer.state s.scenes c = b.bank.outputs[c].profile := by
  rw [h]
  exact congrArg (fun k : BankSlot => k.bank.outputs[c].profile) held.withRole

/-! ### WRITE-PROFILE and READ-PROFILE -/

/-- The checks of a profile's values in their order (R71). -/
def Profile.checks (p : Profile) : List (Bool × Reply) :=
  [ (decide (p.ceiling = 0 ∨ 8388607 < p.ceiling), Reply.refusal .range 1),
    (decide (p.rise = 0 ∨ 15 < p.rise), Reply.refusal .range 2),
    (decide (p.strainLimit < 16 ∨ 4095 < p.strainLimit), Reply.refusal .range 3),
    (decide (p.maxSteps = 0 ∨ 16 < p.maxSteps), Reply.refusal .range 4),
    (decide (p.recovery < 10 ∨ 60000 < p.recovery), Reply.refusal .range 5),
    (decide (1 ≤ p.clipRun ∧ p.clipRun ≤ 3), Reply.refusal .range 6) ]

/-- The checks are those that the owner takes, for a clip run of eight bits. -/
theorem Profile.checks_tested {p : Profile} (h : p.clipRun ≤ 255) (s : State) (a : Reply × State) :
    tested p.checks s a = p.refused.elim a fun d => (Reply.refusal .range d, s) := by
  have short : ((1 ≤ p.clipRun ∧ p.clipRun ≤ 3) ∨ 255 < p.clipRun) ↔ 1 ≤ p.clipRun ∧ p.clipRun ≤ 3 := by omega
  unfold Profile.checks Profile.refused
  simp only [short, tested_cons, tested_nil, decide_eq_true_eq]
  split
  · rfl
  · split
    · rfl
    · split
      · rfl
      · split
        · rfl
        · split
          · rfl
          · split
            · rfl
            · rfl

theorem writeProfile_eq (n : Fin 8) (p : Profile) (s : State) :
    writeProfile n p s =
      { s with
        guard :=
          { s.guard with
            profiles := s.guard.profiles.set n p
            outputs :=
              (s.guard.adjustWhere (fun c => profileInForce s.changer.state s.scenes c = n) fun _ => p).outputs } } := by
  unfold writeProfile Guard.adjustWhere
  rfl

theorem writeProfileOwner_tested (o : Order) (s : State) :
    writeProfileOwner o s =
      tested
        ((decide (7 < bitsAt (bodyWord o 1) 31 24), Reply.refusal .range 0) :: (profileField o).checks) s
        (Reply.done 0, writeProfile (Fin.ofNat 8 (bitsAt (bodyWord o 1) 31 24)) (profileField o) s) := by
  have short : (profileField o).clipRun ≤ 255 := Nat.le_of_lt_succ (bitsAt_lt (bodyWord o 1) 7 0)
  rw [tested_cons, Profile.checks_tested short]
  unfold writeProfileOwner
  by_cases number : 7 < bitsAt (bodyWord o 1) 31 24
  · rw [index?_none number, if_pos (decide_eq_true number)]
    rfl
  · have inRange : (Fin.ofNat 8 (bitsAt (bodyWord o 1) 31 24)).val = bitsAt (bodyWord o 1) 31 24 :=
      Nat.mod_eq_of_lt (by omega)
    rw [index?_some inRange, if_neg (by simpa using number)]
    cases (profileField o).refused with
    | none => rfl
    | some d => rfl

/-- Settles O32. -/
theorem profilesGovernByRoleAndAreReplaced : Obligations.ProfilesGovernByRoleAndAreReplaced := by
  refine ⟨fun s c isB b => ⟨profileInForce_steadyOrArmed c, profileInForce_fading c⟩, fun o s hd => ?_⟩
  obtain ⟨refused, taken⟩ := orderCommand_tested (owner := writeProfileOwner) hd (writeProfileOwner_tested o _)
  refine ⟨refused, fun passing n hn => ?_⟩
  have number : Fin.ofNat 8 (bitsAt (bodyWord o 1) 31 24) = n :=
    Fin.ext ((congrArg (· % 8) hn.symm).trans (Nat.mod_eq_of_lt n.isLt))
  refine ⟨(s.guard.adjustWhere (fun c => profileInForce s.changer.state s.scenes c = n) fun _ => profileField o).outputs,
    fun c => ?_, ?_⟩
  · rw [adjustWhere_record, adjust_eq]
    simp only [decide_eq_true_eq]
    rfl
  · refine (taken passing).trans ?_
    rw [number, writeProfile_eq]
    rfl

/-- Settles O33. -/
theorem readProfileReturnsSixFields : Obligations.ReadProfileReturnsSixFields := by
  intro o s hd
  refine ⟨fun big => ?_, fun n hn => ?_⟩
  · refine orderCommand_answers (owner := readProfileOwner) hd ?_
    unfold readProfileOwner
    rw [index?_none big]
    rfl
  · refine orderCommand_answers (owner := readProfileOwner) hd ?_
    unfold readProfileOwner
    rw [index?_some hn]
    rfl

/-! ### READ-GUARD and RELEASE -/

section

variable {o : Order} (s : State)

theorem readGuardOwner_beyond (h : 31 < bitsAt (bodyWord o 1) 15 8) :
    readGuardOwner o s = (Reply.refusal .range 0, s) := by
  unfold readGuardOwner
  rw [index?_none h]
  rfl

theorem readGuardOwner_within {first : Output} (h : first.val = bitsAt (bodyWord o 1) 15 8) :
    readGuardOwner o s =
      if bitsAt (bodyWord o 1) 7 0 = 0 ∨ 8 < bitsAt (bodyWord o 1) 7 0 then (Reply.refusal .range 1, s)
      else
        reads
          (word s.guard.blockCount ::
            (outputsFrom first (bitsAt (bodyWord o 1) 7 0)).flatMap fun c =>
              (s.guard.outputs[c]).words c (profileInForce s.changer.state s.scenes c)) s := by
  unfold readGuardOwner
  rw [index?_some h]
  rfl

theorem releaseOwner_beyond (h : 31 < bitsAt (bodyWord o 1) 7 0) : releaseOwner o s = (Reply.refusal .range 0, s) := by
  unfold releaseOwner
  rw [index?_none h]
  rfl

theorem releaseOwner_within {c : Output} (h : c.val = bitsAt (bodyWord o 1) 7 0) :
    releaseOwner o s =
      if (s.guard.outputs[c]).state = .muted then done (inForce s c).maxSteps (releaseOutput c s)
      else (Reply.refusal .state (s.guard.outputs[c]).state.code, s) := by
  unfold releaseOwner
  rw [index?_some h]
  rfl

theorem releaseOutput_eq (c : Output) :
    releaseOutput c s =
      { s with
        guard :=
          { s.guard with
            outputs :=
              s.guard.outputs.set c
                { s.guard.outputs[c] with
                  state := .trimmed, cause := none, trim := (inForce s c).maxSteps, strain := 0, recovery := 0
                  clip := 0, peak := 0 } }
        period :=
          s.period.map fun p =>
            { p with clipDue := p.clipDue.filter fun d => decide (d ≠ c), released := c :: p.released } } := by
  have kept (p : Period) : (p.clipDue.filter fun d => d != c) = p.clipDue.filter fun d => decide (d ≠ c) :=
    List.filter_congr fun d _ => by simp [bne, beq_eq_decide]
  unfold releaseOutput
  simp only [kept]
  rfl

end

theorem guardWords_eq (c : Output) (n : Fin 8) (g : GuardRec) :
    g.words c n =
      [ word (n.val * 2 ^ 29 + c.val * 2 ^ 24 + g.peak),
        word ((match g.cause with
          | none => 0
          | some .strain => 1
          | some .clip => 2) * 2 ^ 30 + g.state.code * 2 ^ 28 + g.strain * 2 ^ 16 + g.recovery),
        word (g.trim * 2 ^ 16 + g.clip * 2 ^ 8 + g.ramp) ] := by
  unfold GuardRec.words muteCauseCode
  rfl

/-- Settles O34. -/
theorem guardRecordsAreReadAndReleased : Obligations.GuardRecordsAreReadAndReleased := by
  refine ⟨fun o s hd => ?_, fun o s hd => ⟨fun big => ?_, fun c hc => ⟨fun h => ?_, fun h => ?_⟩⟩⟩
  · refine ⟨fun big => orderCommand_answers (owner := readGuardOwner) hd (readGuardOwner_beyond _ big),
      fun within wrong => ?_, fun within some_ most => ?_⟩
    · exact orderCommand_answers (owner := readGuardOwner) hd
        ((readGuardOwner_within _ (first := ⟨_, Nat.lt_succ_of_le within⟩) rfl).trans (if_pos wrong))
    · refine orderCommand_answers (owner := readGuardOwner) hd
        ((readGuardOwner_within _ (first := ⟨_, Nat.lt_succ_of_le within⟩) rfl).trans ((if_neg (by omega)).trans ?_))
      rw [outputsFrom_eq _ _ most]
      rfl
  · exact orderCommand_answers (owner := releaseOwner) hd (releaseOwner_beyond _ big)
  · exact orderCommand_answers (owner := releaseOwner) hd ((releaseOwner_within _ hc).trans (if_neg h))
  · refine orderCommand_answers (owner := releaseOwner) hd ((releaseOwner_within _ hc).trans ((if_pos h).trans ?_))
    rw [releaseOutput_eq]
    rfl

end Sys2Proof.Machine
end

section
/-! SUPPORT. The orders of section 5 EVENTS that read and clear, and of section 6 CHECKS (R19, R22, R133 to R136, R140 to
R145, R174). -/

namespace Sys2Proof.Machine

/-! ### Clearing flags (R133, R136, R141) -/

theorem and_mask_ne_zero (x : BitVec 17) (f : Flag) : x &&& f.mask ≠ 0 ↔ x.getLsbD f.number = true := by
  have mask : f.mask = BitVec.twoPow 17 f.number := rfl
  rw [mask, BitVec.and_twoPow]
  by_cases named : x.getLsbD f.number = true
  · rw [if_pos named, ← mask]
    exact iff_of_true f.mask_ne_zero named
  · rw [if_neg named]
    exact iff_of_false (fun h => h rfl) named

theorem and_guardMask_ne_zero (x : BitVec 17) :
    x &&& guardMask ≠ 0 ↔ (x.getLsbD 7 || x.getLsbD 8 || x.getLsbD 9) = true := by
  have step := and_mask_ne_zero x .guardStep
  have mute := and_mask_ne_zero x .guardMute
  have release := and_mask_ne_zero x .guardRelease
  unfold guardMask
  have zero (a b c : BitVec 17) : a ||| b ||| c ≠ 0 ↔ (a ≠ 0 ∨ b ≠ 0) ∨ c ≠ 0 := by
    rw [← not_and_or, ← not_and_or]
    exact not_congr (BitVec.or_eq_zero_iff.trans (and_congr_left' BitVec.or_eq_zero_iff))
  rw [BitVec.and_or_distrib_left, BitVec.and_or_distrib_left, Bool.or_eq_true, Bool.or_eq_true, zero]
  exact or_congr (or_congr step mute) release

theorem clear_flags (e : Events) (selection : BitVec 17) {k : Nat} (h : k < 17) :
    (e.clear selection).flags.getLsbD k = (e.flags.getLsbD k && !selection.getLsbD k) := by
  show (e.flags &&& ~~~(e.flags &&& selection)).getLsbD k = _
  rw [BitVec.getLsbD_and, BitVec.getLsbD_not, BitVec.getLsbD_and, decide_eq_true h]
  cases e.flags.getLsbD k with
  | false => rfl
  | true => rfl

theorem clear_details (e : Events) (selection : BitVec 17) :
    (e.clear selection).guardOutputs =
        (if (selection.getLsbD 7 || selection.getLsbD 8 || selection.getLsbD 9) = true then 0 else e.guardOutputs) ∧
      (e.clear selection).readyLines = (if selection.getLsbD 10 = true then 0 else e.readyLines) ∧
      (e.clear selection).faultedLines = (if selection.getLsbD 11 = true then 0 else e.faultedLines) ∧
      (e.clear selection).groupRefused = (if selection.getLsbD 16 = true then none else e.groupRefused) ∧
      (e.clear selection).commitDetail = if selection.getLsbD 5 = true then .none else e.commitDetail :=
  ⟨if_congr (and_guardMask_ne_zero selection) rfl rfl, if_congr (and_mask_ne_zero selection .lineReady) rfl rfl,
    if_congr (and_mask_ne_zero selection .lineFault) rfl rfl,
    if_congr (and_mask_ne_zero selection .groupRefused) rfl rfl,
    if_congr (and_mask_ne_zero selection .commitDone) rfl rfl⟩

/-! ### READ-EVENTS, READ-AND-CLEAR, CLEAR-EVENTS -/

theorem extractLsb'_low (x : BitVec 64) : x.setWidth 32 = x.extractLsb' 0 32 := by
  ext i hi
  simp

theorem extractLsb'_high (x : BitVec 64) : (x >>> 32).setWidth 32 = x.extractLsb' 32 32 := by
  ext i hi
  simp

theorem snapshot_eq (e : Events) :
    e.snapshot =
      [ e.flags.setWidth 32, e.guardOutputs, e.readyLines.extractLsb' 0 32, e.readyLines.extractLsb' 32 32,
        e.faultedLines.extractLsb' 0 32, e.faultedLines.extractLsb' 32 32, groupRefusedWord e.groupRefused,
        word e.commitDetail.code ] := by
  unfold Events.snapshot
  simp only [extractLsb'_high]
  simp only [extractLsb'_low]

/-- Settles O35. -/
theorem eventsAreReadAndCleared : Obligations.EventsAreReadAndCleared := by
  refine ⟨fun e selection => ⟨fun k h => clear_flags e selection h, rfl, rfl, rfl, rfl, rfl, clear_details e selection⟩,
    fun o s => ?_⟩
  extract_lets e refused commit snapshot words
  have refused_eq : groupRefusedWord e.groupRefused = refused := by
    unfold groupRefusedWord
    rfl
  have commit_eq : word e.commitDetail.code = commit := by
    unfold commit
    cases e.commitDetail with
    | none => rfl
    | notReverted => rfl
    | reverted => rfl
  have words_eq : eventWords s.events = words := by
    unfold eventWords
    rw [snapshot_eq, refused_eq, commit_eq]
  refine ⟨fun hd => ?_, fun hd => ?_, answers_taken (owner := clearEventsOwner) rfl rfl rfl fun _ => rfl⟩
  · rw [← words_eq]
    exact orderCommand_direct readEventsOwner hd
  · rw [← words_eq]
    exact orderCommand_direct readAndClearOwner hd

/-! ### The check recorder (R143, R144) -/

theorem recordCheck_eq (s : State) (c : Check) :
    recordCheck s c =
      if s.checks.mode.reports c.kind = true then
        raise .memoryCheck
          { s with
            checks :=
              { s.checks with
                seen := s.checks.seen ||| 1#3 <<< c.kind.rank
                record :=
                  s.checks.record.elim (some c) fun old => if c.kind.rank < old.kind.rank then some old else some c } }
      else
        { s with
          checks :=
            { s.checks with
              seen := s.checks.seen ||| 1#3 <<< c.kind.rank
              record :=
                s.checks.record.elim (some c) fun old => if c.kind.rank < old.kind.rank then some old else some c } } := by
  have record :
      (s.checks.take c).record =
        s.checks.record.elim (some c) fun old => if c.kind.rank < old.kind.rank then some old else some c := by
    unfold Checks.take
    cases s.checks.record with
    | none => rfl
    | some old =>
      show (if old.kind.rank ≤ c.kind.rank then some c else some old) = if c.kind.rank < old.kind.rank then some old else some c
      by_cases h : c.kind.rank < old.kind.rank
      · rw [if_pos h, if_neg (Nat.not_le.mpr h)]
      · rw [if_neg h, if_pos (Nat.not_lt.mp h)]
  rw [← record]
  rfl

theorem recordChecks_turned (cs : List Check) (s : State) :
    ∃ turn fresh : Nat, recordChecks cs s = (cs.rotate turn).foldl recordCheck { s with fresh } := by
  unfold recordChecks
  split
  · exact ⟨0, s.fresh, by rw [List.rotate_zero]⟩
  · exact ⟨_, _, rfl⟩

/-! ### Reading checks and marks -/

theorem packHalves_eq (l : List Nat) :
    packHalves l =
      (List.range ((l.length + 1) / 2)).map fun k => word (l.getD (2 * k) 0 * 2 ^ 16 + l.getD (2 * k + 1) 0) := by
  induction l using packHalves.induct with
  | case1 a b rest ih =>
    have length : ((a :: b :: rest).length + 1) / 2 = (rest.length + 1) / 2 + 1 := by
      simp only [List.length_cons]
      omega
    rw [packHalves, ih, length, List.range_succ_eq_map, List.map_cons, List.map_map]
    rfl
  | case2 a => simp [packHalves]
  | case3 => rfl

theorem readBadBlocks_words (m : MemCtl) (start : Nat) :
    badBlockWords m start =
      [ word m.badBlocks.length, word (m.sweep.outcome.code * 2 ^ 24 + m.sweep.rank.val * 2 ^ 16 + m.sweep.block),
        word m.sweep.added ] ++
        (List.range ((((m.badBlocks.drop start).take 32).length + 1) / 2)).map fun k =>
          word (((m.badBlocks.drop start).take 32).getD (2 * k) 0 * 2 ^ 16 +
            ((m.badBlocks.drop start).take 32).getD (2 * k + 1) 0) := by
  unfold badBlockWords
  rw [packHalves_eq]

theorem modeOf_code (m : ReportingMode) : modeOf m.code = some m := by
  cases m with
  | none => rfl
  | uncorrectedOnly => rfl
  | serious => rfl
  | all => rfl

theorem modeOf_none {n : Nat} (h : 3 < n) : modeOf n = none := by
  match n, h with
  | _ + 4, _ => rfl

section

variable {o : Order} {s : State}

theorem writeModeOwner_refused (h : 3 < bitsAt (bodyWord o 1) 7 0) :
    writeModeOwner o s = (Reply.refusal .range 0, s) := by
  unfold writeModeOwner
  rw [modeOf_none h]
  rfl

theorem writeModeOwner_taken {mode : ReportingMode} (h : mode.code = bitsAt (bodyWord o 1) 7 0) :
    writeModeOwner o s = (Reply.done s.checks.mode.code, { s with checks := { s.checks with mode } }) := by
  unfold writeModeOwner
  rw [← h, modeOf_code]
  rfl

end

/-- Settles O37. -/
theorem checksAndMarksAreRead : Obligations.ChecksAndMarksAreRead := by
  refine ⟨fun s c => ?_, recordChecks_turned, fun o s => ?_, fun o s hd => ?_⟩
  · extract_lets code reported record t
    have code_eq (k : CheckKind) : k.rank = code k := by cases k <;> rfl
    have reported_eq : s.checks.mode.reports c.kind = reported := by
      unfold reported
      cases s.checks.mode <;> rfl
    have record_eq :
        (s.checks.record.elim (some c) fun old => if c.kind.rank < old.kind.rank then some old else some c) = record := by
      unfold record
      simp only [code_eq]
      cases s.checks.record with
      | none => rfl
      | some old => rfl
    rw [recordCheck_eq, record_eq, reported_eq, code_eq]
  · extract_lets k m record
    have record_eq : checkWords s.checks.record = record := by
      unfold checkWords record
      cases s.checks.record with
      | none => rfl
      | some c =>
        obtain ⟨kind⟩ := c
        cases kind with
        | corrected => rfl
        | uncorrected => rfl
        | absent => rfl
    refine ⟨fun hd => ?_, fun hd => orderCommand_direct clearCheckOwner hd, fun hd =>
      ⟨fun h => orderCommand_answers (owner := writeModeOwner) hd (writeModeOwner_refused h),
        fun mode h => orderCommand_answers (owner := writeModeOwner) hd (writeModeOwner_taken h)⟩⟩
    rw [← presentBlocks_eq, ← record_eq]
    exact orderCommand_direct readCheckOwner hd
  · dsimp only
    rw [← readBadBlocks_words]
    exact orderCommand_direct readBadBlocksOwner hd

end Sys2Proof.Machine
end

section
/-! SUPPORT. SET-UP, ARM, CAPTURE-TRIGGER and STOP of section 7 CAPTURE (R147, R150, R152, R154, R155). -/

namespace Sys2Proof.Machine

theorem tested_append (tests more : List (Bool × Reply)) (s : State) (a : Reply × State) :
    tested (tests ++ more) s a = tested tests s (tested more s a) := by
  induction tests with
  | nil => rfl
  | cons t tests ih => rw [List.cons_append, tested_cons, tested_cons, ih]

/-! ### The fields of SET-UP (R147, R173) -/

/-- A field read or its check failed, as an owner answers it. -/
def fieldOr {α : Type} (s : State) (a : Reply × State) (x : Nat ⊕ α) : Reply × State :=
  x.elim (fun d => (Reply.refusal .range d, s)) fun _ => a

theorem sourceField_code (x : Source) : sourceField x.code.1 x.code.2 = .inr x := by
  cases x with
  | input c =>
    show sourceField 0 c.val = _
    unfold sourceField
    rw [index?_some rfl]
    rfl
  | line n =>
    show sourceField 1 n.val = _
    unfold sourceField
    rw [index?_some rfl]
    rfl
  | output c =>
    show sourceField 2 c.val = _
    unfold sourceField
    rw [index?_some rfl]
    rfl

theorem sourceField_kind {kind number : Nat} (h : 2 < kind) : sourceField kind number = .inl 0 := by
  match kind, h with
  | _ + 3, _ => rfl

theorem sourceField_number {kind number : Nat} (hk : kind ≤ 2) (h : [24, 64, 32].getD kind 0 ≤ number) :
    sourceField kind number = .inl 1 := by
  unfold sourceField
  interval_cases kind
  · rw [index?_none (n := 24) h]
    rfl
  · rw [index?_none (n := 64) h]
    rfl
  · rw [index?_none (n := 32) h]
    rfl

theorem sourceField_some {kind number : Nat} (hk : kind ≤ 2) (h : number < [24, 64, 32].getD kind 0) :
    ∃ x, sourceField kind number = .inr x := by
  interval_cases kind
  · exact ⟨_, sourceField_code (.input ⟨number, h⟩)⟩
  · exact ⟨_, sourceField_code (.line ⟨number, h⟩)⟩
  · exact ⟨_, sourceField_code (.output ⟨number, h⟩)⟩

theorem source_tested (kind number : Nat) (s : State) (a : Reply × State) :
    tested
        [ (decide (2 < kind), Reply.refusal .range 0),
          (decide ([24, 64, 32].getD kind 0 ≤ number), Reply.refusal .range 1) ] s a =
      fieldOr s a (sourceField kind number) := by
  simp only [tested_cons, tested_nil, decide_eq_true_eq]
  split
  · next kind_ =>
    rw [sourceField_kind kind_]
    rfl
  · next kind_ =>
    split
    · next number_ =>
      rw [sourceField_number (Nat.not_lt.mp kind_) number_]
      rfl
    · next number_ =>
      obtain ⟨x, hx⟩ := sourceField_some (Nat.not_lt.mp kind_) (Nat.not_le.mp number_)
      rw [hx]
      rfl

theorem captureModeOf_code (m : CaptureMode) : captureModeOf m.code = some m := by
  cases m with
  | startOnTrigger => rfl
  | stopOnTrigger => rfl

theorem captureModeOf_none {n : Nat} (h : 1 < n) : captureModeOf n = none := by
  match n, h with
  | _ + 2, _ => rfl

theorem captureMode_code_of_le {n : Nat} (h : n ≤ 1) : ∃ m : CaptureMode, m.code = n := by
  interval_cases n
  · exact ⟨.startOnTrigger, rfl⟩
  · exact ⟨.stopOnTrigger, rfl⟩

theorem extentOk_eq_false (m : CaptureMode) (extent : Nat) :
    m.extentOk extent = false ↔ (m.code = 0 ∧ (extent = 0 ∨ 8192 < extent)) ∨ (m.code = 1 ∧ 8191 < extent) := by
  cases m with
  | startOnTrigger =>
    simp only [CaptureMode.extentOk, CaptureMode.code, Bool.and_eq_false_iff, decide_eq_false_iff_not, true_and,
      Nat.zero_ne_one, false_and, or_false]
    omega
  | stopOnTrigger =>
    simp only [CaptureMode.extentOk, CaptureMode.code, decide_eq_false_iff_not, true_and, Nat.one_ne_zero, false_and,
      false_or]
    omega

theorem triggerField_code (t : Trigger) : triggerField t.code.1 t.code.2 = .inr t := by
  cases t with
  | manual => rfl
  | guardStep c =>
    show triggerField 1 c.val = _
    unfold triggerField
    rw [index?_some rfl]
    rfl
  | guardMute c =>
    show triggerField 2 c.val = _
    unfold triggerField
    rw [index?_some rfl]
    rfl
  | anyGuard => rfl
  | sequence q => exact congrArg (fun x => Sum.inr (Trigger.sequence x)) (BitVec.ofNat_toNat 16 q |>.trans (by simp))
  | linkFault => rfl

theorem triggerField_kind {kind arg : Nat} (h : 5 < kind) : triggerField kind arg = .inl 4 := by
  match kind, h with
  | _ + 6, _ => rfl

theorem triggerField_arg {kind arg : Nat} (hk : kind = 1 ∨ kind = 2) (h : 31 < arg) : triggerField kind arg = .inl 5 := by
  obtain rfl | rfl := hk
  · unfold triggerField
    rw [index?_none h]
    rfl
  · unfold triggerField
    rw [index?_none h]
    rfl

theorem triggerField_some {kind arg : Nat} (hk : kind ≤ 5) (h : ¬((kind = 1 ∨ kind = 2) ∧ 31 < arg)) :
    ∃ t, triggerField kind arg = .inr t := by
  interval_cases kind
  · exact ⟨_, rfl⟩
  · exact ⟨_, triggerField_code (.guardStep ⟨arg, by omega⟩)⟩
  · exact ⟨_, triggerField_code (.guardMute ⟨arg, by omega⟩)⟩
  · exact ⟨_, rfl⟩
  · exact ⟨_, rfl⟩
  · exact ⟨_, rfl⟩

theorem trigger_tested (kind arg : Nat) (s : State) (a : Reply × State) :
    tested
        [ (decide (5 < kind), Reply.refusal .range 4),
          (decide ((kind = 1 ∨ kind = 2) ∧ 31 < arg), Reply.refusal .range 5) ] s a =
      fieldOr s a (triggerField kind arg) := by
  simp only [tested_cons, tested_nil, decide_eq_true_eq]
  split
  · next kind_ =>
    rw [triggerField_kind kind_]
    rfl
  · next kind_ =>
    split
    · next arg_ =>
      rw [triggerField_arg arg_.1 arg_.2]
      rfl
    · next arg_ =>
      obtain ⟨t, ht⟩ := triggerField_some (Nat.not_lt.mp kind_) arg_
      rw [ht]
      rfl

/-! ### SET-UP -/

/-- The tests of SET-UP on its fields, in their order (R147). -/
def setUpTests (o : Order) : List (Bool × Reply) :=
  [ (decide (2 < bitsAt (bodyWord o 1) 31 24), Reply.refusal .range 0),
    (decide ([24, 64, 32].getD (bitsAt (bodyWord o 1) 31 24) 0 ≤ bitsAt (bodyWord o 1) 23 16), Reply.refusal .range 1),
    (decide (1 < bitsAt (bodyWord o 1) 15 8), Reply.refusal .range 2),
    (decide
        ((bitsAt (bodyWord o 1) 15 8 = 0 ∧ (bitsAt (bodyWord o 2) 15 0 = 0 ∨ 8192 < bitsAt (bodyWord o 2) 15 0)) ∨
          (bitsAt (bodyWord o 1) 15 8 = 1 ∧ 8191 < bitsAt (bodyWord o 2) 15 0)),
      Reply.refusal .range 3),
    (decide (5 < bitsAt (bodyWord o 1) 7 0), Reply.refusal .range 4),
    (decide ((bitsAt (bodyWord o 1) 7 0 = 1 ∨ bitsAt (bodyWord o 1) 7 0 = 2) ∧ 31 < bitsAt (bodyWord o 3) 15 0),
      Reply.refusal .range 5) ]

theorem setUp_tested (o : Order) (s : State) (a : Reply × State) :
    tested (setUpTests o) s a = fieldOr s a (setUpField o) := by
  have cut : setUpTests o = [_, _] ++ ([_, _] ++ [_, _]) := rfl
  rw [cut, tested_append, tested_append, source_tested, trigger_tested]
  unfold setUpField
  simp only [tested_cons, tested_nil, decide_eq_true_eq]
  cases sourceField (bitsAt (bodyWord o 1) 31 24) (bitsAt (bodyWord o 1) 23 16) with
  | inl d => rfl
  | inr x =>
    by_cases mode : 1 < bitsAt (bodyWord o 1) 15 8
    · rw [if_pos mode, captureModeOf_none mode]
      rfl
    · obtain ⟨m, hm⟩ := captureMode_code_of_le (Nat.not_lt.mp mode)
      rw [if_neg mode, ← hm, captureModeOf_code]
      simp only [← extentOk_eq_false]
      by_cases extent : m.extentOk (bitsAt (bodyWord o 2) 15 0) = false
      · simp only [if_pos extent]
        rfl
      · simp only [if_neg extent]
        cases triggerField (bitsAt (bodyWord o 1) 7 0) (bitsAt (bodyWord o 3) 15 0) with
        | inl d => rfl
        | inr t => rfl

theorem busy_eq (c : CaptureState) : c.busy = (c == .waiting || c == .rolling || c == .post) := by
  cases c with
  | idle => rfl
  | waiting => rfl
  | rolling => rfl
  | post => rfl
  | done => rfl

theorem setUpOwner_tested (o : Order) (s : State) :
    setUpOwner o s =
      tested ((s.capture.state.busy, Reply.refusal .busy s.capture.state.code) :: setUpTests o) s
        ((setUpField o).elim (fun _ => (Reply.done 0, s)) fun u =>
          (Reply.done 0, { s with capture := { s.capture with setUp := u } })) := by
  rw [tested_cons, setUp_tested]
  unfold setUpOwner
  cases s.capture.state.busy with
  | true => rfl
  | false =>
    cases setUpField o with
    | inl d => rfl
    | inr u => rfl

/-- The fields that the order carries, each by its code, make the set-up where its extent passes. -/
theorem setUpField_some {o : Order} {source : Source} {mode : CaptureMode} {trigger : Trigger}
    (hs : source.code = (bitsAt (bodyWord o 1) 31 24, bitsAt (bodyWord o 1) 23 16))
    (hm : mode.code = bitsAt (bodyWord o 1) 15 8) (he : mode.extentOk (bitsAt (bodyWord o 2) 15 0) ≠ false)
    (ht : triggerField (bitsAt (bodyWord o 1) 7 0) (bitsAt (bodyWord o 3) 15 0) = .inr trigger) :
    setUpField o = .inr { source, mode, extent := bitsAt (bodyWord o 2) 15 0, trigger } := by
  have hs' := sourceField_code source
  rw [hs] at hs'
  unfold setUpField
  simp only [hs', ← hm, captureModeOf_code, if_neg he, ht]

/-- Settles O38. -/
theorem setUpReplacesTheSetUp : Obligations.SetUpReplacesTheSetUp := by
  refine ⟨⟨rfl, rfl⟩, fun o s hd => ?_⟩
  extract_lets u kind number mode trigger extent arg busy tests
  have tests_eq : tests = (s.capture.state.busy, Reply.refusal .busy s.capture.state.code) :: setUpTests o := by
    rw [busy_eq]
    rfl
  have owner := setUpOwner_tested o u
  refine ⟨fun r failing => ?_, fun passing source m t hs hm ht => ?_⟩
  · rw [tests_eq] at failing
    exact orderCommand_answers (owner := setUpOwner) hd (owner.trans (tested_failing failing _))
  · rw [tests_eq] at passing
    have source_ : source.code = (kind, number) := by
      cases source with
      | input c => exact Prod.ext hs.1.symm hs.2
      | line n => exact Prod.ext hs.1.symm hs.2
      | output c => exact Prod.ext hs.1.symm hs.2
    have mode_ : m.code = mode := by
      cases m with
      | startOnTrigger => exact hm.symm
      | stopOnTrigger => exact hm.symm
    have extent_ : m.extentOk extent ≠ false := by
      have passed := firstFailing_none passing (List.mem_of_getElem? (i := 4) rfl)
      rw [Ne, extentOk_eq_false, mode_]
      simpa using passed
    have trigger_ : triggerField trigger arg = .inr t := by
      cases t with
      | manual =>
        rw [ht]
        rfl
      | guardStep c =>
        rw [ht.1, ← ht.2]
        exact triggerField_code (.guardStep c)
      | guardMute c =>
        rw [ht.1, ← ht.2]
        exact triggerField_code (.guardMute c)
      | anyGuard =>
        rw [ht]
        rfl
      | sequence q =>
        rw [ht.1, ← ht.2]
        exact triggerField_code (.sequence q)
      | linkFault =>
        rw [ht]
        rfl
    refine orderCommand_answers (owner := setUpOwner) hd (owner.trans ((tested_passing passing _).trans ?_))
    rw [setUpField_some source_ mode_ extent_ trigger_]
    rfl

/-! ### ARM, CAPTURE-TRIGGER, STOP -/

theorem busy_iff (c : CaptureState) : c.busy = true ↔ c = .waiting ∨ c = .rolling ∨ c = .post := by
  rw [busy_eq]
  simp only [Bool.or_eq_true, beq_iff_eq, or_assoc]

theorem armed_eq (m : CaptureMode) : m.armed = if m = .startOnTrigger then .waiting else .rolling := by
  cases m with
  | startOnTrigger => rfl
  | stopOnTrigger => rfl

theorem armed_code (m : CaptureMode) : m.armed.code = if m = .startOnTrigger then 1 else 2 := by
  cases m with
  | startOnTrigger => rfl
  | stopOnTrigger => rfl

theorem take_waitingOrRolling {c : Capture} (h : c.state = .waiting ∨ c.state = .rolling) (q : Seq) :
    c.take q =
      { c with
        state := .post
        remaining := if c.state = .waiting then c.setUp.extent else c.setUp.extent + 1
        record := { c.record with triggerIndex := some c.writeIndex, triggerSeq := some q } } := by
  unfold Capture.take
  obtain h | h := h
  · simp [h]
  · simp [h]

theorem engineRuns_eq (n : NodeState) : engineRuns n = (n == .standby || n == .run || n == .silent) := by
  cases n with
  | sizing => rfl
  | standby => rfl
  | run => rfl
  | silent => rfl
  | sweep => rfl

theorem untriggered_iff (c : Capture) :
    c.untriggered = true ↔
      c.remaining = if c.setUp.mode = .startOnTrigger then c.setUp.extent else c.setUp.extent + 1 := by
  unfold Capture.untriggered SetUp.fullCount
  rw [decide_eq_true_eq]
  cases c.setUp.mode with
  | startOnTrigger => rfl
  | stopOnTrigger => rfl

theorem periodProcessed_eq (s : State) :
    periodProcessed s =
      match s.period with
      | some p => p.processed
      | none => s.node.state == .standby || s.node.state == .run || s.node.state == .silent := by
  unfold periodProcessed
  cases s.period with
  | none => exact engineRuns_eq s.node.state
  | some p => rfl

theorem periodSeq_eq (s : State) :
    periodSeq s =
      match s.period with
      | some p => p.seq
      | none => s.link.expected := by
  unfold periodSeq
  cases s.period with
  | none => rfl
  | some p => rfl

section

variable (o : Order) {s : State}

theorem captureTriggerOwner_state (h : s.capture.state = .idle ∨ s.capture.state = .post ∨ s.capture.state = .done) :
    captureTriggerOwner o s = (Reply.refusal .state s.capture.state.code, s) := by
  refine if_neg ?_
  obtain h | h | h := h
  · simp [h]
  · simp [h]
  · simp [h]

theorem captureTriggerOwner_taking (h : s.capture.state = .waiting ∨ s.capture.state = .rolling) :
    captureTriggerOwner o s =
      if periodProcessed s = true then (Reply.done s.capture.writeIndex, { s with capture := s.capture.take (periodSeq s) })
      else (Reply.refusal .state 5, s) := if_pos h

theorem captureStopOwner_refused (h : s.capture.state = .idle ∨ s.capture.state = .done) :
    captureStopOwner o s = (Reply.refusal .state s.capture.state.code, s) := by
  unfold captureStopOwner
  obtain h | h := h
  · rw [h]
    rfl
  · rw [h]
    rfl

theorem captureStopOwner_waiting (h : s.capture.state = .waiting) :
    captureStopOwner o s = (Reply.done 0, { s with capture := { s.capture with state := .idle } }) := by
  unfold captureStopOwner Capture.stop
  rw [h]
  rfl

theorem captureStopOwner_rolling (h : s.capture.state = .rolling) :
    captureStopOwner o s =
      (Reply.done s.capture.record.held,
        { s with
          capture :=
            { s.capture with
              state := .done
              record := { s.capture.record with endIndex := some s.capture.writeIndex, endCause := some .stop } } }) := by
  unfold captureStopOwner Capture.stop
  rw [h]
  rfl

theorem captureStopOwner_written (h : s.capture.state = .post)
    (written : s.capture.remaining ≠
      if s.capture.setUp.mode = .startOnTrigger then s.capture.setUp.extent else s.capture.setUp.extent + 1) :
    captureStopOwner o s =
      (Reply.done s.capture.record.held,
        { s with
          capture :=
            { s.capture with
              state := .done
              record := { s.capture.record with endIndex := some s.capture.writeIndex, endCause := some .stop } } }) := by
  have triggered : s.capture.untriggered = false := Bool.eq_false_iff.mpr fun h => written ((untriggered_iff _).mp h)
  unfold captureStopOwner Capture.stop
  rw [h, triggered]
  rfl

theorem captureStopOwner_unwritten (h : s.capture.state = .post)
    (unwritten : s.capture.remaining =
      if s.capture.setUp.mode = .startOnTrigger then s.capture.setUp.extent else s.capture.setUp.extent + 1) :
    captureStopOwner o s =
      (Reply.done s.capture.record.held,
        { s with
          capture :=
            { s.capture with
              state := .done
              record :=
                { s.capture.record with
                  triggerIndex := none, triggerSeq := none, endIndex := some s.capture.writeIndex
                  endCause := some .stop } } }) := by
  have untriggered : s.capture.untriggered = true := (untriggered_iff _).mpr unwritten
  unfold captureStopOwner Capture.stop
  rw [h, untriggered]
  rfl

end

/-- Settles O39. -/
theorem capturesAreArmedTriggeredAndStopped : Obligations.CapturesAreArmedTriggeredAndStopped := by
  intro o s
  refine ⟨fun hd => ⟨fun busy => ?_, fun idle => ?_⟩, fun h => ?_, fun h => ⟨fun hp => ?_, fun hp => ?_⟩,
    fun hd => ⟨fun h => ?_, fun h => ?_, fun h => ?_, fun h written => ?_, fun h unwritten => ?_⟩⟩
  · exact orderCommand_answers (owner := armOwner) hd (if_pos ((busy_iff s.capture.state).mpr busy))
  · rw [← armed_eq, ← armed_code]
    exact orderCommand_answers (owner := armOwner) hd (if_neg fun busy => idle ((busy_iff s.capture.state).mp busy))
  · exact answers_refused (owner := captureTriggerOwner) rfl rfl rfl fun d =>
      captureTriggerOwner_state o (s := { s with decoder := d }) h
  · have unprocessed : periodProcessed s = false := (periodProcessed_eq s).trans hp
    refine answers_refused (owner := captureTriggerOwner) rfl rfl rfl fun d =>
      (captureTriggerOwner_taking o (s := { s with decoder := d }) h).trans (if_neg ?_)
    exact ne_true_of_eq_false unprocessed
  · have processed : periodProcessed s = true := (periodProcessed_eq s).trans hp
    refine answers_taken (owner := captureTriggerOwner) rfl rfl rfl fun d =>
      (captureTriggerOwner_taking o (s := { s with decoder := d }) h).trans ((if_pos ?_).trans ?_)
    · exact processed
    · rw [take_waitingOrRolling (c := s.capture) h]
      rw [periodSeq_eq] <;> rfl
  · exact orderCommand_answers (owner := captureStopOwner) hd
      (captureStopOwner_refused o (s := opened Verb.captureStop o s) h)
  · exact orderCommand_answers (owner := captureStopOwner) hd
      (captureStopOwner_waiting o (s := opened Verb.captureStop o s) h)
  · exact orderCommand_answers (owner := captureStopOwner) hd
      (captureStopOwner_rolling o (s := opened Verb.captureStop o s) h)
  · exact orderCommand_answers (owner := captureStopOwner) hd
      (captureStopOwner_written o (s := opened Verb.captureStop o s) h written)
  · exact orderCommand_answers (owner := captureStopOwner) hd
      (captureStopOwner_unwritten o (s := opened Verb.captureStop o s) h (not_not.mp unwritten))

end Sys2Proof.Machine
end

section
/-! SUPPORT. READ-CAPTURE, READ-SAMPLES (R149, R152, R156, R157) with the packing of samples (R174), and the orders of
section 8 LINK (R112). -/

namespace Sys2Proof.Machine

/-! ### Samples as consecutive fields (R174) -/

/-- A bit of a word given by a number in two fields. -/
theorem word_fields_bit {hi lo w j : Nat} (hlo : lo < 2 ^ w) (hj : j < 32) :
    (word (hi * 2 ^ w + lo)).getLsbD j = if j < w then lo.testBit j else hi.testBit (j - w) := by
  unfold word
  rw [BitVec.getLsbD_ofNat, decide_eq_true hj, Bool.true_and, Nat.mul_comm, Nat.testBit_two_pow_mul_add _ hlo]

theorem word_low_bit {hi lo w j : Nat} (hlo : lo < 2 ^ w) (hj : j < 32) (h : j < w) :
    (word (hi * 2 ^ w + lo)).getLsbD j = lo.testBit j := (word_fields_bit hlo hj).trans (if_pos h)

theorem word_high_bit {hi lo w j : Nat} (hlo : lo < 2 ^ w) (hj : j < 32) (h : w ≤ j) :
    (word (hi * 2 ^ w + lo)).getLsbD j = hi.testBit (j - w) := (word_fields_bit hlo hj).trans (if_neg (Nat.not_lt.mpr h))

/-- Four samples in three words. -/
def fourSamples (a b c d : Sample) : List Word :=
  [ word (a.toNat * 2 ^ 8 + b.toNat / 2 ^ 16), word (b.toNat % 2 ^ 16 * 2 ^ 16 + c.toNat / 2 ^ 8),
    word (c.toNat % 2 ^ 8 * 2 ^ 24 + d.toNat) ]

/-- A bit of four samples stands where the consecutive fields put it. -/
theorem fourSamples_bit (a b c d : Sample) {k : Nat} (hk : k < 96) :
    ((fourSamples a b c d).getD (k / 32) 0).getLsbD (31 - k % 32) =
      ([a, b, c, d].getD (k / 24) 0).getLsbD (23 - k % 24) := by
  have hb := b.isLt
  have hc := c.isLt
  have hd := d.isLt
  have mod_testBit (x i j : Nat) (h : j < i) : (x % 2 ^ i).testBit j = x.testBit j := by
    rw [Nat.testBit_mod_two_pow, decide_eq_true h, Bool.true_and]
  have parts : k < 24 ∨ (24 ≤ k ∧ k < 32) ∨ (32 ≤ k ∧ k < 48) ∨ (48 ≤ k ∧ k < 64) ∨ (64 ≤ k ∧ k < 72) ∨ 72 ≤ k := by omega
  obtain h | h | h | h | h | h := parts
  · have hw : k / 32 = 0 := by omega
    have hf : k / 24 = 0 := by omega
    rw [hw, hf]
    refine (word_high_bit (by omega) (by omega) (by omega)).trans (a.testBit_toNat.trans (congrArg a.getLsbD ?_))
    omega
  · have hw : k / 32 = 0 := by omega
    have hf : k / 24 = 1 := by omega
    rw [hw, hf]
    refine (word_low_bit (by omega) (by omega) (by omega)).trans
      ((Nat.testBit_div_two_pow _ _).trans (b.testBit_toNat.trans (congrArg b.getLsbD ?_)))
    omega
  · have hw : k / 32 = 1 := by omega
    have hf : k / 24 = 1 := by omega
    rw [hw, hf]
    refine (word_high_bit (by omega) (by omega) (by omega)).trans
      ((mod_testBit _ _ _ (by omega)).trans (b.testBit_toNat.trans (congrArg b.getLsbD ?_)))
    omega
  · have hw : k / 32 = 1 := by omega
    have hf : k / 24 = 2 := by omega
    rw [hw, hf]
    refine (word_low_bit (by omega) (by omega) (by omega)).trans
      ((Nat.testBit_div_two_pow _ _).trans (c.testBit_toNat.trans (congrArg c.getLsbD ?_)))
    omega
  · have hw : k / 32 = 2 := by omega
    have hf : k / 24 = 2 := by omega
    rw [hw, hf]
    refine (word_high_bit (by omega) (by omega) (by omega)).trans
      ((mod_testBit _ _ _ (by omega)).trans (c.testBit_toNat.trans (congrArg c.getLsbD ?_)))
    omega
  · have hw : k / 32 = 2 := by omega
    have hf : k / 24 = 3 := by omega
    rw [hw, hf]
    refine (word_low_bit (by omega) (by omega) (by omega)).trans (d.testBit_toNat.trans (congrArg d.getLsbD ?_))
    omega

theorem getD_append_zeros (l : List Sample) (n i : Nat) : (l ++ List.replicate n 0).getD i 0 = l.getD i 0 := by
  by_cases h : i < l.length
  · rw [List.getD_append _ _ _ _ h]
  · rw [List.getD_append_right _ _ _ _ (Nat.not_lt.mp h), List.getD_eq_default _ _ (Nat.not_lt.mp h)]
    by_cases hi : i - l.length < n
    · rw [List.getD_eq_getElem _ _ (by simpa using hi), List.getElem_replicate]
    · rw [List.getD_eq_default _ _ (by simpa using hi)]

/-- Fewer than four samples, as four whose last are 0, in the first words of the three. -/
theorem short_bit {l : List Sample} {a b c d : Sample} {ws : List Word} {n m : Nat}
    (hl : l ++ List.replicate n 0 = [a, b, c, d]) (hw : ws = (fourSamples a b c d).take m) (hm : m ≤ 3) {k : Nat}
    (hk : k < 32 * ws.length) :
    (ws.getD (k / 32) 0).getLsbD (31 - k % 32) = (l.getD (k / 24) 0).getLsbD (23 - k % 24) := by
  have length : ws.length = m := by
    rw [hw, List.length_take]
    exact Nat.min_eq_left hm
  have within : k / 32 < m := by omega
  have word_ : ws.getD (k / 32) 0 = (fourSamples a b c d).getD (k / 32) 0 := by
    rw [hw, List.getD_eq_getElem?_getD, List.getElem?_take_of_lt within, ← List.getD_eq_getElem?_getD]
  rw [word_, fourSamples_bit a b c d (by omega), ← hl, getD_append_zeros]

/-- Samples packed are consecutive fields of 24 bits, from bit 31 of the first word on. -/
theorem packSamples_bit (l : List Sample) :
    ∀ k < 32 * (packSamples l).length,
      ((packSamples l).getD (k / 32) 0).getLsbD (31 - k % 32) = (l.getD (k / 24) 0).getLsbD (23 - k % 24) := by
  induction l using packSamples.induct with
  | case1 a b c d rest ih =>
    intro k hk
    have cut : packSamples (a :: b :: c :: d :: rest) = fourSamples a b c d ++ packSamples rest := rfl
    have length : (fourSamples a b c d).length = 3 := rfl
    rw [cut, List.length_append, length] at hk
    rw [cut]
    by_cases first : k < 96
    · have within : k / 32 < (fourSamples a b c d).length := by omega
      have field : k / 24 < [a, b, c, d].length := by
        show k / 24 < 4
        omega
      have split : a :: b :: c :: d :: rest = [a, b, c, d] ++ rest := rfl
      rw [split, List.getD_append _ _ _ _ within, List.getD_append _ _ _ _ field, fourSamples_bit a b c d first]
    · obtain ⟨j, rfl⟩ : ∃ j, k = j + 96 := ⟨k - 96, by omega⟩
      have word_ : (j + 96) / 32 = j / 32 + 3 := by omega
      have field : (j + 96) / 24 = j / 24 + 4 := by omega
      have bit_ : (j + 96) % 32 = j % 32 := by omega
      have bit' : (j + 96) % 24 = j % 24 := by omega
      rw [word_, field, bit_, bit']
      exact ih j (by omega)
  | case2 a b c =>
    intro k hk
    exact short_bit (a := a) (b := b) (c := c) (d := 0) (n := 1) (m := 3) rfl (by simp [packSamples, fourSamples]) (by omega) hk
  | case3 a b =>
    intro k hk
    exact short_bit (a := a) (b := b) (c := 0) (d := 0) (n := 2) (m := 2) rfl (by simp [packSamples, fourSamples]) (by omega) hk
  | case4 a =>
    intro k hk
    exact short_bit (a := a) (b := 0) (c := 0) (d := 0) (n := 3) (m := 1) rfl (by simp [packSamples, fourSamples]) (by omega) hk
  | case5 => exact fun k hk => absurd hk (Nat.not_lt_zero k)

/-! ### READ-CAPTURE and READ-SAMPLES -/

theorem captureWords_eq (c : Capture) :
    captureWords c =
      [ word c.state.code,
        word (c.setUp.source.code.1 * 2 ^ 24 + c.setUp.source.code.2 * 2 ^ 16 + c.setUp.mode.code * 2 ^ 8 +
          c.setUp.trigger.code.1),
        word c.setUp.extent, word c.setUp.trigger.code.2, word (c.writeIndex * 2 ^ 16 + c.remaining),
        word (c.record.held * 2 ^ 16 + endCauseCode c.record.endCause * 2 ^ 8 + bit c.record.wrapped),
        word (c.record.triggerIndex.getD 65535 * 2 ^ 16 + c.record.endIndex.getD 65535),
        word (bit c.record.triggerSeq.isSome * 2 ^ 31 + bit c.record.triggerIndex.isSome * 2 ^ 30 +
          ((c.record.triggerIndex.map fun i => (i + 8192 - if c.record.wrapped = true then c.writeIndex else 0) % 8192).getD
            0) * 2 ^ 16 + ((c.record.triggerSeq.map (·.toNat)).getD 0)) ] := rfl

theorem captureMode_code (m : CaptureMode) : m.code = if m = .startOnTrigger then 0 else 1 := by
  cases m with
  | startOnTrigger => rfl
  | stopOnTrigger => rfl

theorem readSamplesOwner_tested (o : Order) (s : State) :
    readSamplesOwner o s =
      tested
        [ (s.capture.state != .done, Reply.refusal .state s.capture.state.code),
          (decide (8191 < bitsAt (bodyWord o 1) 31 16), Reply.refusal .range 0),
          (decide (bitsAt (bodyWord o 1) 15 0 = 0 ∨ 32 < bitsAt (bodyWord o 1) 15 0), Reply.refusal .range 1) ] s
        (Reply.reads
          (word (bitsAt (bodyWord o 1) 31 16 * 2 ^ 16 +
              (positionsReturned s.capture.record.held (bitsAt (bodyWord o 1) 31 16) (bitsAt (bodyWord o 1) 15 0)).length) ::
            packSamples
              ((positionsReturned s.capture.record.held (bitsAt (bodyWord o 1) 31 16) (bitsAt (bodyWord o 1) 15 0)).map
                s.capture.sampleAt)), s) := by
  unfold readSamplesOwner
  simp only [tested_cons, tested_nil, decide_eq_true_eq, bne_iff_ne]
  rfl

/-- A position returned holds the sample written there. -/
theorem positionsReturned_sample {c : Capture} {held offset count k : Nat} {x : Sample}
    (hk : k < ((positionsReturned held offset count).map c.sampleAt).length)
    (hx : Store.get c.ring (((if c.record.wrapped = true then c.writeIndex else 0) + (offset + k)) % 8192) = some x) :
    ((positionsReturned held offset count).map c.sampleAt)[k]? = some x := by
  have written : c.sampleAt (offset + k) = x := by
    have stored : Store.get c.ring ((c.oldest + (offset + k)) % Config.ringSize) = some x := hx
    unfold Capture.sampleAt
    rw [stored]
    rfl
  have position : (positionsReturned held offset count)[k]? = some (offset + k) := by
    rw [List.length_map] at hk
    rw [List.getElem?_eq_getElem hk]
    simp [positionsReturned]
  rw [List.getElem?_map, position, ← written]
  rfl

/-- Settles O40. -/
theorem recordingsAreReadOut : Obligations.RecordingsAreReadOut := by
  refine ⟨fun o s hd => ?_, fun o s hd => ?_⟩
  · extract_lets c r source trigger mode cause oldest position
    have source_eq : c.setUp.source.code = source := by
      unfold source
      cases c.setUp.source with
      | input n => rfl
      | line n => rfl
      | output n => rfl
    have trigger_eq : c.setUp.trigger.code = trigger := by
      unfold trigger
      cases c.setUp.trigger with
      | manual => rfl
      | guardStep n => rfl
      | guardMute n => rfl
      | anyGuard => rfl
      | sequence q => rfl
      | linkFault => rfl
    have cause_eq : endCauseCode r.endCause = cause := by
      unfold cause endCauseCode
      rfl
    have words := captureWords_eq c
    rw [source_eq, trigger_eq, captureMode_code, cause_eq] at words
    have answered := orderCommand_direct readCaptureOwner hd
    refine answered.trans ?_
    show Host.Outcome.next (returned _ _ (Reply.reads (captureWords c)) _) = _
    rw [words]
    rfl
  · obtain ⟨refused, taken⟩ := orderCommand_tested (owner := readSamplesOwner) hd (readSamplesOwner_tested o _)
    refine ⟨refused, fun passing => ⟨(positionsReturned s.capture.record.held (bitsAt (bodyWord o 1) 31 16)
      (bitsAt (bodyWord o 1) 15 0)).map s.capture.sampleAt, _, ?_, fun k x => positionsReturned_sample,
      packSamples_length _, packSamples_bit _, ?_⟩⟩
    · simp [positionsReturned]
    · rw [List.length_map]
      exact taken passing

/-! ### READ-LINK and CLEAR-COUNTERS -/

theorem receive_code (r : ReceiveState) : r.code = if r = .locked then 1 else 0 := by
  cases r with
  | search => rfl
  | locked => rfl

/-- Settles O41. -/
theorem linkIsReadAndItsCountersCleared : Obligations.LinkIsReadAndItsCountersCleared := by
  refine ⟨?_, fun o s => ⟨fun hd => ?_, fun hd => orderCommand_direct clearCountersOwner hd⟩⟩
  · rintro v (rfl | rfl)
    · exact ⟨rfl, rfl⟩
    · exact ⟨rfl, rfl⟩
  · rw [← receive_code]
    exact orderCommand_direct readLinkOwner hd

end Sys2Proof.Machine
end

section
/-! SUPPORT. Raises (R130 to R134): what a raise does to the event unit and the notice slot, said once for every flag. -/

namespace Sys2Proof.Machine

/-- A raise, its detail added: the flag becomes set, and in QUIET a placement is made where an enabled flag is then set. -/
theorem raiseWith_eq (f : Flag) (detail : Events → Events) (s : State) (flags : (detail s.events).flags = s.events.flags) :
    raiseWith f detail s =
      if (detail s.events).notice = .quiet ∧
          ((detail s.events).flags ||| 1#17 <<< f.number) &&& (detail s.events).enables ≠ 0 then
        { s with
          events :=
            { detail s.events with flags := (detail s.events).flags ||| 1#17 <<< f.number, notice := .sent }
          slot := s.slot.place }
      else { s with events := { detail s.events with flags := (detail s.events).flags ||| 1#17 <<< f.number } } := by
  unfold raiseWith announce
  rw [flags]
  split
  · next due =>
    refine Eq.trans ?_ (if_pos due).symm
    rfl
  · next due =>
    refine Eq.trans ?_ (if_neg due).symm
    rfl

theorem place_eq (n : NoticeSlot) :
    n.place =
      match n.state with
      | .empty => { n with state := .waiting }
      | .waiting => n
      | .sending => { n with repeatMark := true } := by
  unfold NoticeSlot.place
  rfl

theorem addLines_get (set : BitVec 64) (ns : List Line) (m : Line) :
    (addLines set ns).getLsbD m.val = true ↔ set.getLsbD m.val = true ∨ m ∈ ns := by
  unfold addLines
  induction ns generalizing set with
  | nil => simp
  | cons n ns ih =>
    rw [List.foldl_cons, ih]
    have one : (set ||| 1#64 <<< n.val).getLsbD m.val = true ↔ set.getLsbD m.val = true ∨ m = n := by
      rw [BitVec.getLsbD_or, Bool.or_eq_true]
      have bit_ : 1#64 <<< n.val = BitVec.twoPow 64 n.val := rfl
      rw [bit_, BitVec.getLsbD_twoPow, decide_eq_true n.isLt, Bool.true_and, decide_eq_true_eq, Fin.ext_iff, eq_comm (a := m.val)]
    rw [one, List.mem_cons, or_assoc]

/-- Settles O42. -/
theorem raisesSetFlagsAndPlaceNotices : Obligations.RaisesSetFlagsAndPlaceNotices := by
  refine ⟨by decide, fun s => ?_⟩
  extract_lets slot placed raised e
  have place : s.slot.place = placed := place_eq s.slot
  have raised_eq (f : Flag) (detail : Events → Events) (flags : (detail e).flags = e.flags) :
      raiseWith f detail s = raised f (detail e) := by
    rw [raiseWith_eq f detail s flags, place]
  refine ⟨fun f => raised_eq f id rfl, fun f c => raised_eq f _ rfl, fun n => raised_eq .lineReady _ rfl, rfl,
    fun ns some_ => ⟨addLines e.faultedLines ns, addLines_get e.faultedLines ns, ?_⟩,
    fun sec verb r => raised_eq .groupRefused _ rfl, fun d => raised_eq .commitDone _ rfl⟩
  have nonempty : ¬ns.isEmpty = true := by simpa using some_
  exact (if_neg nonempty).trans (raised_eq .lineFault _ rfl)

end Sys2Proof.Machine
end

section
/-! SUPPORT. The code of a delay-memory word (R2, R15, R16): the code and the syndrome are linear, so what an upset word shows
depends on the bits turned over alone. -/

namespace Sys2Proof.Machine

/-! ### The code, bit by bit -/

theorem codeFrom_bit (x : Sample) (i : Nat) (cs : List (BitVec 7)) (j : Nat) :
    (codeFrom x i cs).getLsbD j =
      ((List.range cs.length).filter fun k => x.getLsbD (i + k) && (cs.getD k 0).getLsbD j).length.bodd := by
  induction cs generalizing i with
  | nil =>
    unfold codeFrom
    simp
  | cons c cs ih =>
    have rest :
        ((List.range cs.length).map Nat.succ).filter (fun k => x.getLsbD (i + k) && ((c :: cs).getD k 0).getLsbD j) =
          ((List.range cs.length).filter fun k => x.getLsbD (i + 1 + k) && (cs.getD k 0).getLsbD j).map Nat.succ := by
      rw [List.filter_map]
      congr 1
      refine List.filter_congr fun k _ => ?_
      show (x.getLsbD (i + (k + 1)) && _) = _
      rw [Nat.add_comm k 1, ← Nat.add_assoc]
      rfl
    unfold codeFrom
    rw [List.length_cons, List.range_succ_eq_map, List.filter_cons, rest]
    show _ = (List.length (if (x.getLsbD i && c.getLsbD j) = true then _ else _)).bodd
    by_cases hx : x.getLsbD i = true
    · by_cases hc : c.getLsbD j = true
      · rw [if_pos hx, if_pos (by simp [hx, hc]), BitVec.getLsbD_xor, ih, hc, List.length_cons, List.length_map, Nat.bodd_succ,
          Bool.true_xor]
      · rw [if_pos hx, if_neg (by simp [hc]), BitVec.getLsbD_xor, ih, Bool.eq_false_iff.mpr hc, List.length_map,
          Bool.false_xor]
    · rw [if_neg hx, if_neg (by simp [hx]), ih, List.length_map]

/-! ### Linearity -/

theorem codeFrom_xor (x y : Sample) (i : Nat) (cs : List (BitVec 7)) :
    codeFrom (x ^^^ y) i cs = codeFrom x i cs ^^^ codeFrom y i cs := by
  induction cs generalizing i with
  | nil =>
    unfold codeFrom
    exact BitVec.xor_self.symm
  | cons c cs ih =>
    unfold codeFrom
    rw [ih, BitVec.getLsbD_xor]
    cases x.getLsbD i with
    | false =>
      cases y.getLsbD i with
      | false => rfl
      | true =>
        show c ^^^ (codeFrom x (i + 1) cs ^^^ codeFrom y (i + 1) cs) =
          codeFrom x (i + 1) cs ^^^ (c ^^^ codeFrom y (i + 1) cs)
        ac_rfl
    | true =>
      cases y.getLsbD i with
      | false => exact (BitVec.xor_assoc _ _ _).symm
      | true =>
        show codeFrom x (i + 1) cs ^^^ codeFrom y (i + 1) cs =
          c ^^^ codeFrom x (i + 1) cs ^^^ (c ^^^ codeFrom y (i + 1) cs)
        have twice : c ^^^ codeFrom x (i + 1) cs ^^^ (c ^^^ codeFrom y (i + 1) cs) =
            c ^^^ c ^^^ (codeFrom x (i + 1) cs ^^^ codeFrom y (i + 1) cs) := by ac_rfl
        rw [twice, BitVec.xor_self, BitVec.zero_xor]

theorem sampleOf_xor (v w : MemWord) : sampleOf (v ^^^ w) = sampleOf v ^^^ sampleOf w := BitVec.extractLsb'_xor

theorem syndrome_xor (v w : MemWord) : syndrome (v ^^^ w) = syndrome v ^^^ syndrome w := by
  have code : codeOf (sampleOf v ^^^ sampleOf w) = codeOf (sampleOf v) ^^^ codeOf (sampleOf w) := codeFrom_xor _ _ _ _
  unfold syndrome
  rw [sampleOf_xor, code, BitVec.extractLsb'_xor]
  ac_rfl

theorem sampleOf_encodeWord (x : Sample) : sampleOf (encodeWord x) = x := by
  unfold sampleOf encodeWord
  rw [BitVec.extractLsb'_append_eq_right]

theorem syndrome_encodeWord (x : Sample) : syndrome (encodeWord x) = 0 := by
  unfold syndrome
  rw [sampleOf_encodeWord]
  unfold encodeWord
  rw [BitVec.extractLsb'_append_eq_left, BitVec.xor_self]
  rfl

/-! ### What one and two bits turned over show -/

/-- The syndrome of a word as written with bits turned over is that of the bits alone. -/
theorem syndrome_upset (x : Sample) (e : MemWord) : syndrome (encodeWord x ^^^ e) = syndrome e := by
  rw [syndrome_xor, syndrome_encodeWord]
  exact BitVec.zero_xor

theorem namedBit_one : ∀ i : Fin 31, syndrome (1#31 <<< i.val) ≠ 0 ∧ namedBit (syndrome (1#31 <<< i.val)) = some i.val := by
  decide +kernel

theorem namedBit_two :
    ∀ i j : Fin 31, i ≠ j →
      syndrome (1#31 <<< i.val ^^^ 1#31 <<< j.val) ≠ 0 ∧ namedBit (syndrome (1#31 <<< i.val ^^^ 1#31 <<< j.val)) = none := by
  decide +kernel

theorem checkWord_sound (x : Sample) : checkWord (encodeWord x) = .sound x := by
  unfold checkWord
  rw [if_pos (syndrome_encodeWord x), sampleOf_encodeWord]

theorem checkWord_one (x : Sample) (i : Fin 31) : checkWord (encodeWord x ^^^ 1#31 <<< i.val) = .corrected x i.val := by
  obtain ⟨seen, named⟩ := namedBit_one i
  unfold checkWord
  rw [syndrome_upset, if_neg seen, named]
  show WordCheck.corrected (sampleOf (encodeWord x ^^^ 1#31 <<< i.val ^^^ 1#31 <<< i.val)) i.val = _
  rw [BitVec.xor_assoc, BitVec.xor_self, BitVec.xor_zero, sampleOf_encodeWord]

theorem checkWord_two (x : Sample) {i j : Fin 31} (h : i ≠ j) :
    checkWord (encodeWord x ^^^ 1#31 <<< i.val ^^^ 1#31 <<< j.val) = .uncorrectable := by
  obtain ⟨seen, unnamed⟩ := namedBit_two i j h
  unfold checkWord
  rw [BitVec.xor_assoc, syndrome_upset, if_neg seen, unnamed]

/-- Settles O53. -/
theorem wordCodeCorrectsOneBit : Obligations.WordCodeCorrectsOneBit := by
  refine ⟨by decide +kernel, fun x j => ?_, fun x => ⟨checkWord_sound x, checkWord_one x, fun i j => checkWord_two x⟩⟩
  have bits := codeFrom_bit x 0 columns j.val
  simp only [Nat.zero_add] at bits
  exact bits

end Sys2Proof.Machine
end

section
/-! SUPPORT. The order decoder word by word (R113 to R115, R117, R118). -/

namespace Sys2Proof.Machine

theorem executes_iff (x : Disposition) : x.executes = true ↔ x = .direct ∨ x = .group := by
  cases x with
  | direct => simp [Disposition.executes]
  | group => simp [Disposition.executes]
  | forwardOnly => simp [Disposition.executes]
  | dropped => simp [Disposition.executes]

theorem forwards_iff (x : Disposition) : x.forwards = true ↔ x = .group ∨ x = .forwardOnly := by
  cases x with
  | direct => simp [Disposition.forwards]
  | group => simp [Disposition.forwards]
  | forwardOnly => simp [Disposition.forwards]
  | dropped => simp [Disposition.forwards]

theorem assembling_iff (m : OpenMessage) :
    m.assembling = true ↔ (m.disposition = .direct ∨ m.disposition = .group) ∧ m.discarded = false := by
  unfold OpenMessage.assembling
  rw [Bool.and_eq_true, executes_iff, Bool.not_eq_true']

theorem forward_eq (m : OpenMessage) (k : ServiceKind) (w : Word) :
    m.forward k w =
      if m.disposition = .group ∨ m.disposition = .forwardOnly then some { kind := k, word := w, message := m.id }
      else none := if_congr (forwards_iff m.disposition) rfl rfl

/-! ### A HEAD -/

theorem dispositionOf_eq (pattern mask : BitVec 8) (w : Word) :
    dispositionOf pattern mask w =
      if headClass w = 0 then
        (if headAddress w = pattern then .direct
        else if headAddress w = 0xFF ∨ (headAddress w ^^^ pattern) &&& mask = 0 then .group
        else .forwardOnly)
      else if headClass w = 3 then .dropped
      else .forwardOnly := by
  have small : headClass w < 4 := bitsAt_lt w 31 30
  unfold dispositionOf
  generalize headClass w = c at small
  interval_cases c
  · show (if headAddress w = pattern then _ else _) = if headAddress w = pattern then _ else _
    refine if_congr Iff.rfl rfl ?_
    by_cases all : headAddress w = 0xFF
    · exact (if_pos all).trans (if_pos (Or.inl all)).symm
    · exact (if_neg all).trans (if_congr (or_iff_right all).symm rfl rfl)
  · rfl
  · rfl
  · rfl

theorem discardedAtHead_iff (x : Disposition) (w : Word) :
    discardedAtHead x w = true ↔ x = .dropped ∨ ((x = .direct ∨ x = .group) ∧ 32 < headLength w) := by
  unfold discardedAtHead
  rw [Bool.or_eq_true, Bool.and_eq_true, executes_iff, beq_iff_eq, decide_eq_true_eq]

/-! ### A word in a message -/

theorem take_between {d : Decoder} (h : d.inbound = none) {k : ServiceKind} (hk : k ≠ .head) (w : Word) :
    d.take k w = d.quiet := by
  unfold Decoder.take
  rw [h]
  cases k with
  | head => exact absurd rfl hk
  | idle => rfl
  | body => rfl
  | tail => rfl

section

variable {d : Decoder} {m : OpenMessage} (w : Word)

theorem take_head (h : d.inbound = none) : d.take .head w = d.opens w := by
  unfold Decoder.take
  rw [h]

theorem take_body (h : d.inbound = some m) : d.take .body w = d.body m w := by
  unfold Decoder.take
  rw [h]

theorem take_tail (h : d.inbound = some m) : d.take .tail w = d.tail m w := by
  unfold Decoder.take
  rw [h]

theorem take_head_open (h : d.inbound = some m) :
    d.take .head w = { d.closed.opens w with discards := bit m.assembling + (d.closed.opens w).discards } := by
  unfold Decoder.take
  rw [h]

theorem take_idle_open (h : d.inbound = some m) :
    d.take .idle w = { d.closed.quiet with discards := bit m.assembling } := by
  unfold Decoder.take
  rw [h]

theorem abandon_between (h : d.inbound = none) : d.abandon = d.quiet := by
  unfold Decoder.abandon
  rw [h]

theorem abandon_open (h : d.inbound = some m) :
    d.abandon =
      { decoder := d.closed, arriving := none, discards := bit m.assembling
        abandoned := if m.disposition.forwards then some m.id else none } := by
  unfold Decoder.abandon
  rw [h]

end

theorem bit_eq {b : Bool} {p : Prop} [Decidable p] (h : b = true ↔ p) : bit b = if p then 1 else 0 := by
  cases b with
  | false => rw [if_neg fun hp => Bool.false_ne_true (h.mpr hp)]; rfl
  | true => rw [if_pos (h.mp rfl)]; rfl

/-- What a HEAD opens, by its disposition. -/
theorem opens_eq (d : Decoder) (w : Word) {x : Disposition} (hx : dispositionOf d.pattern d.mask w = x) :
    d.opens w =
      { decoder :=
          { d with
            inbound := some { head := w, disposition := x, bodies := 0, discarded := discardedAtHead x w, id := d.nextId }
            buffer := if (x = .direct ∨ x = .group) ∧ ¬discardedAtHead x w = true then [w] else []
            nextId := d.nextId + 1 }
        arriving := if x = .group ∨ x = .forwardOnly then some { kind := .head, word := w, message := d.nextId } else none
        discards := if discardedAtHead x w = true then 1 else 0
        abandoned := none } := by
  have message :
      d.messageOf w = { head := w, disposition := x, bodies := 0, discarded := discardedAtHead x w, id := d.nextId } := by
    unfold Decoder.messageOf
    rw [hx]
  unfold Decoder.opens
  simp only [message, forward_eq, assembling_iff, Bool.not_eq_true, bit_eq Iff.rfl]

/-- Settles O55. -/
theorem decoderAssemblesMessages : Obligations.DecoderAssemblesMessages := by
  intro d w
  refine ⟨fun h => ⟨fun k hk => take_between h hk w, take_head w h, abandon_between h⟩, ?_, fun m h => ?_⟩
  · extract_lets disposition executes forwards discarded
    have disposition_ : dispositionOf d.pattern d.mask w = disposition := dispositionOf_eq d.pattern d.mask w
    have discarded_ : discardedAtHead disposition w = decide discarded :=
      Bool.eq_iff_iff.mpr ((discardedAtHead_iff disposition w).trans decide_eq_true_iff.symm)
    have head := opens_eq d w disposition_
    simp only [discarded_, decide_eq_true_eq] at head
    exact head
  · extract_lets executes forwards assembled forward closed lost
    have assembling : m.assembling = true ↔ assembled := assembling_iff m
    have forward_ (k : ServiceKind) : m.forward k w = forward k := forward_eq m k w
    have lost_ : bit m.assembling = lost := bit_eq assembling
    refine ⟨fun ha hb => ?_, fun ha hb => ?_, fun ha => ⟨?_, ?_⟩, fun ha hb hw => ?_, fun ha hbad => ?_, ?_, ?_, ?_⟩
    · rw [take_body w h, ← forward_]
      exact (if_pos (assembling.mpr ha)).trans (if_pos hb)
    · rw [take_body w h, ← forward_]
      exact (if_pos (assembling.mpr ha)).trans (if_neg (Nat.not_lt.mpr hb))
    · rw [take_body w h, ← forward_]
      exact if_neg fun k => ha (assembling.mp k)
    · rw [take_tail w h, ← forward_]
      exact if_neg fun k => ha (assembling.mp k)
    · have good : endGood d.buffer w = true := beq_iff_eq.mpr hw
      rw [take_tail w h, ← forward_]
      exact (if_pos (assembling.mpr ha)).trans (if_pos ⟨hb, good⟩)
    · rw [take_tail w h, ← forward_]
      refine (if_pos (assembling.mpr ha)).trans (if_neg fun k => ?_)
      exact hbad.elim (fun n => n k.1) fun n => n (beq_iff_eq.mp k.2)
    · rw [take_head_open w h, lost_]
      rfl
    · rw [take_idle_open w h, lost_]
      rfl
    · rw [abandon_open h, lost_]
      simp only [forwards_iff]
      rfl

end Sys2Proof.Machine
end

section
/-! SUPPORT. The arbiter's choice, step by step (R125 to R130). -/

namespace Sys2Proof.Machine

/-! ### Which step the choice takes -/

theorem own_ofReturn {a : Arbiter} {r : Return} {rest : List Return} {p : Nat} (hs : a.sending = some (.ownReturn p))
    (hr : a.returns = r :: rest) : a.own = some (r.words, p) := by
  unfold Arbiter.own
  rw [hs, hr]
  rfl

theorem own_ofNotice {a : Arbiter} {ws : List Word} {p : Nat} (hs : a.sending = some (.ownNotice ws p)) :
    a.own = some (ws, p) := by
  unfold Arbiter.own
  rw [hs]

theorem own_eq_none {a : Arbiter} :
    a.own = none ↔ (∀ p, a.sending ≠ some (.ownReturn p)) ∧ ∀ ws p, a.sending ≠ some (.ownNotice ws p) := by
  unfold Arbiter.own
  match hs : a.sending with
  | none => simp
  | some (.ownReturn p) => simp
  | some (.ownNotice ws p) => simp
  | some (.direct m p) => simp
  | some (.queued m p) => simp

theorem continues_iff (a : Arbiter) (arriving : Option TransitWord) :
    a.continues arriving = true ↔
      ∃ m p w, a.sending = some (.direct m p) ∧ arriving = some w ∧ w.message = m ∧ w.kind ≠ .head := by
  unfold Arbiter.continues
  match hs : a.sending with
  | none => simp
  | some (.ownReturn p) => simp
  | some (.ownNotice ws p) => simp
  | some (.queued m p) => simp
  | some (.direct m p) =>
    cases arriving with
    | none => simp
    | some w =>
      simp only [Bool.and_eq_true, beq_iff_eq, bne_iff_ne, Option.some.injEq, Sending.direct.injEq]
      exact ⟨fun h => ⟨m, p, w, ⟨rfl, rfl⟩, rfl, h⟩, by rintro ⟨_, _, _, ⟨rfl, rfl⟩, rfl, h⟩; exact h⟩

section

variable {waiting : Bool} {arriving : Option TransitWord} {a : Arbiter} {n : NoticeSlot}

theorem choose_own {ws : List Word} {p : Nat} (h : a.own = some (ws, p)) :
    a.choose waiting arriving n = chooseOwn ws p arriving a n := by
  unfold Arbiter.choose
  rw [h]

theorem choose_direct {m p : Nat} {w : TransitWord} (hs : a.sending = some (.direct m p)) (hm : w.message = m)
    (hk : w.kind ≠ .head) :
    a.choose waiting (some w) n =
      { arbiter := { a with sending := sendingAfter .direct a.sending w }
        slot := n, leaving := .word w.kind w.word, returnLeft := false, resetLeft := false } := by
  have none_ : a.own = none := by
    unfold Arbiter.own
    rw [hs]
  have goesOn : a.continues (some w) = true := (continues_iff _ _).mpr ⟨m, p, w, hs, rfl, hm, hk⟩
  unfold Arbiter.choose
  rw [none_]
  exact if_pos goesOn

theorem choose_other (h : a.own = none) (stops : ¬a.continues arriving = true) :
    a.choose waiting arriving n = chooseOther waiting arriving a n := by
  unfold Arbiter.choose
  rw [h]
  exact if_neg stops

/-! ### What each step does -/

theorem chooseOwn_further {ws : List Word} {p : Nat} (h : p + 1 < ws.length) :
    chooseOwn ws p arriving a n =
      { arbiter := { a with sending := a.sending.map Sending.advance, transit := a.transit ++ arriving.toList }
        slot := n, leaving := .word (kindAt ws p) (ws.getD p 0), returnLeft := false, resetLeft := false } := if_pos h

theorem chooseOwn_last {ws : List Word} {p : Nat} (h : ws.length ≤ p + 1) :
    chooseOwn ws p arriving a n =
      { arbiter := { a with sending := none, transit := a.transit ++ arriving.toList }
        slot := a.slotEnded n, leaving := .word (kindAt ws p) (ws.getD p 0), returnLeft := a.sendingReturn
        resetLeft := a.sendingReset } := if_neg (Nat.not_lt.mpr h)

/-- What an own message leaves in every case. -/
theorem chooseOwn_leaves (ws : List Word) (p : Nat) :
    (chooseOwn ws p arriving a n).leaving = .word (kindAt ws p) (ws.getD p 0) ∧
      (chooseOwn ws p arriving a n).arbiter.transit = a.transit ++ arriving.toList ∧
      (chooseOwn ws p arriving a n).arbiter.returns = a.returns := by
  unfold chooseOwn
  split
  · exact ⟨rfl, rfl, rfl⟩
  · exact ⟨rfl, rfl, rfl⟩

theorem chooseOther_transit {t : TransitWord} {rest : List TransitWord} (h : a.transit = t :: rest) :
    chooseOther waiting arriving a n =
      { arbiter := { a with transit := rest ++ arriving.toList, sending := sendingAfter .queued a.sending t }
        slot := n, leaving := .word t.kind t.word, returnLeft := false, resetLeft := false } := by
  unfold chooseOther
  rw [h]
  rfl

theorem chooseOther_arriving {w : TransitWord} (h : a.transit = []) :
    chooseOther waiting (some w) a n =
      { arbiter := { a with sending := sendingAfter .direct a.sending w }
        slot := n, leaving := .word w.kind w.word, returnLeft := false, resetLeft := false } := by
  unfold chooseOther
  rw [h]

theorem chooseOther_free (h : a.transit = []) :
    chooseOther waiting none a n =
      { arbiter := { a with sending := none }, slot := n
        leaving := if waiting = true then .start .notice else if a.returns ≠ [] then .start .ret else .word .idle 0
        returnLeft := false, resetLeft := false } := by
  unfold chooseOther
  rw [h]
  rfl

/-- Steps 2 to 5 leave the returns and the notice slot, and no return ends in them. -/
theorem chooseOther_keeps :
    (chooseOther waiting arriving a n).arbiter.returns = a.returns ∧ (chooseOther waiting arriving a n).slot = n ∧
      (chooseOther waiting arriving a n).returnLeft = false ∧ (chooseOther waiting arriving a n).resetLeft = false := by
  unfold chooseOther
  split
  · exact ⟨rfl, rfl, rfl, rfl⟩
  · split
    · exact ⟨rfl, rfl, rfl, rfl⟩
    · exact ⟨rfl, rfl, rfl, rfl⟩

/-- Step 1 for a message forwarded directly and steps 2 to 5 leave them alike. -/
theorem choose_keeps (h : a.own = none) :
    (a.choose waiting arriving n).arbiter.returns = a.returns ∧ (a.choose waiting arriving n).slot = n ∧
      (a.choose waiting arriving n).returnLeft = false ∧ (a.choose waiting arriving n).resetLeft = false := by
  by_cases goesOn : a.continues arriving = true
  · obtain ⟨m, p, w, hs, rfl, hm, hk⟩ := (continues_iff _ _).mp goesOn
    rw [choose_direct hs hm hk]
    exact ⟨rfl, rfl, rfl, rfl⟩
  · rw [choose_other h goesOn]
    exact chooseOther_keeps

end

/-! ### The message being sent after a forwarded word -/

section

variable {begin_ : Nat → Nat → Sending} {old : Option Sending} {w : TransitWord}

theorem sendingAfter_head (h : w.kind = .head) : sendingAfter begin_ old w = some (begin_ w.message 1) := by
  unfold sendingAfter
  rw [h]

theorem sendingAfter_tail (h : w.kind = .tail) : sendingAfter begin_ old w = none := by
  unfold sendingAfter
  rw [h]

theorem sendingAfter_further (head : w.kind ≠ .head) (tail : w.kind ≠ .tail) :
    sendingAfter begin_ old w = old.map Sending.advance := by
  unfold sendingAfter
  split
  · next h => exact absurd h tail
  · next h => exact absurd h head
  · rfl

end

/-! ### Abandonment (R127) -/

theorem begun_iff (a : Arbiter) (m : Nat) : a.begun m = true ↔ ∀ w ∈ a.transit, w.message = m → w.kind ≠ .head := by
  unfold Arbiter.begun
  simp

/-- Settles O56. -/
theorem arbiterChoosesInOrder : Obligations.ArbiterChoosesInOrder := by
  refine ⟨fun waiting arriving a n => ⟨choose_returns _ _ _ _, fun r rest p hs hr => ?_, fun ws p hs => ?_, fun hr hn => ?_⟩,
    fun waiting m a n => ?_⟩
  · rw [choose_own (own_ofReturn hs hr)]
    obtain ⟨leaving, transit, -⟩ := chooseOwn_leaves (arriving := arriving) (a := a) (n := n) r.words p
    refine ⟨leaving, transit, ?_, fun further => ?_, fun last => ?_⟩
    · unfold chooseOwn Arbiter.slotEnded
      rw [hs]
      split
      · rfl
      · rfl
    · rw [chooseOwn_further further, hs]
      exact ⟨rfl, rfl, rfl⟩
    · rw [chooseOwn_last last]
      unfold Arbiter.sendingReturn Arbiter.sendingReset
      rw [hs, hr]
      exact ⟨rfl, rfl, rfl⟩
  · rw [choose_own (own_ofNotice hs)]
    obtain ⟨leaving, transit, -⟩ := chooseOwn_leaves (arriving := arriving) (a := a) (n := n) ws p
    have noReturn : a.sendingReturn = false ∧ a.sendingReset = false := by
      unfold Arbiter.sendingReturn Arbiter.sendingReset
      rw [hs]
      exact ⟨rfl, rfl⟩
    refine ⟨leaving, transit, ?_, ?_, fun further => ?_, fun last => ?_⟩
    · unfold chooseOwn
      split
      · rfl
      · exact noReturn.1
    · unfold chooseOwn
      split
      · rfl
      · exact noReturn.2
    · rw [chooseOwn_further further, hs]
      exact ⟨rfl, rfl⟩
    · rw [chooseOwn_last last]
      unfold Arbiter.slotEnded
      rw [hs]
      exact ⟨rfl, rfl⟩
  · have none_ : a.own = none := own_eq_none.mpr ⟨hr, hn⟩
    obtain ⟨-, slot, returnLeft, resetLeft⟩ := choose_keeps (waiting := waiting) (arriving := arriving) (n := n) none_
    refine ⟨slot, returnLeft, resetLeft, fun m p w hs hw hm hk => ?_, fun stops => ?_⟩
    · subst hw
      rw [choose_direct hs hm hk]
      refine ⟨rfl, rfl, ?_⟩
      by_cases tail : w.kind = .tail
      · rw [if_pos tail]
        exact sendingAfter_tail tail
      · rw [if_neg tail]
        exact (sendingAfter_further hk tail).trans (by rw [hs]; rfl)
    · have other := choose_other (waiting := waiting) (n := n) none_ fun goesOn => by
        obtain ⟨m, p, w, hs, hw, hm, hk⟩ := (continues_iff _ _).mp goesOn
        exact hk (stops m p w hs hw hm)
      rw [other]
      refine ⟨fun t rest ht => ?_, fun ht => ?_⟩
      · rw [chooseOther_transit ht]
        refine ⟨rfl, rfl, fun head => sendingAfter_head head, fun p body hq => ?_, fun tail => sendingAfter_tail tail⟩
        exact (sendingAfter_further (by rw [body]; decide) (by rw [body]; decide)).trans (by rw [hq]; rfl)
      · refine ⟨?_, fun w hw => ?_, fun free => ?_⟩
        · cases arriving with
          | none =>
            rw [chooseOther_free ht]
            exact ht
          | some w =>
            rw [chooseOther_arriving ht]
            exact ht
        · subst hw
          rw [chooseOther_arriving ht]
          exact ⟨rfl, fun head => sendingAfter_head head, fun tail => sendingAfter_tail tail⟩
        · subst free
          rw [chooseOther_free ht]
          exact ⟨rfl, rfl⟩
  · refine ⟨a.remove m, List.filter_congr fun w _ => by simp [bne, beq_eq_decide], rfl, fun p hs => ?_, fun hs => ?_,
      fun begun own => ?_, fun h => if_neg ?_⟩
    · unfold Arbiter.remove
      obtain hs | hs := hs
      · simp [hs]
      · simp [hs]
    · unfold Arbiter.remove
      match hx : a.sending with
      | none => rfl
      | some (.ownReturn p) => rfl
      | some (.ownNotice ws p) => rfl
      | some (.direct k p) => exact if_neg fun e => (hs p).1 (by rw [hx, e])
      | some (.queued k p) => exact if_neg fun e => (hs p).2 (by rw [hx, e])
    · refine if_pos ⟨(begun_iff a m).mpr begun, own_eq_none.mpr ⟨fun p h => own (Or.inl ⟨p, h⟩), fun ws p h => own (Or.inr ⟨ws, p, h⟩)⟩⟩
    · rintro ⟨begun, own⟩
      obtain ⟨noReturn, noNotice⟩ := own_eq_none.mp own
      refine h.elim (fun k => k ((begun_iff a m).mp begun)) ?_
      rintro (⟨p, hp⟩ | ⟨ws, p, hp⟩)
      · exact noReturn p hp
      · exact noNotice ws p hp

end Sys2Proof.Machine
end

section
/-! SUPPORT. The arithmetic of a frame (R8, R37 to R39, R42 to R45, R75 to R77, R159). -/

namespace Sys2Proof.Machine

theorem saturate_eq (x : Int) : saturate x = max (-8388608) (min 8388607 x) := by
  unfold saturate sampleMax sampleMin
  split
  · omega
  · split
    · omega
    · omega

theorem toSample_toInt (x : Int) : (toSample x).toInt = max (-8388608) (min 8388607 x) := by
  unfold toSample
  rw [saturate_eq, BitVec.toInt_ofInt, Int.bmod_eq_of_le]
  · show -(8388608 : Int) ≤ _
    omega
  · show _ < (8388608 : Int)
    omega

/-! ### Taps and phases -/

theorem tapDelay_modulated {t : Tap} {m : Modulation} (h : t.modulation = some m) (phase : Nat) :
    tapDelay t phase =
      (t.delay + 2 * m.depth * 256 * (if phase ≤ m.period - phase then phase else m.period - phase) / m.period / 256,
        2 * m.depth * 256 * (if phase ≤ m.period - phase then phase else m.period - phase) / m.period % 256) := by
  unfold tapDelay
  rw [h, ← Nat.min_def]

/-- The modulation of a delay reaches the tap's depth at most. -/
theorem modulation_le (depth : Nat) {phase period : Nat} (h : phase < period) :
    2 * depth * 256 * (if phase ≤ period - phase then phase else period - phase) / period ≤ depth * 256 := by
  have half : 2 * (if phase ≤ period - phase then phase else period - phase) ≤ period := by
    split
    · omega
    · omega
  refine Nat.div_le_of_le_mul ?_
  calc 2 * depth * 256 * (if phase ≤ period - phase then phase else period - phase)
      = depth * 256 * (2 * if phase ≤ period - phase then phase else period - phase) := by ring
    _ ≤ depth * 256 * period := Nat.mul_le_mul_left _ half
    _ = period * (depth * 256) := Nat.mul_comm _ _

theorem tapDelay_plain {t : Tap} (h : t.modulation = none) (phase : Nat) : tapDelay t phase = (t.delay, 0) := by
  unfold tapDelay
  rw [h]

theorem advancePhases_eq (ts : List Tap) (ps : List Nat) :
    advancePhases ts ps =
      (ts.zip ps).map fun x =>
        match x.1.modulation with
        | some m => if x.2 + 1 < m.period then x.2 + 1 else 0
        | none => x.2 := by
  induction ts generalizing ps with
  | nil => rfl
  | cons t ts ih =>
    cases ps with
    | nil => rfl
    | cons p ps =>
      rw [advancePhases, ih, List.zip_cons_cons, List.map_cons] <;> rfl

theorem active_iff (r : Role) : r.active = true ↔ r = .live ∨ r = .incoming ∨ r = .outgoing := by
  rw [Role.active_eq, decide_eq_true_iff]

theorem engineStep_scenes (s : State) (seq : Seq) (inputs : Vector Int 24) :
    (engineStep seq inputs s).scenes =
      if engineRuns s.node.state = true then { s.scenes with a := s.scenes.a.advance, b := s.scenes.b.advance }
      else s.scenes := by
  obtain ⟨-, -, scenes, -⟩ := (engineStep_served seq inputs s).leaves
  exact scenes

/-! ### The output sum -/

theorem bankSum_eq (products : List (Output × Int)) (c : Output) :
    bankSum products c = (products.map fun x => if x.1 = c then x.2 else 0).sum := by
  unfold bankSum
  induction products with
  | nil => rfl
  | cons x xs ih =>
    rw [List.map_cons, List.sum_cons, ← ih]
    by_cases h : x.1 = c
    · simp [h]
    · simp [h]

theorem bankTerm_eq (b : Bank) (products : List (Output × Int)) (c : Output) :
    bankTerm b products c =
      if b.outputs[c].enabled = true then
        (if b.outputs[c].polarity = .inverted then
          -((products.map fun x => if x.1 = c then x.2 else 0).sum * b.outputs[c].gain.toNat)
        else (products.map fun x => if x.1 = c then x.2 else 0).sum * b.outputs[c].gain.toNat)
      else 0 := by
  rw [← bankSum_eq]
  unfold bankTerm
  refine if_congr Iff.rfl ?_ rfl
  cases b.outputs[c].polarity with
  | normal => rfl
  | inverted => rfl

theorem preTrim_steadyOrArmed {ch : Changer} (h : ch.state ≠ .fading) (sc : Scenes) (pa pb : List (Output × Int))
    (c : Output) : preTrim ch sc pa pb c = steadyValue (roleTerm sc pa pb .live c) := by
  unfold preTrim
  split
  · next fading => exact absurd fading h
  · rfl

theorem preTrim_fading {ch : Changer} (h : ch.state = .fading) (sc : Scenes) (pa pb : List (Output × Int)) (c : Output) :
    preTrim ch sc pa pb c =
      fadingValue ch.length ch.position (roleTerm sc pa pb .outgoing c) (roleTerm sc pa pb .incoming c) := by
  unfold preTrim
  rw [h]

theorem rampStep_eq (g : GuardRec) :
    g.rampStep =
      { g with ramp := if g.state = .muted then g.ramp - 1 else if g.ramp + 1 ≤ 48 then g.ramp + 1 else 48 } := by
  have up : min 48 (g.ramp + 1) = if g.ramp + 1 ≤ 48 then g.ramp + 1 else 48 := by
    rw [Nat.min_comm, Nat.min_def]
  unfold GuardRec.rampStep
  rw [up]

/-- The trim factors are the quarter powers of one half, rounded to the fifteenth binary place. -/
theorem trimFactor_nearest :
    ∀ k : Fin 17,
      (2 * (trimFactor k.val : Int) - 1) ^ 4 * 2 ^ k.val ≤ 65536 ^ 4 ∧
        65536 ^ 4 < (2 * (trimFactor k.val : Int) + 1) ^ 4 * 2 ^ k.val := by
  decide +kernel

/-- Settles O54. -/
theorem frameArithmeticIsExact : Obligations.FrameArithmeticIsExact := by
  refine ⟨fun l sum => toSample_toInt _, fun t m phase h within => ⟨tapDelay_modulated h phase, modulation_le m.depth within⟩,
    fun t phase h => tapDelay_plain h phase, fun b => ⟨fun active => ?_, fun idle => ?_⟩, engineStep_scenes,
    fun _ _ _ => rfl, bankTerm_eq, fun sc pa pb r c => ⟨fun ha => if_pos ha, fun ha hb => ?_, fun ha hb => ?_⟩,
    fun s r c => ⟨rfl, rfl⟩, fun ch sc pa pb c => ⟨fun h => preTrim_steadyOrArmed h sc pa pb c, fun h => preTrim_fading h sc pa pb c⟩,
    fun g u => ⟨rfl, fun _ => rfl⟩, trimFactor_nearest, toSample_toInt, rampStep_eq, fun _ => rfl⟩
  · unfold BankSlot.advance
    rw [if_pos ((active_iff b.role).mpr active), advancePhases_eq] <;> rfl
  · have inactive : ¬b.role.active = true := by
      rw [active_iff]
      obtain h | h := idle
      · simp [h]
      · simp [h]
    exact if_neg inactive
  · exact (if_neg ha).trans (if_pos hb)
  · exact (if_neg ha).trans (if_neg hb)

end Sys2Proof.Machine
end

section
/-! SUPPORT. The close of a frame period, stage by stage (log 2), and which flags each stage can raise. -/

namespace Sys2Proof.Machine

/-! ### Raising some flags and no others (R130 to R134) -/

/-- Between `s` and `t` no flag but those of `fs` is raised, no detail but theirs changes, and the notice state follows
raises alone: a unit in HOLDOFF stays there with its notice slot as it was. -/
structure Raises (fs : List Flag) (s t : State) : Prop where
  flags : ∀ f, f ∉ fs → t.events.flags.getLsbD f.number = s.events.flags.getLsbD f.number
  guards : Flag.guardStep ∉ fs → Flag.guardMute ∉ fs → Flag.guardRelease ∉ fs →
    t.events.guardOutputs = s.events.guardOutputs
  ready : Flag.lineReady ∉ fs → t.events.readyLines = s.events.readyLines
  faulted : Flag.lineFault ∉ fs → t.events.faultedLines = s.events.faultedLines
  commit : Flag.commitDone ∉ fs → t.events.commitDetail = s.events.commitDetail
  settings : t.events.enables = s.events.enables ∧ t.events.holdoff = s.events.holdoff ∧
    t.events.timer = s.events.timer ∧ t.events.timerFresh = s.events.timerFresh
  inHoldoff : s.events.notice = .holdoff → t.events.notice = .holdoff ∧ t.slot = s.slot
  outside : s.events.notice ≠ .holdoff → t.events.notice ≠ .holdoff

theorem Raises.of_eq {s t : State} (events : t.events = s.events) (slot : t.slot = s.slot) : Raises [] s t where
  flags _ _ := by rw [events]
  guards _ _ _ := by rw [events]
  ready _ := by rw [events]
  faulted _ := by rw [events]
  commit _ := by rw [events]
  settings := by rw [events]; exact ⟨rfl, rfl, rfl, rfl⟩
  inHoldoff h := by rw [events, slot]; exact ⟨h, rfl⟩
  outside h := by rw [events]; exact h

theorem Raises.and {fs gs : List Flag} {s t u : State} (a : Raises fs s t) (b : Raises gs t u) :
    Raises (fs ++ gs) s u where
  flags f h := by
    rw [List.mem_append, not_or] at h
    rw [b.flags f h.2, a.flags f h.1]
  guards h₁ h₂ h₃ := by
    rw [List.mem_append, not_or] at h₁ h₂ h₃
    rw [b.guards h₁.2 h₂.2 h₃.2, a.guards h₁.1 h₂.1 h₃.1]
  ready h := by
    rw [List.mem_append, not_or] at h
    rw [b.ready h.2, a.ready h.1]
  faulted h := by
    rw [List.mem_append, not_or] at h
    rw [b.faulted h.2, a.faulted h.1]
  commit h := by
    rw [List.mem_append, not_or] at h
    rw [b.commit h.2, a.commit h.1]
  settings := by
    obtain ⟨a₁, a₂, a₃, a₄⟩ := a.settings
    obtain ⟨b₁, b₂, b₃, b₄⟩ := b.settings
    exact ⟨b₁.trans a₁, b₂.trans a₂, b₃.trans a₃, b₄.trans a₄⟩
  inHoldoff h := by
    obtain ⟨notice, slot⟩ := a.inHoldoff h
    exact ⟨(b.inHoldoff notice).1, (b.inHoldoff notice).2.trans slot⟩
  outside h := b.outside (a.outside h)

theorem Raises.mono {fs gs : List Flag} {s t : State} (h : Raises fs s t) (sub : ∀ f ∈ fs, f ∈ gs) : Raises gs s t where
  flags f k := h.flags f fun m => k (sub f m)
  guards h₁ h₂ h₃ := h.guards (fun m => h₁ (sub _ m)) (fun m => h₂ (sub _ m)) fun m => h₃ (sub _ m)
  ready k := h.ready fun m => k (sub _ m)
  faulted k := h.faulted fun m => k (sub _ m)
  commit k := h.commit fun m => k (sub _ m)
  settings := h.settings
  inHoldoff := h.inHoldoff
  outside := h.outside

/-- Nothing is raised. -/
theorem Raises.nothing {fs : List Flag} {s t : State} (events : t.events = s.events) (slot : t.slot = s.slot) :
    Raises fs s t := (Raises.of_eq events slot).mono nofun

/-- Changes outside the event unit and the notice slot do not matter. -/
theorem Raises.frame {fs : List Flag} {s t s' t' : State} (h : Raises fs s t) (es : s'.events = s.events)
    (ss : s'.slot = s.slot) (et : t'.events = t.events) (st : t'.slot = t.slot) : Raises fs s' t' := by
  have into : Raises [] s' s := .of_eq es.symm ss.symm
  have out : Raises [] t t' := .of_eq et st
  have := (into.and h).and out
  rwa [List.append_nil] at this

theorem Flag.number_injective {f g : Flag} (h : f.number = g.number) : f = g := by
  have all : ∀ f g : Flag, f.number = g.number → f = g := by
    intro f g
    cases f <;> cases g <;> decide
  exact all f g h

theorem Flag.number_lt (f : Flag) : f.number < 17 := by cases f <;> decide

theorem mask_other {f g : Flag} (h : g ≠ f) : f.mask.getLsbD g.number = false := by
  have twoPow : f.mask = BitVec.twoPow 17 f.number := rfl
  have other : ¬f.number = g.number := fun e => h (Flag.number_injective e.symm)
  rw [twoPow, BitVec.getLsbD_twoPow, decide_eq_false other, Bool.and_false]

/-- An announcement raises nothing. -/
theorem announced_raises (s : State) (e : Events) :
    Raises [] { s with events := e } { s with events := (announce e s.slot).1, slot := (announce e s.slot).2 } := by
  by_cases due : e.notice = .quiet ∧ e.pendingSet ≠ 0
  · have sent : announce e s.slot = ({ e with notice := .sent }, s.slot.place) := if_pos due
    rw [sent]
    have notHeld : e.notice ≠ .holdoff := by rw [due.1]; decide
    exact ⟨fun _ _ => rfl, fun _ _ _ => rfl, fun _ => rfl, fun _ => rfl, fun _ => rfl, ⟨rfl, rfl, rfl, rfl⟩,
      fun h => absurd h notHeld, fun _ => (nofun : NoticeState.sent ≠ .holdoff)⟩
  · have same : announce e s.slot = (e, s.slot) := if_neg due
    rw [same]
    exact .of_eq rfl rfl

/-- A raise, from what its detail changes. -/
theorem raiseWith_raises {f : Flag} {detail : Events → Events} {s : State}
    (h : Raises [f] s
      { s with events := { detail s.events with flags := s.events.flags ||| f.mask } }) :
    Raises [f] s (raiseWith f detail s) := by
  have := h.and (announced_raises { s with events := { detail s.events with flags := s.events.flags ||| f.mask } } _)
  rw [List.append_nil] at this
  exact this

theorem raised_other {f g : Flag} (s : State) (h : g ∉ [f]) :
    (s.events.flags ||| f.mask).getLsbD g.number = s.events.flags.getLsbD g.number := by
  rw [BitVec.getLsbD_or, mask_other (fun e => h (List.mem_singleton.mpr e)), Bool.or_false]

theorem raise_raises (f : Flag) (s : State) : Raises [f] s (raise f s) :=
  raiseWith_raises
    ⟨fun _ h => raised_other s h, fun _ _ _ => rfl, fun _ => rfl, fun _ => rfl, fun _ => rfl, ⟨rfl, rfl, rfl, rfl⟩,
      fun h => ⟨h, rfl⟩, fun h => h⟩

theorem raiseReady_raises (n : Line) (s : State) : Raises [.lineReady] s (raiseReady n s) :=
  raiseWith_raises
    ⟨fun _ h => raised_other s h, fun _ _ _ => rfl, fun h => absurd (List.mem_singleton_self _) h, fun _ => rfl,
      fun _ => rfl, ⟨rfl, rfl, rfl, rfl⟩, fun h => ⟨h, rfl⟩, fun h => h⟩

theorem raiseFault_raises (ns : List Line) (s : State) : Raises [.lineFault] s (raiseFault ns s) := by
  unfold raiseFault
  split
  · exact .nothing rfl rfl
  · exact raiseWith_raises
      ⟨fun _ h => raised_other s h, fun _ _ _ => rfl, fun _ => rfl, fun h => absurd (List.mem_singleton_self _) h,
        fun _ => rfl, ⟨rfl, rfl, rfl, rfl⟩, fun h => ⟨h, rfl⟩, fun h => h⟩

theorem raiseCommitDone_raises (d : CommitDetail) (s : State) : Raises [.commitDone] s (raiseCommitDone d s) :=
  raiseWith_raises
    ⟨fun _ h => raised_other s h, fun _ _ _ => rfl, fun _ => rfl, fun _ => rfl,
      fun h => absurd (List.mem_singleton_self _) h, ⟨rfl, rfl, rfl, rfl⟩, fun h => ⟨h, rfl⟩, fun h => h⟩

/-- The three guard flags. -/
def guardFlags : List Flag := [.guardStep, .guardMute, .guardRelease]

theorem raiseGuard_raises {f : Flag} (hf : f ∈ guardFlags) (c : Output) (s : State) :
    Raises guardFlags s (raiseGuard f c s) := by
  have detail : Raises guardFlags s
      { s with
        events :=
          { s.events with
            guardOutputs := s.events.guardOutputs ||| 1#32 <<< c.val, flags := s.events.flags ||| f.mask } } := by
    refine ⟨fun g h => raised_other s fun k => h (by rwa [List.mem_singleton.mp k]), fun h _ _ => ?_, fun _ => rfl,
      fun _ => rfl, fun _ => rfl, ⟨rfl, rfl, rfl, rfl⟩, fun h => ⟨h, rfl⟩, fun h => h⟩
    exact absurd List.mem_cons_self h
  have := detail.and (announced_raises
    { s with
      events :=
        { s.events with
          guardOutputs := s.events.guardOutputs ||| 1#32 <<< c.val, flags := s.events.flags ||| f.mask } } _)
  rw [List.append_nil] at this
  exact this

/-- The flag raised is set, and stays set. -/
theorem raised_flag (f : Flag) (detail : Events → Events) (s : State) :
    (raiseWith f detail s).events.flags.getLsbD f.number = true := by
  rw [raiseWith_flags, BitVec.getLsbD_or, mask_number, Bool.or_true]

/-! ### The stages -/

/-- The return that has left, the block end and the clip mutes. -/
def guardClosed (u : State) : State := clipsAtEnd (blockAtEnd (returnLeaves u))

/-- The faults of lines and the end of clearing. -/
def linesClosed (u : State) : State := clearingAtEnd (takeFaults (fun _ => true) (guardClosed u))

/-- The fade's step or end. -/
def fadeClosed (u : State) : State := fadeAtEnd (linesClosed u)

/-- The mute ramps and the node ramp. -/
def rampsClosed (u : State) : State := rampAtEnd (muteRampsAtEnd (fadeClosed u))

/-- The sweep's end or move. -/
def sweepClosed (u : State) : State := sweepAtEnd (rampsClosed u)

/-- The start-up limit. -/
def limitClosed (u : State) : State := limitAtEnd (sweepClosed u)

/-- The end of sizing. -/
def sizingClosed (u : State) : State := sizingAtEnd (limitClosed u)

/-- The abandonment of the guard block and the holdoff timer: all but the last step. -/
def allClosed (u : State) : State := holdoffTick (abandonAtEnd (sizingClosed u))

theorem beforeSampling_eq (s : State) : beforeSampling s = allClosed (runReady (startOwn s)) := rfl

/-! ### The period through the stages -/

/-- What the close leaves of the period: all but the clip mutes still due and three marks. -/
def PeriodGoes (p q : Period) : Prop :=
  q = { p with clipDue := q.clipDue, blockDone := q.blockDone, leftRun := q.leftRun, rampDone := q.rampDone }

theorem PeriodGoes.refl (p : Period) : PeriodGoes p p := rfl

theorem PeriodGoes.trans {p q r : Period} (a : PeriodGoes p q) (b : PeriodGoes q r) : PeriodGoes p r := by
  unfold PeriodGoes at *
  rw [a] at b
  exact b

/-! ### What the stages raise -/

theorem makeFaulted_raises (ns : List Line) (s : State) : Raises [.lineFault] s (makeFaulted ns s) := by
  have lines (ls : Vector LineRec 64) (m : MemCtl) (h : Raises [.lineFault] { s with lines := ls, mem := m }
      (raiseFault ns { s with lines := ls, mem := m })) :
      Raises [.lineFault] s (raiseFault ns { s with lines := ls, mem := m }) := h.frame rfl rfl rfl rfl
  exact lines _ _ (raiseFault_raises ns _)

theorem takeFaults_raises (f : Line → Bool) (s : State) : Raises [.lineFault] s (takeFaults f s) := by
  unfold takeFaults
  split
  · exact makeFaulted_raises _ s
  · exact .nothing rfl rfl

theorem clearingAtEnd_raises (s : State) : Raises [.lineReady] s (clearingAtEnd s) := by
  unfold clearingAtEnd clearingEnds
  split
  · split
    · exact (raiseReady_raises _ _).frame rfl rfl rfl rfl
    · exact .nothing rfl rfl
  · exact .nothing rfl rfl

theorem fadeAtEnd_raises (s : State) : Raises [.commitDone] s (fadeAtEnd s) := by
  unfold fadeAtEnd
  split
  · exact (raiseCommitDone_raises _ _).frame rfl rfl rfl rfl
  · split
    · exact (raiseCommitDone_raises _ _).frame rfl rfl rfl rfl
    · split
      · exact .nothing rfl rfl
      · exact .nothing rfl rfl

theorem muteRampsAtEnd_raises (s : State) : Raises [] s (muteRampsAtEnd s) := by
  rw [muteRampsAtEnd_same]
  exact .of_eq rfl rfl

theorem rampAtEnd_raises (s : State) : Raises [] s (rampAtEnd s) := by
  rw [rampAtEnd_same]
  exact .of_eq rfl rfl

theorem sweepAtEnd_raises (s : State) : Raises [.sweepDone] s (sweepAtEnd s) := by
  unfold sweepAtEnd
  split
  · exact (raise_raises _ _).frame rfl rfl rfl rfl
  · unfold sweepMoves
    split
    · exact .nothing rfl rfl
    · exact .nothing rfl rfl

theorem linkEvent_raises (s : State) : Raises [.commitLost] s (linkEvent s) := by
  unfold linkEvent
  split
  · exact (raise_raises _ _).frame rfl rfl rfl rfl
  · exact .nothing rfl rfl

theorem causesChanged_raises (s : State) : Raises [] s (causesChanged s) := by
  rw [causesChanged_same]
  exact .of_eq rfl rfl

theorem limitAtEnd_raises (s : State) : Raises [.linkLost, .commitLost] s (limitAtEnd s) := by
  unfold limitAtEnd
  split
  · unfold startUpEnds lostSet
    have lost := raise_raises .linkLost
      { s with link := { s.link with startUp := false, lost := true, restorePending := true } }
    exact ((lost.and (linkEvent_raises _)).and (causesChanged_raises _)).frame rfl rfl rfl rfl
  · exact .nothing rfl rfl

theorem sizingAtEnd_raises (s : State) : Raises [] s (sizingAtEnd s) := by
  rw [sizingAtEnd_same]
  exact .of_eq rfl rfl

end Sys2Proof.Machine
end

section
/-! SUPPORT. The guard's events in the close of a frame period (R79 to R83, R86, R151): the block end and the clip mutes,
record by record, with the flags, the guard-output set and the capture's trigger that follow them. -/

namespace Sys2Proof.Machine

/-! ### A list of guard events -/

/-- A guard event meets a trigger (R83, R151). -/
def eventMeets (t : Trigger) (x : Output × Flag) : Bool := ((guardOffer x.2 x.1).map t.matches).getD false

/-- `t` is `s` after some guard events, the records apart: each raised, its output in the guard-output set, and each offered
to the capture recorder. -/
structure GuardEvents (evs : List (Output × Flag)) (s t : State) : Prop where
  raises : Raises guardFlags s t
  flags : ∀ f ∈ guardFlags,
    (t.events.flags.getLsbD f.number = true ↔ s.events.flags.getLsbD f.number = true ∨ ∃ c, (c, f) ∈ evs)
  outputs : ∀ c : Output,
    (t.events.guardOutputs.getLsbD c.val = true ↔ s.events.guardOutputs.getLsbD c.val = true ∨ ∃ f, (c, f) ∈ evs)
  capture : ∀ p : Period, s.period = some p →
    t.capture =
      if evs.any (eventMeets s.capture.setUp.trigger) = true then triggered p.processed p.seq s.capture else s.capture
  period : ∀ p : Period, s.period = some p →
    ∃ q, t.period = some q ∧ q.processed = p.processed ∧ q.seq = p.seq

theorem GuardEvents.nothing {s t : State} (events : t.events = s.events) (slot : t.slot = s.slot)
    (capture : t.capture = s.capture)
    (period : ∀ p : Period, s.period = some p → ∃ q, t.period = some q ∧ q.processed = p.processed ∧ q.seq = p.seq) :
    GuardEvents [] s t where
  raises := .nothing events slot
  flags f _ := by simp [events]
  outputs c := by simp [events]
  capture p _ := by simp [capture]
  period := period

theorem triggered_setUp (processed : Bool) (seq : Seq) (c : Capture) : (triggered processed seq c).setUp = c.setUp := by
  unfold triggered
  split
  · rfl
  · rfl

/-- A trigger taken once is not taken again. -/
theorem triggered_again (processed : Bool) (seq : Seq) (c : Capture) :
    triggered processed seq (triggered processed seq c) = triggered processed seq c := by
  by_cases due : processed = true ∧ (c.state = .waiting ∨ c.state = .rolling)
  · have post : (triggered processed seq c).state = .post := by
      unfold triggered
      rw [if_pos due]
    have over_ : ¬(processed = true ∧
        ((triggered processed seq c).state = .waiting ∨ (triggered processed seq c).state = .rolling)) := by
      rw [post]
      simp
    exact if_neg over_
  · have same : triggered processed seq c = c := if_neg due
    rw [same, same]

theorem GuardEvents.and {e₁ e₂ : List (Output × Flag)} {s t u : State} (a : GuardEvents e₁ s t) (b : GuardEvents e₂ t u) :
    GuardEvents (e₁ ++ e₂) s u where
  raises := (a.raises.and b.raises).mono (by simp)
  flags f hf := by
    rw [b.flags f hf, a.flags f hf, or_assoc]
    simp only [List.mem_append, exists_or]
  outputs c := by
    rw [b.outputs c, a.outputs c, or_assoc]
    simp only [List.mem_append, exists_or]
  capture p hp := by
    obtain ⟨q, hq, processed, seq⟩ := a.period p hp
    have first := a.capture p hp
    have setUp : t.capture.setUp = s.capture.setUp := by
      rw [first]
      split
      · exact triggered_setUp _ _ _
      · rfl
    rw [b.capture q hq, processed, seq, setUp, first, List.any_append]
    cases e₁.any (eventMeets s.capture.setUp.trigger) with
    | false =>
      rw [Bool.false_or]
      rfl
    | true => simp [triggered_again]
  period p hp := by
    obtain ⟨q, hq, processed, seq⟩ := a.period p hp
    obtain ⟨r, hr, processed', seq'⟩ := b.period q hq
    exact ⟨r, hr, processed'.trans processed, seq'.trans seq⟩

/-! ### One guard event -/

/-- An offer taken in a frame period. -/
theorem offerNow_capture {s : State} {p : Period} (hp : s.period = some p) (o : Offer) :
    (offerNow o s).capture =
      if s.capture.setUp.trigger.matches o = true then triggered p.processed p.seq s.capture else s.capture := by
  have processed : periodProcessed s = p.processed := by
    unfold periodProcessed
    rw [hp]
    rfl
  have seq : periodSeq s = p.seq := by
    unfold periodSeq
    rw [hp]
    rfl
  show s.capture.offer (periodProcessed s) (periodSeq s) o = _
  unfold Capture.offer
  rw [processed, seq]
  cases s.capture.setUp.trigger.matches o with
  | false => simp
  | true =>
    cases hc : p.processed with
    | false => simp [triggered]
    | true =>
      have taken : s.capture.take p.seq = triggered true p.seq s.capture := by
        unfold triggered
        by_cases state : s.capture.state = .waiting ∨ s.capture.state = .rolling
        · rw [if_pos ⟨rfl, state⟩]
          exact take_waitingOrRolling state p.seq
        · rw [if_neg fun h => state h.2]
          unfold Capture.take
          split
          · next h => exact absurd (Or.inl h) state
          · next h => exact absurd (Or.inr h) state
          · rfl
      simp [taken]

theorem guardEvent_period (f : Flag) (c : Output) (s : State) : (guardEvent f c s).period = s.period := by
  rw [guardEvent_same]

theorem guardEvent_guard (f : Flag) (c : Output) (s : State) : (guardEvent f c s).guard = s.guard := by
  rw [guardEvent_same]

theorem guardEvent_capture {f : Flag} {c : Output} {s : State} {p : Period} (hp : s.period = some p) :
    (guardEvent f c s).capture =
      if eventMeets s.capture.setUp.trigger (c, f) = true then triggered p.processed p.seq s.capture else s.capture := by
  unfold guardEvent eventMeets
  cases guardOffer f c with
  | none => rfl
  | some o => exact offerNow_capture (s := raiseGuard f c s) hp o

theorem announced (e : Events) (n : NoticeSlot) :
    (announce e n).1.flags = e.flags ∧ (announce e n).1.guardOutputs = e.guardOutputs := by
  unfold announce
  split
  · exact ⟨rfl, rfl⟩
  · exact ⟨rfl, rfl⟩

theorem guardEvent_events {f : Flag} (hf : f ∈ guardFlags) (c : Output) (s : State) :
    GuardEvents [(c, f)] s (guardEvent f c s) where
  raises := (raiseGuard_raises hf c s).frame rfl rfl (by rw [guardEvent_same]) (by rw [guardEvent_same])
  flags g hg := by
    have flags : (guardEvent f c s).events.flags = s.events.flags ||| f.mask := by
      rw [guardEvent_same]
      exact (announced _ _).1
    rw [flags, BitVec.getLsbD_or, Bool.or_eq_true]
    by_cases same : g = f
    · subst same
      simp [mask_number]
    · simp [mask_other same, same]
  outputs d := by
    have outputs : (guardEvent f c s).events.guardOutputs = s.events.guardOutputs ||| 1#32 <<< c.val := by
      rw [guardEvent_same]
      exact (announced _ _).2
    have bit_ : 1#32 <<< c.val = BitVec.twoPow 32 c.val := rfl
    rw [outputs, bit_, BitVec.getLsbD_or, Bool.or_eq_true, BitVec.getLsbD_twoPow, decide_eq_true c.isLt, Bool.true_and,
      decide_eq_true_eq]
    refine or_congr Iff.rfl ⟨fun same => ⟨f, ?_⟩, fun ⟨g, h⟩ => ?_⟩
    · rw [Fin.ext same]
      exact List.mem_singleton_self _
    · rw [(Prod.mk.inj (List.mem_singleton.mp h)).1]
  capture p hp := by
    rw [guardEvent_capture hp]
    simp
  period p hp := ⟨p, (guardEvent_period f c s).trans hp, rfl, rfl⟩

/-! ### The block end (R79 to R81) -/

theorem judge_guardFlag {p : Profile} {g : GuardRec} {f : Flag} (h : (g.judge p).2 = some f) : f ∈ guardFlags := by
  unfold guardFlags
  simpa using judge_flag p g f h

/-- The judgement of an output in a state. -/
def judgedIn (s : State) (c : Output) : GuardRec × Option Flag := (s.guard.outputs[c]).judge (inForce s c)

theorem judgeOutput_guard (s : State) (c : Output) :
    (judgeOutput s c).guard = { s.guard with outputs := s.guard.outputs.set c (judgedIn s c).1 } := by
  unfold judgeOutput
  dsimp only
  split
  · rw [guardEvent_guard]
    rfl
  · rfl

theorem judgeOutput_period (s : State) (c : Output) : (judgeOutput s c).period = s.period := by
  unfold judgeOutput
  dsimp only
  split
  · rw [guardEvent_period]
  · rfl

/-- The event of one output's judgement, if it has one. -/
def judgeEvents (s : State) (c : Output) : List (Output × Flag) := ((judgedIn s c).2.map fun f => (c, f)).toList

theorem judgeOutput_events (s : State) (c : Output) : GuardEvents (judgeEvents s c) s (judgeOutput s c) := by
  unfold judgeOutput judgeEvents
  have same : (s.guard.outputs[c]).judge (inForce s c) = judgedIn s c := rfl
  dsimp only
  rw [same]
  cases hj : (judgedIn s c).2 with
  | none => exact .nothing rfl rfl rfl fun p hp => ⟨p, hp, rfl, rfl⟩
  | some f =>
    have records := GuardEvents.nothing (s := s)
      (t := { s with guard := { s.guard with outputs := s.guard.outputs.set c (judgedIn s c).1 } }) rfl rfl rfl
      fun p hp => ⟨p, hp, rfl, rfl⟩
    exact records.and (guardEvent_events (judge_guardFlag hj) c _)

/-- Another output's judgement leaves an output's. -/
theorem judgedIn_judgeOutput {s : State} {c d : Output} (h : d ≠ c) : judgedIn (judgeOutput s c) d = judgedIn s d := by
  have record : (judgeOutput s c).guard.outputs[d] = s.guard.outputs[d] := by
    rw [judgeOutput_guard]
    exact Vector.getElem_set_ne c.isLt d.isLt fun e => h (Fin.ext e.symm)
  have profiles : (judgeOutput s c).guard.profiles = s.guard.profiles := by rw [judgeOutput_guard]
  have scenes : (judgeOutput s c).scenes = s.scenes := by rw [← judgeOutput_same]; rfl
  have changer : (judgeOutput s c).changer = s.changer := by rw [← judgeOutput_same]; rfl
  unfold judgedIn inForce
  rw [record]
  simp only [profiles, scenes, changer]

/-- The judgement of some outputs, each once. -/
structure Judged (l : List Output) (s t : State) : Prop where
  events : GuardEvents (l.flatMap (judgeEvents s)) s t
  records : ∀ c : Output, t.guard.outputs[c] = if c ∈ l then (judgedIn s c).1 else s.guard.outputs[c]
  profiles : t.guard.profiles = s.guard.profiles
  blockCount : t.guard.blockCount = s.guard.blockCount
  period : t.period = s.period

theorem judgeOutputs_judged (l : List Output) (once : l.Nodup) (s : State) : Judged l s (l.foldl judgeOutput s) := by
  induction l generalizing s with
  | nil =>
    exact ⟨.nothing rfl rfl rfl fun p hp => ⟨p, hp, rfl, rfl⟩, fun c => (if_neg List.not_mem_nil).symm, rfl, rfl, rfl⟩
  | cons c l ih =>
    obtain ⟨new, once⟩ := List.nodup_cons.mp once
    have rest := ih once (judgeOutput s c)
    have later (d : Output) (h : d ∈ l) : judgedIn (judgeOutput s c) d = judgedIn s d :=
      judgedIn_judgeOutput fun e => new (e ▸ h)
    refine ⟨?_, fun d => ?_, ?_, ?_, ?_⟩
    · have same : l.flatMap (judgeEvents (judgeOutput s c)) = l.flatMap (judgeEvents s) :=
        List.flatMap_congr fun d h => by
          unfold judgeEvents
          rw [later d h]
      have := rest.events
      rw [same] at this
      exact (judgeOutput_events s c).and this
    · rw [List.foldl_cons, rest.records]
      by_cases h : d ∈ l
      · rw [if_pos h, if_pos (List.mem_cons_of_mem _ h), later d h]
      · rw [if_neg h, judgeOutput_guard]
        by_cases here : d = c
        · subst here
          rw [if_pos List.mem_cons_self]
          exact Vector.getElem_set_self _
        · rw [if_neg fun k => (List.mem_cons.mp k).elim here h]
          exact Vector.getElem_set_ne c.isLt d.isLt fun e => here (Fin.ext e.symm)
    · rw [List.foldl_cons, rest.profiles, judgeOutput_guard]
    · rw [List.foldl_cons, rest.blockCount, judgeOutput_guard]
    · rw [List.foldl_cons, rest.period, judgeOutput_period]

theorem judgedOutputs_once (s : State) : (judgedOutputs s).Nodup := (List.nodup_finRange 32).filter _

theorem mem_judgedOutputs {s : State} {p : Period} (hp : s.period = some p) (c : Output) :
    c ∈ judgedOutputs s ↔ c ∉ p.released := by
  unfold judgedOutputs allOutputs
  rw [List.mem_filter, hp]
  simp

theorem judgedAt_eq {s : State} {p : Period} (hp : s.period = some p) (c : Output) :
    judgedAt s p c = if c ∈ judgedOutputs s then judgedIn s c else (s.guard.outputs[c], none) := by
  unfold judgedAt
  by_cases released : c ∈ p.released
  · rw [if_pos released, if_neg fun h => (mem_judgedOutputs hp c).mp h released]
  · rw [if_neg released, if_pos ((mem_judgedOutputs hp c).mpr released)]
    rfl

theorem mem_judgeEvents {s : State} {p : Period} (hp : s.period = some p) (c : Output) (f : Flag) :
    (c, f) ∈ (judgedOutputs s).flatMap (judgeEvents s) ↔ (judgedAt s p c).2 = some f := by
  have one (d : Output) : (c, f) ∈ judgeEvents s d ↔ d = c ∧ (judgedIn s d).2 = some f := by
    unfold judgeEvents
    cases (judgedIn s d).2 with
    | none => simp
    | some g =>
      simp only [Option.map_some, Option.toList_some, List.mem_singleton, Prod.mk.injEq, Option.some.injEq]
      exact and_congr eq_comm eq_comm
  rw [List.mem_flatMap, judgedAt_eq hp]
  by_cases judged : c ∈ judgedOutputs s
  · rw [if_pos judged]
    refine ⟨fun ⟨d, _, h⟩ => ?_, fun h => ⟨c, judged, (one c).mpr ⟨rfl, h⟩⟩⟩
    obtain ⟨rfl, event⟩ := (one d).mp h
    exact event
  · rw [if_neg judged]
    refine ⟨fun ⟨d, hd, h⟩ => ?_, fun h => by cases h⟩
    obtain ⟨rfl, _⟩ := (one d).mp h
    exact absurd hd judged

/-- What a block end does to the guard, the events and the period. -/
structure BlockEnded (p : Period) (s t : State) : Prop where
  events : GuardEvents ((judgedOutputs s).flatMap (judgeEvents s)) s t
  records : ∀ c : Output, t.guard.outputs[c] = { (judgedAt s p c).1 with peak := 0 }
  profiles : t.guard.profiles = s.guard.profiles
  blockCount : t.guard.blockCount = 0
  period : t.period = some { p with blockDone := true }

theorem abandon_record (g : Guard) (c : Output) : g.abandon.outputs[c] = { g.outputs[c] with peak := 0 } :=
  Vector.getElem_map _ _

theorem blockEnds_ended {s : State} {p : Period} (hp : s.period = some p) : BlockEnded p s (blockEnds s) := by
  have judged := judgeOutputs_judged (judgedOutputs s) (judgedOutputs_once s) s
  have same : blockEnds s =
      { (judgedOutputs s).foldl judgeOutput s with
        guard := { ((judgedOutputs s).foldl judgeOutput s).guard with blockCount := 0 }.abandon
        period := ((judgedOutputs s).foldl judgeOutput s).period.map fun q => { q with blockDone := true } } := rfl
  generalize hj : (judgedOutputs s).foldl judgeOutput s = j at judged same
  have period : j.period = some p := judged.period.trans hp
  refine ⟨?_, fun c => ?_, ?_, ?_, ?_⟩
  · have marked : GuardEvents [] j (blockEnds s) := by
      rw [same]
      refine .nothing rfl rfl rfl fun q hq => ⟨{ q with blockDone := true }, ?_, rfl, rfl⟩
      show j.period.map _ = _
      rw [hq]
      rfl
    have := judged.events.and marked
    rwa [List.append_nil] at this
  · rw [same, judgedAt_eq hp]
    show Guard.abandon _ |>.outputs[c] = _
    rw [abandon_record]
    show { j.guard.outputs[c] with peak := 0 } = _
    rw [judged.records c]
    by_cases h : c ∈ judgedOutputs s
    · rw [if_pos h, if_pos h]
    · rw [if_neg h, if_neg h]
  · rw [same]
    exact judged.profiles
  · rw [same]
    rfl
  · rw [same]
    show j.period.map _ = _
    rw [period]
    rfl

/-- The block's part in the close (R78, R79). -/
structure BlockClosed (p : Period) (s t : State) : Prop where
  events : ∃ evs, GuardEvents evs s t ∧ ∀ c f, (c, f) ∈ evs ↔ (blockJudged s p c).2 = some f
  records : ∀ c : Output,
    t.guard.outputs[c] =
      if BlockDue s p then { (blockJudged s p c).1 with peak := 0 } else (blockJudged s p c).1
  profiles : t.guard.profiles = s.guard.profiles
  blockCount : t.guard.blockCount =
    if BlockDue s p then 0
    else if p.counts = true ∧ p.blockDone = false then s.guard.blockCount + 1 else s.guard.blockCount
  period : t.period = some { p with blockDone := p.blockDone || p.counts }

theorem blockStepDue_iff {s : State} {p : Period} (hp : s.period = some p) :
    blockStepDue s = true ↔ p.counts = true ∧ p.blockDone = false := by
  unfold blockStepDue
  rw [hp]
  simp

theorem blockEndDue_iff {s : State} {p : Period} (hp : s.period = some p) : blockEndDue s = true ↔ BlockDue s p := by
  unfold blockEndDue
  rw [Bool.and_eq_true, blockStepDue_iff hp, decide_eq_true_iff, and_assoc]

theorem blockAtEnd_closed {s : State} {p : Period} (hp : s.period = some p) : BlockClosed p s (blockAtEnd s) := by
  unfold blockAtEnd
  by_cases due : BlockDue s p
  · have judged (c : Output) : blockJudged s p c = judgedAt s p c := if_pos due
    have ended := blockEnds_ended hp
    rw [if_pos ((blockEndDue_iff hp).mpr due)]
    refine ⟨⟨_, ended.events, fun c f => ?_⟩, fun c => ?_, ended.profiles, ?_, ?_⟩
    · rw [judged, mem_judgeEvents hp]
    · rw [if_pos due, judged, ended.records]
    · rw [if_pos due, ended.blockCount]
    · rw [ended.period, due.1, due.2.1]
      rfl
  · have judged (c : Output) : blockJudged s p c = (s.guard.outputs[c], none) := if_neg due
    rw [if_neg fun h => due ((blockEndDue_iff hp).mp h)]
    have noEvents (c : Output) (f : Flag) : (c, f) ∈ ([] : List (Output × Flag)) ↔ (blockJudged s p c).2 = some f := by
      rw [judged]
      simp
    by_cases step : p.counts = true ∧ p.blockDone = false
    · rw [if_pos ((blockStepDue_iff hp).mpr step)]
      have marked : (countBlock (s.guard.blockCount + 1) s).period = some { p with blockDone := true } := by
        show s.period.map _ = _
        rw [hp]
        rfl
      refine ⟨⟨[], .nothing rfl rfl rfl fun q hq => ⟨_, marked, ?_⟩, noEvents⟩, fun c => ?_, rfl, ?_, ?_⟩
      · obtain rfl : p = q := Option.some.inj (hp.symm.trans hq)
        exact ⟨rfl, rfl⟩
      · rw [if_neg due, judged]
        rfl
      · rw [if_neg due, if_pos step]
        rfl
      · rw [marked, step.1, step.2]
        rfl
    · rw [if_neg fun h => step ((blockStepDue_iff hp).mp h)]
      refine ⟨⟨[], .nothing rfl rfl rfl fun q hq => ⟨q, hq, rfl, rfl⟩, noEvents⟩, fun c => ?_, rfl, ?_, ?_⟩
      · rw [if_neg due, judged]
      · rw [if_neg due, if_neg step]
      · have done : (p.blockDone || p.counts) = p.blockDone := by
          cases hc : p.counts with
          | false => exact Bool.or_false _
          | true =>
            have : p.blockDone = true := by simpa [hc] using step
            rw [this]
            rfl
        rw [hp, done]

/-! ### The clip mutes (R82) -/

theorem clipMuteDue_iff {s : State} {p : Period} (hp : s.period = some p) (c : Output) :
    clipMuteDue c s = true ↔ c ∈ p.clipDue ∧ (s.guard.outputs[c]).state ≠ .muted := by
  unfold clipMuteDue
  rw [hp]
  simp

/-- One output's clip mute, where it is due. -/
def clipStep (s : State) (c : Output) : State := if clipMuteDue c s then clipMutes c s else s

theorem clipMutes_guard (c : Output) (s : State) :
    (clipMutes c s).guard =
      { s.guard with outputs := s.guard.outputs.set c { s.guard.outputs[c] with state := .muted, cause := some .clip } } := by
  unfold clipMutes
  rw [guardEvent_guard]
  rfl

theorem clipMutes_period (c : Output) (s : State) :
    (clipMutes c s).period = s.period.map fun p => { p with clipDue := p.clipDue.filter fun d => d != c } := by
  unfold clipMutes
  rw [guardEvent_period]

theorem clipMutes_events (c : Output) (s : State) : GuardEvents [(c, .guardMute)] s (clipMutes c s) := by
  unfold clipMutes
  have records : GuardEvents [] s
      { s with
        guard := { s.guard with outputs := update s.guard.outputs c (GuardRec.mute .clip) }
        period := s.period.map fun p => { p with clipDue := p.clipDue.filter fun d => d != c } } :=
    .nothing rfl rfl rfl fun p hp => ⟨{ p with clipDue := p.clipDue.filter fun d => d != c }, by
      show s.period.map _ = _
      rw [hp]
      rfl, rfl, rfl⟩
  exact records.and (guardEvent_events (by decide) c _)

/-- What one output's clip mute leaves. -/
theorem clipStep_other {s : State} {p : Period} (hp : s.period = some p) {c d : Output} (h : d ≠ c) :
    ∃ clipDue,
      (clipStep s c).period = some { p with clipDue } ∧ (d ∈ clipDue ↔ d ∈ p.clipDue) ∧
        (clipStep s c).guard.outputs[d] = s.guard.outputs[d] := by
  by_cases due : clipMuteDue c s = true
  · have step : clipStep s c = clipMutes c s := if_pos due
    refine ⟨p.clipDue.filter fun d => d != c, ?_, ?_, ?_⟩
    · rw [step, clipMutes_period, hp]
      rfl
    · rw [List.mem_filter]
      simp [h]
    · rw [step, clipMutes_guard]
      exact Vector.getElem_set_ne c.isLt d.isLt fun e => h (Fin.ext e.symm)
  · have step : clipStep s c = s := if_neg due
    rw [step]
    exact ⟨p.clipDue, hp, Iff.rfl, rfl⟩

/-- The clip mutes of some outputs, each once. -/
structure ClipsMuted (p : Period) (l : List Output) (s t : State) : Prop where
  events : ∃ evs, GuardEvents evs s t ∧ ∀ c f, (c, f) ∈ evs ↔ f = .guardMute ∧ c ∈ l ∧ clipMuteDue c s = true
  records : ∀ c : Output,
    t.guard.outputs[c] =
      if c ∈ l ∧ clipMuteDue c s = true then { s.guard.outputs[c] with state := .muted, cause := some .clip }
      else s.guard.outputs[c]
  profiles : t.guard.profiles = s.guard.profiles
  blockCount : t.guard.blockCount = s.guard.blockCount
  period : ∃ clipDue, t.period = some { p with clipDue }

theorem clipSteps_muted (l : List Output) (once : l.Nodup) {s : State} {p : Period} (hp : s.period = some p) :
    ClipsMuted p l s (l.foldl clipStep s) := by
  induction l generalizing s p with
  | nil =>
    exact ⟨⟨[], .nothing rfl rfl rfl fun p hp => ⟨p, hp, rfl, rfl⟩, by simp⟩, fun c => (if_neg (by simp)).symm, rfl, rfl,
      p.clipDue, hp⟩
  | cons c l ih =>
    obtain ⟨new, once⟩ := List.nodup_cons.mp once
    obtain ⟨due₁, period₁⟩ : ∃ clipDue, (clipStep s c).period = some { p with clipDue } := by
      unfold clipStep
      split
      · exact ⟨_, by rw [clipMutes_period, hp]; rfl⟩
      · exact ⟨p.clipDue, hp⟩
    have rest := ih once period₁
    have later (d : Output) (h : d ≠ c) : clipMuteDue d (clipStep s c) = clipMuteDue d s := by
      obtain ⟨due, period, mem, record⟩ := clipStep_other hp h
      rw [Bool.eq_iff_iff, clipMuteDue_iff period, clipMuteDue_iff hp, record]
      exact and_congr_left' mem
    have apart (d : Output) (h : d ∈ l) : d ≠ c := fun e => new (e ▸ h)
    obtain ⟨evs, events, mem⟩ := rest.events
    have guard : (clipStep s c).guard.profiles = s.guard.profiles ∧ (clipStep s c).guard.blockCount = s.guard.blockCount := by
      unfold clipStep
      split
      · rw [clipMutes_guard]
        exact ⟨rfl, rfl⟩
      · exact ⟨rfl, rfl⟩
    refine ⟨⟨(if clipMuteDue c s = true then [(c, .guardMute)] else []) ++ evs, ?_, fun d f => ?_⟩, fun d => ?_, ?_, ?_, ?_⟩
    · refine GuardEvents.and ?_ events
      unfold clipStep
      split
      · exact clipMutes_events c s
      · exact .nothing rfl rfl rfl fun p hp => ⟨p, hp, rfl, rfl⟩
    · rw [List.mem_append, mem, List.mem_cons]
      by_cases here : d = c
      · subst here
        by_cases due : clipMuteDue d s = true
        · simp [due, new]
        · simp [due, new]
      · rw [later d here]
        by_cases due : clipMuteDue c s = true
        · simp [due, here]
        · simp [due, here]
    · rw [List.foldl_cons, rest.records]
      by_cases here : d = c
      · subst here
        rw [if_neg fun h => new h.1]
        unfold clipStep
        by_cases due : clipMuteDue d s = true
        · rw [if_pos due, if_pos ⟨List.mem_cons_self, due⟩, clipMutes_guard]
          exact Vector.getElem_set_self _
        · rw [if_neg due, if_neg fun h => due h.2]
      · obtain ⟨_, _, _, record⟩ := clipStep_other hp here
        rw [later d here, record]
        refine if_congr ?_ rfl rfl
        rw [List.mem_cons, or_iff_right here]
    · rw [List.foldl_cons, rest.profiles, guard.1]
    · rw [List.foldl_cons, rest.blockCount, guard.2]
    · exact rest.period

theorem clipsAtEnd_muted {s : State} {p : Period} (hp : s.period = some p) :
    ClipsMuted p allOutputs s (clipsAtEnd s) := clipSteps_muted allOutputs (List.nodup_finRange 32) hp

/-! ### The guard's part of the close -/

/-- An output's record as the guard's part of the close leaves it. -/
def closedRecord (u : State) (p : Period) (c : Output) : GuardRec :=
  let a := if BlockDue u p then { (blockJudged u p c).1 with peak := 0 } else (blockJudged u p c).1
  if clipMutedAt u p c = true then { a with state := .muted, cause := some .clip } else a

/-- The guard's part of the close: the block end and the clip mutes. -/
structure GuardClosed (p : Period) (u t : State) : Prop where
  events : ∃ evs, GuardEvents evs u t ∧
    ∀ c f, (c, f) ∈ evs ↔ (blockJudged u p c).2 = some f ∨ (f = .guardMute ∧ clipMutedAt u p c = true)
  records : ∀ c : Output, t.guard.outputs[c] = closedRecord u p c
  profiles : t.guard.profiles = u.guard.profiles
  blockCount : t.guard.blockCount =
    if BlockDue u p then 0
    else if p.counts = true ∧ p.blockDone = false then u.guard.blockCount + 1 else u.guard.blockCount
  period : ∃ clipDue, t.period = some { p with clipDue, blockDone := p.blockDone || p.counts }

theorem guardStages_closed {v : State} {p : Period} (hp : v.period = some p) :
    GuardClosed p v (clipsAtEnd (blockAtEnd v)) := by
  have block := blockAtEnd_closed hp
  have clips := clipsAtEnd_muted block.period
  obtain ⟨evs₁, events₁, mem₁⟩ := block.events
  obtain ⟨evs₂, events₂, mem₂⟩ := clips.events
  have muted (c : Output) : clipMuteDue c (blockAtEnd v) = clipMutedAt v p c := by
    have record := block.records c
    rw [Bool.eq_iff_iff, clipMuteDue_iff block.period, record]
    unfold clipMutedAt
    rw [Bool.and_eq_true, decide_eq_true_iff, bne_iff_ne]
    by_cases due : BlockDue v p
    · rw [if_pos due]
    · rw [if_neg due]
  refine ⟨⟨evs₁ ++ evs₂, events₁.and events₂, fun c f => ?_⟩, fun c => ?_, ?_, ?_, clips.period⟩
  · rw [List.mem_append, mem₁, mem₂, muted]
    simp [allOutputs]
  · rw [clips.records, block.records, muted]
    unfold closedRecord
    simp [allOutputs]
  · rw [clips.profiles, block.profiles]
  · rw [clips.blockCount, block.blockCount]

/-- The return that leaves changes nothing for the guard. -/
theorem guardClosed_closed {u : State} {p : Period} (hp : u.period = some p) : GuardClosed p u (guardClosed u) := by
  obtain ⟨a, ha⟩ : ∃ a, returnLeaves u = { u with arbiter := a } := ⟨_, returnLeaves_same u⟩
  obtain ⟨⟨evs, events, mem⟩, records, profiles, blockCount, period⟩ :=
    guardStages_closed (v := { u with arbiter := a }) hp
  unfold guardClosed
  rw [ha]
  exact ⟨⟨evs, ⟨events.raises.frame rfl rfl rfl rfl, events.flags, events.outputs, events.capture, events.period⟩, mem⟩,
    records, profiles, blockCount, period⟩

theorem guardStages_same (v : State) : overGuard v (clipsAtEnd (blockAtEnd v)) = clipsAtEnd (blockAtEnd v) :=
  overGuard_trans v (blockAtEnd v) (clipsAtEnd (blockAtEnd v)) (clipsAtEnd_same (blockAtEnd v)) (blockAtEnd_same v)

/-- The guard's part of the close leaves everything else but the return queue. -/
theorem guardClosed_same (u : State) : overGuard (returnLeaves u) (guardClosed u) = guardClosed u :=
  guardStages_same (returnLeaves u)

/-! ### The trigger of the close (R151) -/

/-- The triggers that an offered GUARD-STEP meets. -/
theorem matches_guardStep (t : Trigger) (c : Output) :
    t.matches (.guardStep c) = true ↔ t = .guardStep c ∨ t = .anyGuard := by
  cases t with
  | guardStep d =>
    show (d == c) = true ↔ _
    rw [beq_iff_eq, Trigger.guardStep.injEq]
    exact ⟨Or.inl, fun h => h.resolve_right nofun⟩
  | anyGuard => exact ⟨fun _ => Or.inr rfl, fun _ => rfl⟩
  | guardMute d => exact ⟨nofun, fun h => h.elim nofun nofun⟩
  | manual => exact ⟨nofun, fun h => h.elim nofun nofun⟩
  | sequence q => exact ⟨nofun, fun h => h.elim nofun nofun⟩
  | linkFault => exact ⟨nofun, fun h => h.elim nofun nofun⟩

/-- The triggers that an offered GUARD-MUTE meets. -/
theorem matches_guardMute (t : Trigger) (c : Output) :
    t.matches (.guardMute c) = true ↔ t = .guardMute c ∨ t = .anyGuard := by
  cases t with
  | guardMute d =>
    show (d == c) = true ↔ _
    rw [beq_iff_eq, Trigger.guardMute.injEq]
    exact ⟨Or.inl, fun h => h.resolve_right nofun⟩
  | anyGuard => exact ⟨fun _ => Or.inr rfl, fun _ => rfl⟩
  | guardStep d => exact ⟨nofun, fun h => h.elim nofun nofun⟩
  | manual => exact ⟨nofun, fun h => h.elim nofun nofun⟩
  | sequence q => exact ⟨nofun, fun h => h.elim nofun nofun⟩
  | linkFault => exact ⟨nofun, fun h => h.elim nofun nofun⟩

theorem eventMeets_guard (t : Trigger) (c : Output) (f : Flag) :
    eventMeets t (c, f) = true ↔
      (f = .guardStep ∧ (t = .guardStep c ∨ t = .anyGuard)) ∨ (f = .guardMute ∧ (t = .guardMute c ∨ t = .anyGuard)) := by
  by_cases step : f = .guardStep
  · subst step
    refine (matches_guardStep t c).trans ⟨fun h => Or.inl ⟨rfl, h⟩, fun h => ?_⟩
    obtain ⟨_, h⟩ | ⟨h, _⟩ := h
    · exact h
    · cases h
  · by_cases mute : f = .guardMute
    · subst mute
      refine (matches_guardMute t c).trans ⟨fun h => Or.inr ⟨rfl, h⟩, fun h => ?_⟩
      obtain ⟨h, _⟩ | ⟨_, h⟩ := h
      · cases h
      · exact h
    · have other : guardOffer f c = none := by
        unfold guardOffer
        split
        · exact absurd rfl step
        · exact absurd rfl mute
        · rfl
      have unmet : eventMeets t (c, f) = false := by
        unfold eventMeets
        rw [other]
        rfl
      rw [unmet]
      exact ⟨nofun, fun h => h.elim (fun h => absurd h.1 step) fun h => absurd h.1 mute⟩

theorem guardMeets_iff (t : Trigger) (ev : Output → Option Flag) :
    guardMeets t ev = true ↔ ∃ c f, ev c = some f ∧ eventMeets t (c, f) = true := by
  simp only [eventMeets_guard]
  unfold guardMeets
  cases t with
  | guardStep d => simp
  | guardMute d => simp
  | anyGuard =>
    simp only [List.any_eq_true, Bool.or_eq_true, beq_iff_eq, or_true, and_true]
    constructor
    · rintro ⟨c, -, h | h⟩
      · exact ⟨c, _, h, Or.inl rfl⟩
      · exact ⟨c, _, h, Or.inr rfl⟩
    · rintro ⟨c, f, h, rfl | rfl⟩
      · exact ⟨c, List.mem_finRange c, Or.inl h⟩
      · exact ⟨c, List.mem_finRange c, Or.inr h⟩
  | manual => simp
  | sequence q => simp
  | linkFault => simp

/-- The capture as the guard's part of the close leaves it. -/
theorem guardClosed_capture {u : State} {p : Period} (hp : u.period = some p) :
    (guardClosed u).capture = captureAtClose u p := by
  obtain ⟨evs, events, mem⟩ := (guardClosed_closed hp).events
  rw [events.capture p hp]
  unfold captureAtClose
  refine if_congr ?_ rfl rfl
  rw [List.any_eq_true, Bool.or_eq_true, guardMeets_iff, guardMeets_iff]
  constructor
  · rintro ⟨⟨c, f⟩, h, meets⟩
    obtain judged | ⟨rfl, muted⟩ := (mem c f).mp h
    · exact Or.inl ⟨c, f, judged, meets⟩
    · exact Or.inr ⟨c, .guardMute, if_pos muted, meets⟩
  · rintro (⟨c, f, h, meets⟩ | ⟨c, f, h, meets⟩)
    · exact ⟨(c, f), (mem c f).mpr (Or.inl h), meets⟩
    · by_cases muted : clipMutedAt u p c = true
      · rw [if_pos muted] at h
        obtain rfl : Flag.guardMute = f := Option.some.inj h
        exact ⟨(c, .guardMute), (mem c _).mpr (Or.inr ⟨rfl, muted⟩), meets⟩
      · rw [if_neg muted] at h
        cases h

end Sys2Proof.Machine
end

section
/-! SUPPORT. The close of a frame period, unit by unit: what each stage leaves alone of the state it began with, the node and
the period through the stages, and the last step (log 2). -/

namespace Sys2Proof.Machine

/-! ### What the stages leave alone -/

theorem guardClosed_leaves (u : State) :
    guardClosed u =
      { u with
        arbiter := (returnLeaves u).arbiter, guard := (guardClosed u).guard, events := (guardClosed u).events
        slot := (guardClosed u).slot, capture := (guardClosed u).capture, period := (guardClosed u).period } := by
  have left : returnLeaves u = { u with arbiter := (returnLeaves u).arbiter } := by
    rw [returnLeaves_same]
  have same := (guardClosed_same u).symm
  rw [left] at same
  exact same

theorem linesStages_leave (x : State) :
    clearingAtEnd (takeFaults (fun _ => true) x) =
      { x with
        lines := (clearingAtEnd (takeFaults (fun _ => true) x)).lines
        mem := (clearingAtEnd (takeFaults (fun _ => true) x)).mem
        events := (clearingAtEnd (takeFaults (fun _ => true) x)).events
        slot := (clearingAtEnd (takeFaults (fun _ => true) x)).slot } := by
  have faults := takeFaults_same (fun _ => true) x
  have clearing := clearingAtEnd_same (takeFaults (fun _ => true) x)
  generalize takeFaults (fun _ => true) x = y at faults clearing ⊢
  generalize clearingAtEnd y = z at clearing ⊢
  rw [faults] at clearing
  exact clearing

theorem linesClosed_leaves (u : State) :
    linesClosed u =
      { u with
        arbiter := (returnLeaves u).arbiter, guard := (guardClosed u).guard, events := (linesClosed u).events
        slot := (linesClosed u).slot, capture := (guardClosed u).capture, period := (guardClosed u).period
        lines := (linesClosed u).lines, mem := (linesClosed u).mem } := by
  have stage : linesClosed u = { guardClosed u with
      lines := (linesClosed u).lines, mem := (linesClosed u).mem, events := (linesClosed u).events
      slot := (linesClosed u).slot } := linesStages_leave (guardClosed u)
  have before := guardClosed_leaves u
  generalize linesClosed u = x at stage ⊢
  generalize guardClosed u = y at stage before ⊢
  rw [before] at stage
  exact stage

theorem fadeClosed_leaves (u : State) :
    fadeClosed u =
      { u with
        arbiter := (returnLeaves u).arbiter, guard := (fadeClosed u).guard, events := (fadeClosed u).events
        slot := (fadeClosed u).slot, capture := (guardClosed u).capture, period := (guardClosed u).period
        lines := (linesClosed u).lines, mem := (linesClosed u).mem, scenes := (fadeClosed u).scenes
        changer := (fadeClosed u).changer } := by
  have stage : fadeClosed u = { linesClosed u with
      scenes := (fadeClosed u).scenes, changer := (fadeClosed u).changer, guard := (fadeClosed u).guard
      events := (fadeClosed u).events, slot := (fadeClosed u).slot } := fadeAtEnd_same (linesClosed u)
  have before := linesClosed_leaves u
  generalize fadeClosed u = x at stage ⊢
  generalize linesClosed u = y at stage before ⊢
  rw [before] at stage
  exact stage

theorem rampsStages_leave (x : State) :
    rampAtEnd (muteRampsAtEnd x) =
      { x with
        node := (rampAtEnd (muteRampsAtEnd x)).node, guard := (rampAtEnd (muteRampsAtEnd x)).guard
        period := (rampAtEnd (muteRampsAtEnd x)).period } := by
  have mutes := muteRampsAtEnd_same x
  have ramp := rampAtEnd_same (muteRampsAtEnd x)
  generalize muteRampsAtEnd x = y at mutes ramp ⊢
  generalize rampAtEnd y = z at ramp ⊢
  rw [mutes] at ramp
  exact ramp

theorem rampsClosed_leaves (u : State) :
    rampsClosed u =
      { u with
        arbiter := (returnLeaves u).arbiter, guard := (rampsClosed u).guard, events := (fadeClosed u).events
        slot := (fadeClosed u).slot, capture := (guardClosed u).capture, period := (rampsClosed u).period
        lines := (linesClosed u).lines, mem := (linesClosed u).mem, scenes := (fadeClosed u).scenes
        changer := (fadeClosed u).changer, node := (rampsClosed u).node } := by
  have stage : rampsClosed u = { fadeClosed u with
      node := (rampsClosed u).node, guard := (rampsClosed u).guard, period := (rampsClosed u).period } :=
    rampsStages_leave (fadeClosed u)
  have before := fadeClosed_leaves u
  generalize rampsClosed u = x at stage ⊢
  generalize fadeClosed u = y at stage before ⊢
  rw [before] at stage
  exact stage

theorem sweepClosed_leaves (u : State) :
    sweepClosed u =
      { u with
        arbiter := (returnLeaves u).arbiter, guard := (rampsClosed u).guard, events := (sweepClosed u).events
        slot := (sweepClosed u).slot, capture := (guardClosed u).capture, period := (rampsClosed u).period
        lines := (linesClosed u).lines, mem := (sweepClosed u).mem, scenes := (fadeClosed u).scenes
        changer := (fadeClosed u).changer, node := (sweepClosed u).node } := by
  have stage : sweepClosed u = { rampsClosed u with
      mem := (sweepClosed u).mem, node := (sweepClosed u).node, events := (sweepClosed u).events
      slot := (sweepClosed u).slot } := sweepAtEnd_same (rampsClosed u)
  have before := rampsClosed_leaves u
  generalize sweepClosed u = x at stage ⊢
  generalize rampsClosed u = y at stage before ⊢
  rw [before] at stage
  exact stage

theorem limitClosed_leaves (u : State) :
    limitClosed u =
      { u with
        arbiter := (returnLeaves u).arbiter, guard := (limitClosed u).guard, events := (limitClosed u).events
        slot := (limitClosed u).slot, capture := (guardClosed u).capture, period := (limitClosed u).period
        lines := (linesClosed u).lines, mem := (sweepClosed u).mem, scenes := (limitClosed u).scenes
        changer := (limitClosed u).changer, node := (limitClosed u).node, link := (limitClosed u).link } := by
  have stage : limitClosed u = { sweepClosed u with
      link := (limitClosed u).link, scenes := (limitClosed u).scenes, changer := (limitClosed u).changer
      guard := (limitClosed u).guard, events := (limitClosed u).events, slot := (limitClosed u).slot
      node := (limitClosed u).node, period := (limitClosed u).period } := limitAtEnd_same (sweepClosed u)
  have before := sweepClosed_leaves u
  generalize limitClosed u = x at stage ⊢
  generalize sweepClosed u = y at stage before ⊢
  rw [before] at stage
  exact stage

theorem lastStages_leave (x : State) :
    holdoffTick (abandonAtEnd (sizingAtEnd x)) =
      { x with
        mem := (sizingAtEnd x).mem, node := (sizingAtEnd x).node
        guard := if (x.period.map (·.leftRun)).getD false then x.guard.abandon else x.guard
        events := (holdoffTick (abandonAtEnd (sizingAtEnd x))).events
        slot := (holdoffTick (abandonAtEnd (sizingAtEnd x))).slot } := by
  have sizing := sizingAtEnd_same x
  have tick := holdoffTick_same (abandonAtEnd (sizingAtEnd x))
  generalize holdoffTick (abandonAtEnd (sizingAtEnd x)) = z at tick ⊢
  generalize sizingAtEnd x = y at sizing tick ⊢
  rw [sizing] at tick
  exact tick

theorem allClosed_leaves (u : State) :
    allClosed u =
      { u with
        arbiter := (returnLeaves u).arbiter
        guard :=
          if ((limitClosed u).period.map (·.leftRun)).getD false then (limitClosed u).guard.abandon
          else (limitClosed u).guard
        events := (allClosed u).events, slot := (allClosed u).slot, capture := (guardClosed u).capture
        period := (limitClosed u).period, lines := (linesClosed u).lines, mem := (sizingClosed u).mem
        scenes := (limitClosed u).scenes, changer := (limitClosed u).changer, node := (sizingClosed u).node
        link := (limitClosed u).link } := by
  have stage : allClosed u = { limitClosed u with
      mem := (sizingClosed u).mem, node := (sizingClosed u).node
      guard :=
        if ((limitClosed u).period.map (·.leftRun)).getD false then (limitClosed u).guard.abandon
        else (limitClosed u).guard
      events := (allClosed u).events, slot := (allClosed u).slot } := lastStages_leave (limitClosed u)
  have before := limitClosed_leaves u
  generalize allClosed u = x at stage ⊢
  generalize sizingClosed u = z at stage ⊢
  generalize limitClosed u = y at stage before ⊢
  rw [before] at stage
  exact stage

/-! ### The node ramp and leaving (R159, R163) -/

/-- Leaving for STANDBY ends in the close of a period (R163). -/
abbrev Leaves (n : Node) (p : Period) : Prop :=
  p.processed = true ∧ p.rampDone = false ∧ n.leaving = true ∧ (n.state = .run ∨ n.state = .silent) ∧ n.ramp ≤ 10 ∧
    (n.ramp = 0 → p.leaving = true)

/-- The ramp one step on (R159). -/
def steppedRamp (n : Node) : Nat :=
  match n.state with
  | .run => if n.leaving = true then n.ramp - 10 else if n.ramp + 1 ≤ 480 then n.ramp + 1 else 480
  | .silent => n.ramp - 10
  | _ => 0

theorem rampStep_node (n : Node) : n.rampStep = steppedRamp n := by
  have up : min 480 (n.ramp + 1) = if n.ramp + 1 ≤ 480 then n.ramp + 1 else 480 := by rw [Nat.min_comm, Nat.min_def]
  unfold Node.rampStep steppedRamp
  rw [up] <;> rfl

/-- The ramp as a close in which leaving does not end leaves it. -/
def rampAfter (n : Node) (p : Period) : Nat := if p.processed = true ∧ p.rampDone = false then steppedRamp n else n.ramp

theorem leavingEndDue_iff {s : State} {p : Period} (hp : s.period = some p) : leavingEndDue s = true ↔ Leaves s.node p := by
  have marked : (p.leaving = true ∨ s.node.ramp ≠ 0) ↔ (s.node.ramp = 0 → p.leaving = true) := by
    rw [or_comm, imp_iff_not_or]
  unfold leavingEndDue Leaves
  rw [hp, ← marked]
  simp [and_assoc]

/-- RUN left in a frame period: the guard block is abandoned, at once or with the period (R78). -/
theorem leaveRun_eq {s : State} {p : Period} (hp : s.period = some p) (dest : NodeState) :
    leaveRun dest s =
      { s with
        node := { s.node with state := dest }
        guard := if p.counts = false then s.guard.abandon else s.guard
        period := some { p with leftRun := p.leftRun || p.counts } } := by
  have counts : periodCounts s = p.counts := by
    unfold periodCounts
    rw [hp]
    rfl
  have guard : (if p.counts = true then s.guard else s.guard.abandon) =
      if p.counts = false then s.guard.abandon else s.guard := by
    cases p.counts with
    | false => rfl
    | true => rfl
  unfold leaveRun
  rw [counts, hp, guard]
  rfl

/-- Leaving ends: STANDBY, and the guard block abandoned where RUN is left (R78, R163). -/
theorem leavingEnds_eq {s : State} {p : Period} (hp : s.period = some p) :
    leavingEnds s =
      { s with
        node := { s.node with state := .standby, ramp := 0, leaving := false }
        guard := if s.node.state = .run ∧ p.counts = false then s.guard.abandon else s.guard
        period :=
          some { p with rampDone := true, leftRun := p.leftRun || (decide (s.node.state = .run) && p.counts) } } := by
  unfold leavingEnds
  by_cases run : s.node.state = .run
  · rw [if_pos run, leaveRun_eq hp, decide_eq_true run, Bool.true_and, if_congr (and_iff_right run) rfl rfl]
    rfl
  · rw [if_neg run]
    dsimp only
    rw [hp, Option.map_some, if_neg fun h => run h.1, decide_eq_false run, Bool.false_and, Bool.or_false]

theorem rampAtEnd_leaves {s : State} {p : Period} (hp : s.period = some p) (h : Leaves s.node p) :
    rampAtEnd s = leavingEnds s := if_pos ((leavingEndDue_iff hp).mpr h)

theorem rampAtEnd_stays {s : State} {p : Period} (hp : s.period = some p) (h : ¬Leaves s.node p) :
    rampAtEnd s = { s with node := { s.node with ramp := rampAfter s.node p } } := by
  unfold rampAtEnd rampAfter
  rw [if_neg fun k => h ((leavingEndDue_iff hp).mp k), hp]
  dsimp only
  by_cases steps : p.processed = true ∧ p.rampDone = false
  · rw [if_pos steps, if_pos steps, rampStep_node]
  · rw [if_neg steps, if_neg steps, ← hp]

theorem muteRampsAtEnd_eq {s : State} {p : Period} (hp : s.period = some p) :
    muteRampsAtEnd s =
      { s with
        guard := if p.processed = true then { s.guard with outputs := s.guard.outputs.map GuardRec.rampStep } else s.guard } := by
  have processed : (s.period.map (·.processed)).getD false = p.processed := by
    rw [hp]
    rfl
  unfold muteRampsAtEnd
  rw [processed]
  cases p.processed with
  | false => rfl
  | true => rfl

/-! ### The start-up limit (R93) -/

/-- The start-up limit is reached. -/
abbrev Limited (s : State) : Prop := s.link.startUp = true ∧ 480 ≤ s.link.startUpCount

theorem startUpLimitDue_iff (s : State) : startUpLimitDue s = true ↔ Limited s := by
  unfold startUpLimitDue
  rw [Bool.and_eq_true, decide_eq_true_iff]
  rfl

/-- An armed commit withdrawn (R63). -/
def withdrawn (s : State) : State := if s.changer.state = .armed then disarm s else s

/-- The flags of the start-up limit. -/
def limitFlags (s : State) : List Flag := [.linkLost] ++ if s.changer.state = .armed then [.commitLost] else []

/-- `s` with the start-up search over and LOST told to the changer, the node state apart. -/
def limitTold (s : State) : State :=
  { s with
    link := { s.link with startUp := false, lost := true, restorePending := true }
    scenes := (withdrawn s).scenes
    changer := (withdrawn s).changer
    guard := (withdrawn s).guard
    events := (raisedAll (limitFlags s) s).events
    slot := (raisedAll (limitFlags s) s).slot }

theorem limitTold_eq (s : State) :
    linkEvent (raise .linkLost
      { s with link := { s.link with startUp := false, lost := true, restorePending := true } }) = limitTold s := by
  unfold limitTold withdrawn limitFlags linkEvent
  by_cases armed : s.changer.state = .armed
  · rw [if_pos armed, if_pos armed]
    exact if_pos armed
  · rw [if_neg armed, if_neg armed]
    exact if_neg armed

/-- LOST set at the start-up limit (R63, R93, R160). -/
theorem startUpEnds_eq {s : State} {p : Period} (hp : s.period = some p) :
    startUpEnds s =
      { limitTold s with
        guard :=
          if s.node.state = .run ∧ p.counts = false then (withdrawn s).guard.abandon else (withdrawn s).guard
        node := { s.node with state := if s.node.state = .run then .silent else s.node.state }
        period := some { p with leftRun := p.leftRun || (decide (s.node.state = .run) && p.counts) } } := by
  have taken : startUpEnds s = causesChanged (limitTold s) := congrArg causesChanged (limitTold_eq s)
  have cause : anyCause (limitTold s) = true := (anyCause_eq_true _).mpr (Or.inr (Or.inl rfl))
  rw [taken]
  unfold causesChanged
  by_cases run : s.node.state = .run
  · rw [if_pos ⟨run, cause⟩, leaveRun_eq (s := limitTold s) hp, if_pos run, decide_eq_true run, Bool.true_and,
      if_congr (and_iff_right run) rfl rfl]
    rfl
  · have stays : ¬((limitTold s).node.state = .silent ∧ anyCause (limitTold s) = false) := by
      rw [cause]
      exact fun h => Bool.noConfusion h.2
    rw [if_neg fun h => run h.1, if_neg stays, if_neg fun h => run h.1, if_neg run, decide_eq_false run, Bool.false_and,
      Bool.or_false, ← hp]
    rfl

theorem limitAtEnd_due {s : State} (h : Limited s) : limitAtEnd s = startUpEnds s :=
  if_pos ((startUpLimitDue_iff s).mpr h)

theorem limitAtEnd_notDue {s : State} (h : ¬Limited s) : limitAtEnd s = s :=
  if_neg fun k => h ((startUpLimitDue_iff s).mp k)

/-! ### The period -/

theorem limitAtEnd_period {s : State} {p : Period} (hp : s.period = some p) :
    (limitAtEnd s).period =
      some { p with leftRun := p.leftRun || (decide (Limited s ∧ s.node.state = .run) && p.counts) } := by
  by_cases limited : Limited s
  · rw [limitAtEnd_due limited, startUpEnds_eq hp]
    simp [limited]
  · rw [limitAtEnd_notDue limited, hp, decide_eq_false fun h => limited h.1, Bool.false_and, Bool.or_false]

theorem rampAtEnd_period {s : State} {p : Period} (hp : s.period = some p) :
    (rampAtEnd s).period =
      some
        { p with
          rampDone := p.rampDone || decide (Leaves s.node p)
          leftRun := p.leftRun || (decide (Leaves s.node p ∧ s.node.state = .run) && p.counts) } := by
  by_cases leaves : Leaves s.node p
  · have run : decide (Leaves s.node p ∧ s.node.state = .run) = decide (s.node.state = .run) :=
      decide_eq_decide.mpr (and_iff_right leaves)
    rw [rampAtEnd_leaves hp leaves, leavingEnds_eq hp, decide_eq_true leaves, run, Bool.or_true]
  · rw [rampAtEnd_stays hp leaves, decide_eq_false leaves, decide_eq_false fun h => leaves h.1, Bool.false_and,
      Bool.or_false, Bool.or_false, ← hp]

theorem muteRampsAtEnd_node (s : State) : (muteRampsAtEnd s).node = s.node := by rw [muteRampsAtEnd_same]

theorem muteRampsAtEnd_period (s : State) : (muteRampsAtEnd s).period = s.period := by rw [muteRampsAtEnd_same]

theorem linesClosed_period {u : State} {p : Period} (hp : u.period = some p) :
    ∃ clipDue, (linesClosed u).period = some { p with clipDue, blockDone := p.blockDone || p.counts } := by
  obtain ⟨clipDue, period⟩ := (guardClosed_closed hp).period
  exact ⟨clipDue, (congrArg State.period (linesClosed_leaves u)).trans period⟩

theorem fadeClosed_period {u : State} {p : Period} (hp : u.period = some p) :
    ∃ clipDue, (fadeClosed u).period = some { p with clipDue, blockDone := p.blockDone || p.counts } := by
  obtain ⟨clipDue, period⟩ := (guardClosed_closed hp).period
  exact ⟨clipDue, (congrArg State.period (fadeClosed_leaves u)).trans period⟩

theorem rampsClosed_period {u : State} {p : Period} (hp : u.period = some p) :
    ∃ clipDue,
      (rampsClosed u).period =
        some
          { p with
            clipDue, blockDone := p.blockDone || p.counts
            rampDone := p.rampDone || decide (Leaves u.node p)
            leftRun := p.leftRun || (decide (Leaves u.node p ∧ u.node.state = .run) && p.counts) } := by
  obtain ⟨clipDue, period⟩ := fadeClosed_period hp
  have node : (muteRampsAtEnd (fadeClosed u)).node = u.node := by
    rw [muteRampsAtEnd_node, fadeClosed_leaves]
  have muted : (muteRampsAtEnd (fadeClosed u)).period =
      some { p with clipDue, blockDone := p.blockDone || p.counts } :=
    (muteRampsAtEnd_period _).trans period
  have := rampAtEnd_period muted
  rw [node] at this
  exact ⟨clipDue, this⟩

/-! ### The node through the close -/

/-- Sizing or a sweep ends in the close (R3, R22). -/
abbrev Ends (u : State) : Prop :=
  (u.node.state = .sizing ∧ 96 ≤ u.mem.sizing) ∨ (u.node.state = .sweep ∧ u.mem.sweepEnded = true)

end Sys2Proof.Machine
end

section
/-! SUPPORT. The node, the memory controller's marks and the holdoff timer through the close of a frame period, and its last
step (R3, R12, R22, R137, R149, R159 to R163). -/

namespace Sys2Proof.Machine

/-! ### The memory controller's marks -/

/-- The lines' stage changes the clearing work list alone. -/
theorem linesClosed_mem (u : State) :
    ∃ clearing zeroed, (linesClosed u).mem = { u.mem with clearing, zeroed } := by
  have faults : ∃ clearing zeroed,
      (takeFaults (fun _ => true) (guardClosed u)).mem = { (guardClosed u).mem with clearing, zeroed } := by
    unfold takeFaults
    split
    · unfold makeFaulted raiseFault
      split
      · exact ⟨_, _, rfl⟩
      · exact ⟨_, _, rfl⟩
    · exact ⟨_, _, rfl⟩
  have mem : (guardClosed u).mem = u.mem := by rw [guardClosed_leaves]
  rw [mem] at faults
  obtain ⟨c, z, faults⟩ := faults
  show ∃ clearing zeroed, (clearingAtEnd (takeFaults (fun _ => true) (guardClosed u))).mem = _
  generalize takeFaults (fun _ => true) (guardClosed u) = x at faults ⊢
  unfold clearingAtEnd
  split
  · unfold clearingEnds
    split
    · next n rest _ =>
      refine ⟨rest, 0, ?_⟩
      show { x.mem with clearing := rest, zeroed := 0 } = _
      rw [faults]
    · exact ⟨c, z, faults⟩
  · exact ⟨c, z, faults⟩

/-- The memory controller as the sweep's stage finds it, the clearing work list apart. -/
theorem rampsClosed_mem (u : State) : (rampsClosed u).mem = (linesClosed u).mem := by rw [rampsClosed_leaves]

theorem rampsClosed_mem_sizing (u : State) : (rampsClosed u).mem.sizing = u.mem.sizing := by
  obtain ⟨c, z, mem⟩ := linesClosed_mem u
  rw [rampsClosed_mem, mem]

theorem rampsClosed_mem_present (u : State) : (rampsClosed u).mem.present = u.mem.present := by
  obtain ⟨c, z, mem⟩ := linesClosed_mem u
  rw [rampsClosed_mem, mem]

theorem rampsClosed_mem_sweep (u : State) : (rampsClosed u).mem.sweep = u.mem.sweep := by
  obtain ⟨c, z, mem⟩ := linesClosed_mem u
  rw [rampsClosed_mem, mem]

theorem rampsClosed_mem_sweepEnded (u : State) : (rampsClosed u).mem.sweepEnded = u.mem.sweepEnded := by
  obtain ⟨c, z, mem⟩ := linesClosed_mem u
  rw [rampsClosed_mem, mem]

/-! ### The node -/

theorem rampsClosed_node_leaves {u : State} {p : Period} (hp : u.period = some p) (h : Leaves u.node p) :
    (rampsClosed u).node = { u.node with state := .standby, ramp := 0, leaving := false } := by
  obtain ⟨clipDue, period⟩ := fadeClosed_period hp
  have node : (muteRampsAtEnd (fadeClosed u)).node = u.node := by rw [muteRampsAtEnd_node, fadeClosed_leaves]
  have muted : (muteRampsAtEnd (fadeClosed u)).period = some { p with clipDue, blockDone := p.blockDone || p.counts } :=
    (muteRampsAtEnd_period _).trans period
  have leaves : Leaves (muteRampsAtEnd (fadeClosed u)).node { p with clipDue, blockDone := p.blockDone || p.counts } := by
    rw [node]
    exact h
  show (rampAtEnd (muteRampsAtEnd (fadeClosed u))).node = _
  rw [rampAtEnd_leaves muted leaves, leavingEnds_eq muted, node]

theorem rampsClosed_node_stays {u : State} {p : Period} (hp : u.period = some p) (h : ¬Leaves u.node p) :
    (rampsClosed u).node = { u.node with ramp := rampAfter u.node p } := by
  obtain ⟨clipDue, period⟩ := fadeClosed_period hp
  have node : (muteRampsAtEnd (fadeClosed u)).node = u.node := by rw [muteRampsAtEnd_node, fadeClosed_leaves]
  have muted : (muteRampsAtEnd (fadeClosed u)).period = some { p with clipDue, blockDone := p.blockDone || p.counts } :=
    (muteRampsAtEnd_period _).trans period
  have stays : ¬Leaves (muteRampsAtEnd (fadeClosed u)).node { p with clipDue, blockDone := p.blockDone || p.counts } := by
    rw [node]
    exact h
  show (rampAtEnd (muteRampsAtEnd (fadeClosed u))).node = _
  rw [rampAtEnd_stays muted stays, node]
  rfl

theorem sweepAtEnd_node (s : State) :
    (sweepAtEnd s).node =
      if s.node.state = .sweep ∧ s.mem.sweepEnded = true then { s.node with state := .standby } else s.node := by
  unfold sweepAtEnd
  by_cases ended : s.node.state = .sweep ∧ s.mem.sweepEnded = true
  · rw [if_pos ended, if_pos (by simpa [sweepCompleteDue] using ended)]
    rfl
  · rw [if_neg ended, if_neg (by simpa [sweepCompleteDue] using ended)]
    unfold sweepMoves
    split
    · rfl
    · rfl

theorem limitAtEnd_node {s : State} {p : Period} (hp : s.period = some p) :
    (limitAtEnd s).node =
      if Limited s ∧ s.node.state = .run then { s.node with state := .silent } else s.node := by
  by_cases limited : Limited s
  · rw [limitAtEnd_due limited, startUpEnds_eq hp]
    dsimp only
    by_cases run : s.node.state = .run
    · rw [if_pos run, if_pos ⟨limited, run⟩]
    · rw [if_neg run, if_neg (c := Limited s ∧ _) fun h => run h.2]
  · rw [limitAtEnd_notDue limited, if_neg fun h => limited h.1]

theorem sizingEndDue_iff (s : State) : sizingEndDue s = true ↔ s.node.state = .sizing ∧ 96 ≤ s.mem.sizing := by
  unfold sizingEndDue
  rw [Bool.and_eq_true, decide_eq_true_iff, beq_iff_eq]
  rfl

theorem sizingAtEnd_node (s : State) :
    (sizingAtEnd s).node =
      if s.node.state = .sizing ∧ 96 ≤ s.mem.sizing then { s.node with state := .standby } else s.node := by
  unfold sizingAtEnd
  by_cases ended : s.node.state = .sizing ∧ 96 ≤ s.mem.sizing
  · rw [if_pos ended, if_pos ((sizingEndDue_iff s).mpr ended)]
    rfl
  · rw [if_neg ended, if_neg fun h => ended ((sizingEndDue_iff s).mp h)]

theorem sweepClosed_node (u : State) :
    (sweepClosed u).node =
      if (rampsClosed u).node.state = .sweep ∧ u.mem.sweepEnded = true then
        { (rampsClosed u).node with state := .standby }
      else (rampsClosed u).node := by
  have := sweepAtEnd_node (rampsClosed u)
  rw [rampsClosed_mem_sweepEnded] at this
  exact this

theorem sweepClosed_period {u : State} {p : Period} (hp : u.period = some p) :
    ∃ clipDue,
      (sweepClosed u).period =
        some
          { p with
            clipDue, blockDone := p.blockDone || p.counts
            rampDone := p.rampDone || decide (Leaves u.node p)
            leftRun := p.leftRun || (decide (Leaves u.node p ∧ u.node.state = .run) && p.counts) } := by
  obtain ⟨clipDue, period⟩ := rampsClosed_period hp
  have same : (sweepClosed u).period = (rampsClosed u).period := by rw [sweepClosed_leaves]
  exact ⟨clipDue, same.trans period⟩

theorem sweepClosed_link (u : State) : (sweepClosed u).link = u.link := by rw [sweepClosed_leaves]

theorem sweepClosed_limited (u : State) : Limited (sweepClosed u) ↔ Limited u := by
  unfold Limited
  rw [sweepClosed_link]

theorem limitClosed_node {u : State} {p : Period} (hp : u.period = some p) :
    (limitClosed u).node =
      if Limited u ∧ (sweepClosed u).node.state = .run then { (sweepClosed u).node with state := .silent }
      else (sweepClosed u).node := by
  obtain ⟨clipDue, period⟩ := sweepClosed_period hp
  have := limitAtEnd_node period
  simp only [sweepClosed_limited] at this
  exact this

/-- The sweep's stage leaves what sizing counts and which ranks are PRESENT. -/
theorem sweepAtEnd_mem_kept (s : State) :
    (sweepAtEnd s).mem.sizing = s.mem.sizing ∧ (sweepAtEnd s).mem.present = s.mem.present ∧
      (sweepAtEnd s).mem.clearing = s.mem.clearing ∧ (sweepAtEnd s).mem.zeroed = s.mem.zeroed := by
  unfold sweepAtEnd
  split
  · exact ⟨rfl, rfl, rfl, rfl⟩
  · unfold sweepMoves overMem MemCtl.sweepOn MemCtl.sweepTo
    split
    · dsimp only
      split
      · exact ⟨rfl, rfl, rfl, rfl⟩
      · exact ⟨rfl, rfl, rfl, rfl⟩
    · exact ⟨rfl, rfl, rfl, rfl⟩

theorem limitClosed_mem (u : State) : (limitClosed u).mem = (sweepClosed u).mem := by rw [limitClosed_leaves]

theorem limitClosed_mem_sizing (u : State) : (limitClosed u).mem.sizing = u.mem.sizing := by
  have kept := (sweepAtEnd_mem_kept (rampsClosed u)).1
  rw [rampsClosed_mem_sizing] at kept
  rw [limitClosed_mem]
  unfold sweepClosed
  exact kept

theorem sizingClosed_node (u : State) :
    (sizingClosed u).node =
      if (limitClosed u).node.state = .sizing ∧ 96 ≤ u.mem.sizing then { (limitClosed u).node with state := .standby }
      else (limitClosed u).node := by
  have := sizingAtEnd_node (limitClosed u)
  rw [limitClosed_mem_sizing] at this
  exact this

/-! ### The last step -/

theorem allClosed_period {u : State} {p : Period} (hp : u.period = some p) :
    ∃ clipDue blockDone rampDone leftRun, (allClosed u).period = some { p with clipDue, blockDone, rampDone, leftRun } := by
  obtain ⟨clipDue, period⟩ := sweepClosed_period hp
  have limit := limitAtEnd_period period
  have same : (allClosed u).period = (limitClosed u).period := by rw [allClosed_leaves]
  exact ⟨_, _, _, _, same.trans limit⟩

/-- A close without a reset: the stages, and the sampling step. -/
theorem Closes.eq {s u t : State} {p : Period} (h : Closes s u p t) (kept : p.resetDue = false) :
    u.period = some p ∧ t = { samplingStep (allClosed u) with period := none } := by
  obtain ⟨released, open_, hu, hp, ht⟩ := h
  obtain ⟨c, b, r, l, period⟩ := allClosed_period hp
  have noReset : resetDue (allClosed u) = false := by
    unfold resetDue
    rw [period]
    exact kept
  have notHeld : ¬(s.pins.resetHeld = true ∨ s.period = none) := by
    rw [released]
    exact fun k => k.elim nofun open_
  refine ⟨hp, ?_⟩
  rw [ht]
  unfold endPeriod
  rw [if_neg notHeld, beforeSampling_eq, ← hu]
  unfold lastStep
  rw [noReset]
  rfl

theorem samplingStep_leaves (s : State) :
    samplingStep s =
      { s with
        capture := if samplingDue s then s.capture.sampling ((s.period.map (·.sample)).getD 0) else s.capture
        events := (samplingStep s).events, slot := (samplingStep s).slot } := by
  unfold samplingStep
  split
  · unfold raiseIf
    split
    · rfl
    · rfl
  · rfl

theorem samplingStep_raises (s : State) : Raises [.captureDone] s (samplingStep s) := by
  unfold samplingStep
  split
  · unfold raiseIf
    split
    · exact (raise_raises _ _).frame rfl rfl rfl rfl
    · exact .nothing rfl rfl
  · exact .nothing rfl rfl

/-- The unit state that a close leaves: all but the capture, the events and the notice slot are the stages'. -/
theorem samplingStep_node (s : State) : (samplingStep s).node = s.node := by rw [samplingStep_leaves]

/-! ### The flags of the close -/

/-- The flags that the stages of a close raise, CAPTURE-DONE apart. -/
def closeFlags : List Flag :=
  guardFlags ++ [.lineFault, .lineReady, .commitDone, .sweepDone, .linkLost, .commitLost]

theorem guardClosed_raises {u : State} {p : Period} (hp : u.period = some p) :
    Raises guardFlags u (guardClosed u) := by
  obtain ⟨evs, events, -⟩ := (guardClosed_closed hp).events
  exact events.raises

theorem linesClosed_raises (u : State) : Raises [.lineFault, .lineReady] (guardClosed u) (linesClosed u) :=
  (takeFaults_raises _ _).and (clearingAtEnd_raises _)

theorem rampsClosed_raises (u : State) : Raises [] (fadeClosed u) (rampsClosed u) :=
  (muteRampsAtEnd_raises _).and (rampAtEnd_raises _)

theorem sizingClosed_raises {u : State} {p : Period} (hp : u.period = some p) :
    Raises closeFlags u (sizingClosed u) := by
  have all := (guardClosed_raises hp).and
    ((linesClosed_raises u).and
      ((fadeAtEnd_raises (linesClosed u)).and
        ((rampsClosed_raises u).and
          ((sweepAtEnd_raises (rampsClosed u)).and
            ((limitAtEnd_raises (sweepClosed u)).and (sizingAtEnd_raises (limitClosed u)))))))
  exact all.mono (by decide)

/-! ### The holdoff timer (R137) -/

theorem holdoffTick_events (s : State) :
    ∃ notice timer timerFresh, (holdoffTick s).events = { s.events with notice, timer, timerFresh } := by
  unfold holdoffTick
  split
  · unfold holdoffExpires expire
    split
    · exact ⟨_, _, _, rfl⟩
    · exact ⟨_, _, _, rfl⟩
  · exact ⟨_, _, _, rfl⟩

theorem expiryDue_iff (e : Events) : e.expiryDue = true ↔ e.notice = .holdoff ∧ e.timerFresh = false ∧ e.timer ≤ 1 := by
  unfold Events.expiryDue
  simp [and_assoc]

/-- A placement leaves the notice slot with a notice. -/
theorem place_state (n : NoticeSlot) : n.place.state ≠ .empty := by
  unfold NoticeSlot.place
  split
  · exact nofun
  · next h => rw [h]; exact nofun
  · next h =>
    show n.state ≠ .empty
    rw [h]
    exact nofun

/-- A raise keeps a notice that is SENT. -/
theorem raise_sent {f : Flag} {s : State} (h : s.events.notice = .sent) :
    (raise f s).events.notice = .sent ∧ (raise f s).slot = s.slot := by
  have other : ¬({ s.events with flags := s.events.flags ||| f.mask }.notice = .quiet ∧
      { s.events with flags := s.events.flags ||| f.mask }.pendingSet ≠ 0) := by
    show ¬(s.events.notice = .quiet ∧ _)
    rw [h]
    exact fun k => nomatch k.1
  have same : announce { s.events with flags := s.events.flags ||| f.mask } s.slot =
      ({ s.events with flags := s.events.flags ||| f.mask }, s.slot) := if_neg other
  show (announce { s.events with flags := s.events.flags ||| f.mask } s.slot).1.notice = .sent ∧
    (announce { s.events with flags := s.events.flags ||| f.mask } s.slot).2 = s.slot
  rw [same]
  exact ⟨h, rfl⟩

/-- A raise in QUIET: a notice where the pending set is not empty (R134). -/
theorem raise_quiet {f : Flag} {s : State} (h : s.events.notice = .quiet) :
    ((raise f s).events.flags &&& s.events.enables ≠ 0 →
        (raise f s).events.notice = .sent ∧ (raise f s).slot = s.slot.place) ∧
      ((raise f s).events.flags &&& s.events.enables = 0 →
        (raise f s).events.notice = .quiet ∧ (raise f s).slot = s.slot) := by
  rw [raise_flags]
  show ((s.events.flags ||| f.mask) &&& s.events.enables ≠ 0 →
      (announce { s.events with flags := s.events.flags ||| f.mask } s.slot).1.notice = .sent ∧
        (announce { s.events with flags := s.events.flags ||| f.mask } s.slot).2 = s.slot.place) ∧
    ((s.events.flags ||| f.mask) &&& s.events.enables = 0 →
      (announce { s.events with flags := s.events.flags ||| f.mask } s.slot).1.notice = .quiet ∧
        (announce { s.events with flags := s.events.flags ||| f.mask } s.slot).2 = s.slot)
  refine ⟨fun some_ => ?_, fun none_ => ?_⟩
  · rw [announce_pending (e := { s.events with flags := s.events.flags ||| f.mask }) s.slot h some_]
    exact ⟨rfl, rfl⟩
  · rw [announce_nothing (e := { s.events with flags := s.events.flags ||| f.mask }) s.slot (Or.inr none_)]
    exact ⟨h, rfl⟩

/-- What becomes of the timer and the notice state at the tick and the sampling step. -/
structure Ticked (s t : State) : Prop where
  fresh : t.events.timerFresh = false
  settings : t.events.enables = s.events.enables ∧ t.events.holdoff = s.events.holdoff
  outside : s.events.notice ≠ .holdoff → t.events.timer = s.events.timer
  set : s.events.notice = .holdoff → s.events.timerFresh = true →
    t.events.timer = s.events.timer ∧ t.events.notice = .holdoff
  falls : s.events.notice = .holdoff → s.events.timerFresh = false → 2 ≤ s.events.timer →
    t.events.timer = s.events.timer - 1 ∧ t.events.notice = .holdoff
  expires : s.events.notice = .holdoff → s.events.timerFresh = false → s.events.timer ≤ 1 →
    t.events.timer = 0 ∧
      (t.events.flags &&& s.events.enables ≠ 0 → t.events.notice = .sent ∧ t.slot.state ≠ .empty) ∧
      (t.events.flags &&& s.events.enables = 0 → t.events.notice = .quiet ∧ t.slot = s.slot)

theorem holdoffTick_ticked (s : State) : Ticked s (holdoffTick s) := by
  by_cases due : s.events.notice = .holdoff ∧ s.events.timerFresh = false ∧ s.events.timer ≤ 1
  · obtain ⟨holdoff, stale, short⟩ := due
    have expires : holdoffTick s = holdoffExpires s := if_pos ((expiryDue_iff _).mpr ⟨holdoff, stale, short⟩)
    rw [expires]
    unfold holdoffExpires expire
    by_cases pending : s.events.pendingSet ≠ 0
    · rw [if_pos pending]
      exact ⟨stale, ⟨rfl, rfl⟩, fun h => absurd holdoff h, fun _ k => absurd (stale.symm.trans k) nofun,
        fun _ _ k => by omega, fun _ _ _ => ⟨rfl, fun _ => ⟨rfl, place_state _⟩, fun k => absurd k pending⟩⟩
    · rw [if_neg pending]
      exact ⟨stale, ⟨rfl, rfl⟩, fun h => absurd holdoff h, fun _ k => absurd (stale.symm.trans k) nofun,
        fun _ _ k => by omega, fun _ _ _ => ⟨rfl, fun k => absurd k pending, fun _ => ⟨rfl, rfl⟩⟩⟩
  · have falls : holdoffTick s =
        { s with
          events :=
            { s.events with
              timer :=
                if s.events.notice = .holdoff ∧ s.events.timerFresh = false then s.events.timer - 1 else s.events.timer
              timerFresh := false } } := if_neg fun h => due ((expiryDue_iff _).mp h)
    rw [falls]
    refine ⟨rfl, ⟨rfl, rfl⟩, fun h => if_neg fun k => h k.1, fun h k => ⟨if_neg fun m => ?_, h⟩,
      fun h k _ => ⟨if_pos ⟨h, k⟩, h⟩, fun h k m => absurd ⟨h, k, m⟩ due⟩
    exact absurd (k.symm.trans m.2) nofun

/-- The sampling step may raise CAPTURE-DONE after the tick. -/
theorem samplingStep_ticked {s t : State} (h : Ticked s t) : Ticked s (samplingStep t) := by
  have raises := samplingStep_raises t
  obtain ⟨enables, holdoff, timer, fresh⟩ := raises.settings
  refine ⟨fresh.trans h.fresh, ⟨enables.trans h.settings.1, holdoff.trans h.settings.2⟩,
    fun k => timer.trans (h.outside k), fun k m => ?_, fun k m n => ?_, fun k m n => ?_⟩
  · obtain ⟨same, state⟩ := h.set k m
    exact ⟨timer.trans same, (raises.inHoldoff state).1⟩
  · obtain ⟨less, state⟩ := h.falls k m n
    exact ⟨timer.trans less, (raises.inHoldoff state).1⟩
  · obtain ⟨zero, pending, none_⟩ := h.expires k m n
    refine ⟨timer.trans zero, ?_⟩
    by_cases raised : samplingDue t = true ∧ endsAtSampling t = true
    · obtain ⟨v, hv, events, slot⟩ : ∃ v, samplingStep t = raise .captureDone v ∧ v.events = t.events ∧ v.slot = t.slot := by
        unfold samplingStep
        rw [if_pos raised.1]
        exact ⟨_, if_pos raised.2, rfl, rfl⟩
      rw [hv, ← h.settings.1, ← events]
      rw [← h.settings.1, ← events] at pending none_
      rw [← slot] at pending none_
      by_cases before : v.events.flags &&& v.events.enables = 0
      · obtain ⟨quiet, same⟩ := none_ before
        obtain ⟨some_, nothing⟩ := raise_quiet (f := .captureDone) quiet
        refine ⟨fun a => ?_, fun a => ?_⟩
        · obtain ⟨sent, placed⟩ := some_ a
          exact ⟨sent, placed ▸ place_state _⟩
        · obtain ⟨still, kept⟩ := nothing a
          exact ⟨still, kept.trans same⟩
      · obtain ⟨sent, nonempty⟩ := pending before
        obtain ⟨still, kept⟩ := raise_sent (f := .captureDone) sent
        refine ⟨fun _ => ⟨still, kept ▸ nonempty⟩, fun a => absurd ?_ before⟩
        rw [raise_flags] at a
        have : v.events.flags &&& v.events.enables = (v.events.flags &&& v.events.enables) &&&
            ((v.events.flags ||| Flag.captureDone.mask) &&& v.events.enables) := by
          ext i hi
          simp only [BitVec.getElem_and, BitVec.getElem_or]
          cases v.events.flags[i] <;> cases v.events.enables[i] <;> rfl
        rw [this, a]
        exact BitVec.and_zero
    · obtain ⟨events, slot⟩ : (samplingStep t).events = t.events ∧ (samplingStep t).slot = t.slot := by
        unfold samplingStep
        split
        · next due =>
          unfold raiseIf
          rw [if_neg fun ends => raised ⟨due, ends⟩]
          exact ⟨rfl, rfl⟩
        · exact ⟨rfl, rfl⟩
      rw [events, slot]
      exact ⟨pending, none_⟩

end Sys2Proof.Machine
end

section
/-! O46. The end of leaving for STANDBY, the expiry of the holdoff, and the node and the timer in the close. -/

namespace Sys2Proof.Machine

/-- An event command where its event is not due. -/
theorem eventCommand_notDue {due : State → Bool} (effect : State → State) {s : State} (h : ¬due s = true) :
    eventCommand due effect s = .next s := if_neg fun k => h k.2

section

variable {s : State} {p : Period}

theorem exec_leavingForStandbyEnd_due (released : s.pins.resetHeld = false) (hp : s.period = some p)
    (h : Leaves s.node p) : exec .leavingForStandbyEnd s = .next (leavingEnds s) :=
  eventCommand_due leavingEnds released ((leavingEndDue_iff hp).mpr h)

theorem exec_leavingForStandbyEnd_notDue (hp : s.period = some p) (h : ¬Leaves s.node p) :
    exec .leavingForStandbyEnd s = .next s :=
  eventCommand_notDue leavingEnds fun k => h ((leavingEndDue_iff hp).mp k)

theorem exec_holdoffExpiry_due (released : s.pins.resetHeld = false) (hp : s.period = some p)
    (holdoff : s.events.notice = .holdoff) (stale : s.events.timerFresh = false) (short : s.events.timer ≤ 1) :
    exec .holdoffExpiry s = .next (holdoffExpires s) := by
  refine eventCommand_due (due := fun s => inPeriod s && s.events.expiryDue) holdoffExpires released ?_
  unfold inPeriod
  rw [hp, (expiryDue_iff _).mpr ⟨holdoff, stale, short⟩]
  rfl

end

/-! ### The node after a close -/

section

variable {u : State} {p : Period}

theorem sizingClosed_node_leaves (hp : u.period = some p) (h : Leaves u.node p) :
    (sizingClosed u).node = { u.node with state := .standby, ramp := 0, leaving := false } := by
  have ramps := rampsClosed_node_leaves hp h
  have sweep : (sweepClosed u).node = (rampsClosed u).node := by
    rw [sweepClosed_node, if_neg]
    rw [ramps]
    exact fun k => nomatch k.1
  have limit : (limitClosed u).node = (sweepClosed u).node := by
    rw [limitClosed_node hp, if_neg]
    rw [sweep, ramps]
    exact fun k => nomatch k.2
  rw [sizingClosed_node, if_neg, limit, sweep, ramps]
  rw [limit, sweep, ramps]
  exact fun k => nomatch k.1

theorem sizingClosed_node_stays (hp : u.period = some p) (h : ¬Leaves u.node p) :
    (sizingClosed u).node =
      { u.node with
        ramp := rampAfter u.node p
        state :=
          if Ends u then .standby else if Limited u ∧ u.node.state = .run then .silent else u.node.state } := by
  have ramps := rampsClosed_node_stays hp h
  have sweep := sweepClosed_node u
  have limit := limitClosed_node hp
  rw [ramps] at sweep
  rw [sizingClosed_node]
  by_cases swept : u.node.state = .sweep ∧ u.mem.sweepEnded = true
  · rw [if_pos swept] at sweep
    rw [if_neg (by rw [sweep]; exact fun k => nomatch k.2), sweep] at limit
    rw [if_neg (by rw [limit]; exact fun k => nomatch k.1), limit, if_pos (Or.inr swept)]
  · rw [if_neg swept] at sweep
    rw [sweep] at limit
    by_cases run : Limited u ∧ u.node.state = .run
    · have unended : ¬Ends u := fun h =>
        h.elim (fun k => nomatch run.2.symm.trans k.1) fun k => nomatch run.2.symm.trans k.1
      rw [if_pos run] at limit
      rw [if_neg (by rw [limit]; exact fun k => nomatch k.1), limit, if_neg unended, if_pos run]
    · rw [if_neg run] at limit
      rw [limit, if_neg run]
      by_cases sized : u.node.state = .sizing ∧ 96 ≤ u.mem.sizing
      · rw [if_pos sized, if_pos (Or.inl sized)]
      · rw [if_neg sized, if_neg (fun h : Ends u => h.elim sized swept)]

/-- What the stages ahead of the tick raise. -/
theorem abandonAtEnd_raises {fs : List Flag} {s t : State} (h : Raises fs s t) : Raises fs s (abandonAtEnd t) :=
  h.frame rfl rfl rfl rfl

theorem allClosed_node (u : State) : (allClosed u).node = (sizingClosed u).node := by rw [allClosed_leaves]

theorem Closes.node {s t : State} (h : Closes s u p t) (kept : p.resetDue = false) : t.node = (sizingClosed u).node := by
  obtain ⟨-, ht⟩ := h.eq kept
  rw [ht, samplingStep_node, allClosed_node]

/-- The close from the holdoff's tick on. -/
theorem Closes.ticked {s t : State} (h : Closes s u p t) (kept : p.resetDue = false) :
    Ticked (abandonAtEnd (sizingClosed u)) t := by
  obtain ⟨-, ht⟩ := h.eq kept
  unfold allClosed at ht
  generalize abandonAtEnd (sizingClosed u) = x at ht ⊢
  rw [ht]
  obtain ⟨fresh, settings, outside, set, falls, expires⟩ := samplingStep_ticked (holdoffTick_ticked x)
  exact ⟨fresh, settings, outside, set, falls, expires⟩

end

/-- Settles O46: the node goes through the close stage by stage, and the timer ticks after every raise but CAPTURE-DONE. -/
theorem leavingAndHoldoffEnd : Obligations.LeavingAndHoldoffEnd := by
  unfold Obligations.LeavingAndHoldoffEnd
  refine ⟨fun s p released hp => ⟨fun processed undone leaving state low slow => ?_, fun zero unmarked => ?_,
    fun holdoff stale short => ?_⟩, fun s u p t closes kept => ?_⟩
  · rw [exec_leavingForStandbyEnd_due released hp ⟨processed, undone, leaving, state, low, slow⟩, leavingEnds_eq hp]
  · refine exec_leavingForStandbyEnd_notDue hp fun h => ?_
    obtain ⟨-, -, -, -, -, marked⟩ := h
    exact absurd (unmarked.symm.trans (marked zero)) nofun
  · rw [exec_holdoffExpiry_due released hp holdoff stale short]
    unfold holdoffExpires expire
    refine ⟨fun some_ => ?_, fun none_ => ?_⟩
    · rw [if_pos (show s.events.pendingSet ≠ 0 from some_), place_eq] <;> rfl
    · rw [if_neg (show ¬s.events.pendingSet ≠ 0 from fun k => k none_)]
  · obtain ⟨hp, -⟩ := closes.eq kept
    have node := closes.node kept
    have raises := abandonAtEnd_raises (sizingClosed_raises hp)
    obtain ⟨enables, holdoff, timer, fresh⟩ := raises.settings
    have ticked := closes.ticked kept
    dsimp only
    refine ⟨fun leaves => ?_, fun stays limited run => ?_, fun stays ended => ?_, fun stays calm unended => ?_,
      ticked.fresh, ticked.settings.1.trans enables, ticked.settings.2.trans holdoff,
      fun out => (ticked.outside (raises.outside out)).trans timer, fun held new => ?_, fun held old long => ?_,
      fun held old short => ?_⟩
    · rw [node, sizingClosed_node_leaves hp leaves]
    · have unended : ¬Ends u := fun h => h.elim (fun k => nomatch run.symm.trans k.1) fun k => nomatch run.symm.trans k.1
      rw [node, sizingClosed_node_stays hp stays, if_neg unended, if_pos ⟨limited, run⟩]
      rfl
    · rw [node, sizingClosed_node_stays hp stays, if_pos ended]
      rfl
    · rw [node, sizingClosed_node_stays hp stays, if_neg unended, if_neg fun h => calm.elim (fun k => k h.1) fun k => k h.2]
      rfl
    · obtain ⟨same, state⟩ := ticked.set (raises.inHoldoff held).1 (fresh.trans new)
      exact ⟨same.trans timer, state⟩
    · obtain ⟨less, state⟩ := ticked.falls (raises.inHoldoff held).1 (fresh.trans old) (long.trans_eq timer.symm)
      exact ⟨less.trans (congrArg (· - 1) timer), state⟩
    · obtain ⟨zero, some_, none_⟩ :=
        ticked.expires (raises.inHoldoff held).1 (fresh.trans old) (timer.trans_le short)
      rw [enables] at some_ none_
      exact ⟨zero, some_, fun k => ⟨(none_ k).1, (none_ k).2.trans (raises.inHoldoff held).2⟩⟩

end Sys2Proof.Machine
end

section
/-! O47. The end of a capture at the sampling step of a close, and the start of an own message (R125, R130, R149, R153). -/

namespace Sys2Proof.Machine

/-! ### The sampling step -/

theorem sampling_still {c : Capture} (h : c.state ≠ .rolling ∧ c.state ≠ .post) (x : Sample) : c.sampling x = c := by
  unfold Capture.sampling
  split
  · next rolling => exact absurd rolling h.1
  · next post => exact absurd post h.2
  · rfl

/-- A sample written (R149). -/
theorem write_eq (c : Capture) (x : Sample) :
    c.write x =
      { c with
        ring := Store.put c.ring c.writeIndex (some x)
        writeIndex := (c.writeIndex + 1) % 8192
        record :=
          { c.record with
            held := if (c.record.held == 8192) = true then 8192 else c.record.held + 1
            wrapped := c.record.wrapped || c.record.held == 8192 } } := by
  have step : c.write x =
      { c with
        ring := Store.put c.ring c.writeIndex (some x)
        writeIndex := (c.writeIndex + 1) % 8192
        record :=
          if c.record.held = 8192 then { c.record with wrapped := true }
          else { c.record with held := c.record.held + 1 } } := rfl
  rw [step]
  by_cases full : c.record.held = 8192
  · rw [if_pos full, if_pos (beq_iff_eq.mpr full), full, beq_self_eq_true, Bool.or_true]
    dsimp only
    rw [full]
  · rw [if_neg full, if_neg fun h => full (beq_iff_eq.mp h), beq_eq_false_iff_ne.mpr full, Bool.or_false]

/-- A sample taken in ROLLING and in POST, with the end at a count of 0 (R149, R153). -/
theorem sampling_writes {c : Capture} (h : c.state = .rolling ∨ c.state = .post) (x : Sample) :
    let last : Bool := c.state == .post && decide (c.remaining ≤ 1)
    let next := (c.writeIndex + 1) % 8192
    let full : Bool := c.record.held == 8192
    c.sampling x =
      { c with
        ring := Store.put c.ring c.writeIndex (some x)
        writeIndex := next
        state := if last then .done else c.state
        remaining := if c.state = .post then c.remaining - 1 else c.remaining
        record :=
          { c.record with
            held := if full then 8192 else c.record.held + 1
            wrapped := c.record.wrapped || full
            endIndex := if last then some next else c.record.endIndex
            endCause := if last then some .count else c.record.endCause } } := by
  dsimp only
  obtain rolling | post := h
  · have step : c.sampling x = c.write x := by
      unfold Capture.sampling
      rw [rolling]
    rw [step, write_eq, rolling]
    rfl
  · have step : c.sampling x =
        let w := { c.write x with remaining := c.remaining - 1 }
        if c.remaining - 1 = 0 then w.finish else w := by
      unfold Capture.sampling
      rw [post]
    rw [step, write_eq, post]
    by_cases last : c.remaining ≤ 1
    · rw [decide_eq_true last, if_pos (show c.remaining - 1 = 0 by omega)]
      rfl
    · rw [decide_eq_false last, if_neg (show ¬c.remaining - 1 = 0 by omega)]
      rfl

/-! ### The capture in the close -/

section

variable {s u t : State} {p : Period}

theorem allClosed_capture (hp : u.period = some p) : (allClosed u).capture = captureAtClose u p := by
  have same : (allClosed u).capture = (guardClosed u).capture := by rw [allClosed_leaves]
  exact same.trans (guardClosed_capture hp)

theorem allClosed_samplingDue (hp : u.period = some p) : samplingDue (allClosed u) = p.processed := by
  obtain ⟨_, _, _, _, period⟩ := allClosed_period hp
  unfold samplingDue
  rw [period]
  rfl

theorem abandonAtEnd_events (s : State) : (abandonAtEnd s).events = s.events := rfl

theorem allClosed_flags (u : State) : (allClosed u).events.flags = (sizingClosed u).events.flags := by
  obtain ⟨_, _, _, events⟩ := holdoffTick_events (abandonAtEnd (sizingClosed u))
  unfold allClosed
  rw [events, abandonAtEnd_events]

theorem allClosed_captureDone (hp : u.period = some p) :
    (allClosed u).events.flags.getLsbD 13 = u.events.flags.getLsbD 13 := by
  rw [allClosed_flags]
  exact (sizingClosed_raises hp).flags .captureDone (by decide)

theorem Closes.capture (h : Closes s u p t) (kept : p.resetDue = false) :
    t.capture =
      if p.processed = true then (captureAtClose u p).sampling p.sample else captureAtClose u p := by
  obtain ⟨hp, ht⟩ := h.eq kept
  obtain ⟨_, _, _, _, period⟩ := allClosed_period hp
  have sample : ((allClosed u).period.map (·.sample)).getD 0 = p.sample := by
    rw [period]
    rfl
  have step : t.capture = (samplingStep (allClosed u)).capture := by rw [ht]
  rw [step, samplingStep_leaves]
  dsimp only
  rw [allClosed_samplingDue hp, allClosed_capture hp, sample]

/-- The sampling step is the last of a capture. -/
def lastSample (c : Capture) : Bool := c.state == .post && decide (c.remaining ≤ 1)

theorem allClosed_endsAtSampling (hp : u.period = some p) :
    endsAtSampling (allClosed u) = (p.processed && lastSample (captureAtClose u p)) := by
  unfold endsAtSampling
  rw [allClosed_samplingDue hp, allClosed_capture hp, Bool.and_assoc]
  rfl

theorem Closes.captureDone (h : Closes s u p t) (kept : p.resetDue = false) :
    t.events.flags.getLsbD 13 =
      (u.events.flags.getLsbD 13 || (p.processed && lastSample (captureAtClose u p))) := by
  obtain ⟨hp, ht⟩ := h.eq kept
  have step : t.events = (samplingStep (allClosed u)).events := by rw [ht]
  have before := allClosed_captureDone hp
  have ends := allClosed_endsAtSampling hp
  have due := allClosed_samplingDue hp
  rw [step, ← before, ← ends]
  generalize allClosed u = x at ends due ⊢
  unfold samplingStep
  cases processed : p.processed with
  | false =>
    rw [processed] at due ends
    rw [due, ends, Bool.false_and, Bool.or_false]
    rfl
  | true =>
    rw [processed] at due
    rw [if_pos due]
    unfold raiseIf
    cases endsAtSampling x with
    | false => rw [Bool.or_false] <;> rfl
    | true =>
      rw [if_pos rfl, Bool.or_true]
      exact raised_flag .captureDone id _

/-- CAPTURE_END is due where the last sample of a capture falls in the close. -/
theorem exec_captureEnd_due (h : Closes s u p t) (kept : p.resetDue = false) (processed : p.processed = true)
    (last : lastSample (captureAtClose u p) = true) : exec .captureEnd s = .next t := by
  obtain ⟨hp, -⟩ := h.eq kept
  obtain ⟨released, open_, hu, -, ht⟩ := h
  obtain ⟨_, _, _, _, period⟩ := allClosed_period hp
  have noReset : resetDue (allClosed u) = false := by
    unfold resetDue
    rw [period]
    exact kept
  have isOpen : s.period.isSome = true := Option.isSome_iff_ne_none.mpr open_
  have due : captureEndDue s = true := by
    unfold captureEndDue
    rw [beforeSampling_eq, ← hu, allClosed_endsAtSampling hp, noReset, isOpen, processed, last]
    rfl
  rw [ht]
  exact eventCommand_due endPeriod released due

end

/-! ### Own messages -/

theorem waitingFor_period {s : State} {p : Period} (hp : s.period = some p) {own : OwnStart} {d : Draft}
    (h : p.ownStart = some (own, d)) (k : OwnStart) : waitingFor k s = if own = k then some d else none := by
  unfold waitingFor
  rw [hp]
  show (match p.ownStart with | some (o, e) => if o = k then some e else none | none => none) = _
  rw [h]

theorem exec_noticeStart_due {s : State} {p : Period} (released : s.pins.resetHeld = false) (hp : s.period = some p)
    {d : Draft} (h : p.ownStart = some (.notice, d)) : exec .noticeStart s = .next (noticeStarts d s) := by
  have waiting : waitingFor .notice s = some d := waitingFor_period hp h .notice
  have starts : startOwn s = noticeStarts d s := by
    unfold startOwn
    rw [waiting]
  have due : noticeStartDue s = true := by
    unfold noticeStartDue
    rw [waiting]
    rfl
  rw [← starts]
  exact eventCommand_due startOwn released due

theorem exec_returnStart_due {s : State} {p : Period} (released : s.pins.resetHeld = false) (hp : s.period = some p)
    {d : Draft} (h : p.ownStart = some (.ret, d)) : exec .returnStart s = .next (returnStarts d s) := by
  have notNotice : waitingFor .notice s = none := waitingFor_period hp h .notice
  have waiting : waitingFor .ret s = some d := waitingFor_period hp h .ret
  have starts : startOwn s = returnStarts d s := by
    unfold startOwn
    rw [notNotice]
    dsimp only
    rw [waiting]
  have due : returnStartDue s = true := by
    unfold returnStartDue
    rw [waiting]
    rfl
  rw [← starts]
  exact eventCommand_due startOwn released due

/-- Settles O47: the sampling step is the last of the close, and an own message takes the frame that waits for its HEAD. -/
theorem captureEndsAndOwnMessagesStart : Obligations.CaptureEndsAndOwnMessagesStart := by
  unfold Obligations.CaptureEndsAndOwnMessagesStart
  refine ⟨fun s u p t closes kept => ?_, fun s p released hp => ⟨fun d h => ?_, fun d r rest h queue => ?_⟩⟩
  · have capture := closes.capture kept
    have flag := closes.captureDone kept
    dsimp only
    refine ⟨fun still => ?_, fun processed taking => ?_⟩
    · have unsampled : t.capture = captureAtClose u p := by
        rw [capture]
        obtain unprocessed | idle := still
        · rw [if_neg (by rw [unprocessed]; exact nofun)]
        · rw [sampling_still idle, ite_self]
      have goesOn : (p.processed && lastSample (captureAtClose u p)) = false := by
        obtain unprocessed | idle := still
        · rw [unprocessed, Bool.false_and]
        · unfold lastSample
          rw [beq_eq_false_iff_ne.mpr idle.2, Bool.false_and, Bool.and_false]
      rw [goesOn, Bool.or_false] at flag
      exact ⟨unsampled, flag⟩
    · rw [if_pos processed, sampling_writes taking] at capture
      rw [processed, Bool.true_and] at flag
      refine ⟨fun k => ?_, ?_, ?_, exec_captureEnd_due closes kept processed⟩
      · rw [capture]
        exact Store.get_put_some _ _ _ k
      · rw [capture]
      · rw [flag, Bool.or_eq_true]
        rfl
  · rw [exec_noticeStart_due released hp h]
    unfold noticeStarts startTaken
    dsimp only
    rw [draft_frame, hp]
    rfl
  · rw [exec_returnStart_due released hp h]
    unfold returnStarts startTaken
    dsimp only
    rw [draft_frame, hp, queue]
    rfl

end Sys2Proof.Machine
end

section
/-! O44. Commits fire, and fades step and end in the close (R47, R48, R54 to R59, R63). -/

namespace Sys2Proof.Machine

/-! ### The events after the last stages -/

/-- The flags but CAPTURE-DONE, and every detail, are those of `s`. -/
structure ToldAs (s t : State) : Prop where
  flags : ∀ f, f ≠ Flag.captureDone → t.events.flags.getLsbD f.number = s.events.flags.getLsbD f.number
  guards : t.events.guardOutputs = s.events.guardOutputs
  ready : t.events.readyLines = s.events.readyLines
  faulted : t.events.faultedLines = s.events.faultedLines
  commit : t.events.commitDetail = s.events.commitDetail

theorem Closes.told {s u t : State} {p : Period} (h : Closes s u p t) (kept : p.resetDue = false) :
    ToldAs (sizingClosed u) t := by
  obtain ⟨-, ht⟩ := h.eq kept
  have step : t.events = (samplingStep (allClosed u)).events := by rw [ht]
  obtain ⟨_, _, _, tick⟩ := holdoffTick_events (abandonAtEnd (sizingClosed u))
  unfold allClosed at step
  rw [abandonAtEnd_events] at tick
  have raises := samplingStep_raises (holdoffTick (abandonAtEnd (sizingClosed u)))
  generalize holdoffTick (abandonAtEnd (sizingClosed u)) = y at step tick raises
  generalize sizingClosed u = x at tick ⊢
  refine ⟨fun f hf => ?_, ?_, ?_, ?_, ?_⟩
  · rw [step, raises.flags f (by simpa using hf), tick]
  · rw [step, raises.guards (by decide) (by decide) (by decide), tick]
  · rw [step, raises.ready (by decide), tick]
  · rw [step, raises.faulted (by decide), tick]
  · rw [step, raises.commit (by decide), tick]

theorem beforeFade_raises {u : State} {p : Period} (hp : u.period = some p) :
    Raises (guardFlags ++ [.lineFault, .lineReady]) u (linesClosed u) :=
  (guardClosed_raises hp).and (linesClosed_raises u)

theorem afterFade_raises (u : State) : Raises [.sweepDone, .linkLost, .commitLost] (fadeClosed u) (sizingClosed u) := by
  have all := (rampsClosed_raises u).and
    ((sweepAtEnd_raises (rampsClosed u)).and
      ((limitAtEnd_raises (sweepClosed u)).and (sizingAtEnd_raises (limitClosed u))))
  exact all.mono (by decide)

/-- A raise adds its detail and its flag. -/
theorem raiseWith_events (f : Flag) (detail : Events → Events) (s : State) :
    ∃ notice, (raiseWith f detail s).events = { detail s.events with flags := s.events.flags ||| f.mask, notice } := by
  rcases announce_events { detail s.events with flags := s.events.flags ||| f.mask } s.slot with ⟨same, -⟩ | sent
  · exact ⟨(detail s.events).notice, same⟩
  · exact ⟨.sent, sent⟩

/-! ### The fade's stage -/

/-- The fade steps or ends in a period. -/
abbrev Fades (u : State) (p : Period) : Prop := u.changer.state = .fading ∧ p.processed = true

theorem fadeStepDue_iff {s : State} {p : Period} (hp : s.period = some p) : fadeStepDue s = true ↔ Fades s p := by
  unfold fadeStepDue Fades
  rw [hp]
  simp

theorem fadeEndDue_iff {s : State} {p : Period} (hp : s.period = some p) :
    fadeEndDue s = true ↔
      Fades s p ∧ s.changer.direction = .forward ∧ s.changer.length ≤ s.changer.position := by
  unfold fadeEndDue
  rw [Bool.and_eq_true, Bool.and_eq_true, fadeStepDue_iff hp, beq_iff_eq, decide_eq_true_iff, and_assoc]

theorem revertedFadeEndDue_iff {s : State} {p : Period} (hp : s.period = some p) :
    revertedFadeEndDue s = true ↔ Fades s p ∧ s.changer.direction = .back ∧ s.changer.position = 0 := by
  unfold revertedFadeEndDue
  rw [Bool.and_eq_true, Bool.and_eq_true, fadeStepDue_iff hp, beq_iff_eq, decide_eq_true_iff, and_assoc]

section

variable {s : State} {p : Period}

theorem fadeAtEnd_ends (hp : s.period = some p) (h : Fades s p) (forward : s.changer.direction = .forward)
    (last : s.changer.length ≤ s.changer.position) : fadeAtEnd s = fadeEnds s :=
  if_pos ((fadeEndDue_iff hp).mpr ⟨h, forward, last⟩)

theorem fadeAtEnd_reverts (hp : s.period = some p) (h : Fades s p) (back : s.changer.direction = .back)
    (last : s.changer.position = 0) : fadeAtEnd s = revertedFadeEnds s := by
  have notForward : ¬fadeEndDue s = true := fun k => nomatch back.symm.trans ((fadeEndDue_iff hp).mp k).2.1
  unfold fadeAtEnd
  rw [if_neg notForward, if_pos ((revertedFadeEndDue_iff hp).mpr ⟨h, back, last⟩)]

theorem fadeAtEnd_steps (hp : s.period = some p) (h : Fades s p)
    (more : (s.changer.direction = .forward ∧ s.changer.position < s.changer.length) ∨
      (s.changer.direction = .back ∧ s.changer.position ≠ 0)) :
    fadeAtEnd s = { s with changer := s.changer.step } := by
  have notForward : ¬fadeEndDue s = true := fun k => by
    obtain ⟨-, forward, last⟩ := (fadeEndDue_iff hp).mp k
    obtain ⟨_, short⟩ | ⟨back, _⟩ := more
    · omega
    · exact nomatch forward.symm.trans back
  have notBack : ¬revertedFadeEndDue s = true := fun k => by
    obtain ⟨-, back, last⟩ := (revertedFadeEndDue_iff hp).mp k
    obtain ⟨forward, _⟩ | ⟨_, some_⟩ := more
    · exact nomatch forward.symm.trans back
    · exact some_ last
  unfold fadeAtEnd
  rw [if_neg notForward, if_neg notBack, if_pos ((fadeStepDue_iff hp).mpr h)]

theorem fadeAtEnd_still (hp : s.period = some p) (h : ¬Fades s p) : fadeAtEnd s = s := by
  unfold fadeAtEnd
  rw [if_neg fun k => h ((fadeEndDue_iff hp).mp k).1, if_neg fun k => h ((revertedFadeEndDue_iff hp).mp k).1,
    if_neg fun k => h ((fadeStepDue_iff hp).mp k)]

end

/-! ### The changer in the close -/

/-- The scenes and the changer of `t` are those of `v`. -/
abbrev ChangedAs (v t : State) : Prop := t.scenes = v.scenes ∧ t.changer = v.changer

section

variable {s u t : State} {p : Period}

theorem linesClosed_scenes (u : State) : (linesClosed u).scenes = u.scenes := by rw [linesClosed_leaves]

theorem linesClosed_changer (u : State) : (linesClosed u).changer = u.changer := by rw [linesClosed_leaves]

theorem sweepClosed_scenes (u : State) : (sweepClosed u).scenes = (fadeClosed u).scenes := by rw [sweepClosed_leaves]

theorem sweepClosed_changer (u : State) : (sweepClosed u).changer = (fadeClosed u).changer := by rw [sweepClosed_leaves]

/-- The start-up limit withdraws an armed commit and leaves every other changer. -/
theorem limitAtEnd_changed {s : State} {p : Period} (hp : s.period = some p) :
    ChangedAs (if Limited s then withdrawn s else s) (limitAtEnd s) := by
  by_cases limited : Limited s
  · rw [limitAtEnd_due limited, startUpEnds_eq hp, if_pos limited]
    exact ⟨rfl, rfl⟩
  · rw [limitAtEnd_notDue limited, if_neg limited]
    exact ⟨rfl, rfl⟩

theorem limitClosed_changed (hp : u.period = some p) :
    ChangedAs (if Limited u then withdrawn (sweepClosed u) else sweepClosed u) (limitClosed u) := by
  obtain ⟨clipDue, period⟩ := sweepClosed_period hp
  have := limitAtEnd_changed period
  simp only [sweepClosed_limited] at this
  exact this

theorem Closes.changed (h : Closes s u p t) (kept : p.resetDue = false) : ChangedAs (limitClosed u) t := by
  obtain ⟨-, ht⟩ := h.eq kept
  have scenes : t.scenes = (samplingStep (allClosed u)).scenes := by rw [ht]
  have changer : t.changer = (samplingStep (allClosed u)).changer := by rw [ht]
  constructor
  · rw [scenes, samplingStep_leaves]
    dsimp only
    rw [allClosed_leaves]
  · rw [changer, samplingStep_leaves]
    dsimp only
    rw [allClosed_leaves]

/-- Where no commit is armed at the limit, the fade's stage is the last word. -/
theorem Closes.changed_unarmed (h : Closes s u p t) (kept : p.resetDue = false)
    (unarmed : ¬Limited u ∨ (fadeClosed u).changer.state ≠ .armed) : ChangedAs (fadeClosed u) t := by
  obtain ⟨hp, -⟩ := h.eq kept
  obtain ⟨scenes, changer⟩ := h.changed kept
  have same : (if Limited u then withdrawn (sweepClosed u) else sweepClosed u) = sweepClosed u := by
    by_cases limited : Limited u
    · rw [if_pos limited]
      refine if_neg ?_
      rw [sweepClosed_changer]
      exact unarmed.resolve_left fun k => k limited
    · exact if_neg limited
  have limit := limitClosed_changed hp
  rw [same] at limit
  exact ⟨scenes.trans (limit.1.trans (sweepClosed_scenes u)), changer.trans (limit.2.trans (sweepClosed_changer u))⟩

/-- A fade's end, unit by unit. -/
theorem fadeEnded_changed (d : CommitDetail) (f : Role → Role) (s : State) :
    (raiseCommitDone d (roleChange f Changer.steady s)).scenes = s.scenes.changeRoles f ∧
      (raiseCommitDone d (roleChange f Changer.steady s)).changer = Changer.steady := ⟨rfl, rfl⟩

/-- A fade that ends in the close, forward or back. -/
theorem Closes.fadeEnded (h : Closes s u p t) (kept : p.resetDue = false) {f : Role → Role} {d : CommitDetail}
    (fade : fadeClosed u = raiseCommitDone d (roleChange f Changer.steady (linesClosed u))) :
    (∃ v, RoleChanged f steadyChanger u v ∧ t.scenes = v.scenes ∧ t.changer = v.changer) ∧
      t.events.flags.getLsbD 5 = true ∧ t.events.commitDetail = d := by
  have told := h.told kept
  have after := afterFade_raises u
  obtain ⟨scenes, changer⟩ := fadeEnded_changed d f (linesClosed u)
  rw [← fade, linesClosed_scenes] at scenes
  rw [← fade] at changer
  obtain ⟨scenes', changer'⟩ := h.changed_unarmed kept (Or.inr (by rw [changer]; exact nofun))
  refine ⟨⟨_, roleChange_changed f Changer.steady u, scenes'.trans scenes, changer'.trans changer⟩, ?_, ?_⟩
  · show t.events.flags.getLsbD Flag.commitDone.number = true
    rw [told.flags .commitDone (by decide), after.flags .commitDone (by decide), fade]
    exact raised_flag .commitDone _ _
  · obtain ⟨_, events⟩ := raiseWith_events .commitDone (fun e => { e with commitDetail := d })
      (roleChange f Changer.steady (linesClosed u))
    rw [told.commit, after.commit (by decide), fade]
    exact congrArg Events.commitDetail events

/-- No fade ends in the close. -/
theorem Closes.fadeUnended (h : Closes s u p t) (kept : p.resetDue = false)
    (fade : (fadeClosed u).events = (linesClosed u).events) :
    t.events.flags.getLsbD 5 = u.events.flags.getLsbD 5 ∧ t.events.commitDetail = u.events.commitDetail := by
  obtain ⟨hp, -⟩ := h.eq kept
  have told := h.told kept
  have after := afterFade_raises u
  have before := beforeFade_raises hp
  constructor
  · show t.events.flags.getLsbD Flag.commitDone.number = _
    rw [told.flags .commitDone (by decide), after.flags .commitDone (by decide), fade]
    exact before.flags .commitDone (by decide)
  · rw [told.commit, after.commit (by decide), fade, before.commit (by decide)]

end

end Sys2Proof.Machine
end

section
/-! O44, settled: FIRE_FRAME, FADE_END and REVERTED_FADE_END, and the fade in the close. -/

namespace Sys2Proof.Machine

theorem endForward_eq : Role.endForward = endedRole := by
  funext r
  cases r <;> rfl

theorem endBack_eq : Role.endBack = revertedRole := by
  funext r
  cases r <;> rfl

/-- FIRE_FRAME, where the changer is ARMED for the next expected sequence (R54). -/
theorem exec_fireFrame_due {s : State} (released : s.pins.resetHeld = false)
    (settled : (endPeriod s).link.startUp = false) (armed : (endPeriod s).changer.state = .armed)
    (target : (endPeriod s).changer.target = some (endPeriod s).link.expected) :
    exec .fireFrame s =
      .next
        (fire
          { endPeriod s with
            begun := some ((endPeriod s).begun.getD (decide ((endPeriod s).slot.state = .waiting))) }) := by
  have due : fireDue (endPeriod s) = true := by
    unfold fireDue firesOn
    rw [settled, armed, target]
    simp
  have waiting : noticeWaiting (endPeriod s) =
      (endPeriod s).begun.getD (decide ((endPeriod s).slot.state = .waiting)) := by
    unfold noticeWaiting
    rw [beq_eq_decide]
  rw [← waiting]
  exact eventCommand_due (due := fun s => fireDue (endPeriod s)) (fun s => fire { endPeriod s with begun := some (noticeWaiting (endPeriod s)) }) released due

theorem fire_now {s : State} (h : s.changer.length = 0) :
    ∃ v, RoleChanged switchedRole steadyChanger s v ∧ fire s = raiseCommitDone .notReverted v := by
  have changed := roleChange_changed Role.switch Changer.steady s
  rw [switch_eq] at changed
  refine ⟨_, changed, ?_⟩
  unfold fire
  rw [if_pos h, switch_eq]

theorem fire_fade {s : State} (h : s.changer.length ≠ 0) :
    RoleChanged firedRole
      { state := .fading, target := none, length := s.changer.length, position := 1, direction := .forward } s
      (fire s) := by
  have changed := roleChange_changed Role.fire
    { state := .fading, target := none, length := s.changer.length, position := 1, direction := .forward } s
  unfold fire
  rw [if_neg h, ← fire_eq]
  exact changed

section

variable {s u t : State} {p : Period}

theorem step_forward {c : Changer} (h : c.direction = .forward) : { c with position := c.position + 1 } = c.step := by
  unfold Changer.step
  split
  · rfl
  · next back => exact nomatch h.symm.trans back

theorem step_back {c : Changer} (h : c.direction = .back) : { c with position := c.position - 1 } = c.step := by
  unfold Changer.step
  split
  · next forward => exact nomatch h.symm.trans forward
  · rfl

theorem disarm_changed (s : State) :
    (disarm s).scenes = s.scenes.changeRoles Role.disarm ∧ (disarm s).changer = Changer.steady := ⟨rfl, rfl⟩

/-- A fade's step in the close. -/
theorem Closes.fadeStepped (h : Closes s u p t) (kept : p.resetDue = false) (fades : Fades u p)
    (more : (u.changer.direction = .forward ∧ u.changer.position < u.changer.length) ∨
      (u.changer.direction = .back ∧ u.changer.position ≠ 0)) :
    t.changer = u.changer.step ∧ t.scenes = u.scenes ∧
      t.events.flags.getLsbD 5 = u.events.flags.getLsbD 5 ∧ t.events.commitDetail = u.events.commitDetail := by
  obtain ⟨hp, -⟩ := h.eq kept
  obtain ⟨clipDue, period⟩ := linesClosed_period hp
  have fade : fadeClosed u = { linesClosed u with changer := (linesClosed u).changer.step } :=
    fadeAtEnd_steps period (by unfold Fades; rw [linesClosed_changer]; exact fades)
      (by rw [linesClosed_changer]; exact more)
  have changer : (fadeClosed u).changer = u.changer.step := by rw [fade, linesClosed_changer]
  have scenes : (fadeClosed u).scenes = u.scenes := by rw [fade, linesClosed_scenes]
  have state : u.changer.step.state = u.changer.state := by
    unfold Changer.step
    split
    · rfl
    · rfl
  obtain ⟨scenes', changer'⟩ := h.changed_unarmed kept
    (Or.inr (by rw [changer, state, fades.1]; exact nofun))
  exact ⟨changer'.trans changer, scenes'.trans scenes, h.fadeUnended kept (by rw [fade])⟩

/-- No fade in the close. -/
theorem Closes.fadeClosed_still (h : Closes s u p t) (kept : p.resetDue = false) (still : ¬Fades u p) :
    fadeClosed u = linesClosed u := by
  obtain ⟨hp, -⟩ := h.eq kept
  obtain ⟨clipDue, period⟩ := linesClosed_period hp
  refine fadeAtEnd_still period ?_
  unfold Fades
  rw [linesClosed_changer]
  exact still

theorem limitTold_events (s : State) : (limitTold s).events = (raisedAll (limitFlags s) s).events := rfl

/-- The start-up limit with a commit armed, and no fade in the close. -/
theorem Closes.withdrawn (h : Closes s u p t) (kept : p.resetDue = false) (still : ¬Fades u p) (limited : Limited u)
    (armed : u.changer.state = .armed) :
    (∃ v, RoleChanged withdrawnRole steadyChanger u v ∧ t.scenes = v.scenes ∧ t.changer = v.changer) ∧
      t.events.flags.getLsbD 6 = true := by
  obtain ⟨hp, -⟩ := h.eq kept
  have fade := h.fadeClosed_still kept still
  have scenes : (sweepClosed u).scenes = u.scenes := by rw [sweepClosed_scenes, fade, linesClosed_scenes]
  have changer : (sweepClosed u).changer = u.changer := by rw [sweepClosed_changer, fade, linesClosed_changer]
  have armed' : (sweepClosed u).changer.state = .armed := by rw [changer, armed]
  have limit := limitClosed_changed hp
  rw [if_pos limited] at limit
  unfold Machine.withdrawn at limit
  rw [if_pos armed'] at limit
  obtain ⟨scenes', changer'⟩ := h.changed kept
  obtain ⟨roles, steady⟩ := disarm_changed (sweepClosed u)
  have changed := roleChange_changed Role.disarm Changer.steady u
  rw [scenes] at roles
  rw [← disarm_eq]
  refine ⟨⟨_, changed, scenes'.trans (limit.1.trans roles), changer'.trans (limit.2.trans steady)⟩, ?_⟩
  · have told := h.told kept
    show t.events.flags.getLsbD Flag.commitLost.number = true
    obtain ⟨_, period⟩ := sweepClosed_period hp
    have flags : (limitAtEnd (sweepClosed u)).events = (raisedAll (limitFlags (sweepClosed u)) (sweepClosed u)).events := by
      rw [limitAtEnd_due ((sweepClosed_limited u).mpr limited), startUpEnds_eq period, ← limitTold_events]
    have sizing := (sizingAtEnd_raises (limitClosed u)).flags .commitLost nofun
    rw [told.flags .commitLost (by decide)]
    unfold sizingClosed
    rw [sizing]
    unfold limitClosed
    rw [flags]
    unfold limitFlags
    rw [if_pos armed']
    exact raised_flag .commitLost id _

/-- No commit is armed at the limit, and no fade steps or ends. -/
theorem Closes.changed_still (h : Closes s u p t) (kept : p.resetDue = false) (still : ¬Fades u p)
    (calm : ¬Limited u ∨ u.changer.state ≠ .armed) : t.scenes = u.scenes ∧ t.changer = u.changer := by
  have fade := h.fadeClosed_still kept still
  have changer : (fadeClosed u).changer = u.changer := by rw [fade, linesClosed_changer]
  have scenes : (fadeClosed u).scenes = u.scenes := by rw [fade, linesClosed_scenes]
  obtain ⟨scenes', changer'⟩ := h.changed_unarmed kept (by rw [changer]; exact calm)
  exact ⟨scenes'.trans scenes, changer'.trans changer⟩

end

/-- Settles O44: a fire, a fade's end and the start-up limit are the role changes of the close, one at most. -/
theorem commitsFireAndFadesEnd : Obligations.CommitsFireAndFadesEnd := by
  unfold Obligations.CommitsFireAndFadesEnd
  refine ⟨fun s released => ?_, fun s p released hp processed fading => ⟨fun forward last => ?_, fun back last => ?_⟩,
    fun s u p t closes kept => ?_⟩
  · intro t settled armed target m
    have fires := exec_fireFrame_due released settled armed target
    refine ⟨fun none_ => ?_, fun some_ => ⟨_, fire_fade (s := m) some_, fires⟩⟩
    obtain ⟨v, changed, now⟩ := fire_now (s := m) none_
    exact ⟨v, changed, fires.trans (congrArg Host.Outcome.next now)⟩
  · have changed := roleChange_changed Role.endForward Changer.steady s
    rw [endForward_eq] at changed
    refine ⟨_, changed, ?_⟩
    rw [← endForward_eq]
    exact eventCommand_due fadeEnds released ((fadeEndDue_iff hp).mpr ⟨⟨fading, processed⟩, forward, last⟩)
  · have changed := roleChange_changed Role.endBack Changer.steady s
    rw [endBack_eq] at changed
    refine ⟨_, changed, ?_⟩
    rw [← endBack_eq]
    exact eventCommand_due revertedFadeEnds released
      ((revertedFadeEndDue_iff hp).mpr ⟨⟨fading, processed⟩, back, last⟩)
  · obtain ⟨hp, -⟩ := closes.eq kept
    obtain ⟨clipDue, period⟩ := linesClosed_period hp
    have fadesThere (h : Fades u p) : Fades (linesClosed u)
        { p with clipDue, blockDone := p.blockDone || p.counts } := by
      unfold Fades
      rw [linesClosed_changer]
      exact h
    dsimp only
    refine ⟨fun processed fading => ⟨fun forward last => ?_, fun back last => ?_, fun forward more => ?_,
      fun back more => ?_⟩, fun still => ?_⟩
    · have fade : fadeClosed u = fadeEnds (linesClosed u) :=
        fadeAtEnd_ends period (fadesThere ⟨fading, processed⟩) (by rw [linesClosed_changer]; exact forward)
          (by rw [linesClosed_changer]; exact last)
      rw [← endForward_eq]
      exact closes.fadeEnded kept fade
    · have fade : fadeClosed u = revertedFadeEnds (linesClosed u) :=
        fadeAtEnd_reverts period (fadesThere ⟨fading, processed⟩) (by rw [linesClosed_changer]; exact back)
          (by rw [linesClosed_changer]; exact last)
      rw [← endBack_eq]
      exact closes.fadeEnded kept fade
    · rw [step_forward forward]
      exact closes.fadeStepped kept ⟨fading, processed⟩ (Or.inl ⟨forward, more⟩)
    · rw [step_back back]
      exact closes.fadeStepped kept ⟨fading, processed⟩ (Or.inr ⟨back, more⟩)
    · have unfading : ¬Fades u p := fun h =>
        still.elim (fun k => nomatch k.symm.trans h.2) fun k => k h.1
      refine ⟨closes.fadeUnended kept (by rw [closes.fadeClosed_still kept unfading]),
        closes.withdrawn kept unfading, closes.changed_still kept unfading⟩

end Sys2Proof.Machine
end

section
/-! SUPPORT. The lines in the close of a frame period: faults, and the end of clearing (R12, R16). -/

namespace Sys2Proof.Machine

/-- A RUNNING line of which an uncorrectable word was read: it faults in the close (R16). -/
abbrev Faulting (u : State) (p : Period) (n : Line) : Prop := n ∈ p.faultDue ∧ (lineOf u n).state = .running

/-- The head line's window is cleared (R12). -/
abbrev ClearedHead (u : State) (n : Line) : Prop :=
  u.mem.clearing.head? = some n ∧ 1024 * (lineOf u n).length ≤ u.mem.zeroed

/-! ### Faults -/

/-- Lines none of which is listed for clearing, made FAULTED. -/
structure MadeFaulted (ns : List Line) (s t : State) : Prop where
  lines : ∀ n, lineOf t n = if n ∈ ns then { lineOf s n with state := .faulted } else lineOf s n
  mem : t.mem = s.mem
  flag : t.events.flags.getLsbD 11 = true ↔ s.events.flags.getLsbD 11 = true ∨ ∃ n, n ∈ ns
  faulted : ∀ n : Line,
    t.events.faultedLines.getLsbD n.val = true ↔ s.events.faultedLines.getLsbD n.val = true ∨ n ∈ ns

theorem unlist_none {m : MemCtl} {gone : Line → Bool} (h : ∀ n ∈ m.clearing, gone n = false) : m.unlist gone = m := by
  have clearing : m.clearing.filter (fun n => !gone n) = m.clearing := List.filter_eq_self.mpr fun n hn => by rw [h n hn]; rfl
  have head : (m.clearing.head?.map gone).getD false = false := by
    cases hm : m.clearing with
    | nil => rfl
    | cons n rest => exact h n (hm ▸ List.mem_cons_self)
  unfold MemCtl.unlist
  rw [clearing, head]
  rfl

theorem raiseFault_lines (ns : List Line) (s : State) (n : Line) : lineOf (raiseFault ns s) n = lineOf s n := by
  unfold raiseFault
  split
  · rfl
  · rfl

theorem raiseFault_mem (ns : List Line) (s : State) : (raiseFault ns s).mem = s.mem := by
  unfold raiseFault
  split
  · rfl
  · rfl

theorem raiseFault_flag (ns : List Line) (s : State) :
    (raiseFault ns s).events.flags.getLsbD 11 = true ↔ s.events.flags.getLsbD 11 = true ∨ ∃ n, n ∈ ns := by
  unfold raiseFault
  cases ns with
  | nil => simp
  | cons n rest =>
    have set := raised_flag .lineFault (fun e => { e with faultedLines := addLines e.faultedLines (n :: rest) }) s
    exact ⟨fun _ => Or.inr ⟨n, List.mem_cons_self⟩, fun _ => set⟩

theorem raiseFault_faulted (ns : List Line) (s : State) (n : Line) :
    (raiseFault ns s).events.faultedLines.getLsbD n.val = true ↔
      s.events.faultedLines.getLsbD n.val = true ∨ n ∈ ns := by
  unfold raiseFault
  cases ns with
  | nil => simp
  | cons m rest =>
    obtain ⟨_, events⟩ := raiseWith_events .lineFault
      (fun e => { e with faultedLines := addLines e.faultedLines (m :: rest) }) s
    rw [if_neg (by simp), events]
    exact addLines_get _ _ _

theorem makeFaulted_made {ns : List Line} {s : State} (h : ∀ n ∈ s.mem.clearing, n ∉ ns) :
    MadeFaulted ns s (makeFaulted ns s) where
  lines n := by
    unfold makeFaulted
    rw [raiseFault_lines]
    exact lineOf_faulted s ns _ n
  mem := by
    unfold makeFaulted
    rw [raiseFault_mem]
    exact unlist_none fun n hn => decide_eq_false (h n hn)
  flag := by
    unfold makeFaulted
    rw [raiseFault_flag]
  faulted n := by
    unfold makeFaulted
    rw [raiseFault_faulted]

/-! ### The end of clearing -/

/-- The end of the head line's clearing, where it is due. -/
structure ClearingClosed (s t : State) : Prop where
  cleared : ∀ n, ClearedHead s n → lineOf t n = { lineOf s n with state := .running, position := 0, damped := 0 }
  others : ∀ n, ¬ClearedHead s n → lineOf t n = lineOf s n
  done : (∃ n, ClearedHead s n) → t.mem.clearing = s.mem.clearing.tail ∧ t.mem.zeroed = 0
  goesOn : (∀ n, ¬ClearedHead s n) → t.mem.clearing = s.mem.clearing ∧ t.mem.zeroed = s.mem.zeroed
  flag : t.events.flags.getLsbD 10 = true ↔ s.events.flags.getLsbD 10 = true ∨ ∃ n, ClearedHead s n
  ready : ∀ n : Line,
    t.events.readyLines.getLsbD n.val = true ↔ s.events.readyLines.getLsbD n.val = true ∨ ClearedHead s n

theorem endOfClearingDue_iff {s : State} {n : Line} {rest : List Line} (h : s.mem.clearing = n :: rest) :
    endOfClearingDue s = true ↔ 1024 * (lineOf s n).length ≤ s.mem.zeroed := by
  unfold endOfClearingDue
  rw [h]
  show decide ((lineOf s n).length * 1024 ≤ s.mem.zeroed) = true ↔ _
  rw [decide_eq_true_iff, Nat.mul_comm]

theorem clearingEnds_head {s : State} {n : Line} {rest : List Line} (h : s.mem.clearing = n :: rest) :
    clearingEnds s =
      raiseReady n
        { s with
          lines := s.lines.set n { lineOf s n with state := .running, position := 0, damped := 0 }
          mem := { s.mem with clearing := rest, zeroed := 0 } } := by
  unfold clearingEnds
  rw [h] <;> rfl

theorem clearingAtEnd_closed (s : State) : ClearingClosed s (clearingAtEnd s) := by
  by_cases due : ∃ n, ClearedHead s n
  · obtain ⟨n, head, whole⟩ := due
    obtain ⟨rest, clearing⟩ : ∃ rest, s.mem.clearing = n :: rest := List.head?_eq_some_iff.mp head
    have only (m : Line) : ClearedHead s m ↔ m = n :=
      ⟨fun h => Option.some.inj (h.1.symm.trans head), fun h => h ▸ ⟨head, whole⟩⟩
    have ends : clearingAtEnd s = clearingEnds s := if_pos ((endOfClearingDue_iff clearing).mpr whole)
    rw [ends, clearingEnds_head clearing]
    refine ⟨fun m hm => ?_, fun m hm => ?_, fun _ => ?_, fun none_ => absurd ⟨head, whole⟩ (none_ n), ?_, fun m => ?_⟩
    · obtain rfl := (only m).mp hm
      exact Vector.getElem_set_self _
    · exact Vector.getElem_set_ne n.isLt m.isLt fun e => hm ((only m).mpr (Fin.ext e.symm))
    · rw [clearing]
      exact ⟨rfl, rfl⟩
    · exact ⟨fun _ => Or.inr ⟨n, head, whole⟩, fun _ => raised_flag .lineReady _ _⟩
    · rw [only m]
      obtain ⟨_, events⟩ := raiseWith_events .lineReady
        (fun e => { e with readyLines := addLines e.readyLines [n] })
        { s with
          lines := s.lines.set n { lineOf s n with state := .running, position := 0, damped := 0 }
          mem := { s.mem with clearing := rest, zeroed := 0 } }
      unfold raiseReady
      rw [events]
      exact (addLines_get _ _ _).trans (or_congr Iff.rfl List.mem_singleton)
  · have none_ (n : Line) : ¬ClearedHead s n := fun h => due ⟨n, h⟩
    have notDue : ¬endOfClearingDue s = true := fun h => by
      cases clearing : s.mem.clearing with
      | nil =>
        unfold endOfClearingDue at h
        rw [clearing] at h
        exact nomatch h
      | cons n rest =>
        exact none_ n ⟨by rw [clearing]; rfl, (endOfClearingDue_iff clearing).mp h⟩
    have same : clearingAtEnd s = s := if_neg notDue
    rw [same]
    exact ⟨fun n h => absurd h (none_ n), fun _ _ => rfl, fun h => absurd h due, fun _ => ⟨rfl, rfl⟩,
      ⟨Or.inl, fun h => h.resolve_right due⟩, fun n => ⟨Or.inl, fun h => h.resolve_right (none_ n)⟩⟩

/-! ### The lines' stage -/

section

variable {u : State} {p : Period}

/-- The lines that the close finds faulting. -/
theorem guardClosed_faults (hp : u.period = some p) :
    ∃ ns, takeFaults (fun _ => true) (guardClosed u) = makeFaulted ns (guardClosed u) ∧ ∀ n, n ∈ ns ↔ Faulting u p n := by
  obtain ⟨clipDue, period⟩ := (guardClosed_closed hp).period
  have lines : (guardClosed u).lines = u.lines := by rw [guardClosed_leaves]
  refine ⟨_, takeFaults_some period _, fun n => ?_⟩
  unfold faultsNow Faulting lineOf
  rw [lines]
  simp [allLines]

/-- The lines' stage, where no line listed for clearing is RUNNING. -/
theorem linesClosed_closed (hp : u.period = some p) (idle : ∀ n ∈ u.mem.clearing, (lineOf u n).state ≠ .running) :
    (∀ n, (Faulting u p n → lineOf (linesClosed u) n = { lineOf u n with state := .faulted }) ∧
        (ClearedHead u n →
          lineOf (linesClosed u) n = { lineOf u n with state := .running, position := 0, damped := 0 }) ∧
        (¬Faulting u p n → ¬ClearedHead u n → lineOf (linesClosed u) n = lineOf u n) ∧
        ((linesClosed u).events.faultedLines.getLsbD n.val = true ↔
          u.events.faultedLines.getLsbD n.val = true ∨ Faulting u p n) ∧
        ((linesClosed u).events.readyLines.getLsbD n.val = true ↔
          u.events.readyLines.getLsbD n.val = true ∨ ClearedHead u n)) ∧
      ((∃ n, ClearedHead u n) →
        (linesClosed u).mem.clearing = u.mem.clearing.tail ∧ (linesClosed u).mem.zeroed = 0) ∧
      ((∀ n, ¬ClearedHead u n) →
        (linesClosed u).mem.clearing = u.mem.clearing ∧ (linesClosed u).mem.zeroed = u.mem.zeroed) ∧
      ((linesClosed u).events.flags.getLsbD 11 = true ↔
        u.events.flags.getLsbD 11 = true ∨ ∃ n, Faulting u p n) ∧
      ((linesClosed u).events.flags.getLsbD 10 = true ↔
        u.events.flags.getLsbD 10 = true ∨ ∃ n, ClearedHead u n) := by
  obtain ⟨ns, faults, mem_ns⟩ := guardClosed_faults hp
  have raises := guardClosed_raises hp
  have lines (n : Line) : lineOf (guardClosed u) n = lineOf u n := by
    unfold lineOf
    rw [guardClosed_leaves]
  have mem : (guardClosed u).mem = u.mem := by rw [guardClosed_leaves]
  have unlisted : ∀ n ∈ (guardClosed u).mem.clearing, n ∉ ns := by
    rw [mem]
    exact fun n hn h => idle n hn ((mem_ns n).mp h).2
  have made := makeFaulted_made unlisted
  have more := makeFaulted_raises ns (guardClosed u)
  rw [← faults] at made more
  have closed := clearingAtEnd_closed (takeFaults (fun _ => true) (guardClosed u))
  have last := clearingAtEnd_raises (takeFaults (fun _ => true) (guardClosed u))
  have head (n : Line) : ClearedHead (takeFaults (fun _ => true) (guardClosed u)) n ↔ ClearedHead u n := by
    unfold ClearedHead
    rw [made.mem, mem, made.lines, lines]
    split
    · exact Iff.rfl
    · exact Iff.rfl
  have stage : linesClosed u = clearingAtEnd (takeFaults (fun _ => true) (guardClosed u)) := rfl
  rw [← stage] at closed last
  generalize takeFaults (fun _ => true) (guardClosed u) = y at made more closed last head
  refine ⟨fun n => ⟨fun h => ?_, fun h => ?_, fun h k => ?_, ?_, ?_⟩, fun h => ?_, fun h => ?_, ?_, ?_⟩
  · have notHead : ¬ClearedHead u n := fun k => idle n (List.mem_of_mem_head? k.1) h.2
    rw [closed.others n fun k => notHead ((head n).mp k), made.lines, if_pos ((mem_ns n).mpr h), lines]
  · have notFaulting : ¬Faulting u p n := fun k => idle n (List.mem_of_mem_head? h.1) k.2
    rw [closed.cleared n ((head n).mpr h), made.lines, if_neg fun k => notFaulting ((mem_ns n).mp k), lines]
  · rw [closed.others n fun m => k ((head n).mp m), made.lines, if_neg fun m => h ((mem_ns n).mp m), lines]
  · rw [last.faulted (by decide), made.faulted, raises.faulted (by decide), mem_ns]
  · rw [closed.ready, head, more.ready (by decide), raises.ready (by decide)]
  · obtain ⟨clearing, zeroed⟩ := closed.done (h.imp fun n => (head n).mpr)
    exact ⟨clearing.trans (by rw [made.mem, mem]), zeroed⟩
  · obtain ⟨clearing, zeroed⟩ := closed.goesOn fun n k => h n ((head n).mp k)
    exact ⟨clearing.trans (by rw [made.mem, mem]), zeroed.trans (by rw [made.mem, mem])⟩
  · have same := last.flags .lineFault (by decide)
    have before := raises.flags .lineFault (by decide)
    exact (iff_of_eq (congrArg (· = true) same)).trans
      (made.flag.trans (or_congr (iff_of_eq (congrArg (· = true) before)) (exists_congr mem_ns)))
  · have same := more.flags .lineReady (by decide)
    have before := raises.flags .lineReady (by decide)
    exact closed.flag.trans (or_congr (iff_of_eq (congrArg (· = true) (same.trans before))) (exists_congr head))

end

end Sys2Proof.Machine
end

section
/-! O43. Sizing, clearing, the sweep and the start-up search end, and what the close of a frame period makes of them. -/

namespace Sys2Proof.Machine

/-! ### The events named -/

section

variable {s : State} {p : Period}

theorem inPeriod_some (hp : s.period = some p) : inPeriod s = true := by
  unfold inPeriod
  rw [hp]
  rfl

/-- An event of a frame period, where it is due. -/
theorem eventCommand_inPeriod {due : State → Bool} (effect : State → State) (released : s.pins.resetHeld = false)
    (hp : s.period = some p) (h : due s = true) :
    eventCommand (fun s => inPeriod s && due s) effect s = .next (effect s) :=
  eventCommand_due effect released ((congrArg₂ and (inPeriod_some hp) h : _ = (true && true)))

theorem sizingEnds_eq (s : State) :
    ∃ present : Vector Bool 4,
      (∀ r : Rank, present[r] = decide (s.device.life[r] ≠ some 0)) ∧
        sizingEnds s =
          { s with mem := { s.mem with present }, node := { s.node with state := .standby } } := by
  refine ⟨Vector.ofFn fun r => s.device.answersProbe r, fun r => ?_, rfl⟩
  exact Vector.getElem_ofFn r.isLt

theorem sweepCompleteDue_iff (s : State) :
    sweepCompleteDue s = true ↔ s.node.state = .sweep ∧ s.mem.sweepEnded = true := by
  unfold sweepCompleteDue
  rw [Bool.and_eq_true, beq_iff_eq]

/-- The commit withdrawn at the start-up limit (R63). -/
theorem withdrawn_changed (s : State) :
    (s.changer.state = .armed → RoleChanged withdrawnRole steadyChanger s (withdrawn s)) ∧
      (s.changer.state ≠ .armed → withdrawn s = s) := by
  unfold withdrawn
  refine ⟨fun armed => ?_, fun unarmed => if_neg unarmed⟩
  rw [if_pos armed, ← disarm_eq]
  exact roleChange_changed Role.disarm Changer.steady s

end

/-! ### The stages by name -/

theorem sweepClosed_def (u : State) : sweepClosed u = sweepAtEnd (rampsClosed u) := rfl

theorem limitClosed_def (u : State) : limitClosed u = limitAtEnd (sweepClosed u) := rfl

theorem sizingClosed_def (u : State) : sizingClosed u = sizingAtEnd (limitClosed u) := rfl

theorem fadeClosed_raises (u : State) : Raises [.commitDone] (linesClosed u) (fadeClosed u) := fadeAtEnd_raises _

theorem sweepClosed_raises (u : State) : Raises [.sweepDone] (rampsClosed u) (sweepClosed u) := sweepAtEnd_raises _

theorem limitClosed_raises (u : State) : Raises [.linkLost, .commitLost] (sweepClosed u) (limitClosed u) :=
  limitAtEnd_raises _

theorem sizingStage_raises (u : State) : Raises [] (limitClosed u) (sizingClosed u) := sizingAtEnd_raises _

/-! ### The close -/

section

variable {s u t : State} {p : Period}

theorem Closes.lines (h : Closes s u p t) (kept : p.resetDue = false) (n : Line) : lineOf t n = lineOf (linesClosed u) n := by
  obtain ⟨-, ht⟩ := h.eq kept
  have lines : t.lines = (linesClosed u).lines := by
    have step : t.lines = (samplingStep (allClosed u)).lines := by rw [ht]
    rw [step, samplingStep_leaves]
    dsimp only
    rw [allClosed_leaves]
  unfold lineOf
  rw [lines]

theorem Closes.mem (h : Closes s u p t) (kept : p.resetDue = false) : t.mem = (sizingClosed u).mem := by
  obtain ⟨-, ht⟩ := h.eq kept
  have step : t.mem = (samplingStep (allClosed u)).mem := by rw [ht]
  rw [step, samplingStep_leaves]
  dsimp only
  rw [allClosed_leaves]

theorem Closes.link (h : Closes s u p t) (kept : p.resetDue = false) : t.link = (limitClosed u).link := by
  obtain ⟨-, ht⟩ := h.eq kept
  have step : t.link = (samplingStep (allClosed u)).link := by rw [ht]
  rw [step, samplingStep_leaves]
  dsimp only
  rw [allClosed_leaves]

/-- The end of sizing changes which ranks are PRESENT. -/
theorem sizingAtEnd_mem (s : State) : (sizingAtEnd s).mem = { s.mem with present := (sizingAtEnd s).mem.present } := by
  unfold sizingAtEnd
  split
  · rfl
  · rfl

theorem sizingClosed_mem (u : State) :
    (sizingClosed u).mem = { (sweepClosed u).mem with present := (sizingClosed u).mem.present } := by
  have stage := sizingAtEnd_mem (limitClosed u)
  rw [← sizingClosed_def, limitClosed_mem] at stage
  exact stage

/-- No stage before its own brings the node to SIZING or SWEEP, or out of it. -/
theorem rampsClosed_state (hp : u.period = some p) {x : NodeState} (hx : x = .sizing ∨ x = .sweep) :
    (rampsClosed u).node.state = x ↔ u.node.state = x := by
  by_cases leaves : Leaves u.node p
  · obtain ⟨-, -, -, state, -, -⟩ := id leaves
    rw [rampsClosed_node_leaves hp leaves]
    dsimp only
    obtain run | silent := state
    · rw [run]
      obtain rfl | rfl := hx
      · exact ⟨nofun, nofun⟩
      · exact ⟨nofun, nofun⟩
    · rw [silent]
      obtain rfl | rfl := hx
      · exact ⟨nofun, nofun⟩
      · exact ⟨nofun, nofun⟩
  · rw [rampsClosed_node_stays hp leaves]

theorem limitClosed_sizing (hp : u.period = some p) : (limitClosed u).node.state = .sizing ↔ u.node.state = .sizing := by
  have ramps := rampsClosed_state hp (Or.inl rfl)
  have sweep : (sweepClosed u).node.state = .sizing ↔ (rampsClosed u).node.state = .sizing := by
    rw [sweepClosed_node]
    split
    · next h =>
      rw [h.1]
      exact ⟨nofun, nofun⟩
    · exact Iff.rfl
  have limit : (limitClosed u).node.state = .sizing ↔ (sweepClosed u).node.state = .sizing := by
    rw [limitClosed_node hp]
    split
    · next h =>
      rw [h.2]
      exact ⟨nofun, nofun⟩
    · exact Iff.rfl
  exact limit.trans (sweep.trans ramps)

theorem sizingAtEnd_due {s : State} (h : sizingEndDue s = true) : sizingAtEnd s = sizingEnds s := if_pos h

theorem sizingAtEnd_notDue {s : State} (h : ¬sizingEndDue s = true) : sizingAtEnd s = s := if_neg h

/-- Rank presence after the close (R3). -/
theorem Closes.present (h : Closes s u p t) (kept : p.resetDue = false) :
    if u.node.state = .sizing ∧ 96 ≤ u.mem.sizing then ∀ r : Rank, t.mem.present[r] = decide (u.device.life[r] ≠ some 0)
    else t.mem.present = u.mem.present := by
  obtain ⟨hp, -⟩ := h.eq kept
  have mem := h.mem kept
  have due : sizingEndDue (limitClosed u) = true ↔ u.node.state = .sizing ∧ 96 ≤ u.mem.sizing := by
    rw [sizingEndDue_iff, limitClosed_sizing hp, limitClosed_mem_sizing]
  by_cases sized : u.node.state = .sizing ∧ 96 ≤ u.mem.sizing
  · rw [if_pos sized, mem]
    have ends : sizingClosed u = sizingEnds (limitClosed u) := by
      rw [sizingClosed_def, sizingAtEnd_due (due.mpr sized)]
    have device : (limitClosed u).device = u.device := by rw [limitClosed_leaves]
    obtain ⟨present, probes, eq⟩ := sizingEnds_eq (limitClosed u)
    rw [ends, eq, ← device]
    exact probes
  · rw [if_neg sized, mem]
    have same : sizingClosed u = limitClosed u := by
      rw [sizingClosed_def, sizingAtEnd_notDue fun k => sized (due.mp k)]
    obtain ⟨-, sweep, -⟩ := sweepAtEnd_mem_kept (rampsClosed u)
    rw [rampsClosed_mem_present, ← sweepClosed_def] at sweep
    rw [same, limitClosed_mem, sweep]

/-- The clearing work list after the close is the lines' stage's. -/
theorem Closes.clearing (h : Closes s u p t) (kept : p.resetDue = false) :
    t.mem.clearing = (linesClosed u).mem.clearing ∧ t.mem.zeroed = (linesClosed u).mem.zeroed := by
  obtain ⟨-, -, clearing, zeroed⟩ := sweepAtEnd_mem_kept (rampsClosed u)
  rw [← sweepClosed_def, rampsClosed_mem] at clearing zeroed
  rw [h.mem kept, sizingClosed_mem]
  generalize (sweepClosed u).mem = m at clearing zeroed ⊢
  exact ⟨clearing, zeroed⟩

theorem Closes.sweep (h : Closes s u p t) (kept : p.resetDue = false) :
    t.mem.sweep = (sweepClosed u).mem.sweep ∧ t.mem.sweepFrame = (sweepClosed u).mem.sweepFrame ∧
      t.mem.sweepFailed = (sweepClosed u).mem.sweepFailed ∧ t.mem.sweepEnded = (sweepClosed u).mem.sweepEnded := by
  rw [h.mem kept, sizingClosed_mem]
  generalize (sweepClosed u).mem = m
  exact ⟨rfl, rfl, rfl, rfl⟩

/-! ### The sweep's stage -/

theorem sweepAtEnd_completes {s : State} (sweep : s.node.state = .sweep) (ended : s.mem.sweepEnded = true) :
    sweepAtEnd s = sweepCompletes s := if_pos ((sweepCompleteDue_iff s).mpr ⟨sweep, ended⟩)

theorem sweepAtEnd_goesOn {s : State} (h : ¬(s.node.state = .sweep ∧ s.mem.sweepEnded = true)) :
    sweepAtEnd s = sweepMoves s := if_neg fun k => h ((sweepCompleteDue_iff s).mp k)

theorem sweepMoveDue_iff (s : State) :
    sweepMoveDue s = true ↔
      s.node.state = .sweep ∧ s.mem.sweepEnded = false ∧ s.mem.present[s.mem.sweep.rank] = false ∧
        s.mem.rankAfter.isSome = true := by
  unfold sweepMoveDue
  simp [and_assoc]

/-- The next PRESENT rank after the one the sweep stands at. -/
theorem rankAfter_some {m : MemCtl} {r : Rank} (above : m.sweep.rank < r) (present : m.present[r] = true)
    (between : ∀ q : Rank, m.sweep.rank < q → q < r → m.present[q] = false) : m.rankAfter = some r := by
  unfold MemCtl.rankAfter nextPresent
  refine find?_finRange ?_ fun q below => ?_
  · rw [present, Bool.and_true, decide_eq_true_iff]
    exact above
  · by_cases after : m.sweep.rank.val + 1 ≤ q.val
    · rw [between q after below, Bool.and_false]
    · rw [decide_eq_false after, Bool.false_and]

/-- The sweep moves on to a rank (R21). -/
theorem sweepMoves_to {s : State} (sweep : s.node.state = .sweep) (goesOn : s.mem.sweepEnded = false) {r : Rank}
    (absent : s.mem.present[s.mem.sweep.rank] = false) (next : s.mem.rankAfter = some r) :
    (sweepMoves s).mem =
      { s.mem with
        sweep := { s.mem.sweep with rank := r, block := 4096 * r.val }, sweepFrame := 0, sweepFailed := false } := by
  have due : sweepMoveDue s = true := (sweepMoveDue_iff s).mpr ⟨sweep, goesOn, absent, by rw [next]; rfl⟩
  have block : firstBlock r = 4096 * r.val := Nat.mul_comm _ _
  have moves : sweepMoves s = overMem MemCtl.sweepOn s := if_pos due
  rw [moves]
  unfold overMem MemCtl.sweepOn MemCtl.sweepTo
  rw [next, ← block]

theorem sweptRank_congr {m k : MemCtl} (present : m.present = k.present) (sweep : m.sweep = k.sweep) :
    m.present[m.sweep.rank] = k.present[k.sweep.rank] := by simp only [present, sweep]

/-- The presence of the rank that the sweep stands at. -/
theorem rampsClosed_sweptRank (u : State) :
    (rampsClosed u).mem.present[(rampsClosed u).mem.sweep.rank] = u.mem.present[u.mem.sweep.rank] :=
  sweptRank_congr (rampsClosed_mem_present u) (rampsClosed_mem_sweep u)

theorem sweepMoves_still {s : State} (h : ¬sweepMoveDue s = true) : sweepMoves s = s := if_neg h

/-- What the completion of the sweep leaves of it (R22). -/
theorem sweepCompletes_mem (s : State) :
    (sweepCompletes s).mem.sweep = { s.mem.sweep with outcome := .complete } ∧
      (sweepCompletes s).mem.sweepEnded = false := ⟨rfl, rfl⟩

/-- SWEEP-DONE is raised where the sweep completes, and only there. -/
theorem sweepAtEnd_flag (s : State) :
    (sweepAtEnd s).events.flags.getLsbD 14 = true ↔
      s.events.flags.getLsbD 14 = true ∨ (s.node.state = .sweep ∧ s.mem.sweepEnded = true) := by
  by_cases ended : s.node.state = .sweep ∧ s.mem.sweepEnded = true
  · rw [sweepAtEnd_completes ended.1 ended.2]
    exact ⟨fun _ => Or.inr ended, fun _ => raised_flag .sweepDone id _⟩
  · have same : (sweepMoves s).events = s.events := by
      unfold sweepMoves
      split
      · rfl
      · rfl
    rw [sweepAtEnd_goesOn ended, same]
    exact ⟨Or.inl, fun k => k.resolve_right ended⟩

/-- LINK-LOST is raised at the start-up limit, and only there. -/
theorem limitAtEnd_flag {s : State} {p : Period} (hp : s.period = some p) :
    (limitAtEnd s).events.flags.getLsbD 2 = true ↔ s.events.flags.getLsbD 2 = true ∨ Limited s := by
  by_cases limited : Limited s
  · have told : (limitAtEnd s).events = (raisedAll (limitFlags s) s).events := by
      rw [limitAtEnd_due limited, startUpEnds_eq hp, ← limitTold_events]
    have lost := raised_flag .linkLost id s
    rw [told]
    refine ⟨fun _ => Or.inr limited, fun _ => ?_⟩
    unfold limitFlags
    split
    · exact ((raise_raises .commitLost (raise .linkLost s)).flags .linkLost (by decide)).trans lost
    · exact lost
  · rw [limitAtEnd_notDue limited]
    exact ⟨Or.inl, fun k => k.resolve_right limited⟩

theorem Closes.sweepDone (h : Closes s u p t) (kept : p.resetDue = false) :
    t.events.flags.getLsbD 14 = true ↔
      u.events.flags.getLsbD 14 = true ∨ (u.node.state = .sweep ∧ u.mem.sweepEnded = true) := by
  obtain ⟨hp, -⟩ := h.eq kept
  have told : t.events.flags.getLsbD 14 = _ := (h.told kept).flags .sweepDone (by decide)
  have later := ((limitClosed_raises u).and (sizingStage_raises u)).flags .sweepDone (by decide)
  have stage := sweepAtEnd_flag (rampsClosed u)
  have earlier := (((beforeFade_raises hp).and (fadeClosed_raises u)).and (rampsClosed_raises u)).flags
    .sweepDone (by decide)
  rw [← sweepClosed_def, rampsClosed_state hp (Or.inr rfl), rampsClosed_mem_sweepEnded] at stage
  rw [told]
  exact (iff_of_eq (congrArg (· = true) later)).trans
    (stage.trans (or_congr_left (iff_of_eq (congrArg (· = true) earlier))))

theorem Closes.linkLost (h : Closes s u p t) (kept : p.resetDue = false) :
    t.events.flags.getLsbD 2 = true ↔ u.events.flags.getLsbD 2 = true ∨ Limited u := by
  obtain ⟨hp, -⟩ := h.eq kept
  obtain ⟨_, period⟩ := sweepClosed_period hp
  have told : t.events.flags.getLsbD 2 = _ := (h.told kept).flags .linkLost (by decide)
  have later := (sizingStage_raises u).flags .linkLost (by decide)
  have stage := limitAtEnd_flag period
  have earlier := ((((beforeFade_raises hp).and (fadeClosed_raises u)).and (rampsClosed_raises u)).and
    (sweepClosed_raises u)).flags .linkLost (by decide)
  rw [← limitClosed_def, sweepClosed_limited] at stage
  rw [told]
  exact (iff_of_eq (congrArg (· = true) later)).trans
    (stage.trans (or_congr_left (iff_of_eq (congrArg (· = true) earlier))))

theorem Closes.linkAfter (h : Closes s u p t) (kept : p.resetDue = false) :
    t.link =
      if Limited u then { u.link with startUp := false, lost := true, restorePending := true } else u.link := by
  obtain ⟨hp, -⟩ := h.eq kept
  obtain ⟨_, period⟩ := sweepClosed_period hp
  rw [h.link kept, limitClosed_def]
  by_cases limited : Limited u
  · rw [limitAtEnd_due ((sweepClosed_limited u).mpr limited), startUpEnds_eq period, if_pos limited]
    unfold limitTold
    dsimp only
    rw [sweepClosed_link]
  · rw [limitAtEnd_notDue fun k => limited ((sweepClosed_limited u).mp k), if_neg limited, sweepClosed_link]

/-- Flags 11 and 10 and the lines they name, after the lines' stage. -/
theorem Closes.lineFlags (h : Closes s u p t) (kept : p.resetDue = false) :
    t.events.flags.getLsbD 11 = (linesClosed u).events.flags.getLsbD 11 ∧
      t.events.flags.getLsbD 10 = (linesClosed u).events.flags.getLsbD 10 ∧
      t.events.faultedLines = (linesClosed u).events.faultedLines ∧
      t.events.readyLines = (linesClosed u).events.readyLines := by
  have told := h.told kept
  have later := (fadeClosed_raises u).and (afterFade_raises u)
  exact ⟨(told.flags .lineFault (by decide)).trans (later.flags .lineFault (by decide)),
    (told.flags .lineReady (by decide)).trans (later.flags .lineReady (by decide)),
    told.faulted.trans (later.faulted (by decide)), told.ready.trans (later.ready (by decide))⟩

end

/-- Settles O43: each end is one stage of the close, which the others leave alone. -/
theorem startUpClearingAndSweepEnd : Obligations.StartUpClearingAndSweepEnd := by
  unfold Obligations.StartUpClearingAndSweepEnd
  refine ⟨fun s p released hp => ⟨fun sizing due => ?_, fun n rest clearing due => ?_, fun sweep ended => ?_,
    fun startUp due => ?_⟩, fun s u p t closes kept => ?_⟩
  · obtain ⟨present, probes, eq⟩ := sizingEnds_eq s
    refine ⟨present, probes, ?_⟩
    rw [← eq]
    exact eventCommand_inPeriod sizingEnds released hp ((sizingEndDue_iff s).mpr ⟨sizing, due⟩)
  · rw [← clearingEnds_head clearing]
    exact eventCommand_inPeriod clearingEnds released hp ((endOfClearingDue_iff clearing).mpr due)
  · exact eventCommand_inPeriod sweepCompletes released hp ((sweepCompleteDue_iff s).mpr ⟨sweep, ended⟩)
  · refine ⟨withdrawn s, (withdrawn_changed s).1, (withdrawn_changed s).2, ?_⟩
    have ends : exec .startUpLimit s = .next (startUpEnds s) :=
      eventCommand_inPeriod startUpEnds released hp ((startUpLimitDue_iff s).mpr ⟨startUp, due⟩)
    rw [ends, startUpEnds_eq hp]
    rfl
  · obtain ⟨hp, -⟩ := closes.eq kept
    have sweepState := rampsClosed_state hp (x := .sweep) (Or.inr rfl)
    obtain ⟨sweep, sweepFrame, sweepFailed, sweepEnded⟩ := closes.sweep kept
    refine ⟨closes.present kept, fun idle => ?_, fun state ended => ?_, fun state goesOn r absent above present between => ?_,
      fun still => ?_, closes.sweepDone kept, closes.linkAfter kept, closes.linkLost kept⟩
    · obtain ⟨each, done, goesOn, faultFlag, readyFlag⟩ := linesClosed_closed hp idle
      obtain ⟨clearing, zeroed⟩ := closes.clearing kept
      obtain ⟨fault, ready, faulted, readied⟩ := closes.lineFlags kept
      dsimp only
      simp only [closes.lines kept, clearing, zeroed, fault, ready, faulted, readied]
      exact ⟨each, done, goesOn, faultFlag, readyFlag⟩
    · have stage : sweepClosed u = sweepCompletes (rampsClosed u) := by
        rw [sweepClosed_def,
          sweepAtEnd_completes (sweepState.mpr state) ((rampsClosed_mem_sweepEnded u).trans ended)]
      have stays : ¬Leaves u.node p := fun h => by
        obtain ⟨-, -, -, run | silent, -, -⟩ := h
        · exact nomatch state.symm.trans run
        · exact nomatch state.symm.trans silent
      refine ⟨?_, ?_, ?_⟩
      · rw [sweep, stage, (sweepCompletes_mem _).1, rampsClosed_mem_sweep]
      · rw [sweepEnded, stage, (sweepCompletes_mem _).2]
      · rw [closes.node kept, sizingClosed_node_stays hp stays, if_pos (Or.inr ⟨state, ended⟩)]
    · have next : (rampsClosed u).mem.rankAfter = some r := by
        refine rankAfter_some ?_ ?_ ?_
        · rw [rampsClosed_mem_sweep]
          exact above
        · simp only [rampsClosed_mem_present]
          exact present
        · simp only [rampsClosed_mem_present, rampsClosed_mem_sweep]
          exact between
      have absent' := (rampsClosed_sweptRank u).trans absent
      have ended' : (rampsClosed u).mem.sweepEnded = false := (rampsClosed_mem_sweepEnded u).trans goesOn
      have stage : sweepClosed u = sweepMoves (rampsClosed u) := by
        rw [sweepClosed_def, sweepAtEnd_goesOn fun k => nomatch ended'.symm.trans k.2]
      have moved := sweepMoves_to (sweepState.mpr state) ended' absent' next
      rw [← stage] at moved
      rw [sweep, sweepFrame, sweepFailed, moved, rampsClosed_mem_sweep]
      exact ⟨rfl, rfl, rfl⟩
    · have unended : ¬((rampsClosed u).node.state = .sweep ∧ (rampsClosed u).mem.sweepEnded = true) := fun k => by
        obtain other | ⟨goesOn, -⟩ := still
        · exact other (sweepState.mp k.1)
        · rw [rampsClosed_mem_sweepEnded] at k
          exact nomatch goesOn.symm.trans k.2
      have unmoved : ¬sweepMoveDue (rampsClosed u) = true := fun k => by
        obtain ⟨state, -, absent, -⟩ := (sweepMoveDue_iff _).mp k
        obtain other | ⟨-, present⟩ := still
        · exact other (sweepState.mp state)
        · rw [rampsClosed_sweptRank] at absent
          exact nomatch present.symm.trans absent
      have stage : sweepClosed u = rampsClosed u := by
        rw [sweepClosed_def, sweepAtEnd_goesOn unended, sweepMoves_still unmoved]
      rw [sweep, stage, rampsClosed_mem_sweep]

end Sys2Proof.Machine
end

section
/-! SUPPORT. The guard's measuring and judgement, and its two events (R78 to R83, R151). -/

namespace Sys2Proof.Machine

/-! ### Measuring -/

theorem isClip_iff (o : Int) : isClip o = true ↔ 8388607 < o ∨ o < -8388608 := by
  unfold isClip sampleMax sampleMin
  simp

theorem measure_eq (g : GuardRec) (w o : Int) :
    g.measure w o =
      if g.state = .muted then g
      else
        { g with
          peak := max g.peak (min w.natAbs 8388608)
          clip := if 8388607 < o ∨ o < -8388608 then min 255 (g.clip + 1) else 0 } := by
  unfold GuardRec.measure
  simp only [isClip_iff]

theorem fold_guard {α : Type} {f : State → α → State} (h : ∀ s a, (f s a).guard = s.guard) (l : List α) (s : State) :
    (l.foldl f s).guard = s.guard := by
  induction l generalizing s with
  | nil => rfl
  | cons a l ih => exact (ih _).trans (h s a)

theorem recordCheck_guard (s : State) (c : Check) : (recordCheck s c).guard = s.guard := by
  unfold recordCheck raiseIf
  split
  · rfl
  · rfl

theorem recordChecks_guard (cs : List Check) (s : State) : (recordChecks cs s).guard = s.guard := by
  unfold recordChecks
  split
  · exact fold_guard recordCheck_guard _ _
  · exact fold_guard recordCheck_guard _ _

theorem makeFaulted_guard (ns : List Line) (s : State) : (makeFaulted ns s).guard = s.guard := by rw [makeFaulted_same]

theorem commitServe_guard (v : Serve) (s : State) : (commitServe v s).guard = s.guard := by
  unfold commitServe ranksGone
  rw [recordChecks_guard, fold_guard fun s _ => makeFaulted_guard _ s]

theorem clearingStep_guard (head : Option Line) (seq : Seq) (s : State) : (clearingStep head seq s).guard = s.guard := by
  unfold clearingStep
  split
  · split
    · rw [commitServe_guard]
    · rfl
  · rfl

theorem engineStep_guard {s : State} (h : engineRuns s.node.state = true) (seq : Seq) (inputs : Vector Int 24) :
    (engineStep seq inputs s).guard =
      if s.node.state = .run then guardMeasured s (frameReads s inputs seq) else s.guard := by
  have counts : countsForGuard s = true ↔ s.node.state = .run := by
    unfold countsForGuard
    rw [beq_iff_eq]
  unfold engineStep afterReads
  rw [if_pos h, clearingStep_guard, commitServe_guard]
  exact if_congr counts rfl rfl

theorem engineResult_clipDue {s : State} (h : engineRuns s.node.state = true) (seq : Seq) (inputs : Vector Int 24) :
    (engineResult seq inputs s).clipDue =
      if s.node.state = .run then clipsReached s (frameReads s inputs seq) else [] := by
  have counts : countsForGuard s = true ↔ s.node.state = .run := by
    unfold countsForGuard
    rw [beq_iff_eq]
  unfold engineResult engineOut
  rw [if_pos h]
  exact if_congr counts rfl rfl

theorem mem_clipsReached (s : State) (r : FrameReads) (c : Output) :
    let g := (s.guard.outputs[c]).measure (frameTrimmed s r c) (frameOutput s r c)
    c ∈ clipsReached s r ↔ g.state ≠ .muted ∧ 0 < (inForce s c).clipRun ∧ (inForce s c).clipRun ≤ g.clip := by
  unfold clipsReached GuardRec.clipReached
  rw [List.mem_filter]
  simp [allOutputs, and_assoc]

/-! ### Judgement (R79 to R81) -/

section

variable {g : GuardRec} {p : Profile}

theorem judge_muted (h : g.state = .muted) : g.judge p = (g, none) := if_pos h

section

variable (unmuted : g.state ≠ .muted) (over_ : p.ceiling < g.peak)
include unmuted over_

theorem judge_strains (h : g.strain + p.rise < p.strainLimit) :
    g.judge p = ({ g with recovery := 0, strain := g.strain + p.rise }, none) := by
  unfold GuardRec.judge
  rw [if_neg unmuted, if_pos over_]
  exact if_pos h

theorem judge_steps (h : p.strainLimit ≤ g.strain + p.rise) (more : g.trim < p.maxSteps) :
    g.judge p = ({ g with recovery := 0, strain := 0, trim := g.trim + 1, state := .trimmed }, some .guardStep) := by
  unfold GuardRec.judge
  rw [if_neg unmuted, if_pos over_]
  exact (if_neg (Nat.not_lt.mpr h)).trans (if_pos more)

theorem judge_mutes (h : p.strainLimit ≤ g.strain + p.rise) (most : p.maxSteps ≤ g.trim) :
    g.judge p =
      ({ g with recovery := 0, strain := 0, state := .muted, cause := some .strain }, some .guardMute) := by
  unfold GuardRec.judge
  rw [if_neg unmuted, if_pos over_]
  exact (if_neg (Nat.not_lt.mpr h)).trans (if_neg (Nat.not_lt.mpr most))

end

theorem judge_rests (h : g.state = .open_) (under : g.peak ≤ p.ceiling) :
    g.judge p = ({ g with strain := g.strain - 1, recovery := 0 }, none) := by
  unfold GuardRec.judge
  rw [if_neg (by rw [h]; exact nofun), if_neg (Nat.not_lt.mpr under)]
  exact if_neg (by show ¬g.state = .trimmed; rw [h]; exact nofun)

section

variable (trimmed_ : g.state = .trimmed) (under : g.peak ≤ p.ceiling)
include trimmed_ under

theorem judge_recovers (h : g.recovery + 1 < p.recovery) :
    g.judge p = ({ g with strain := g.strain - 1, recovery := g.recovery + 1 }, none) := by
  unfold GuardRec.judge
  rw [if_neg (by rw [trimmed_]; exact nofun), if_neg (Nat.not_lt.mpr under)]
  exact (if_pos trimmed_).trans (if_neg (Nat.not_le.mpr h))

theorem judge_unsteps (h : p.recovery ≤ g.recovery + 1) (more : 2 ≤ g.trim) :
    g.judge p = ({ g with strain := g.strain - 1, recovery := 0, trim := g.trim - 1 }, none) := by
  unfold GuardRec.judge
  rw [if_neg (by rw [trimmed_]; exact nofun), if_neg (Nat.not_lt.mpr under)]
  exact (if_pos trimmed_).trans ((if_pos h).trans (if_neg (by show ¬g.trim - 1 = 0; omega)))

theorem judge_releases (h : p.recovery ≤ g.recovery + 1) (last : g.trim ≤ 1) :
    g.judge p =
      ({ g with strain := g.strain - 1, recovery := 0, trim := 0, state := .open_ }, some .guardRelease) := by
  have none_ : g.trim - 1 = 0 := by omega
  unfold GuardRec.judge
  rw [if_neg (by rw [trimmed_]; exact nofun), if_neg (Nat.not_lt.mpr under)]
  refine (if_pos trimmed_).trans ((if_pos h).trans ((if_pos none_).trans ?_))
  rw [none_]

end

end

/-! ### The events named -/

section

variable {s : State} {p : Period}

theorem exec_blockEnd_due (released : s.pins.resetHeld = false) (hp : s.period = some p) (due : BlockDue s p) :
    exec .blockEnd s = .next (blockEnds s) :=
  eventCommand_due blockEnds released ((blockEndDue_iff hp).mpr due)

/-- A block end changes the guard, the events, the capture and the period, and nothing else. -/
theorem blockEnds_same (hp : s.period = some p) (due : BlockDue s p) : overGuard s (blockEnds s) = blockEnds s := by
  have ends : blockAtEnd s = blockEnds s := if_pos ((blockEndDue_iff hp).mpr due)
  rw [← ends]
  exact blockAtEnd_same s

/-- The flags of a guard event that a block end raises. -/
theorem blockEnds_flag (hp : s.period = some p) (f : Flag) :
    (blockEnds s).events.flags.getLsbD f.number = true ↔
      s.events.flags.getLsbD f.number = true ∨ ∃ c, (judgedAt s p c).2 = some f := by
  have events := (blockEnds_ended hp).events
  by_cases guard : f ∈ guardFlags
  · rw [events.flags f guard]
    exact or_congr Iff.rfl (exists_congr fun c => mem_judgeEvents hp c f)
  · rw [events.raises.flags f guard]
    refine ⟨Or.inl, fun h => h.resolve_right fun ⟨c, judged⟩ => guard ?_⟩
    rw [judgedAt_eq hp] at judged
    split at judged
    · exact judge_guardFlag judged
    · exact nomatch judged

theorem blockEnds_output (hp : s.period = some p) (c : Output) :
    (blockEnds s).events.guardOutputs.getLsbD c.val = true ↔
      s.events.guardOutputs.getLsbD c.val = true ∨ (judgedAt s p c).2 ≠ none := by
  rw [(blockEnds_ended hp).events.outputs c, Option.ne_none_iff_exists']
  exact or_congr Iff.rfl (exists_congr fun f => mem_judgeEvents hp c f)

theorem blockEnds_capture (hp : s.period = some p) :
    (blockEnds s).capture =
      if guardMeets s.capture.setUp.trigger (fun c => (judgedAt s p c).2) = true then
        triggered p.processed p.seq s.capture
      else s.capture := by
  rw [(blockEnds_ended hp).events.capture p hp]
  refine if_congr ?_ rfl rfl
  rw [List.any_eq_true, guardMeets_iff]
  constructor
  · rintro ⟨⟨c, f⟩, h, meets⟩
    exact ⟨c, f, (mem_judgeEvents hp c f).mp h, meets⟩
  · rintro ⟨c, f, h, meets⟩
    exact ⟨(c, f), (mem_judgeEvents hp c f).mpr h, meets⟩

theorem bne_eq_decide_ne (d c : Output) : (d != c) = decide (d ≠ c) := by
  rw [Bool.eq_iff_iff, bne_iff_ne, decide_eq_true_iff]

theorem clipMutes_eq (hp : s.period = some p) (c : Output) :
    clipMutes c s =
      { raiseGuard .guardMute c
          { s with
            guard :=
              { s.guard with
                outputs := s.guard.outputs.set c { s.guard.outputs[c] with state := .muted, cause := some .clip } }
            period := some { p with clipDue := p.clipDue.filter fun d => decide (d ≠ c) } } with
        capture :=
          if s.capture.setUp.trigger = .guardMute c ∨ s.capture.setUp.trigger = .anyGuard then
            triggered p.processed p.seq s.capture
          else s.capture } := by
  have others : (fun d => d != c) = fun d : Output => decide (d ≠ c) := by
    funext d
    exact bne_eq_decide_ne d c
  have step : clipMutes c s =
      offerNow (.guardMute c)
        (raiseGuard .guardMute c
          { s with
            guard :=
              { s.guard with
                outputs := s.guard.outputs.set c { s.guard.outputs[c] with state := .muted, cause := some .clip } }
            period := s.period.map fun q => { q with clipDue := q.clipDue.filter fun d => d != c } }) := rfl
  rw [step, hp, Option.map_some, others]
  generalize hm : raiseGuard .guardMute c _ = m
  have period : m.period = some { p with clipDue := p.clipDue.filter fun d => decide (d ≠ c) } := by
    rw [← hm]
    rfl
  have capture : m.capture = s.capture := by
    rw [← hm]
    rfl
  have offered := offerNow_capture period (.guardMute c)
  rw [capture, if_congr (matches_guardMute _ c) rfl rfl] at offered
  rw [← offered]
  rfl

theorem exec_clipRunMute_due (released : s.pins.resetHeld = false) (hp : s.period = some p) {c : Output}
    (due : c ∈ p.clipDue) (unmuted : (s.guard.outputs[c]).state ≠ .muted) :
    exec (.clipRunMute c) s = .next (clipMutes c s) :=
  eventCommand_due (clipMutes c) released ((clipMuteDue_iff hp c).mpr ⟨due, unmuted⟩)

end

end Sys2Proof.Machine
end

section
/-! O45. The guard measures, judges and mutes, and its records through the close of a frame period (R74, R77 to R83, R151). -/

namespace Sys2Proof.Machine

/-! ### The guard through the close -/

/-- A record brought within a profile where the profile in force has changed (R74). -/
def adjustedBetween (old new : Fin 8) (ps : Vector Profile 8) (g : GuardRec) : GuardRec :=
  if old ≠ new then g.adjust ps[new] else g

theorem roleChange_guard (f : Role → Role) (ch : Changer) (s : State) :
    (roleChange f ch s).guard.profiles = s.guard.profiles ∧
      (roleChange f ch s).guard.blockCount = s.guard.blockCount ∧
      ∀ c : Output, (roleChange f ch s).guard.outputs[c] =
        adjustedBetween (profileInForce s.changer.state s.scenes c)
          (profileInForce ch.state (s.scenes.changeRoles f) c) s.guard.profiles s.guard.outputs[c] := by
  have guard : (roleChange f ch s).guard =
      s.guard.adjustWhere
        (fun c => profileInForce s.changer.state s.scenes c ≠ profileInForce ch.state (s.scenes.changeRoles f) c)
        (fun c => s.guard.profiles[profileInForce ch.state (s.scenes.changeRoles f) c]) := rfl
  rw [guard]
  refine ⟨?_, ?_, fun c => ?_⟩
  · unfold Guard.adjustWhere
    rfl
  · unfold Guard.adjustWhere
    rfl
  · rw [adjustWhere_record]
    exact if_congr decide_eq_true_iff rfl rfl

/-- The guard after the fade's stage of a close: each record brought within its profile where the close changes which is in
force. -/
structure FadeGuarded (u : State) (p : Period) (t : State) (g : Guard) : Prop where
  profiles : g.profiles = u.guard.profiles
  blockCount : g.blockCount = (guardClosed u).guard.blockCount
  records : ∀ c : Output, g.outputs[c] =
    adjustedBetween (profileInForce u.changer.state u.scenes c) (profileInForce t.changer.state t.scenes c)
      u.guard.profiles (closedRecord u p c)

section

variable {s u t : State} {p : Period}

/-- The guard after the fade's stage, and the profiles in force after the close. -/
theorem Closes.fadeGuard (h : Closes s u p t) (kept : p.resetDue = false) :
    FadeGuarded u p t (fadeClosed u).guard := by
  obtain ⟨hp, -⟩ := h.eq kept
  have closed := guardClosed_closed hp
  have lines : (linesClosed u).guard = (guardClosed u).guard := by rw [linesClosed_leaves]
  obtain ⟨clipDue, period⟩ := linesClosed_period hp
  have ended {f : Role → Role} {d : CommitDetail}
      (fade : fadeClosed u = raiseCommitDone d (roleChange f Changer.steady (linesClosed u))) :
      FadeGuarded u p t (fadeClosed u).guard := by
    have guard : (fadeClosed u).guard = (roleChange f Changer.steady (linesClosed u)).guard := by
      rw [fade]
      rfl
    obtain ⟨scenes, changer⟩ := fadeEnded_changed d f (linesClosed u)
    rw [← fade, linesClosed_scenes] at scenes
    rw [← fade] at changer
    obtain ⟨scenes', changer'⟩ := h.changed_unarmed kept (Or.inr (by rw [changer]; exact nofun))
    obtain ⟨profiles, blockCount, records⟩ := roleChange_guard f Changer.steady (linesClosed u)
    rw [lines, closed.profiles] at profiles
    rw [lines] at blockCount
    rw [guard]
    refine ⟨profiles, blockCount, fun c => ?_⟩
    rw [records, lines, closed.profiles, closed.records, linesClosed_changer, linesClosed_scenes, scenes', changer', scenes,
      changer]
  have unended (fade : (fadeClosed u).guard = (linesClosed u).guard)
      (same : ∀ c, profileInForce t.changer.state t.scenes c = profileInForce u.changer.state u.scenes c) :
      FadeGuarded u p t (fadeClosed u).guard := by
    rw [fade, lines]
    refine ⟨closed.profiles, rfl, fun c => ?_⟩
    rw [same c, closed.records]
    exact (if_neg fun k => k rfl).symm
  have fadesThere (h : Fades u p) :
      Fades (linesClosed u) { p with clipDue, blockDone := p.blockDone || p.counts } := by
    unfold Fades
    rw [linesClosed_changer]
    exact h
  by_cases fades : Fades u p
  · cases direction : u.changer.direction with
    | forward =>
      by_cases last : u.changer.length ≤ u.changer.position
      · exact ended (fadeAtEnd_ends period (fadesThere fades) (by rw [linesClosed_changer]; exact direction)
          (by rw [linesClosed_changer]; exact last))
      · have more : (u.changer.direction = .forward ∧ u.changer.position < u.changer.length) ∨
            (u.changer.direction = .back ∧ u.changer.position ≠ 0) := Or.inl ⟨direction, Nat.not_le.mp last⟩
        obtain ⟨changer, scenes, -⟩ := h.fadeStepped kept fades more
        refine unended ?_ fun c => ?_
        · unfold fadeClosed
          rw [fadeAtEnd_steps period (fadesThere fades) (by rw [linesClosed_changer]; exact more)]
        · rw [changer, scenes, ← step_forward direction]
    | back =>
      by_cases last : u.changer.position = 0
      · exact ended (fadeAtEnd_reverts period (fadesThere fades) (by rw [linesClosed_changer]; exact direction)
          (by rw [linesClosed_changer]; exact last))
      · have more : (u.changer.direction = .forward ∧ u.changer.position < u.changer.length) ∨
            (u.changer.direction = .back ∧ u.changer.position ≠ 0) := Or.inr ⟨direction, last⟩
        obtain ⟨changer, scenes, -⟩ := h.fadeStepped kept fades more
        refine unended ?_ fun c => ?_
        · unfold fadeClosed
          rw [fadeAtEnd_steps period (fadesThere fades) (by rw [linesClosed_changer]; exact more)]
        · rw [changer, scenes, ← step_back direction]
  · have still := h.fadeClosed_still kept fades
    refine unended (by rw [still]) fun c => ?_
    by_cases withdrawn_ : Limited u ∧ u.changer.state = .armed
    · obtain ⟨v, -⟩ := h.withdrawn kept fades withdrawn_.1 withdrawn_.2
      obtain ⟨scenes, changer⟩ := h.changed kept
      have limit := limitClosed_changed hp
      have armed : (sweepClosed u).changer.state = .armed := by
        rw [sweepClosed_changer, still, linesClosed_changer]
        exact withdrawn_.2
      rw [if_pos withdrawn_.1] at limit
      unfold Machine.withdrawn at limit
      rw [if_pos armed] at limit
      obtain ⟨roles, steady⟩ := disarm_changed (sweepClosed u)
      rw [scenes, changer, limit.1, limit.2, roles, steady, sweepClosed_scenes, still, linesClosed_scenes,
        profileInForce_live (ch := Changer.steady.state) nofun,
        profileInForce_live (by rw [withdrawn_.2]; exact nofun), changeRoles_live disarm_live]
    · have calm : ¬Limited u ∨ u.changer.state ≠ .armed := by
        by_cases limited : Limited u
        · exact Or.inr fun armed => withdrawn_ ⟨limited, armed⟩
        · exact Or.inl limited
      obtain ⟨scenes, changer⟩ := h.changed_still kept fades calm
      rw [scenes, changer]

end

end Sys2Proof.Machine
end

section
/-! O45, settled: the guard's records, its block frame count and its events after the close (R77 to R83). -/

namespace Sys2Proof.Machine

/-! ### The abandonment of the block (R78) -/

/-- The guard with its block abandoned on a condition. -/
def abandonIf (b : Prop) [Decidable b] (g : Guard) : Guard := if b then g.abandon else g

theorem abandon_abandon (g : Guard) : g.abandon.abandon = g.abandon := by
  unfold Guard.abandon
  rw [Vector.map_map]
  rfl

theorem abandonIf_and (a b : Prop) [Decidable a] [Decidable b] (g : Guard) :
    abandonIf a (abandonIf b g) = abandonIf (a ∨ b) g := by
  unfold abandonIf
  by_cases ha : a
  · by_cases hb : b
    · rw [if_pos ha, if_pos hb, if_pos (Or.inl ha), abandon_abandon]
    · rw [if_pos ha, if_neg hb, if_pos (Or.inl ha)]
  · rw [if_neg ha]
    exact if_congr (or_iff_right ha).symm rfl rfl

theorem abandonIf_congr {a b : Prop} [Decidable a] [Decidable b] (h : a ↔ b) (g : Guard) :
    abandonIf a g = abandonIf b g := if_congr h rfl rfl

section

variable {s u t : State} {p : Period}

/-- RUN as the start-up limit finds it. -/
theorem sweepClosed_run (hp : u.period = some p) :
    (sweepClosed u).node.state = .run ↔ u.node.state = .run ∧ ¬Leaves u.node p := by
  rw [sweepClosed_node]
  by_cases leaves : Leaves u.node p
  · rw [rampsClosed_node_leaves hp leaves, if_neg fun k => nomatch k.1]
    exact ⟨nofun, fun k => absurd leaves k.2⟩
  · rw [rampsClosed_node_stays hp leaves]
    by_cases swept : u.node.state = .sweep ∧ u.mem.sweepEnded = true
    · rw [if_pos swept]
      exact ⟨nofun, fun k => nomatch swept.1.symm.trans k.1⟩
    · rw [if_neg swept]
      exact (and_iff_left leaves).symm

/-- RUN is left in a close by leaving for STANDBY, and at the start-up limit. -/
theorem Closes.leavesRun (h : Closes s u p t) (kept : p.resetDue = false) (run : u.node.state = .run) :
    t.node.state ≠ .run ↔ Leaves u.node p ∨ Limited u := by
  obtain ⟨hp, -⟩ := h.eq kept
  rw [h.node kept]
  by_cases leaves : Leaves u.node p
  · rw [sizingClosed_node_leaves hp leaves]
    exact ⟨fun _ => Or.inl leaves, fun _ => nofun⟩
  · have unended : ¬Ends u := fun k => k.elim (fun k => nomatch run.symm.trans k.1) fun k => nomatch run.symm.trans k.1
    rw [sizingClosed_node_stays hp leaves, if_neg unended]
    by_cases limited : Limited u
    · rw [if_pos ⟨limited, run⟩]
      exact ⟨fun _ => Or.inr limited, fun _ => nofun⟩
    · rw [if_neg fun k => limited k.1]
      exact ⟨fun k => absurd run k, fun k => k.elim (fun k => absurd k leaves) fun k => absurd k limited⟩

/-- The guard as the mute ramps leave it. -/
def rampedGuard (u : State) : Guard := (muteRampsAtEnd (fadeClosed u)).guard

theorem rampsClosed_guard (hp : u.period = some p) :
    (rampsClosed u).guard =
      abandonIf (Leaves u.node p ∧ u.node.state = .run ∧ p.counts = false) (rampedGuard u) := by
  obtain ⟨clipDue, period⟩ := fadeClosed_period hp
  have node : (muteRampsAtEnd (fadeClosed u)).node = u.node := by rw [muteRampsAtEnd_node, fadeClosed_leaves]
  have muted : (muteRampsAtEnd (fadeClosed u)).period = some { p with clipDue, blockDone := p.blockDone || p.counts } :=
    (muteRampsAtEnd_period _).trans period
  unfold rampsClosed rampedGuard abandonIf
  generalize muteRampsAtEnd (fadeClosed u) = x at node muted ⊢
  by_cases leaves : Leaves u.node p
  · have there : Leaves x.node { p with clipDue, blockDone := p.blockDone || p.counts } := by
      rw [node]
      exact leaves
    rw [rampAtEnd_leaves muted there, leavingEnds_eq muted, node]
    exact if_congr (and_iff_right leaves).symm rfl rfl
  · have there : ¬Leaves x.node { p with clipDue, blockDone := p.blockDone || p.counts } := by
      rw [node]
      exact leaves
    rw [rampAtEnd_stays muted there, if_neg fun k => leaves k.1]

/-- Withdrawing an armed commit keeps LIVE, and so every profile in force (R63). -/
theorem withdrawn_guard (s : State) : (withdrawn s).guard = s.guard := by
  unfold withdrawn
  split
  · next armed =>
    unfold disarm
    rw [roleChange_keepsLive disarm_live (by rw [armed]; exact nofun)
      (nofun : ChangerState.steady ≠ .fading)]
  · rfl

theorem limitAtEnd_guard (hp : s.period = some p) :
    (limitAtEnd s).guard = abandonIf (Limited s ∧ s.node.state = .run ∧ p.counts = false) s.guard := by
  unfold abandonIf
  by_cases limited : Limited s
  · rw [limitAtEnd_due limited, startUpEnds_eq hp, withdrawn_guard]
    exact if_congr (and_iff_right limited).symm rfl rfl
  · rw [limitAtEnd_notDue limited, if_neg fun k => limited k.1]

/-- The three places where a close abandons the block, in a period that counts and in one that does not. -/
theorem blockAbandoned_iff (left leaves limited run : Prop) (counts : Bool) :
    ((left ∨ (leaves ∧ run) ∧ counts = true) ∨ (limited ∧ run ∧ ¬leaves) ∧ counts = true) ∨
        (limited ∧ (run ∧ ¬leaves) ∧ counts = false) ∨ leaves ∧ run ∧ counts = false ↔
      left ∨ run ∧ (leaves ∨ limited) := by
  cases counts with
  | false => simp; tauto
  | true => simp; tauto

theorem allClosed_guard (u : State) :
    (allClosed u).guard =
      abandonIf (((limitClosed u).period.map (·.leftRun)).getD false = true) (limitClosed u).guard := by
  unfold abandonIf
  rw [allClosed_leaves]

/-- The guard after the close: the mute ramps' work, with the block abandoned where RUN has been left. -/
theorem Closes.guard (h : Closes s u p t) (kept : p.resetDue = false) :
    t.guard =
      abandonIf (p.leftRun = true ∨ (u.node.state = .run ∧ t.node.state ≠ .run)) (rampedGuard u) := by
  obtain ⟨hp, ht⟩ := h.eq kept
  obtain ⟨_, period⟩ := sweepClosed_period hp
  have limitPeriod := limitAtEnd_period period
  have limitGuard := limitAtEnd_guard period
  have sweepGuard : (sweepClosed u).guard = (rampsClosed u).guard := by rw [sweepClosed_leaves]
  rw [← limitClosed_def] at limitPeriod limitGuard
  rw [sweepGuard, rampsClosed_guard hp, abandonIf_and] at limitGuard
  have step : t.guard = (samplingStep (allClosed u)).guard := by rw [ht]
  rw [step, samplingStep_leaves]
  dsimp only
  rw [allClosed_guard, limitGuard, abandonIf_and, limitPeriod]
  refine abandonIf_congr ?_ _
  simp only [Option.map_some, Option.getD_some, Bool.or_eq_true, Bool.and_eq_true, decide_eq_true_eq, sweepClosed_limited,
    sweepClosed_run hp]
  exact (blockAbandoned_iff _ _ _ _ _).trans (or_congr_right (and_congr_right (h.leavesRun kept)).symm)

theorem rampedGuard_eq (hp : u.period = some p) :
    rampedGuard u =
      if p.processed = true then
        { (fadeClosed u).guard with outputs := (fadeClosed u).guard.outputs.map GuardRec.rampStep }
      else (fadeClosed u).guard := by
  obtain ⟨clipDue, period⟩ := fadeClosed_period hp
  unfold rampedGuard
  rw [muteRampsAtEnd_eq period]

theorem rampedGuard_profiles (hp : u.period = some p) :
    (rampedGuard u).profiles = (fadeClosed u).guard.profiles ∧
      (rampedGuard u).blockCount = (fadeClosed u).guard.blockCount := by
  rw [rampedGuard_eq hp]
  split
  · exact ⟨rfl, rfl⟩
  · exact ⟨rfl, rfl⟩

theorem rampedGuard_record (hp : u.period = some p) (c : Output) :
    (rampedGuard u).outputs[c] =
      if p.processed = true then ((fadeClosed u).guard.outputs[c]).rampStep else (fadeClosed u).guard.outputs[c] := by
  rw [rampedGuard_eq hp]
  split
  · exact Vector.getElem_map _ _
  · rfl

/-! ### Records -/

theorem abandonIf_profiles (b : Prop) [Decidable b] (g : Guard) : (abandonIf b g).profiles = g.profiles := by
  unfold abandonIf
  split
  · rfl
  · rfl

theorem abandonIf_blockCount (b : Prop) [Decidable b] (g : Guard) :
    (abandonIf b g).blockCount = if b then 0 else g.blockCount := by
  unfold abandonIf
  split
  · rfl
  · rfl

theorem abandonIf_record (b : Prop) [Decidable b] (g : Guard) (c : Output) :
    (abandonIf b g).outputs[c] = { g.outputs[c] with peak := if b then 0 else g.outputs[c].peak } := by
  unfold abandonIf
  by_cases hb : b
  · rw [if_pos hb, if_pos hb, abandon_record]
  · rw [if_neg hb, if_neg hb]

/-- A record through the mute ramp's step, where there is one (R77). -/
theorem steppedRecord (processed : Bool) (g : GuardRec) :
    (if processed = true then g.rampStep else g) =
      { g with
        ramp :=
          if processed = false then g.ramp
          else if g.state = .muted then g.ramp - 1
          else if g.ramp + 1 ≤ 48 then g.ramp + 1
          else 48 } := by
  cases processed with
  | false => rfl
  | true => exact rampStep_eq g

theorem adjustedBetween_eq (old new : Fin 8) (ps : Vector Profile 8) (g : GuardRec) :
    adjustedBetween old new ps g =
      { g with
        trim := if old ≠ new ∧ ps[new].maxSteps < g.trim then ps[new].maxSteps else g.trim
        strain := if old ≠ new ∧ ps[new].strainLimit ≤ g.strain then ps[new].strainLimit - 1 else g.strain } := by
  unfold adjustedBetween
  by_cases changed : old ≠ new
  · rw [if_pos changed, adjust_eq, if_congr (and_iff_right changed) rfl rfl, if_congr (and_iff_right changed) rfl rfl]
  · rw [if_neg changed, if_neg fun k => changed k.1, if_neg fun k => changed k.1]

theorem closedRecord_eq (u : State) (p : Period) (c : Output) :
    closedRecord u p c =
      { (blockJudged u p c).1 with
        state := if clipMutedAt u p c = true then .muted else (blockJudged u p c).1.state
        cause := if clipMutedAt u p c = true then some .clip else (blockJudged u p c).1.cause
        peak := if BlockDue u p then 0 else (blockJudged u p c).1.peak } := by
  unfold closedRecord
  by_cases muted : clipMutedAt u p c = true
  · by_cases due : BlockDue u p
    · simp only [if_pos muted, if_pos due]
    · simp only [if_pos muted, if_neg due]
  · by_cases due : BlockDue u p
    · simp only [if_neg muted, if_pos due]
    · simp only [if_neg muted, if_neg due]

/-- An output's record after the close. -/
theorem Closes.guardRecord (h : Closes s u p t) (kept : p.resetDue = false) (c : Output) :
    let a := (blockJudged u p c).1
    let old := profileInForce u.changer.state u.scenes c
    let new := profileInForce t.changer.state t.scenes c
    let q := u.guard.profiles[new]
    let state := if clipMutedAt u p c = true then .muted else a.state
    t.guard.outputs[c] =
      { a with
        state
        cause := if clipMutedAt u p c = true then some .clip else a.cause
        trim := if old ≠ new ∧ q.maxSteps < a.trim then q.maxSteps else a.trim
        strain := if old ≠ new ∧ q.strainLimit ≤ a.strain then q.strainLimit - 1 else a.strain
        ramp :=
          if p.processed = false then a.ramp
          else if state = .muted then a.ramp - 1
          else if a.ramp + 1 ≤ 48 then a.ramp + 1
          else 48
        peak :=
          if p.leftRun = true ∨ (u.node.state = .run ∧ t.node.state ≠ .run) then 0
          else if BlockDue u p then 0
          else a.peak } := by
  obtain ⟨hp, -⟩ := h.eq kept
  dsimp only
  rw [h.guard kept, abandonIf_record, rampedGuard_record hp, (h.fadeGuard kept).records, steppedRecord, adjustedBetween_eq,
    closedRecord_eq]

/-! ### Events -/

theorem Closes.guardFlag (h : Closes s u p t) (kept : p.resetDue = false) {f : Flag} (hf : f ∈ guardFlags) :
    t.events.flags.getLsbD f.number = true ↔
      u.events.flags.getLsbD f.number = true ∨ (∃ c, (blockJudged u p c).2 = some f) ∨
        (f = .guardMute ∧ ∃ c, clipMutedAt u p c = true) := by
  obtain ⟨hp, -⟩ := h.eq kept
  obtain ⟨evs, events, mem⟩ := (guardClosed_closed hp).events
  have later := ((linesClosed_raises u).and (fadeClosed_raises u)).and (afterFade_raises u)
  have other : ∀ f ∈ guardFlags,
      f ≠ .captureDone ∧ f ∉ [Flag.lineFault, .lineReady] ++ [.commitDone] ++ [.sweepDone, .linkLost, .commitLost] := by
    decide
  obtain ⟨notCapture, notLater⟩ := other f hf
  rw [(h.told kept).flags f notCapture, later.flags f notLater, events.flags f hf]
  simp only [mem, exists_or, exists_and_left]

theorem Closes.guardOutput (h : Closes s u p t) (kept : p.resetDue = false) (c : Output) :
    t.events.guardOutputs.getLsbD c.val = true ↔
      u.events.guardOutputs.getLsbD c.val = true ∨ (blockJudged u p c).2 ≠ none ∨ clipMutedAt u p c = true := by
  obtain ⟨hp, -⟩ := h.eq kept
  obtain ⟨evs, events, mem⟩ := (guardClosed_closed hp).events
  have later := ((linesClosed_raises u).and (fadeClosed_raises u)).and (afterFade_raises u)
  rw [(h.told kept).guards, later.guards (by decide) (by decide) (by decide), events.outputs c,
    Option.ne_none_iff_exists']
  simp only [mem, exists_or, exists_eq_left]

end

theorem guardMeasured_eq (s : State) (r : FrameReads) :
    (guardMeasured s r).profiles = s.guard.profiles ∧ (guardMeasured s r).blockCount = s.guard.blockCount ∧
      ∀ c : Output, (guardMeasured s r).outputs[c] =
        (s.guard.outputs[c]).measure (frameTrimmed s r c) (frameOutput s r c) := by
  unfold guardMeasured
  exact ⟨rfl, rfl, fun c => Vector.getElem_ofFn c.isLt⟩

/-- Settles O45: the guard's measuring and judgement record by record, and its records after the close, where at most one
role change brings them within another profile. -/
theorem guardJudgesBlocksAndMutes : Obligations.GuardJudgesBlocksAndMutes := by
  unfold Obligations.GuardJudgesBlocksAndMutes
  refine ⟨measure_eq, fun b seq inputs runs => ?_, fun g p => ?_, fun s p released hp => ⟨fun due => ?_, fun c due unmuted => ?_⟩,
    fun s u p t closes kept => ?_⟩
  · have guard := engineStep_guard runs seq inputs
    have clips := engineResult_clipDue runs seq inputs
    dsimp only
    obtain ⟨profiles, blockCount, records⟩ := guardMeasured_eq b (frameReads b inputs seq)
    refine ⟨?_, ?_, fun run c => ⟨?_, ?_⟩, fun notRun => ⟨guard.trans (if_neg notRun), clips.trans (if_neg notRun)⟩⟩
    · rw [guard, apply_ite Guard.profiles, profiles, ite_self]
    · rw [guard, apply_ite Guard.blockCount, blockCount, ite_self]
    · rw [guard, if_pos run, records]
    · rw [clips, if_pos run]
      exact mem_clipsReached b _ c
  · exact ⟨judge_muted, fun unmuted over_ => ⟨judge_strains unmuted over_, judge_steps unmuted over_, judge_mutes unmuted over_⟩,
      judge_rests, fun trimmed_ under =>
        ⟨judge_recovers trimmed_ under, judge_unsteps trimmed_ under, judge_releases trimmed_ under⟩⟩
  · have ended := blockEnds_ended hp
    have same := (blockEnds_same hp due).symm
    refine ⟨blockEnds s, exec_blockEnd_due released hp due, ended.records, ended.profiles, ended.blockCount,
      blockEnds_flag hp, blockEnds_output hp, blockEnds_capture hp, ended.period, ?_⟩
    rw [same]
    exact ⟨rfl, rfl, rfl, rfl, rfl, rfl, rfl, rfl, rfl, rfl, rfl⟩
  · rw [exec_clipRunMute_due released hp due unmuted, clipMutes_eq hp c]
  · obtain ⟨hp, -⟩ := closes.eq kept
    have closed := guardClosed_closed hp
    obtain ⟨profiles, blockCount, records⟩ := closes.fadeGuard kept
    obtain ⟨profiles', blockCount'⟩ := rampedGuard_profiles hp
    have guard := closes.guard kept
    have counts := congrArg Guard.blockCount guard
    rw [abandonIf_blockCount, blockCount', blockCount, closed.blockCount] at counts
    dsimp only
    refine ⟨?_, fun ended => ?_, fun open_ stays => ?_, fun c => ?_, fun f hf => closes.guardFlag kept (by simpa [guardFlags] using hf)⟩
    · rw [guard, abandonIf_profiles, profiles', profiles]
    · rw [counts]
      obtain due | left := ended
      · rw [if_pos due, ite_self]
      · rw [if_pos left]
    · rw [counts, if_neg stays, if_neg open_]
    · rw [closes.guardRecord kept c]
      refine ⟨rfl, rfl, rfl, rfl, rfl, rfl, rfl, fun ended => ?_, fun open_ stays => ?_, closes.guardOutput kept c⟩
      · dsimp only
        obtain due | left := ended
        · rw [if_pos due, ite_self]
        · rw [if_pos left]
      · dsimp only
        rw [if_neg stays, if_neg open_]

end Sys2Proof.Machine
end

section
/-! O2. An empty queue, frame-period commands, and what the close leaves (R129, R167; log 1 to log 4, log 13). -/

namespace Sys2Proof.Machine

/-! ### The end of a frame period -/

theorem lastStep_period (s : State) : (lastStep s).period = none := by
  unfold lastStep
  split
  · rfl
  · rfl

/-- In a part not held in reset no period is left at its end. -/
theorem endPeriod_period {s : State} (h : s.pins.resetHeld = false) : (endPeriod s).period = none := by
  unfold endPeriod
  by_cases open_ : s.period = none
  · rw [if_pos (Or.inr open_), open_]
  · rw [if_neg fun k => k.elim (fun k => nomatch h.symm.trans k) open_, lastStep_period]

/-- A period that has ended does not end again. -/
theorem endPeriod_endPeriod {s : State} (h : s.pins.resetHeld = false) : endPeriod (endPeriod s) = endPeriod s :=
  endPeriod_none _ (endPeriod_period h)

theorem startOwn_pins (s : State) : (startOwn s).pins = s.pins := by
  unfold startOwn
  split
  · rfl
  · split
    · rfl
    · rfl

theorem lastStep_pins (s : State) : (lastStep s).pins = s.pins := by
  unfold lastStep
  split
  · rfl
  · show (samplingStep s).pins = s.pins
    rw [samplingStep_leaves]

theorem allClosed_pins (u : State) : (allClosed u).pins = u.pins := by rw [allClosed_leaves]

theorem endPeriod_pins (s : State) : (endPeriod s).pins = s.pins := by
  unfold endPeriod
  split
  · rfl
  · rw [lastStep_pins, beforeSampling_eq, allClosed_pins, (runReady_outside _).pins, startOwn_pins]

/-! ### Frame-period commands -/

/-- A frame-period command does the same from the state in which the period has ended, but where it does not come about. -/
theorem framePeriod_fromEnd (condition : State → Bool) (handling : State → State) {s : State}
    (h : s.pins.resetHeld = false) :
    framePeriod condition handling s = framePeriod condition handling (endPeriod s) ∨
      (framePeriod condition handling s = .next s ∧
        framePeriod condition handling (endPeriod s) = .next (endPeriod s)) := by
  have held : (endPeriod s).pins.resetHeld = false := by rw [endPeriod_pins, h]
  unfold framePeriod
  rw [endPeriod_endPeriod h, h, held]
  by_cases off : condition (endPeriod s) = false
  · exact Or.inr ⟨if_pos (Or.inr off), if_pos (Or.inr off)⟩
  · have goes : ¬(false = true ∨ condition (endPeriod s) = false) := fun k => k.elim nofun off
    rw [if_neg goes, if_neg goes]
    exact Or.inl rfl

theorem framePeriodCommand_framePeriod {c : Instr} (h : framePeriodCommand c = true) :
    ∃ condition handling, ∀ s, exec c s = framePeriod condition handling s := by
  cases c
  case startUpSearchPeriod a m =>
    exact ⟨fun t => t.link.startUp && !isLocked t, searchPeriod a m, fun _ => rfl⟩
  case goodFrame f m =>
    exact ⟨fun t => isLocked t && f.syncGood && f.checkGood && asBegun f t, goodFrame f m, fun _ => rfl⟩
  case badFrame f m =>
    exact ⟨fun t => isLocked t && f.syncGood && !f.checkGood, badFrame f m, fun _ => rfl⟩
  case missingFramePeriod m =>
    exact ⟨isLocked, fun t => if t.link.missing < 3 then missingFrame m t else lostFrame m t, fun _ => rfl⟩
  case linkLost m =>
    exact ⟨fun t => isLocked t && decide (3 ≤ t.link.missing), lostFrame m, fun _ => rfl⟩
  case localFrame a m =>
    exact ⟨fun t => t.link.lost && !isLocked t && !t.link.startUp, localFrame a m, fun _ => rfl⟩
  case resumptionFrame f m =>
    exact ⟨fun t => isLocked t && t.link.lost && f.syncGood && (asBegun f t || !f.checkGood),
      fun t => if f.checkGood then goodFrame f m t else badFrame f m t, fun _ => rfl⟩
  all_goals exact nomatch h

/-! ### What the close leaves -/

theorem sweepAtEnd_badBlocks (s : State) :
    (sweepAtEnd s).mem.badBlocks = s.mem.badBlocks ∧ (sweepAtEnd s).mem.corrected = s.mem.corrected := by
  unfold sweepAtEnd
  split
  · exact ⟨rfl, rfl⟩
  · unfold sweepMoves overMem MemCtl.sweepOn MemCtl.sweepTo
    split
    · dsimp only
      split
      · exact ⟨rfl, rfl⟩
      · exact ⟨rfl, rfl⟩
    · exact ⟨rfl, rfl⟩

theorem present_kept {m k : MemCtl} {present : Vector Bool 4} (h : k = { m with present }) :
    k.badBlocks = m.badBlocks ∧ k.corrected = m.corrected := by
  rw [h]
  exact ⟨rfl, rfl⟩

/-- The close marks no block bad and counts no correction. -/
theorem sizingClosed_badBlocks (u : State) :
    (sizingClosed u).mem.badBlocks = u.mem.badBlocks ∧ (sizingClosed u).mem.corrected = u.mem.corrected := by
  obtain ⟨badBlocks, corrected⟩ := sweepAtEnd_badBlocks (rampsClosed u)
  obtain ⟨_, _, mem⟩ := linesClosed_mem u
  rw [← sweepClosed_def, rampsClosed_mem, mem] at badBlocks corrected
  obtain ⟨badBlocks', corrected'⟩ := present_kept (sizingClosed_mem u)
  exact ⟨badBlocks'.trans badBlocks, corrected'.trans corrected⟩

theorem allClosed_badBlocks (u : State) :
    (allClosed u).mem.badBlocks = u.mem.badBlocks ∧ (allClosed u).mem.corrected = u.mem.corrected := by
  have mem : (allClosed u).mem = (sizingClosed u).mem := by rw [allClosed_leaves]
  rw [mem]
  exact sizingClosed_badBlocks u

theorem returnLeaves_arbiter {u : State} {p : Period} (hp : u.period = some p) :
    (returnLeaves u).arbiter =
      { u.arbiter with returns := if p.returnLeft = true then u.arbiter.returns.tail else u.arbiter.returns } := by
  rw [returnLeaves_same, hp]
  rfl

theorem resetState_outside (pattern mask : BitVec 8) (bad : List Nat) (pins : Pins) (s : State) :
    (resetState pattern mask bad pins s).pins = pins ∧ (resetState pattern mask bad pins s).pending = s.pending :=
  ⟨rfl, rfl⟩

/-- Settles O2: the queue's end and a frame-period command both end the period, whose close is the stages and one last step. -/
theorem emptyQueueEndsTheFramePeriod : Obligations.EmptyQueueEndsTheFramePeriod := by
  refine ⟨fun s empty => ?_, fun c s hc released => ?_, fun s u p t closes => ⟨fun reset => ?_, fun kept => ?_⟩⟩
  · have ends : step s = .next (endPeriod s) := by
      unfold step
      rw [empty]
    refine ⟨fun idle => ?_, fun _ released => ⟨ends, endPeriod_period released⟩⟩
    rw [ends]
    unfold endPeriod
    rw [if_pos idle.symm]
  · obtain ⟨condition, handling, same⟩ := framePeriodCommand_framePeriod hc
    rw [same, same]
    exact framePeriod_fromEnd condition handling released
  · obtain ⟨released, open_, hu, hp, ht⟩ := closes
    obtain ⟨_, _, _, _, period⟩ := allClosed_period hp
    have due : resetDue (allClosed u) = true := by
      unfold resetDue
      rw [period]
      exact reset
    have last : t = orderResetState (allClosed u) := by
      rw [ht]
      unfold endPeriod
      rw [if_neg fun k => k.elim (fun k => nomatch released.symm.trans k) open_, beforeSampling_eq, ← hu]
      unfold lastStep
      rw [if_pos due]
    have decoder : (allClosed u).decoder = u.decoder := by rw [allClosed_leaves]
    have pending : (allClosed u).pending = u.pending := by rw [allClosed_leaves]
    have values := resetState_atResetValues u.decoder.pattern u.decoder.mask u.mem.badBlocks u.pins (allClosed u)
    unfold orderResetState at last
    rw [decoder, (allClosed_badBlocks u).1, allClosed_pins] at last
    obtain ⟨pins, queue⟩ := resetState_outside u.decoder.pattern u.decoder.mask u.mem.badBlocks u.pins (allClosed u)
    rw [last]
    exact ⟨values, pins, queue.trans pending⟩
  · obtain ⟨hp, ht⟩ := closes.eq kept
    have mem := closes.mem kept
    have arbiter := returnLeaves_arbiter hp
    obtain ⟨badBlocks, corrected⟩ := sizingClosed_badBlocks u
    rw [← mem] at badBlocks corrected
    rw [samplingStep_leaves, allClosed_leaves] at ht
    rw [ht, ← arbiter]
    rw [ht] at badBlocks corrected
    exact ⟨rfl, rfl, rfl, rfl, rfl, rfl, rfl, rfl, rfl, badBlocks, corrected, rfl⟩

end Sys2Proof.Machine
end

section
/-! O50. Frame periods of SEARCH: the start-up search and local framing (R91 to R94, R103; log 17, log 18). -/

namespace Sys2Proof.Machine

theorem isLocked_search {s : State} (h : s.link.receive = .search) : isLocked s = false := by
  unfold isLocked
  rw [h]
  rfl

theorem isLocked_locked {s : State} (h : s.link.receive = .locked) : isLocked s = true := by
  unfold isLocked
  rw [h]
  rfl

/-- A frame period that has begun. -/
theorem beginPeriod_begun (seq : Seq) (g : Bool) (memory : List Disturbance) (s : State) :
    Begun seq g (beginPeriod seq g memory s) := rfl

section

variable {s : State} (arrivals : List Frame) (memory : List Disturbance)

theorem exec_startUpSearchPeriod (released : s.pins.resetHeld = false) (idle : s.period = none) (exist : BlocksExist s)
    (search : s.link.receive = .search) (startUp : s.link.startUp = true) :
    exec (.startUpSearchPeriod arrivals memory) s = .next (searchPeriod arrivals memory s) := by
  refine framePeriod_next (fun t => t.link.startUp && !isLocked t) (searchPeriod arrivals memory) s released idle exist ?_
  rw [startUp, isLocked_search search]
  rfl

theorem exec_localFrame (released : s.pins.resetHeld = false) (idle : s.period = none) (exist : BlocksExist s)
    (search : s.link.receive = .search) (settled_ : s.link.startUp = false) (lost : s.link.lost = true) :
    exec (.localFrame arrivals memory) s = .next (localFrame arrivals memory s) := by
  refine framePeriod_next (fun t => t.link.lost && !isLocked t && !t.link.startUp) (localFrame arrivals memory) s released
    idle exist ?_
  rw [lost, isLocked_search search, settled_]
  rfl

/-- A frame period of the start-up search: the engine runs, and the arrivals judged are repeated. -/
theorem searchPeriod_eq (s : State) :
    let l := s.link
    let j := { l with startUpCount := l.startUpCount + 1 }.search arrivals
    searchPeriod arrivals memory s =
      { engined l.expected false (Vector.replicate 24 0) (beginPeriod l.expected false memory s) with
        link := j.1, sent := j.2 } := by
  have taken := engineTaken_eq s.link.expected false noInputs _ (beginPeriod_begun s.link.expected false memory s)
  unfold searchPeriod judged
  dsimp only
  rw [taken]
  rfl

/-- The settlement of a frame period of local framing. -/
def localSettlement (s : State) : Settlement :=
  { seq := s.link.expected, link := { s.link with expected := s.link.expected + 1 }, node := s.node.state, offered := true
    jump := false, linkSet := false, lostSet := false, leftRun := false }

theorem expectedSettled_gives (s : State) :
    (localSettlement s).Gives memory s
      (expectedSettled s.link.expected (beginPeriod s.link.expected false memory s)) := by
  obtain ⟨v, told, hv, ht, settles⟩ := expectedSettled_settled s s.link.expected false memory
  rw [settles]
  refine settled_gives (localSettlement s) memory s
    (Period.begun s.link.expected (engineRuns s.node.state) s.node.leaving false) v told ?_ ?_ ⟨rfl, rfl⟩
  · rw [hv]
    simp [localSettlement]
  · rw [ht]
    simp [localSettlement, raisedAll]

end

/-- Settles O50: the arrivals are judged behind the engine, or behind a frame of the node's own. -/
theorem searchPeriodsJudgeArrivals : Obligations.SearchPeriodsJudgeArrivals := by
  intro s arrivals memory l released idle exist search
  refine ⟨fun startUp => ?_, fun settled_ lost law => ?_⟩
  · refine ⟨beginPeriod l.expected false memory s, _, _, rfl,
      search_judges arrivals { l with startUpCount := l.startUpCount + 1 }, ?_⟩
    rw [exec_startUpSearchPeriod arrivals memory released idle exist search startUp, searchPeriod_eq]
  · have gives := expectedSettled_gives memory s
    have handled := handle_as (noticeWaiting s) l.expected noInputs emptySlots false .nothing
      (expectedSettled l.expected (beginPeriod l.expected false memory s)) false
    refine ⟨_, _, _, _, gives, handled ?_ ?_, search_judges arrivals _, ?_⟩
    · obtain ⟨v, told, -, -, settles⟩ := expectedSettled_settled s l.expected false memory
      rw [settles]
      rfl
    · unfold OutputMapLaw
      rw [gives.maps]
      exact law
    · rw [exec_localFrame arrivals memory released idle exist search settled_ lost]
      rfl

end Sys2Proof.Machine
end

section
/-! O49. Bad frames, missing frame periods and the loss of the link (R98 to R104). -/

namespace Sys2Proof.Machine

/-! ### The settlements -/

/-- The receiver's count of an error (R101). -/
def countedLec (l : Link) : Nat := min 255 (l.lec + 8)

/-- LINK becomes set by the count. -/
def setsLink (l : Link) : Bool := countedLec l == 255 && !l.link

/-- The receiver's values with a bad frame or a missing frame period counted (R98, R99). -/
def countedLink (l : Link) : Link :=
  { l with
    expected := l.expected + 1, lec := countedLec l, link := l.link || setsLink l
    restorePending := l.restorePending || setsLink l
    badFrames := min 4294967295 (l.badFrames + 1) }

/-- The node state that a fault of the link leaves with LOST clear (R160). -/
def heardState (n : Node) (fault : Bool) : NodeState :=
  if (n.state == .run || n.state == .silent) = false then n.state
  else if fault = true ∨ n.orderCause = true then .silent
  else .run

/-- A bad frame's settlement (R98, R104). -/
def badSettlement (s : State) : Settlement :=
  { seq := s.link.expected, link := { countedLink s.link with missing := 0, lost := false }
    node := heardState s.node (s.link.link || setsLink s.link), offered := true, jump := false
    linkSet := setsLink s.link, lostSet := false
    leftRun := setsLink s.link && (s.node.state == .run || s.node.state == .silent) && !s.node.orderCause }

/-- The settlement of a missing frame period that does not lose the link (R99). -/
def missingSettlement (s : State) : Settlement :=
  { seq := s.link.expected, link := { countedLink s.link with missing := s.link.missing + 1 }
    node := if s.node.state = .run ∧ setsLink s.link = true then .silent else s.node.state
    offered := true, jump := false, linkSet := setsLink s.link, lostSet := false
    leftRun := setsLink s.link && s.node.state == .run }

/-- The settlement of the frame period that loses the link (R100). -/
def lostSettlement (s : State) : Settlement :=
  { seq := s.link.expected
    link :=
      { s.link with
        receive := .search, lockRun := 0, missing := 4, expected := s.link.expected + 1, lost := true
        restorePending := true }
    node := if s.node.state = .run then .silent else s.node.state
    offered := true, jump := false, linkSet := false, lostSet := true, leftRun := s.node.state == .run }

/-! ### The node -/

theorem told_heardState (n : Node) (fault : Bool) : n.told fault false = { n with state := heardState n fault } := by
  unfold Node.told heardState
  cases n.state <;> simp

theorem engineRuns_heardState (n : Node) (fault : Bool) : engineRuns (heardState n fault) = engineRuns n.state := by
  unfold heardState
  by_cases heard : (n.state == .run || n.state == .silent) = false
  · rw [if_pos heard]
  · rw [if_neg heard]
    have runs : engineRuns n.state = true := by
      unfold engineRuns
      cases hs : n.state <;> simp [hs] at heard ⊢
    rw [runs]
    split
    · rfl
    · rfl

section

variable {s : State} (memory : List Disturbance) (f : Frame)

/-- LOST cleared with the causes that the node follows (R104). -/
theorem NodeFollows.cleared (h : NodeFollows s) :
    (s.link.lost = true → s.node.state ≠ .run) ∧ (s.link.lost = false → s.node = s.node.told s.link.link false) := by
  refine ⟨fun lost run => ?_, fun found => ?_⟩
  · obtain ⟨-, found, -⟩ := h.1 run
    exact nomatch lost.symm.trans found
  · have told := h.told
    rwa [found] at told

/-- The settlement of a bad frame (R98). -/
theorem badSettled_gives (follows : NodeFollows s) :
    ∃ b,
      errorCounted (badCounted 0
        (lostCleared (expectedSettled s.link.expected (beginPeriod s.link.expected false memory s)))) = b ∧
        (badSettlement s).Gives memory s b ∧ Begun s.link.expected false b := by
  obtain ⟨v, told, hv, ht, settles⟩ := expectedSettled_settled s s.link.expected false memory
  obtain ⟨notRun, same⟩ := follows.cleared
  rw [settles, lostCleared_settled s v told { s.link with expected := s.link.expected + 1 } _ _ _ _ s.node _ rfl notRun same]
  refine error_gives (badSettlement s) memory s v told
    { s.link with
      expected := s.link.expected + 1, lost := false, missing := 0
      badFrames := min 4294967295 (s.link.badFrames + 1) }
    (s.node.told s.link.link false) false hv ht ⟨rfl, rfl, rfl⟩ rfl rfl ?_ (engineRuns_heardState _ _) ?_
  · rw [follow_told, Node.told_told]
    refine (told_heardState s.node (s.link.link || setsLink s.link)).symm.trans ?_
    show s.node.told (s.link.link || setsLink s.link) false =
      if setsLink s.link = true then s.node.told (s.link.link || setsLink s.link) false else s.node.told s.link.link false
    cases setsLink s.link with
    | false => rw [Bool.or_false] <;> rfl
    | true => rfl
  · show (setsLink s.link && (s.node.state == .run || s.node.state == .silent) && !s.node.orderCause) =
      (setsLink s.link && decide ((s.node.told s.link.link false).state = .run))
    cases set : setsLink s.link with
    | false => rfl
    | true =>
      have clear : s.link.link = false := by
        unfold setsLink at set
        rw [Bool.and_eq_true, Bool.not_eq_true'] at set
        exact set.2
      rw [clear, told_heardState]
      unfold heardState
      cases s.node.state <;> cases s.node.orderCause <;> rfl

/-- The settlement of a missing frame period (R99). -/
theorem missingSettled_gives :
    ∃ b,
      errorCounted (badCounted (s.link.missing + 1)
        (expectedSettled s.link.expected (beginPeriod s.link.expected false memory s))) = b ∧
        (missingSettlement s).Gives memory s b ∧ Begun s.link.expected false b := by
  obtain ⟨v, told, hv, ht, settles⟩ := expectedSettled_settled s s.link.expected false memory
  rw [settles]
  refine error_gives (missingSettlement s) memory s v told
    { s.link with
      expected := s.link.expected + 1, missing := s.link.missing + 1
      badFrames := min 4294967295 (s.link.badFrames + 1) }
    s.node false hv ht ⟨rfl, rfl, rfl⟩ rfl rfl ?_ ?_ ?_
  · show { s.node with state := if s.node.state = .run ∧ setsLink s.link = true then .silent else s.node.state } =
      if setsLink s.link = true then
        follow { countedLink s.link with missing := s.link.missing + 1 } s.node
      else s.node
    cases set : setsLink s.link with
    | false => simp
    | true =>
      have fault : (countedLink s.link).link = true := by
        unfold countedLink
        rw [set, Bool.or_true]
      unfold follow
      dsimp only
      rw [fault]
      by_cases run : s.node.state = .run
      · simp [run]
      · simp [run]
  · show engineRuns (if s.node.state = .run ∧ setsLink s.link = true then .silent else s.node.state) = _
    split
    · next h => rw [h.1] <;> rfl
    · rfl
  · show (setsLink s.link && s.node.state == .run) = (setsLink s.link && decide (s.node.state = .run))
    rw [beq_eq_decide]

/-- The settlement of the frame period that loses the link (R63, R100). -/
theorem lostSettled_gives :
    ∃ b,
      lostSet (searchEntered (expectedSettled s.link.expected (beginPeriod s.link.expected false memory s))) = b ∧
        (lostSettlement s).Gives memory s b ∧ Begun s.link.expected false b := by
  obtain ⟨v, told, hv, ht, settles⟩ := expectedSettled_settled s s.link.expected false memory
  have entered : searchEntered (expectedSettled s.link.expected (beginPeriod s.link.expected false memory s)) =
      settled s v told
        { s.link with expected := s.link.expected + 1, receive := .search, lockRun := 0, missing := 4 }
        (memory.foldl Device.disturb s.device)
        { s.mem with sizing := if s.node.state = .sizing then s.mem.sizing + 1 else s.mem.sizing }
        (s.capture.offer (engineRuns s.node.state) s.link.expected (.sequence s.link.expected)) s.decoder s.node
        (Period.begun s.link.expected (engineRuns s.node.state) s.node.leaving false) false := by
    rw [settles]
    rfl
  have node : follow
      { s.link with
        expected := s.link.expected + 1, receive := .search, lockRun := 0, missing := 4, lost := true } s.node =
      { s.node with state := (lostSettlement s).node } := by
    unfold follow lostSettlement
    by_cases run : s.node.state = .run
    · simp [run]
    · simp [run]
  have runs : engineRuns (lostSettlement s).node = engineRuns s.node.state := by
    show engineRuns (if s.node.state = .run then .silent else s.node.state) = _
    split
    · next run => rw [run] <;> rfl
    · rfl
  refine ⟨_, rfl, ?_⟩
  rw [entered, lostSet_settled s v told _ _ _ _ _ _ _ rfl, node]
  constructor
  · have armed_iff : v.changer.state = .armed ↔
        s.changer.state = .armed ∧ ¬s.changer.target = some s.link.expected := by
      rw [hv]
      by_cases fires : (s.changer.state == .armed && s.changer.target == some s.link.expected) = true
      · rw [if_pos fires]
        rw [Bool.and_eq_true, beq_iff_eq, beq_iff_eq] at fires
        exact ⟨fun k => absurd k (fired_not_armed s), fun k => absurd fires.2 k.2⟩
      · rw [if_neg fires]
        rw [Bool.and_eq_true, beq_iff_eq, beq_iff_eq] at fires
        exact ⟨fun k => ⟨k, fun m => fires ⟨k, m⟩⟩, fun k => k.1⟩
    have left : decide (s.node.state = .run) = (lostSettlement s).leftRun := (beq_eq_decide _ _).symm
    rw [left]
    refine settled_gives (lostSettlement s) memory s
      (Period.begun s.link.expected (engineRuns s.node.state) s.node.leaving false) _ _ ?_ ?_ ⟨rfl, rfl⟩
    · by_cases armed : v.changer.state = .armed
      · obtain ⟨armed', other⟩ := armed_iff.mp armed
        rw [if_pos armed, hv]
        simp [lostSettlement, armed', other]
      · rw [if_neg armed, hv]
        rw [armed_iff, not_and_not_right] at armed
        by_cases armed' : s.changer.state = .armed
        · simp [lostSettlement, armed', armed armed']
        · simp [lostSettlement, armed']
    · by_cases armed : v.changer.state = .armed
      · obtain ⟨armed', other⟩ := armed_iff.mp armed
        rw [if_pos armed, ht]
        simp [lostSettlement, raisedAll, armed', other]
      · rw [if_neg armed, ht]
        rw [armed_iff, not_and_not_right] at armed
        by_cases armed' : s.changer.state = .armed
        · simp [lostSettlement, raisedAll, armed', armed armed']
        · simp [lostSettlement, raisedAll, armed']
  · unfold Begun
    show some (Period.begun s.link.expected (engineRuns s.node.state) s.node.leaving false) =
      some (Period.begun s.link.expected (engineRuns (lostSettlement s).node) s.node.leaving false)
    rw [runs]

/-! ### The commands -/

section

variable (released : s.pins.resetHeld = false) (idle : s.period = none) (exist : BlocksExist s)
  (locked : s.link.receive = .locked)
include released idle exist locked

theorem exec_badFrame (sync : f.syncGood = true) (check : f.checkGood = false) :
    exec (.badFrame f memory) s = .next (badFrame f memory s) := by
  refine framePeriod_next (fun t => isLocked t && f.syncGood && !f.checkGood) (badFrame f memory) s released idle exist ?_
  rw [isLocked_locked locked, sync, check]
  rfl

theorem exec_resumptionFrame_bad (sync : f.syncGood = true) (check : f.checkGood = false) (lost : s.link.lost = true) :
    exec (.resumptionFrame f memory) s = .next (badFrame f memory s) := by
  have goes : exec (.resumptionFrame f memory) s = _ :=
    framePeriod_next (fun t => isLocked t && t.link.lost && f.syncGood && (asBegun f t || !f.checkGood))
      (fun t => if f.checkGood then goodFrame f memory t else badFrame f memory t) s released idle exist
      (by rw [isLocked_locked locked, sync, check, lost, Bool.not_false, Bool.or_true]; rfl)
  rw [goes, check]
  rfl

theorem exec_missingFramePeriod :
    exec (.missingFramePeriod memory) s =
      .next (if s.link.missing < 3 then missingFrame memory s else lostFrame memory s) :=
  framePeriod_next isLocked (fun t => if t.link.missing < 3 then missingFrame memory t else lostFrame memory t) s released
    idle exist (isLocked_locked locked)

theorem exec_linkLost (due : 3 ≤ s.link.missing) : exec (.linkLost memory) s = .next (lostFrame memory s) := by
  refine framePeriod_next (fun t => isLocked t && decide (3 ≤ t.link.missing)) (lostFrame memory) s released idle exist ?_
  rw [isLocked_locked locked, decide_eq_true due]
  rfl

end

end

/-- Settles O49: each kind of frame period is its settlement and the handling behind it. -/
theorem badAndMissingFramesMoveTheReceiver : Obligations.BadAndMissingFramesMoveTheReceiver := by
  intro s f memory l released idle exist law follows locked waiting count linkSet fault heard counted
  refine ⟨fun sync check => ?_, fun early => ?_, fun late => ?_⟩
  · obtain ⟨b, settles, gives, begun⟩ := badSettled_gives memory follows
    have maps : OutputMapLaw b := by
      unfold OutputMapLaw
      rw [gives.maps]
      exact law
    have frame : badFrame f memory s = handle (noticeWaiting s) l.expected noInputs f.slots true .broken b := by
      rw [← settles]
      rfl
    refine ⟨b, _, gives, handle_as _ _ _ _ _ .broken b false begun maps, ?_, fun lost => ?_⟩
    · exact (exec_badFrame memory f released idle exist locked sync check).trans (congrArg Host.Outcome.next frame)
    · exact (exec_resumptionFrame_bad memory f released idle exist locked sync check lost).trans
        (congrArg Host.Outcome.next frame)
  · obtain ⟨b, settles, gives, begun⟩ := missingSettled_gives (s := s) memory
    have maps : OutputMapLaw b := by
      unfold OutputMapLaw
      rw [gives.maps]
      exact law
    have frame : missingFrame memory s = handle (noticeWaiting s) l.expected noInputs emptySlots true .broken b := by
      rw [← settles]
      rfl
    refine ⟨b, _, gives, handle_as _ _ _ _ _ .broken b false begun maps, ?_⟩
    rw [exec_missingFramePeriod memory released idle exist locked, if_pos early]
    exact congrArg Host.Outcome.next frame
  · obtain ⟨b, settles, gives, begun⟩ := lostSettled_gives (s := s) memory
    have maps : OutputMapLaw b := by
      unfold OutputMapLaw
      rw [gives.maps]
      exact law
    have frame : lostFrame memory s = handle (noticeWaiting s) l.expected noInputs emptySlots false .nothing b := by
      rw [← settles]
      rfl
    refine ⟨b, _, gives, handle_as _ _ _ _ _ .nothing b false begun maps, ?_, ?_⟩
    · exact (exec_linkLost memory released idle exist locked late).trans (congrArg Host.Outcome.next frame)
    · rw [exec_missingFramePeriod memory released idle exist locked, if_neg (Nat.not_lt.mpr late)]
      exact congrArg Host.Outcome.next frame

end Sys2Proof.Machine
end

section
/-! O48. Good frames of LOCKED: on the expected sequence, and with a jump (R92, R95 to R97, R101, R104). -/

namespace Sys2Proof.Machine

/-- The receiver's count of a good frame (R95, R96, R101). -/
def goodLec (jump : Bool) (l : Link) : Nat := if jump = true then min 255 (l.lec + 8) else l.lec - 1

/-- LINK becomes set by a good frame's jump. -/
def goodSetsLink (jump : Bool) (l : Link) : Bool := jump && goodLec jump l == 255 && !l.link

/-- LINK after a good frame. -/
def goodFault (jump : Bool) (l : Link) : Bool := goodSetsLink jump l || (l.link && (jump || goodLec jump l != 0))

/-- A good frame's settlement. -/
def goodSettlement (s : State) (seq : Seq) (jump : Bool) : Settlement :=
  { seq
    link :=
      { s.link with
        expected := seq + 1, missing := 0, lost := false, lec := goodLec jump s.link, link := goodFault jump s.link
        restorePending := s.link.restorePending || goodSetsLink jump s.link
        goodFrames := min 4294967295 (s.link.goodFrames + 1)
        jumps := if jump = true then min 4294967295 (s.link.jumps + 1) else s.link.jumps }
    node := heardState s.node (goodFault jump s.link)
    offered := !jump, jump, linkSet := goodSetsLink jump s.link, lostSet := false
    leftRun :=
      goodSetsLink jump s.link && (s.node.state == .run || s.node.state == .silent) && !s.node.orderCause }

/-! ### On the expected sequence -/

section

variable {s : State} (memory : List Disturbance) (seq : Seq)

/-- The period of a settled node that runs the engine as before. -/
theorem begun_settled (v told : State) (l : Link) (d : Device) (m : MemCtl) (c : Capture) (dec : Decoder) (fault left : Bool) :
    Begun seq true
      (settled s v told l d m c dec { s.node with state := heardState s.node fault }
        (Period.begun seq (engineRuns s.node.state) s.node.leaving true) left) := by
  unfold Begun
  show some (Period.begun seq (engineRuns s.node.state) s.node.leaving true) =
    some (Period.begun seq (engineRuns (heardState s.node fault)) s.node.leaving true)
  rw [engineRuns_heardState]

theorem begun_told (v told : State) (l : Link) (d : Device) (m : MemCtl) (c : Capture) (dec : Decoder) (fault left : Bool) :
    Begun seq true
      (settled s v told l d m c dec (s.node.told fault false) (Period.begun seq (engineRuns s.node.state) s.node.leaving true)
        left) := by
  rw [told_heardState]
  exact begun_settled seq v told l d m c dec fault left

/-- A good frame on the expected sequence (R95). -/
theorem goodSettled_onSequence (follows : NodeFollows s) :
    (goodSettlement s seq false).Gives memory s (goodSettled false seq (beginPeriod seq true memory s)) ∧
      Begun seq true (goodSettled false seq (beginPeriod seq true memory s)) := by
  obtain ⟨v, told, hv, ht, settles⟩ := expectedSettled_settled s seq true memory
  obtain ⟨notRun, same⟩ := follows.cleared
  have steps : goodSettled false seq (beginPeriod seq true memory s) =
      errorForgiven (goodCounted (lostCleared (expectedSettled seq (beginPeriod seq true memory s)))) := rfl
  have counted := lostCleared_settled s v told { s.link with expected := seq + 1 } (memory.foldl Device.disturb s.device)
    { s.mem with sizing := if s.node.state = .sizing then s.mem.sizing + 1 else s.mem.sizing }
    (s.capture.offer (engineRuns s.node.state) seq (.sequence seq)) s.decoder s.node
    (Period.begun seq (engineRuns s.node.state) s.node.leaving true) rfl notRun same
  have forgiven := forgiven_settled s v told
    { s.link with
      expected := seq + 1, lost := false, missing := 0, goodFrames := min 4294967295 (s.link.goodFrames + 1) }
    (memory.foldl Device.disturb s.device)
    { s.mem with sizing := if s.node.state = .sizing then s.mem.sizing + 1 else s.mem.sizing }
    (s.capture.offer (engineRuns s.node.state) seq (.sequence seq)) s.decoder (s.node.told s.link.link false)
    (Period.begun seq (engineRuns s.node.state) s.node.leaving true) rfl rfl (Node.told_told _ _ _ _ _).symm
  have fault : goodFault false s.link = (s.link.link && (s.link.lec - 1 != 0)) := rfl
  have link : (goodSettlement s seq false).link =
      { s.link with
        expected := seq + 1, lost := false, missing := 0, goodFrames := min 4294967295 (s.link.goodFrames + 1)
        lec := s.link.lec - 1, link := s.link.link && (s.link.lec - 1 != 0) } := by
    unfold goodSettlement
    rw [fault]
    unfold goodSetsLink
    rw [Bool.false_and, Bool.false_and, Bool.or_false]
    rfl
  have node : ({ s.node with state := heardState s.node (s.link.link && (s.link.lec - 1 != 0)) } : Node) =
      (s.node.told s.link.link false).told (s.link.link && (s.link.lec - 1 != 0)) false := by
    rw [Node.told_told, told_heardState]
  have result : goodSettled false seq (beginPeriod seq true memory s) =
      settled s v told (goodSettlement s seq false).link (memory.foldl Device.disturb s.device)
        { s.mem with sizing := if s.node.state = .sizing then s.mem.sizing + 1 else s.mem.sizing }
        (s.capture.offer (engineRuns s.node.state) seq (.sequence seq)) s.decoder
        { s.node with state := heardState s.node (goodFault false s.link) }
        (Period.begun seq (engineRuns s.node.state) s.node.leaving true) false := by
    rw [steps, settles, counted, link, fault, node]
    exact forgiven
  rw [result]
  refine ⟨?_, begun_settled seq _ _ _ _ _ _ _ _ _⟩
  refine settled_gives (goodSettlement s seq false) memory s
    (Period.begun seq (engineRuns s.node.state) s.node.leaving true) v told ?_ ?_ ⟨rfl, rfl⟩
  · rw [hv]
    simp [goodSettlement, goodSetsLink]
  · rw [ht]
    simp [goodSettlement, goodSetsLink, raisedAll]

/-! ### With a jump -/

/-- The receiver's values with a jump counted, its error apart (R92, R95, R96, R104). -/
def jumpLink (s : State) (seq : Seq) : Link :=
  { s.link with
    expected := seq + 1, lost := false, missing := 0, goodFrames := min 4294967295 (s.link.goodFrames + 1)
    jumps := min 4294967295 (s.link.jumps + 1) }

/-- The events of a jump, its error apart (R63, R96). -/
def jumpTold (s : State) : State :=
  if s.changer.state = .armed then raise .commitLost (raise .sequenceJump s) else raise .sequenceJump s

/-- The memory controller as a frame period begins (R3). -/
def begunMem (s : State) : MemCtl :=
  { s.mem with sizing := if s.node.state = .sizing then s.mem.sizing + 1 else s.mem.sizing }

/-- `s` settled with a jump, its error apart. -/
def jumpSettled (memory : List Disturbance) (s : State) (seq : Seq) : State :=
  settled s (withdrawn s) (jumpTold s) (jumpLink s seq) (memory.foldl Device.disturb s.device) (begunMem s)
    (s.capture.offer (engineRuns s.node.state) seq (.sequence seq)) s.decoder (s.node.told s.link.link false)
    (Period.begun seq (engineRuns s.node.state) s.node.leaving true) false

theorem jumpTaken_settled (follows : NodeFollows s) :
    goodSettled true seq (beginPeriod seq true memory s) = errorCounted (jumpSettled memory s seq) := by
  obtain ⟨notRun, same⟩ := follows.cleared
  have begins := lostCleared_settled s s s { s.link with expected := seq + 1 } (memory.foldl Device.disturb s.device)
    (begunMem s) (s.capture.offer (engineRuns s.node.state) seq (.sequence seq)) s.decoder s.node
    (Period.begun seq (engineRuns s.node.state) s.node.leaving true) rfl notRun same
  have event := settled_linkEvent s s (raise .sequenceJump s) (jumpLink s seq) (memory.foldl Device.disturb s.device)
    (begunMem s) (s.capture.offer (engineRuns s.node.state) seq (.sequence seq)) s.decoder
    (s.node.told s.link.link false) (Period.begun seq (engineRuns s.node.state) s.node.leaving true)
  have steps : goodSettled true seq (beginPeriod seq true memory s) =
      jumpTaken (goodCounted (lostCleared
        (settled s s s { s.link with expected := seq + 1 } (memory.foldl Device.disturb s.device)
          (begunMem s) (s.capture.offer (engineRuns s.node.state) seq (.sequence seq)) s.decoder s.node
          (Period.begun seq (engineRuns s.node.state) s.node.leaving true) false))) := rfl
  refine Eq.trans ?_ (congrArg errorCounted (event.trans ?_))
  · rw [steps, begins]
    rfl
  · unfold jumpSettled withdrawn jumpTold
    by_cases armed : s.changer.state = .armed
    · rw [if_pos armed, if_pos armed, if_pos armed]
    · rw [if_neg armed, if_neg armed, if_neg armed]

theorem withdrawn_unarmed (s : State) : (withdrawn s).changer.state ≠ .armed := by
  unfold withdrawn
  split
  · exact nofun
  · next unarmed => exact unarmed

/-- A sequence jump (R96, R101). -/
theorem goodSettled_jump (follows : NodeFollows s) :
    (goodSettlement s seq true).Gives memory s (goodSettled true seq (beginPeriod seq true memory s)) ∧
      Begun seq true (goodSettled true seq (beginPeriod seq true memory s)) := by
  have fault : goodFault true s.link = (s.link.link || goodSetsLink true s.link) := by
    unfold goodFault
    rw [Bool.true_or, Bool.and_true, Bool.or_comm]
  have link : (goodSettlement s seq true).link =
      { jumpLink s seq with
        lec := min 255 ((jumpLink s seq).lec + 8), link := (jumpLink s seq).link || goodSetsLink true s.link
        restorePending := (jumpLink s seq).restorePending || goodSetsLink true s.link } := by
    unfold goodSettlement
    rw [fault]
    rfl
  have node : ({ s.node with state := (goodSettlement s seq true).node } : Node) =
      (s.node.told s.link.link false).told (s.link.link || goodSetsLink true s.link) false := by
    rw [Node.told_told, told_heardState, ← fault]
    rfl
  have armedTold :
      withdrawn s =
        if (goodSettlement s seq true).offered && s.changer.state == .armed &&
            s.changer.target == some (goodSettlement s seq true).seq then firedState s
        else if s.changer.state == .armed &&
            ((goodSettlement s seq true).jump || (goodSettlement s seq true).linkSet || (goodSettlement s seq true).lostSet) then
          disarm s
        else s := by
    simp [goodSettlement, withdrawn]
  rw [jumpTaken_settled memory seq follows]
  unfold jumpSettled
  rw [settled_error _ _ _ _ _ _ _ _ _ _ rfl]
  dsimp only
  cases set : goodSetsLink true s.link with
  | false =>
    have unset : (min 255 ((jumpLink s seq).lec + 8) == 255 && !(jumpLink s seq).link) = false := set
    rw [unset]
    rw [set, Bool.or_false, Bool.or_false] at link
    rw [set, Bool.or_false, Node.told_told] at node
    have gives := settled_gives (goodSettlement s seq true) memory s
      (Period.begun seq (engineRuns s.node.state) s.node.leaving true) (withdrawn s) (jumpTold s) armedTold
      (by
        by_cases armed : s.changer.state = .armed
        · simp [jumpTold, goodSettlement, set, raisedAll, armed]
        · simp [jumpTold, goodSettlement, set, raisedAll, armed]) ⟨rfl, rfl⟩
    have linkSet : (goodSettlement s seq true).linkSet = false := set
    have leftRun : (goodSettlement s seq true).leftRun = false := by
      unfold goodSettlement
      dsimp only
      rw [set]
      rfl
    rw [linkSet, leftRun, link, node] at gives
    rw [if_neg nofun, Bool.or_false, Bool.or_false]
    refine ⟨gives, ?_⟩
    exact begun_told seq _ _ _ _ _ _ _ _ _
  | true =>
    have isSet : (min 255 ((jumpLink s seq).lec + 8) == 255 && !(jumpLink s seq).link) = true := set
    rw [isSet]
    rw [set] at link node
    have gives := settled_gives (goodSettlement s seq true) memory s
      (Period.begun seq (engineRuns s.node.state) s.node.leaving true) (withdrawn s) (raise .linkFault (jumpTold s))
      armedTold
      (by
        by_cases armed : s.changer.state = .armed
        · simp [jumpTold, goodSettlement, set, raisedAll, armed, raise_comm .linkFault .commitLost]
        · simp [jumpTold, goodSettlement, set, raisedAll, armed]) ⟨rfl, rfl⟩
    have linkSet : (goodSettlement s seq true).linkSet = true := set
    have clear : s.link.link = false := by
      unfold goodSetsLink at set
      rw [Bool.and_eq_true, Bool.not_eq_true'] at set
      exact set.2
    have leftRun : (goodSettlement s seq true).leftRun =
        (decide ((s.node.told s.link.link false).state = .run) &&
          ((jumpLink s seq).link || true || (jumpLink s seq).lost || (s.node.told s.link.link false).orderCause)) := by
      unfold goodSettlement
      dsimp only
      rw [set, clear, told_heardState, Bool.or_true, Bool.true_or, Bool.true_or, Bool.and_true]
      unfold heardState
      cases s.node.state <;> cases s.node.orderCause <;> rfl
    rw [linkSet, leftRun, link, node] at gives
    rw [if_pos rfl, if_neg (withdrawn_unarmed s), if_neg (withdrawn_unarmed s), follow_told]
    refine ⟨gives, ?_⟩
    rw [Node.told_told]
    exact begun_told seq _ _ _ _ _ _ _ _ _

end

end Sys2Proof.Machine
end

section
/-! O48, settled: GOOD_FRAME and RESUMPTION_FRAME with a good check (R95 to R97, R104). -/

namespace Sys2Proof.Machine

section

variable {s : State} {f : Frame} (memory : List Disturbance) (released : s.pins.resetHeld = false)
  (idle : s.period = none) (exist : BlocksExist s) (locked : s.link.receive = .locked) (sync : f.syncGood = true)
  (check : f.checkGood = true) (begun : s.begun = none ∨ f.seq = s.link.expected)

theorem asBegun_true (begun : s.begun = none ∨ f.seq = s.link.expected) : asBegun f s = true := by
  unfold asBegun
  rw [Bool.or_eq_true, Option.isNone_iff_eq_none, beq_iff_eq]
  exact begun

include released idle exist locked sync check begun

theorem exec_goodFrame : exec (.goodFrame f memory) s = .next (goodFrame f memory s) := by
  refine framePeriod_next (fun t => isLocked t && f.syncGood && f.checkGood && asBegun f t) (goodFrame f memory) s released
    idle exist ?_
  rw [isLocked_locked locked, sync, check, asBegun_true begun]
  rfl

theorem exec_resumptionFrame_good (lost : s.link.lost = true) :
    exec (.resumptionFrame f memory) s = .next (goodFrame f memory s) := by
  have goes : exec (.resumptionFrame f memory) s = _ :=
    framePeriod_next (fun t => isLocked t && t.link.lost && f.syncGood && (asBegun f t || !f.checkGood))
      (fun t => if f.checkGood then goodFrame f memory t else badFrame f memory t) s released idle exist
      (by rw [isLocked_locked locked, sync, lost, asBegun_true begun]; rfl)
  rw [goes, check]
  rfl

end

/-- The settlement of a good frame, whether it jumps or not. -/
theorem goodSettled_gives {s : State} (memory : List Disturbance) (seq : Seq) (follows : NodeFollows s) (jump : Bool) :
    (goodSettlement s seq jump).Gives memory s (goodSettled jump seq (beginPeriod seq true memory s)) ∧
      Begun seq true (goodSettled jump seq (beginPeriod seq true memory s)) := by
  cases jump with
  | false => exact goodSettled_onSequence memory seq follows
  | true => exact goodSettled_jump memory seq follows

/-- Settles O48: a good frame is its settlement, with or without a jump, and the handling behind it. -/
theorem goodFramesMoveTheReceiver : Obligations.GoodFramesMoveTheReceiver := by
  intro s f memory l released idle exist law follows locked sync check begun jump count linkSet fault heard x
  obtain ⟨gives, begins⟩ := goodSettled_gives memory f.seq follows jump
  have maps : OutputMapLaw (goodSettled jump f.seq (beginPeriod f.seq true memory s)) := by
    unfold OutputMapLaw
    rw [gives.maps]
    exact law
  have handled := handle_as (noticeWaiting s) f.seq (inputSamples s.maps f) f.slots f.damaged (.word f.kind f.service) _ true
    begins maps
  refine ⟨inputSamples s.maps f, _, _, fun i => ?_, gives, handled, exec_goodFrame memory released idle exist locked sync check begun,
    exec_resumptionFrame_good memory released idle exist locked sync check begun⟩
  unfold inputSamples
  by_cases damaged : f.damaged = true
  · rw [if_pos damaged, if_pos damaged]
    exact Vector.getElem_replicate i.isLt
  · rw [if_neg damaged, if_neg damaged]
    exact (Vector.getElem_ofFn i.isLt).trans rfl

end Sys2Proof.Machine
end

section
/-! SUPPORT. One access to the delay memory: when it is answered, what a read of a word gives, and what the devices do when
something befalls them (R4, R15, R16). -/

namespace Sys2Proof.Machine

/-! ### An access, and a word read -/

section

variable {v : Serve} {a : Nat}

theorem access_absent (line : Option Line) (h : v.present[rankOfWord a] = false) : v.access a line = (false, v) := if_pos h

variable (present : v.present[rankOfWord a] = true)
include present

theorem access_answered (line : Option Line) (h : v.device.life[rankOfWord a] = none) : v.access a line = (true, v) := by
  have here : ¬v.present[rankOfWord a] = false := by rw [present]; exact nofun
  have same : v.device.access (rankOfWord a) = (true, v.device) := by
    unfold Device.access
    rw [h]
  unfold Serve.access
  dsimp only
  rw [if_neg here, same]
  rfl

theorem access_fails (line : Option Line) (h : v.device.life[rankOfWord a] = some 0) :
    v.access a line = (false, v.rankFails (rankOfWord a) (blockOfWord a) line) := by
  have here : ¬v.present[rankOfWord a] = false := by rw [present]; exact nofun
  have same : v.device.access (rankOfWord a) = (false, v.device) := by
    unfold Device.access
    rw [h]
  unfold Serve.access
  dsimp only
  rw [if_neg here, same]
  rfl

end

theorem readWord_unanswered {v w : Serve} {n : Line} {a : Nat} (h : v.access a (some n) = (false, w)) :
    v.readWord n a = (0, w) := by
  unfold Serve.readWord
  dsimp only
  rw [h]
  rfl

theorem readWord_answered {v : Serve} {n : Line} {a : Nat} (h : v.access a (some n) = (true, v)) :
    v.readWord n a =
      match checkWord (v.device.shows a) with
      | .sound x => (x.toInt, v)
      | .corrected x b =>
        (x.toInt,
          Serve.check { v with corrected := countCorrected v.corrected (rankOfWord a) }
            { kind := .corrected, rank := rankOfWord a, block := blockOfWord a, line := some n, bit := some b, seq := v.seq })
      | .uncorrectable =>
        (0,
          Serve.check { v with faulted := v.faulted ++ [n] }
            { kind := .uncorrected, rank := rankOfWord a, block := blockOfWord a, line := some n, bit := none
              seq := v.seq }) := by
  unfold Serve.readWord
  dsimp only
  rw [h] <;> rfl

theorem countCorrected_eq (v : Vector Nat 4) (r : Rank) :
    countCorrected v r = v.set r (if v[r] + 1 ≤ 65535 then v[r] + 1 else 65535) := by
  have count : min 65535 (v[r] + 1) = if v[r] + 1 ≤ 65535 then v[r] + 1 else 65535 := by
    split
    · omega
    · omega
  exact congrArg (v.set r) count

/-- What a read of a word gives, case by case (R4, R15, R16). -/
theorem readWord_eq (v : Serve) (n : Line) (a : Nat) :
    let r : Rank := Fin.ofNat 4 (a / 4194304)
    let found (kind : CheckKind) (bit : Option Nat) : Check :=
      { kind, rank := r, block := a / 1024, line := some n, bit, seq := v.seq }
    (v.present[r] = false → v.readWord n a = (0, v)) ∧
    (v.present[r] = true → v.device.life[r] = some 0 →
      v.readWord n a =
        (0, { v with present := v.present.set r false, gone := v.gone ++ [r], checks := v.checks ++ [found .absent none] })) ∧
    (v.present[r] = true → v.device.life[r] = none →
      (∀ x, checkWord (v.device.words.read a ^^^ v.device.defects.read a) = .sound x →
        v.readWord n a = (x.toInt, v)) ∧
      (∀ x k, checkWord (v.device.words.read a ^^^ v.device.defects.read a) = .corrected x k →
        v.readWord n a =
          (x.toInt,
            { v with
              corrected := v.corrected.set r (if v.corrected[r] + 1 ≤ 65535 then v.corrected[r] + 1 else 65535)
              checks := v.checks ++ [found .corrected (some k)] })) ∧
      (checkWord (v.device.words.read a ^^^ v.device.defects.read a) = .uncorrectable →
        v.readWord n a =
          (0, { v with faulted := v.faulted ++ [n], checks := v.checks ++ [found .uncorrected none] }))) := by
  refine ⟨fun absent => readWord_unanswered (access_absent _ absent),
    fun present dead => readWord_unanswered (access_fails present _ dead), fun present alive => ?_⟩
  have answered := readWord_answered (access_answered present (some n) alive)
  have shown : v.device.shows a = v.device.words.read a ^^^ v.device.defects.read a := rfl
  refine ⟨fun x sound => ?_, fun x k corrected => ?_, fun uncorrectable => ?_⟩
  · rw [answered, shown, sound]
  · rw [answered, shown, corrected, countCorrected_eq] <;> rfl
  · rw [answered, shown, uncorrectable] <;> rfl

/-! ### A read of a line -/

theorem samples_eq (l : LineRec) : l.samples = 1024 * l.length := Nat.mul_comm _ _

theorem address_eq (l : LineRec) (p : Nat) : l.address p = wordAt l p := by
  show (l.base + p / 1024) * 1024 + p % 1024 = 1024 * l.base + p
  omega

theorem readLine_eq (lines : Vector LineRec 64) (v : Serve) (n : Line) (delay : Nat) :
    let l := lines[n]
    let size := 1024 * l.length
    v.readLine lines n delay =
      if l.state = .running ∧ 1 ≤ delay ∧ delay < size then
        v.readWord n (wordAt l ((l.position + size - delay) % size))
      else (0, v) := by
  unfold Serve.readLine
  simp only [samples_eq, address_eq]

/-! ### What befalls the devices -/

theorem wordExists_iff (a : Nat) : wordExists a = true ↔ a < 16777216 := decide_eq_true_iff

theorem upset_eq (d : Device) (a : Nat) (mask : MemWord) (h : Memory.wf d.words = true) :
    (d.disturb (.upset a mask)).life = d.life ∧ (d.disturb (.upset a mask)).defects = d.defects ∧
      ∀ b : Nat,
        (d.disturb (.upset a mask)).words.read b =
          if b = a ∧ a < 16777216 then d.words.read b ^^^ mask else d.words.read b := by
  by_cases exists_ : a < 16777216
  · have stored : d.disturb (.upset a mask) = d.store a (d.words.read a ^^^ mask) :=
      if_pos ((wordExists_iff a).mpr exists_)
    rw [stored]
    refine ⟨rfl, rfl, fun b => (Memory.read_write a _ b h).trans ?_⟩
    by_cases here : b = a
    · rw [if_pos here, if_pos ⟨here, exists_⟩, here]
    · rw [if_neg here, if_neg fun e => here e.1]
  · have same : d.disturb (.upset a mask) = d := if_neg fun e => exists_ ((wordExists_iff a).mp e)
    rw [same]
    exact ⟨rfl, rfl, fun b => (if_neg fun e => exists_ e.2).symm⟩

theorem defect_eq (d : Device) (a : Nat) (mask : MemWord) (h : Memory.wf d.defects = true) :
    (d.disturb (.defect a mask)).life = d.life ∧ (d.disturb (.defect a mask)).words = d.words ∧
      ∀ b : Nat,
        (d.disturb (.defect a mask)).defects.read b = if b = a ∧ a < 16777216 then mask else d.defects.read b := by
  by_cases exists_ : a < 16777216
  · have noted : d.disturb (.defect a mask) = { d with defects := d.defects.write a mask } :=
      if_pos ((wordExists_iff a).mpr exists_)
    rw [noted]
    refine ⟨rfl, rfl, fun b => (Memory.read_write a _ b h).trans ?_⟩
    exact if_congr (iff_self_and.mpr fun _ => exists_) rfl rfl
  · have same : d.disturb (.defect a mask) = d := if_neg fun e => exists_ ((wordExists_iff a).mp e)
    rw [same]
    exact ⟨rfl, rfl, fun b => (if_neg fun e => exists_ e.2).symm⟩

end Sys2Proof.Machine
end

section
/-! SUPPORT. What was served is put back: the lines of the ranks lost, the checks, the devices (R4, R15, R16, R143). -/

namespace Sys2Proof.Machine

/-! ### Lines lost -/

/-- The line is neither OFF nor FAULTED, and a block of its window lies in one of some ranks (R4). -/
def Lost (s : State) (rs : List Rank) (n : Line) : Prop :=
  (lineOf s n).state ≠ .off ∧ (lineOf s n).state ≠ .faulted ∧
    ∃ r ∈ rs, 4096 * r.val < (lineOf s n).base + (lineOf s n).length ∧ (lineOf s n).base < 4096 * (r.val + 1)

/-- Lines become FAULTED: they leave the clearing work list and join the faulted-line set (R4). -/
structure Loses (lost : Line → Prop) (s t : State) : Prop where
  gone : ∀ n, lost n → lineOf t n = { lineOf s n with state := .faulted }
  kept : ∀ n, ¬lost n → lineOf t n = lineOf s n
  clearing : ∀ n, n ∈ t.mem.clearing ↔ n ∈ s.mem.clearing ∧ ¬lost n
  faulted : ∀ n : Line, t.events.faultedLines.getLsbD n.val = true ↔ s.events.faultedLines.getLsbD n.val = true ∨ lost n
  flag : t.events.flags.getLsbD 11 = true ↔ s.events.flags.getLsbD 11 = true ∨ ∃ n, lost n
  checks : t.checks = s.checks
  fresh : t.fresh = s.fresh

theorem Loses.of_iff {L M : Line → Prop} {s t : State} (h : Loses L s t) (iff : ∀ n, L n ↔ M n) : Loses M s t := by
  obtain rfl : L = M := funext fun n => propext (iff n)
  exact h

theorem Loses.none (s : State) : Loses (fun _ => False) s s :=
  ⟨fun _ h => h.elim, fun _ _ => rfl, fun _ => by simp, fun _ => by simp, by simp, rfl, rfl⟩

/-- Lines lost one set after the other. -/
theorem Loses.and {L M : Line → Prop} {s t u : State} (first : Loses L s t) (then_ : Loses M t u) :
    Loses (fun n => L n ∨ M n) s u where
  gone n h := by
    by_cases lost : M n
    · rw [then_.gone n lost]
      by_cases before : L n
      · rw [first.gone n before]
      · rw [first.kept n before]
    · rw [then_.kept n lost, first.gone n (h.resolve_right lost)]
  kept n h := by rw [then_.kept n fun k => h (Or.inr k), first.kept n fun k => h (Or.inl k)]
  clearing n := by rw [then_.clearing, first.clearing, and_assoc, not_or]
  faulted n := by rw [then_.faulted, first.faulted, or_assoc]
  flag := by rw [then_.flag, first.flag, or_assoc, exists_or]
  checks := then_.checks.trans first.checks
  fresh := then_.fresh.trans first.fresh

theorem makeFaulted_loses (ns : List Line) (s : State) : Loses (fun n => n ∈ ns) s (makeFaulted ns s) where
  gone n h := by rw [makeFaulted_line, if_pos h]
  kept n h := by rw [makeFaulted_line, if_neg h]
  clearing n := by
    unfold makeFaulted
    rw [raiseFault_mem]
    simp [MemCtl.unlist]
  faulted n := by
    unfold makeFaulted
    rw [raiseFault_faulted]
  flag := by
    unfold makeFaulted
    rw [raiseFault_flag]
  checks := by rw [makeFaulted_same]
  fresh := by rw [makeFaulted_same]

theorem inRank_iff (l : LineRec) (r : Rank) :
    l.inRank r = true ↔ 4096 * r.val < l.base + l.length ∧ l.base < 4096 * (r.val + 1) := by
  show (decide (l.base < (r.val + 1) * 4096) && decide (r.val * 4096 < l.base + l.length)) = true ↔ _
  rw [Bool.and_eq_true, decide_eq_true_iff, decide_eq_true_iff]
  omega

theorem mem_linesLost (s : State) (r : Rank) (n : Line) : n ∈ linesLost s r ↔ Lost s [r] n := by
  have block := inRank_iff (lineOf s n) r
  unfold linesLost Lost
  rw [List.mem_filter]
  simp only [allLines, List.mem_finRange, true_and, Bool.and_eq_true, bne_iff_ne, List.mem_singleton, exists_eq_left,
    ← block, and_assoc]
  rfl

/-- The lines a list of ranks takes are those its first takes and those that the others take then. -/
theorem lost_cons (s : State) (r : Rank) (rs : List Rank) (n : Line) :
    n ∈ linesLost s r ∨ Lost (makeFaulted (linesLost s r) s) rs n ↔ Lost s (r :: rs) n := by
  have after := makeFaulted_line (linesLost s r) s n
  by_cases first : n ∈ linesLost s r
  · obtain ⟨on, sound, q, hq, block⟩ := (mem_linesLost s r n).mp first
    exact iff_of_true (Or.inl first) ⟨on, sound, q, List.mem_cons.mpr (Or.inl (List.mem_singleton.mp hq)), block⟩
  · have elsewhere (h : Lost s (r :: rs) n) : Lost s rs n := by
      obtain ⟨on, sound, q, hq, block⟩ := h
      obtain rfl | hq := List.mem_cons.mp hq
      · exact absurd ((mem_linesLost s q n).mpr ⟨on, sound, q, List.mem_singleton_self q, block⟩) first
      · exact ⟨on, sound, q, hq, block⟩
    rw [if_neg first] at after
    unfold Lost at elsewhere ⊢
    rw [after]
    refine ⟨fun h => ?_, fun h => Or.inr (elsewhere h)⟩
    obtain ⟨on, sound, q, hq, block⟩ := h.resolve_left first
    exact ⟨on, sound, q, List.mem_cons_of_mem r hq, block⟩

theorem ranksGone_loses (rs : List Rank) (s : State) : Loses (Lost s rs) s (ranksGone rs s) := by
  induction rs generalizing s with
  | nil => exact (Loses.none s).of_iff fun n => by simp [Lost]
  | cons r rs ih => exact ((makeFaulted_loses _ s).and (ih _)).of_iff (lost_cons s r rs)

/-! ### The checks -/

/-- What taking checks leaves alone: it raises MEMORY-CHECK, and no more of the events. -/
structure Checked (s t : State) : Prop where
  lines : t.lines = s.lines
  mem : t.mem = s.mem
  device : t.device = s.device
  faulted : t.events.faultedLines = s.events.faultedLines
  flag : t.events.flags.getLsbD 11 = s.events.flags.getLsbD 11

theorem Checked.none (s : State) : Checked s s := ⟨rfl, rfl, rfl, rfl, rfl⟩

theorem Checked.and {s t u : State} (a : Checked s t) (b : Checked t u) : Checked s u :=
  ⟨b.lines.trans a.lines, b.mem.trans a.mem, b.device.trans a.device, b.faulted.trans a.faulted, b.flag.trans a.flag⟩

theorem recordCheck_checked (s : State) (c : Check) : Checked s (recordCheck s c) := by
  unfold recordCheck raiseIf
  split
  · obtain ⟨notice, events⟩ := raiseWith_events .memoryCheck id { s with checks := s.checks.take c }
    refine ⟨rfl, rfl, rfl, (congrArg Events.faultedLines events :), ?_⟩
    rw [raise_flags, BitVec.getLsbD_or]
    exact Bool.or_false _
  · exact ⟨rfl, rfl, rfl, rfl, rfl⟩

theorem foldChecks_checked (cs : List Check) (s : State) : Checked s (cs.foldl recordCheck s) := by
  induction cs generalizing s with
  | nil => exact .none s
  | cons c cs ih => exact (recordCheck_checked s c).and (ih _)

theorem recordChecks_checked (cs : List Check) (s : State) : Checked s (recordChecks cs s) := by
  unfold recordChecks
  split
  · exact foldChecks_checked cs s
  · have fresh : Checked s { s with fresh := s.fresh + 1 } := ⟨rfl, rfl, rfl, rfl, rfl⟩
    exact fresh.and (foldChecks_checked _ _)

theorem recordCheck_checks (s : State) (c : Check) : (recordCheck s c).checks = s.checks.take c := by
  unfold recordCheck raiseIf
  split
  · rfl
  · rfl

theorem foldChecks_checks (cs : List Check) {s t : State} (h : t.checks = s.checks) :
    (cs.foldl recordCheck t).checks = (cs.foldl recordCheck s).checks := by
  induction cs generalizing s t with
  | nil => exact h
  | cons c cs ih => exact ih (by rw [recordCheck_checks, recordCheck_checks, h])

/-- What the check recorder holds after some checks goes by what it held, and by the free value of their order. -/
theorem recordChecks_checks (cs : List Check) {s t : State} (checks : t.checks = s.checks) (fresh : t.fresh = s.fresh) :
    (recordChecks cs t).checks = (recordChecks cs s).checks := by
  unfold recordChecks
  split
  · exact foldChecks_checks cs checks
  · rw [fresh]
    exact foldChecks_checks _ checks

/-! ### What was served put back -/

/-- What was served put back, item by item (R4, R15, R143). -/
theorem commitServe_eq (v : Serve) (s : State) :
    (commitServe v s).device = v.device ∧ (commitServe v s).mem.present = v.present ∧
      (commitServe v s).mem.corrected = v.corrected ∧ (commitServe v s).checks = (recordChecks v.checks s).checks ∧
      (∀ n : Line,
        (Lost s v.gone n → lineOf (commitServe v s) n = { lineOf s n with state := .faulted }) ∧
          (¬Lost s v.gone n → lineOf (commitServe v s) n = lineOf s n) ∧
          (n ∈ (commitServe v s).mem.clearing ↔ n ∈ s.mem.clearing ∧ ¬Lost s v.gone n) ∧
          ((commitServe v s).events.faultedLines.getLsbD n.val = true ↔
            s.events.faultedLines.getLsbD n.val = true ∨ Lost s v.gone n)) ∧
      ((commitServe v s).events.flags.getLsbD 11 = true ↔ s.events.flags.getLsbD 11 = true ∨ ∃ n, Lost s v.gone n) := by
  have lost := ranksGone_loses v.gone s
  unfold commitServe
  rw [ranksGone_comm]
  generalize ranksGone v.gone s = t at lost ⊢
  have checked := recordChecks_checked v.checks
    { t with device := v.device, mem := { t.mem with present := v.present, corrected := v.corrected } }
  have checks := recordChecks_checks v.checks (s := s)
    (t := { t with device := v.device, mem := { t.mem with present := v.present, corrected := v.corrected } })
    lost.checks lost.fresh
  generalize recordChecks v.checks
    { t with device := v.device, mem := { t.mem with present := v.present, corrected := v.corrected } } = u
    at checked checks ⊢
  have line (n : Line) : lineOf u n = lineOf t n := congrArg (·[n]) checked.lines
  refine ⟨checked.device, by rw [checked.mem], by rw [checked.mem], checks, fun n => ⟨fun h => ?_, fun h => ?_, ?_, ?_⟩, ?_⟩
  · rw [line, lost.gone n h]
  · rw [line, lost.kept n h]
  · rw [checked.mem]
    exact lost.clearing n
  · rw [checked.faulted]
    exact lost.faulted n
  · rw [checked.flag]
    exact lost.flag

end Sys2Proof.Machine
end

section
/-! SUPPORT. The reads of a processed frame where every PRESENT rank answers: what the feeds and the taps give goes by the
state as the frame's processing began (R8, R38, R39, R42). -/

namespace Sys2Proof.Machine

/-- The memory is served as a state has it: its devices and its ranks, none lost. -/
structure ServedAs (s : State) (v : Serve) : Prop where
  device : v.device = s.device
  present : v.present = s.mem.present
  gone : v.gone = []

/-- What a word shows as a sample: 0 where it is uncorrectable (R15, R16). -/
def wordValue (w : MemWord) : Int :=
  match checkWord w with
  | .sound x => x.toInt
  | .corrected x _ => x.toInt
  | .uncorrectable => 0

theorem readAt_eq (s : State) (n : Line) (delay : Nat) :
    let l := lineOf s n
    let a := wordAt l ((l.position + 1024 * l.length - delay) % (1024 * l.length))
    readAt s n delay =
      if l.state = .running ∧ 1 ≤ delay ∧ delay < 1024 * l.length ∧ s.mem.present[rankOfWord a] = true then
        wordValue (s.device.shows a)
      else 0 := rfl

section

variable {s : State} {v : Serve}

theorem servedAs_begin (s : State) (seq : Seq) : ServedAs s (Serve.begin_ s seq) := ⟨rfl, rfl, rfl⟩

variable (answering : Answering s)
include answering

theorem readWord_answering (h : ServedAs s v) (n : Line) (a : Nat) :
    (v.readWord n a).1 = (if s.mem.present[rankOfWord a] = true then wordValue (s.device.shows a) else 0) ∧
      ServedAs s (v.readWord n a).2 := by
  obtain ⟨device, present, gone⟩ := h
  by_cases here : s.mem.present[rankOfWord a] = true
  · have answered := access_answered (v := v) (a := a) (by rw [present]; exact here) (some n)
      (by rw [device]; exact answering _ here)
    have value : wordValue (s.device.shows a) = wordValue (v.device.shows a) := by rw [device]
    rw [readWord_answered answered, if_pos here, value]
    unfold wordValue
    cases checkWord (v.device.shows a) with
    | sound x => exact ⟨rfl, device, present, gone⟩
    | corrected x b => exact ⟨rfl, device, present, gone⟩
    | uncorrectable => exact ⟨rfl, device, present, gone⟩
  · have absent : v.present[rankOfWord a] = false := by
      rw [present]
      exact Bool.eq_false_iff.mpr here
    rw [readWord_unanswered (access_absent _ absent), if_neg here]
    exact ⟨rfl, device, present, gone⟩

theorem readLine_answering (h : ServedAs s v) (n : Line) (delay : Nat) :
    (v.readLine s.lines n delay).1 = readAt s n delay ∧ ServedAs s (v.readLine s.lines n delay).2 := by
  rw [readLine_eq, readAt_eq]
  by_cases inside : s.lines[n].state = .running ∧ 1 ≤ delay ∧ delay < 1024 * s.lines[n].length
  · obtain ⟨running, least, most⟩ := inside
    obtain ⟨value, served⟩ := readWord_answering answering h n
      (wordAt s.lines[n] ((s.lines[n].position + 1024 * s.lines[n].length - delay) % (1024 * s.lines[n].length)))
    rw [if_pos ⟨running, least, most⟩]
    refine ⟨value.trans (if_congr ?_ rfl rfl), served⟩
    exact ⟨fun present => ⟨running, least, most, present⟩, fun ⟨_, _, _, present⟩ => present⟩
  · rw [if_neg inside, if_neg fun ⟨running, least, most, _⟩ => inside ⟨running, least, most⟩]
    exact ⟨rfl, h⟩

/-! ### The feeds -/

theorem feedSum_answering (inputs : Vector Int 24) (ts : List Term) (h : ServedAs s v) :
    (feedSum s.lines inputs ts v).1 = (ts.map (termValue s inputs)).sum ∧
      ServedAs s (feedSum s.lines inputs ts v).2 := by
  induction ts generalizing v with
  | nil => exact ⟨rfl, h⟩
  | cons t ts ih =>
    cases t with
    | input c g =>
      obtain ⟨sum, served⟩ := ih h
      exact ⟨congrArg (inputs[c] * g.toInt + ·) sum, served⟩
    | line n d g =>
      obtain ⟨value, read⟩ := readLine_answering answering h n d
      obtain ⟨sum, served⟩ := ih read
      exact ⟨congrArg₂ (fun x y => x * g.toInt + y) value sum, served⟩

theorem feeds_answering (inputs : Vector Int 24) (ns : List Line) (h : ServedAs s v) :
    (feeds s.lines inputs ns v).1 =
        (ns.filter fun n => (lineOf s n).state == .running || (lineOf s n).state == .faulted).map
          (fun n => (n, feedSample (lineOf s n) ((lineOf s n).feed.map (termValue s inputs)).sum)) ∧
      ServedAs s (feeds s.lines inputs ns v).2 := by
  induction ns generalizing v with
  | nil => exact ⟨rfl, h⟩
  | cons n ns ih =>
    by_cases on : (s.lines[n]).feeds = true
    · have kept : ((lineOf s n).state == .running || (lineOf s n).state == .faulted) = true := on
      obtain ⟨sum, read⟩ := feedSum_answering answering inputs s.lines[n].feed h
      obtain ⟨rest, served⟩ := ih read
      have heard : feeds s.lines inputs (n :: ns) v =
          ((n, feedSample s.lines[n] (feedSum s.lines inputs s.lines[n].feed v).1) ::
              (feeds s.lines inputs ns (feedSum s.lines inputs s.lines[n].feed v).2).1,
            (feeds s.lines inputs ns (feedSum s.lines inputs s.lines[n].feed v).2).2) := if_pos on
      rw [heard, List.filter_cons, if_pos kept, List.map_cons, rest, sum]
      exact ⟨rfl, served⟩
    · have left : ¬((lineOf s n).state == .running || (lineOf s n).state == .faulted) = true := on
      have silent : feeds s.lines inputs (n :: ns) v = feeds s.lines inputs ns v := if_neg on
      rw [silent, List.filter_cons, if_neg left]
      exact ih h

/-! ### The taps -/

theorem tapSample_answering (t : Tap) (phase : Nat) (h : ServedAs s v) :
    (tapSample s.lines t phase v).1 = tapValue s t phase ∧ ServedAs s (tapSample s.lines t phase v).2 := by
  obtain ⟨near, read⟩ := readLine_answering answering h t.line (tapDelay t phase).1
  obtain ⟨far, served⟩ := readLine_answering answering read t.line ((tapDelay t phase).1 + 1)
  unfold tapSample tapValue
  dsimp only
  by_cases whole : (tapDelay t phase).2 = 0
  · rw [if_pos whole, if_pos whole]
    exact ⟨near, read⟩
  · rw [if_neg whole, if_neg whole, near, far]
    exact ⟨rfl, served⟩

/-- The taps are read in list order, each at its own phase. -/
theorem tapProducts_answering (ts : List Tap) (phases : List Nat) (k : Nat) (h : ServedAs s v) :
    (tapProducts s.lines ts (phases.drop k) v).1 =
        (ts.zipIdx k).map (fun x => (x.1.output, tapValue s x.1 (phases.getD x.2 0) * x.1.gain.toInt)) ∧
      ServedAs s (tapProducts s.lines ts (phases.drop k) v).2 := by
  induction ts generalizing k v with
  | nil => exact ⟨rfl, h⟩
  | cons t ts ih =>
    have phase : (phases.drop k).headD 0 = phases.getD k 0 := by
      rw [List.headD_eq_head?_getD, List.head?_drop, List.getD_eq_getElem?_getD]
    obtain ⟨value, read⟩ := tapSample_answering answering t (phases.getD k 0) h
    obtain ⟨rest, served⟩ := ih (k + 1) read
    unfold tapProducts
    dsimp only
    rw [phase, List.tail_drop, List.zipIdx_cons, List.map_cons, rest, value]
    exact ⟨rfl, served⟩

theorem products_answering (b : BankSlot) (h : ServedAs s v) :
    (b.products s.lines v).1 = tapsHeard s b ∧ ServedAs s (b.products s.lines v).2 := by
  unfold BankSlot.products tapsHeard
  by_cases active : b.role.active = true
  · rw [if_pos active, if_pos ((active_iff b.role).mp active)]
    exact tapProducts_answering answering b.bank.taps b.phases 0 h
  · rw [if_neg active, if_neg fun on => active ((active_iff b.role).mpr on)]
    exact ⟨rfl, h⟩

/-! ### The frame -/

/-- Every read of a frame, on the state as its processing began. -/
theorem frameReads_answering (inputs : Vector Int 24) (seq : Seq) :
    (frameReads s inputs seq).feeds =
        ((List.finRange 64).filter fun n => (lineOf s n).state == .running || (lineOf s n).state == .faulted).map
          (fun n => (n, feedSample (lineOf s n) ((lineOf s n).feed.map (termValue s inputs)).sum)) ∧
      (frameReads s inputs seq).productsA = tapsHeard s s.scenes.a ∧
      (frameReads s inputs seq).productsB = tapsHeard s s.scenes.b ∧ ServedAs s (frameReads s inputs seq).served := by
  obtain ⟨fed, lines⟩ := feeds_answering answering inputs allLines (servedAs_begin s seq)
  obtain ⟨a, bankA⟩ := products_answering answering s.scenes.a lines
  obtain ⟨b, bankB⟩ := products_answering answering s.scenes.b bankA
  exact ⟨fed, a, b, bankB⟩

end

theorem engineResult_running {s : State} (h : engineRuns s.node.state = true) (inputs : Vector Int 24) (seq : Seq) :
    let r := frameReads s inputs seq
    let x := engineResult seq inputs s
    x.faultDue = r.served.faulted ∧ (∀ c : Output, x.outputs[c] = toSample (frameOutput s r c)) ∧
      x.sample =
        (match s.capture.setUp.source with
          | .input i => BitVec.ofInt 24 inputs[i]
          | .line n => ((r.feeds.find? fun f => decide (f.1 = n)).map (·.2)).getD 0
          | .output c => toSample (frameOutput s r c)) := by
  have result : engineResult seq inputs s = engineOut s inputs (frameReads s inputs seq) := if_pos h
  dsimp only
  rw [result]
  refine ⟨rfl, fun c => Vector.getElem_ofFn c.isLt, ?_⟩
  show sourceSample s inputs (frameReads s inputs seq) = _
  unfold sourceSample
  cases s.capture.setUp.source with
  | input i => rfl
  | line n => rfl
  | output c => rfl

/-- Settles O52, item by item: a word read, a line read, what was served put back, the reads of a frame, and what befalls the
devices. -/
theorem framesReadTheDelayMemory : Obligations.FramesReadTheDelayMemory := by
  refine ⟨readWord_eq, readLine_eq, commitServe_eq, fun s inputs seq answering => ?_,
    fun s inputs seq runs => engineResult_running runs inputs seq,
    fun d a mask r life words defects => ⟨upset_eq d a mask words, defect_eq d a mask defects, rfl⟩⟩
  obtain ⟨fed, a, b, served⟩ := frameReads_answering answering inputs seq
  exact ⟨fed, a, b, served.device, served.present, served.gone⟩

end Sys2Proof.Machine
end

section
/-! SUPPORT. Writing the delay memory where every PRESENT rank answers: a row of writes, and what each word reads as after
it (R2, R4, R8, R11). -/

namespace Sys2Proof.Machine

/-! ### Rows of writes -/

/-- A row of words written, each at its address, but for those in ABSENT ranks. -/
def storeAll (present : Vector Bool 4) (ws : List (Nat × MemWord)) (m : Memory) : Memory :=
  ws.foldl (fun m w => if present[rankOfWord w.1] = true then m.write w.1 w.2 else m) m

section

variable {present : Vector Bool 4} {m : Memory}

theorem storeAll_nil : storeAll present [] m = m := rfl

theorem storeAll_cons (w : Nat × MemWord) (ws : List (Nat × MemWord)) :
    storeAll present (w :: ws) m =
      storeAll present ws (if present[rankOfWord w.1] = true then m.write w.1 w.2 else m) := rfl

theorem write_if_wf (w : Nat × MemWord) (h : Memory.wf m = true) :
    Memory.wf (if present[rankOfWord w.1] = true then m.write w.1 w.2 else m) = true := by
  split
  · exact Memory.write_wf _ _ h
  · exact h

theorem storeAll_wf (ws : List (Nat × MemWord)) (h : Memory.wf m = true) : Memory.wf (storeAll present ws m) = true := by
  induction ws generalizing m with
  | nil => exact h
  | cons w ws ih => exact ih (write_if_wf w h)

/-- A word that no write of a PRESENT rank names stays. -/
theorem read_storeAll_other {ws : List (Nat × MemWord)} {a : Nat} (h : Memory.wf m = true)
    (other : present[rankOfWord a] = true → ∀ w ∈ ws, a ≠ w.1) : (storeAll present ws m).read a = m.read a := by
  induction ws generalizing m with
  | nil => rfl
  | cons w ws ih =>
    rw [storeAll_cons, ih (write_if_wf w h) fun here u hu => other here u (List.mem_cons_of_mem w hu)]
    split
    · next here =>
      have elsewhere : a ≠ w.1 := fun e => other (e ▸ here) w List.mem_cons_self e
      rw [Memory.read_write _ _ _ h, if_neg elsewhere]
    · rfl

/-- A word of a PRESENT rank that a row writes once holds what was written. -/
theorem read_storeAll_written {ws : List (Nat × MemWord)} {w : Nat × MemWord} (h : Memory.wf m = true)
    (once : (ws.map Prod.fst).Nodup) (written : w ∈ ws) (here : present[rankOfWord w.1] = true) :
    (storeAll present ws m).read w.1 = w.2 := by
  induction ws generalizing m with
  | nil => exact nomatch written
  | cons u us ih =>
    rw [List.map_cons, List.nodup_cons] at once
    obtain ⟨new, rest⟩ := once
    rw [storeAll_cons]
    obtain rfl | later := List.mem_cons.mp written
    · rw [read_storeAll_other (write_if_wf w h) fun _ u hu e => new (List.mem_map.mpr ⟨u, hu, e.symm⟩), if_pos here,
        Memory.read_write _ _ _ h, if_pos rfl]
    · exact ih (write_if_wf u h) rest later

end

/-! ### Serving a row of writes -/

/-- Every PRESENT rank answers while the memory is served. -/
def Serve.Alive (v : Serve) : Prop := ∀ r : Rank, v.present[r] = true → v.device.life[r] = none

/-- The serving with the stored words changed. -/
def Serve.withWords (v : Serve) (m : Memory) : Serve := { v with device := { v.device with words := m } }

theorem ServedAs.alive {s : State} {v : Serve} (h : ServedAs s v) (answering : Answering s) : v.Alive := fun r present => by
  rw [h.device]
  exact answering r (h.present ▸ present)

theorem writeWord_answered {v : Serve} {a : Nat} (here : v.present[rankOfWord a] = true)
    (life : v.device.life[rankOfWord a] = none) (line : Option Line) (w : MemWord) :
    v.writeWord line a w = v.withWords (storeAll v.present [(a, w)] v.device.words) := by
  unfold Serve.writeWord
  dsimp only
  rw [access_answered here line life, storeAll_cons, if_pos here]
  rfl

theorem writeWord_absent {v : Serve} {a : Nat} (absent : v.present[rankOfWord a] = false) (line : Option Line)
    (w : MemWord) : v.writeWord line a w = v := by
  unfold Serve.writeWord
  dsimp only
  rw [access_absent line absent]
  rfl

theorem writeWord_alive {v : Serve} (h : v.Alive) (line : Option Line) (a : Nat) (w : MemWord) :
    v.writeWord line a w = v.withWords (storeAll v.present [(a, w)] v.device.words) := by
  by_cases here : v.present[rankOfWord a] = true
  · exact writeWord_answered here (h _ here) line w
  · rw [writeWord_absent (Bool.eq_false_iff.mpr here), storeAll_cons, if_neg here]
    rfl

/-- Serving operations each of which is a row of writes, one after the other. -/
theorem foldWrites_alive {α : Type} {step : Serve → α → Serve} {row : α → List (Nat × MemWord)}
    (h : ∀ v a, v.Alive → step v a = v.withWords (storeAll v.present (row a) v.device.words)) (l : List α) {v : Serve}
    (alive : v.Alive) : l.foldl step v = v.withWords (storeAll v.present (l.flatMap row) v.device.words) := by
  induction l generalizing v with
  | nil => rfl
  | cons a l ih =>
    have alive' : (v.withWords (storeAll v.present (row a) v.device.words)).Alive := alive
    rw [List.foldl_cons, h v a alive, ih alive', List.flatMap_cons]
    exact congrArg v.withWords List.foldl_append.symm

/-! ### The feed writes -/

/-- The write of a feed sample: none where the write position lies outside the window (R8; log 34). -/
def feedRow (lines : Vector LineRec 64) (w : Line × Sample) : List (Nat × MemWord) :=
  if (lines[w.1]).position < 1024 * (lines[w.1]).length then
    [(wordAt lines[w.1] (lines[w.1]).position, encodeWord w.2)]
  else []

theorem writeFeeds_alive (lines : Vector LineRec 64) (ws : List (Line × Sample)) {v : Serve} (h : v.Alive) :
    writeFeeds lines ws v = v.withWords (storeAll v.present (ws.flatMap (feedRow lines)) v.device.words) := by
  refine foldWrites_alive (fun v w alive => ?_) ws h
  unfold writeFeed feedRow
  rw [samples_eq, address_eq]
  split
  · exact writeWord_alive alive _ _ _
  · rfl

theorem mem_feedRow {lines : Vector LineRec 64} {w : Line × Sample} {x : Nat × MemWord} :
    x ∈ feedRow lines w ↔
      (lines[w.1]).position < 1024 * (lines[w.1]).length ∧
        x = (wordAt lines[w.1] (lines[w.1]).position, encodeWord w.2) := by
  unfold feedRow
  split
  · next inside => rw [List.mem_singleton, and_iff_right inside]
  · next outside => exact iff_of_false List.not_mem_nil fun h => outside h.1

/-! ### The clearing writes -/

/-- The writes of one frame's clearing (R11). -/
def clearingRow (l : LineRec) (zeroed : Nat) : List (Nat × MemWord) :=
  (List.range (min 64 (1024 * l.length - zeroed))).map fun i => (wordAt l (zeroed + i), encodeWord 0)

theorem clearingWrites_alive (l : LineRec) (n : Line) (zeroed : Nat) {v : Serve} (h : v.Alive) :
    clearingWrites l n zeroed v = v.withWords (storeAll v.present (clearingRow l zeroed) v.device.words) := by
  have rows : clearingRow l zeroed =
      (List.range (min 64 (1024 * l.length - zeroed))).flatMap fun i => [(wordAt l (zeroed + i), encodeWord 0)] := by
    unfold clearingRow
    rw [List.map_eq_flatMap]
  unfold clearingWrites
  rw [rows, samples_eq]
  refine foldWrites_alive (fun v i alive => ?_) _ h
  rw [address_eq]
  exact writeWord_alive alive _ _ _

theorem mem_clearingRow {l : LineRec} {zeroed : Nat} {x : Nat × MemWord} :
    x ∈ clearingRow l zeroed ↔
      ∃ p, zeroed ≤ p ∧ p < zeroed + 64 ∧ p < 1024 * l.length ∧ x = (wordAt l p, encodeWord 0) := by
  unfold clearingRow
  rw [List.mem_map]
  constructor
  · rintro ⟨i, hi, rfl⟩
    have within := List.mem_range.mp hi
    exact ⟨zeroed + i, by omega, by omega, by omega, rfl⟩
  · rintro ⟨p, least, most, inside, rfl⟩
    exact ⟨p - zeroed, List.mem_range.mpr (by omega), by rw [Nat.add_sub_cancel' least]⟩

theorem clearingRow_once (l : LineRec) (zeroed : Nat) : ((clearingRow l zeroed).map Prod.fst).Nodup := by
  unfold clearingRow
  rw [List.map_map]
  refine List.nodup_range.map fun i j e => ?_
  have same : 1024 * l.base + (zeroed + i) = 1024 * l.base + (zeroed + j) := e
  omega

end Sys2Proof.Machine
end

section
/-! SUPPORT. A processed frame where every PRESENT rank answers: the row of words it writes, and the line records after it
(R8, R11). -/

namespace Sys2Proof.Machine

/-! ### What the frame's processing leaves -/

theorem commitServe_unlost {v : Serve} (h : v.gone = []) (s : State) :
    (commitServe v s).device = v.device ∧ (commitServe v s).lines = s.lines ∧
      (commitServe v s).mem = { s.mem with present := v.present, corrected := v.corrected } := by
  unfold commitServe
  rw [h]
  have checked := recordChecks_checked v.checks
    { s with device := v.device, mem := { s.mem with present := v.present, corrected := v.corrected } }
  exact ⟨checked.device, checked.lines, checked.mem⟩

/-- The writes of the clearing in a processed frame: the head line's, unless its window is zeroed whole (R11). -/
def clearedRow (s : State) : List (Nat × MemWord) :=
  match s.mem.clearing with
  | n :: _ => clearingRow (lineOf s n) s.mem.zeroed
  | [] => []

/-- All the words that a processed frame writes: the feeds, then the clearing. -/
def frameRow (s : State) (fed : List (Line × Sample)) : List (Nat × MemWord) :=
  fed.flatMap (feedRow s.lines) ++ clearedRow s

theorem mem_clearedRow {s : State} {x : Nat × MemWord} :
    x ∈ clearedRow s ↔ ∃ n rest, s.mem.clearing = n :: rest ∧ x ∈ clearingRow (lineOf s n) s.mem.zeroed := by
  unfold clearedRow
  split
  · next n rest head =>
    refine ⟨fun h => ⟨n, rest, head, h⟩, fun ⟨m, tail, other, h⟩ => ?_⟩
    obtain ⟨rfl, -⟩ := List.cons.inj (head.symm.trans other)
    exact h
  · next empty =>
    refine iff_of_false List.not_mem_nil fun ⟨n, rest, head, _⟩ => ?_
    exact nomatch empty.symm.trans head

theorem mem_frameRow {s : State} {fed : List (Line × Sample)} {x : Nat × MemWord} :
    x ∈ frameRow s fed ↔ (∃ w ∈ fed, x ∈ feedRow s.lines w) ∨ x ∈ clearedRow s := by
  unfold frameRow
  rw [List.mem_append, List.mem_flatMap]

/-- What a processed frame makes of the devices, the clearing and the line records (R8, R11). -/
structure Processed (b : State) (fed : List (Line × Sample)) (e : State) : Prop where
  device : e.device = { b.device with words := storeAll b.mem.present (frameRow b fed) b.device.words }
  present : e.mem.present = b.mem.present
  lines : e.lines = linesFed b.lines fed
  clearing : e.mem.clearing = b.mem.clearing
  counts : ∀ n rest, b.mem.clearing = n :: rest → b.mem.zeroed < 1024 * (lineOf b n).length →
    e.mem.zeroed = b.mem.zeroed + 64
  rests : (∀ n rest, b.mem.clearing = n :: rest → 1024 * (lineOf b n).length ≤ b.mem.zeroed) →
    e.mem.zeroed = b.mem.zeroed

theorem clearingRow_done {l : LineRec} {zeroed : Nat} (h : 1024 * l.length ≤ zeroed) : clearingRow l zeroed = [] := by
  unfold clearingRow
  rw [Nat.sub_eq_zero_of_le h]
  rfl

/-- The clearing of the head line, from the state that the reads and the feed writes leave. -/
theorem clearingStep_head {u : State} {n : Line} {rest : List Line} (seq : Seq) (answering : Answering u)
    (clearing : u.mem.clearing = n :: rest) (more : u.mem.zeroed < 1024 * (lineOf u n).length) :
    let e := clearingStep (some n) seq u
    e.device = { u.device with words := storeAll u.mem.present (clearingRow (lineOf u n) u.mem.zeroed) u.device.words } ∧
      e.lines = u.lines ∧ e.mem = { u.mem with zeroed := u.mem.zeroed + 64 } := by
  have alive := (servedAs_begin u seq).alive answering
  have writes := clearingWrites_alive (lineOf u n) n u.mem.zeroed alive
  have step : clearingStep (some n) seq u =
      commitServe (clearingWrites (lineOf u n) n u.mem.zeroed (Serve.begin_ u seq))
        { u with mem := { u.mem with zeroed := u.mem.zeroed + 64 } } := by
    unfold clearingStep
    rw [clearing]
    exact if_pos ⟨rfl, by rw [samples_eq]; exact more⟩
  dsimp only
  rw [step, writes]
  exact commitServe_unlost rfl _

theorem clearingStep_done {u : State} {head : Option Line} (seq : Seq)
    (h : ∀ n rest, u.mem.clearing = n :: rest → 1024 * (lineOf u n).length ≤ u.mem.zeroed) :
    clearingStep head seq u = u := by
  unfold clearingStep
  split
  · next n rest clearing =>
    refine if_neg fun ⟨_, more⟩ => ?_
    rw [samples_eq] at more
    exact absurd (h n rest clearing) (Nat.not_le.mpr more)
  · rfl

/-! ### The line records -/

theorem linesFed_cons (lines : Vector LineRec 64) (w : Line × Sample) (ws : List (Line × Sample)) :
    linesFed lines (w :: ws) = linesFed (update lines w.1 (LineRec.fed w.2)) ws := rfl

theorem linesFed_other {lines : Vector LineRec 64} {ws : List (Line × Sample)} {n : Line}
    (h : ∀ x, (n, x) ∉ ws) : (linesFed lines ws)[n] = lines[n] := by
  induction ws generalizing lines with
  | nil => rfl
  | cons w ws ih =>
    have other : w.1 ≠ n := fun e => h w.2 (by rw [← e]; exact List.mem_cons_self)
    rw [linesFed_cons, ih fun x hx => h x (List.mem_cons_of_mem w hx)]
    exact Vector.getElem_set_ne w.1.isLt n.isLt fun e => other (Fin.ext e)

theorem linesFed_named {lines : Vector LineRec 64} {ws : List (Line × Sample)} {n : Line} {x : Sample}
    (once : ws.Pairwise fun v w => v.1 ≠ w.1) (h : (n, x) ∈ ws) : (linesFed lines ws)[n] = LineRec.fed x lines[n] := by
  induction ws generalizing lines with
  | nil => exact nomatch h
  | cons w ws ih =>
    obtain ⟨first, rest⟩ := List.pairwise_cons.mp once
    rw [linesFed_cons]
    obtain rfl | later := List.mem_cons.mp h
    · rw [linesFed_other fun y hy => first (n, y) hy rfl]
      exact Vector.getElem_set_self n.isLt
    · rw [ih rest later]
      exact congrArg (LineRec.fed x) (Vector.getElem_set_ne w.1.isLt n.isLt fun e => first _ later (Fin.ext e))

/-- What the feeds leave of a line's window. -/
theorem linesFed_window (lines : Vector LineRec 64) (ws : List (Line × Sample)) (n : Line) :
    ((linesFed lines ws)[n]).base = (lines[n]).base ∧ ((linesFed lines ws)[n]).length = (lines[n]).length := by
  induction ws generalizing lines with
  | nil => exact ⟨rfl, rfl⟩
  | cons w ws ih =>
    obtain ⟨base, length⟩ := ih (update lines w.1 (LineRec.fed w.2))
    rw [linesFed_cons, base, length]
    by_cases here : w.1 = n
    · subst here
      have fed : (update lines w.1 (LineRec.fed w.2))[w.1] = LineRec.fed w.2 lines[w.1] := Vector.getElem_set_self w.1.isLt
      rw [fed]
      exact ⟨rfl, rfl⟩
    · have same : (update lines w.1 (LineRec.fed w.2))[n] = lines[n] :=
        Vector.getElem_set_ne w.1.isLt n.isLt fun e => here (Fin.ext e)
      rw [same]
      exact ⟨rfl, rfl⟩

/-! ### The frame -/

theorem clearingRow_window {l k : LineRec} (base : k.base = l.base) (length : k.length = l.length) (zeroed : Nat) :
    clearingRow k zeroed = clearingRow l zeroed := by
  unfold clearingRow wordAt
  rw [base, length]

theorem storeAll_append {present : Vector Bool 4} (xs ys : List (Nat × MemWord)) (m : Memory) :
    storeAll present ys (storeAll present xs m) = storeAll present (xs ++ ys) m := List.foldl_append.symm

theorem engineStep_processed {b : State} (runs : engineRuns b.node.state = true) (answering : Answering b) (seq : Seq)
    (inputs : Vector Int 24) : Processed b (frameReads b inputs seq).feeds (engineStep seq inputs b) := by
  obtain ⟨-, -, -, served⟩ := frameReads_answering answering inputs seq
  have written := writeFeeds_alive b.lines (frameReads b inputs seq).feeds (served.alive answering)
  have step : engineStep seq inputs b = afterReads b seq (frameReads b inputs seq) := if_pos runs
  rw [step]
  unfold afterReads
  generalize frameReads b inputs seq = r at *
  obtain ⟨device, lines, mem⟩ := commitServe_unlost (v := writeFeeds b.lines r.feeds r.served)
    (by rw [written]; exact served.gone)
    { b with
      lines := linesFed b.lines r.feeds
      scenes := b.scenes.advance
      guard := if countsForGuard b then guardMeasured b r else b.guard }
  generalize commitServe (writeFeeds b.lines r.feeds r.served)
    { b with
      lines := linesFed b.lines r.feeds
      scenes := b.scenes.advance
      guard := if countsForGuard b then guardMeasured b r else b.guard } = u at *
  have stored : u.device =
      { b.device with words := storeAll b.mem.present (r.feeds.flatMap (feedRow b.lines)) b.device.words } := by
    rw [device, written, served.present]
    unfold Serve.withWords
    rw [served.device]
  have present : u.mem.present = b.mem.present := by rw [mem, written]; exact served.present
  have clearing : u.mem.clearing = b.mem.clearing := by rw [mem]
  have zeroed : u.mem.zeroed = b.mem.zeroed := by rw [mem]
  have window (n : Line) : (lineOf u n).base = (lineOf b n).base ∧ (lineOf u n).length = (lineOf b n).length := by
    unfold lineOf
    rw [lines]
    exact linesFed_window b.lines r.feeds n
  by_cases due : ∃ n rest, b.mem.clearing = n :: rest ∧ b.mem.zeroed < 1024 * (lineOf b n).length
  · obtain ⟨n, rest, head, more⟩ := due
    obtain ⟨base, length⟩ := window n
    have alive : Answering u := fun k there => by
      rw [stored]
      exact answering k (present ▸ there)
    obtain ⟨device', lines', mem'⟩ := clearingStep_head seq alive (clearing.trans head) (by rw [zeroed, length]; exact more)
    rw [head, List.head?_cons]
    have row : clearedRow b = clearingRow (lineOf b n) b.mem.zeroed := by
      unfold clearedRow
      rw [head]
    refine ⟨?_, ?_, lines'.trans lines, ?_, fun _ _ _ _ => ?_, fun whole => absurd (whole n rest head) (Nat.not_le.mpr more)⟩
    · rw [device', stored, present, zeroed, clearingRow_window base length]
      unfold frameRow
      rw [← storeAll_append, row]
    · rw [mem']
      exact present
    · rw [mem']
      exact clearing
    · rw [mem']
      exact congrArg (· + 64) zeroed
  · have whole (n : Line) (rest : List Line) (head : b.mem.clearing = n :: rest) :
        1024 * (lineOf b n).length ≤ b.mem.zeroed := Nat.not_lt.mp fun more => due ⟨n, rest, head, more⟩
    have done : clearingStep b.mem.clearing.head? seq u = u := clearingStep_done seq fun n rest head => by
      rw [(window n).2, zeroed]
      exact whole n rest (clearing.symm.trans head)
    have row : clearedRow b = [] := by
      unfold clearedRow
      split
      · next n rest head => exact clearingRow_done (whole n rest head)
      · rfl
    rw [done]
    refine ⟨?_, present, lines, clearing, fun n rest head more => absurd ⟨n, rest, head, more⟩ due, fun _ => zeroed⟩
    rw [stored]
    unfold frameRow
    rw [row, List.append_nil]

end Sys2Proof.Machine
end

section
/-! SUPPORT. The words of a processed frame under the law of placement: no two of its writes meet (R6, R8, R11). -/

namespace Sys2Proof.Machine

/-! ### Windows apart -/

theorem wordAt_block (l : LineRec) (p : Nat) : wordAt l p / 1024 = l.base + p / 1024 := by
  unfold wordAt
  omega

theorem wordAt_covers {l : LineRec} {p : Nat} (h : p < 1024 * l.length) : l.covers (wordAt l p / 1024) = true := by
  unfold LineRec.covers
  rw [wordAt_block, Bool.and_eq_true, decide_eq_true_iff, decide_eq_true_iff]
  omega

theorem rankOfWord_eq (a : Nat) : rankOfWord a = rankOfBlock (a / 1024) := by
  show Fin.ofNat 4 (a / 4194304) = Fin.ofNat 4 (a / 1024 / 4096)
  rw [Nat.div_div_eq_div_mul]

section

variable {b : State}

theorem words_apart (apart : ApartLaw b) {m n : Line} (other : m ≠ n) (onM : (lineOf b m).state ≠ .off)
    (onN : (lineOf b n).state ≠ .off) {p q : Nat} (insideM : p < 1024 * (lineOf b m).length)
    (insideN : q < 1024 * (lineOf b n).length) : wordAt (lineOf b m) p ≠ wordAt (lineOf b n) q := fun e =>
  apart m n other onM onN (wordAt (lineOf b m) p / 1024)
    ⟨wordAt_covers insideM, by rw [e]; exact wordAt_covers insideN⟩

/-- The word of a line that waits for its clearing lies in a PRESENT rank (R6). -/
theorem cleared_present (placement : PlacementLaw b) {n : Line} (listed : n ∈ b.mem.clearing) {p : Nat}
    (inside : p < 1024 * (lineOf b n).length) : b.mem.present[rankOfWord (wordAt (lineOf b n) p)] = true := by
  obtain ⟨clearing, -, -, -, sound⟩ := placement
  obtain ⟨-, present⟩ := sound n (Or.inl ((clearing.2 n).mp listed)) _ (wordAt_covers inside)
  simpa only [rankOfWord_eq] using present

/-! ### The lines fed -/

/-- The feeds of a frame: of lines RUNNING or FAULTED, each once. -/
structure FedOnce (b : State) (fed : List (Line × Sample)) : Prop where
  on : ∀ w ∈ fed, (lineOf b w.1).state = .running ∨ (lineOf b w.1).state = .faulted
  once : fed.Pairwise fun v w => v.1 ≠ w.1

theorem frameReads_fedOnce (answering : Answering b) (inputs : Vector Int 24) (seq : Seq) :
    FedOnce b (frameReads b inputs seq).feeds := by
  obtain ⟨fed, -, -, -⟩ := frameReads_answering answering inputs seq
  rw [fed]
  refine ⟨fun w hw => ?_, ?_⟩
  · obtain ⟨n, hn, rfl⟩ := List.mem_map.mp hw
    have on := (List.mem_filter.mp hn).2
    rwa [Bool.or_eq_true, beq_iff_eq, beq_iff_eq] at on
  · exact List.pairwise_map.mpr ((List.nodup_finRange 64).filter _)

variable {fed : List (Line × Sample)} (h : FedOnce b fed)
include h

theorem FedOnce.notOff {w : Line × Sample} (hw : w ∈ fed) : (lineOf b w.1).state ≠ .off := by
  obtain state | state := h.on w hw
  · rw [state]
    exact nofun
  · rw [state]
    exact nofun

/-- A line in CLEARING is not fed. -/
theorem FedOnce.notClearing (placement : PlacementLaw b) {w : Line × Sample} (hw : w ∈ fed) {n : Line}
    (listed : n ∈ b.mem.clearing) : w.1 ≠ n := fun e => by
  have clearing := (placement.1.2 n).mp listed
  obtain state | state := h.on w hw
  · rw [e, clearing] at state
    exact nomatch state
  · rw [e, clearing] at state
    exact nomatch state

/-! ### The row of a frame -/

theorem feedRows_once (apart : ApartLaw b) : ((fed.flatMap (feedRow b.lines)).map Prod.fst).Nodup := by
  rw [List.map_flatMap, List.nodup_flatMap]
  refine ⟨fun w _ => ?_, h.once.imp_of_mem fun {v w} hv hw other => ?_⟩
  · unfold feedRow
    split
    · exact List.nodup_singleton _
    · exact List.nodup_nil
  · refine List.disjoint_left.mpr fun a ha ha' => ?_
    obtain ⟨x, hx, rfl⟩ := List.mem_map.mp ha
    obtain ⟨y, hy, e⟩ := List.mem_map.mp ha'
    obtain ⟨insideX, rfl⟩ := mem_feedRow.mp hx
    obtain ⟨insideY, rfl⟩ := mem_feedRow.mp hy
    exact words_apart apart other (h.notOff hv) (h.notOff hw) insideX insideY e.symm

theorem frameRow_once (placement : PlacementLaw b) : ((frameRow b fed).map Prod.fst).Nodup := by
  obtain ⟨clearing, -, -, apart, -⟩ := id placement
  unfold frameRow
  rw [List.map_append, List.nodup_append']
  refine ⟨feedRows_once h apart, ?_, List.disjoint_left.mpr fun a ha ha' => ?_⟩
  · unfold clearedRow
    split
    · exact clearingRow_once _ _
    · exact List.nodup_nil
  · obtain ⟨x, hx, rfl⟩ := List.mem_map.mp ha
    obtain ⟨y, hy, e⟩ := List.mem_map.mp ha'
    obtain ⟨w, hw, hx⟩ := List.mem_flatMap.mp hx
    obtain ⟨insideX, rfl⟩ := mem_feedRow.mp hx
    obtain ⟨n, rest, head, hy⟩ := mem_clearedRow.mp hy
    obtain ⟨p, -, -, insideY, rfl⟩ := mem_clearingRow.mp hy
    have listed : n ∈ b.mem.clearing := by rw [head]; exact List.mem_cons_self
    have on : (lineOf b n).state ≠ .off := by
      rw [(clearing.2 n).mp listed]
      exact nofun
    exact words_apart apart (h.notClearing placement hw listed) (h.notOff hw) on insideX insideY e.symm

end

/-- What a processed frame writes, where every PRESENT rank answers (R8, R11). -/
theorem processedFrame_writes {b : State} (seq : Seq) (inputs : Vector Int 24) (runs : engineRuns b.node.state = true)
    (answering : Answering b) (memory : MemoryLaw b) (placement : PlacementLaw b) :
    let e := engineStep seq inputs b
    let fed := (frameReads b inputs seq).feeds
    let there (a : Nat) : Prop := b.mem.present[(Fin.ofNat 4 (a / 4194304) : Rank)] = true
    e.device.life = b.device.life ∧ e.device.defects = b.device.defects ∧ e.mem.present = b.mem.present ∧
      (∀ a : Nat,
        (there a →
          (∀ (n : Line) (x : Sample), (n, x) ∈ fed → a ≠ wordAt (lineOf b n) (lineOf b n).position) ∧
            ∀ (n : Line) (rest : List Line) (p : Nat), b.mem.clearing = n :: rest → b.mem.zeroed ≤ p →
              p < b.mem.zeroed + 64 → p < 1024 * (lineOf b n).length → a ≠ wordAt (lineOf b n) p) →
        e.device.words.read a = b.device.words.read a) ∧
      (∀ (n : Line) (x : Sample), (n, x) ∈ fed →
        let l := lineOf b n
        lineOf e n =
            { l with damped := x, position := if l.position + 1 < 1024 * l.length then l.position + 1 else 0 } ∧
          (l.position < 1024 * l.length → there (wordAt l l.position) →
            e.device.words.read (wordAt l l.position) = encodeWord x)) ∧
      (∀ n : Line, (∀ x, (n, x) ∉ fed) → lineOf e n = lineOf b n) ∧
      (∀ (n : Line) (rest : List Line), b.mem.clearing = n :: rest → b.mem.zeroed < 1024 * (lineOf b n).length →
        e.mem.zeroed = b.mem.zeroed + 64 ∧ e.mem.clearing = b.mem.clearing ∧
          ∀ p : Nat, b.mem.zeroed ≤ p → p < b.mem.zeroed + 64 → p < 1024 * (lineOf b n).length →
            e.device.words.read (wordAt (lineOf b n) p) = encodeWord 0) ∧
      ((∀ (n : Line) (rest : List Line), b.mem.clearing = n :: rest → 1024 * (lineOf b n).length ≤ b.mem.zeroed) →
        e.mem.zeroed = b.mem.zeroed ∧ e.mem.clearing = b.mem.clearing) := by
  have processed := engineStep_processed runs answering seq inputs
  have fedOnce := frameReads_fedOnce answering inputs seq
  have once := frameRow_once fedOnce placement
  obtain ⟨wf, -⟩ := memory
  dsimp only
  generalize engineStep seq inputs b = e at processed ⊢
  generalize (frameReads b inputs seq).feeds = fed at processed fedOnce once ⊢
  have words : e.device.words = storeAll b.mem.present (frameRow b fed) b.device.words := by rw [processed.device]
  refine ⟨by rw [processed.device], by rw [processed.device], processed.present, fun a other => ?_, fun n x hx => ⟨?_, ?_⟩,
    fun n hn => ?_,
    fun n rest head more => ⟨processed.counts n rest head more, processed.clearing, fun p least most inside => ?_⟩,
    fun whole => ⟨processed.rests whole, processed.clearing⟩⟩
  · rw [words]
    refine read_storeAll_other wf fun here w hw e => ?_
    obtain ⟨feeds, clears⟩ := other here
    obtain ⟨⟨n, x⟩, hx, hw⟩ | hw := mem_frameRow.mp hw
    · obtain ⟨-, rfl⟩ := mem_feedRow.mp hw
      exact feeds n x hx e
    · obtain ⟨n, rest, head, hw⟩ := mem_clearedRow.mp hw
      obtain ⟨p, least, most, inside, rfl⟩ := mem_clearingRow.mp hw
      exact clears n rest p head least most inside e
  · unfold lineOf
    rw [processed.lines, linesFed_named fedOnce.once hx, ← samples_eq]
    rfl
  · intro inside here
    have written : (wordAt (lineOf b n) (lineOf b n).position, encodeWord x) ∈ frameRow b fed :=
      mem_frameRow.mpr (Or.inl ⟨(n, x), hx, mem_feedRow.mpr ⟨inside, rfl⟩⟩)
    rw [words]
    exact read_storeAll_written wf once written here
  · unfold lineOf
    rw [processed.lines, linesFed_other hn]
  · have listed : n ∈ b.mem.clearing := by rw [head]; exact List.mem_cons_self
    have written : (wordAt (lineOf b n) p, encodeWord 0) ∈ frameRow b fed :=
      mem_frameRow.mpr (Or.inr (mem_clearedRow.mpr ⟨n, rest, head, mem_clearingRow.mpr ⟨p, least, most, inside, rfl⟩⟩))
    rw [words]
    exact read_storeAll_written wf once written (cleared_present placement listed inside)

end Sys2Proof.Machine
end

section
/-! SUPPORT. A frame of the sweep: the words it writes and reads back, the rank that fails in it, and where the sweep goes on
(R4, R19 to R22). -/

namespace Sys2Proof.Machine

/-! ### The words of the block under test -/

/-- A word of the block under test in a frame of the sweep (R21; log 42). -/
def testedWord (frame block i : Nat) : Nat := 1024 * block + 64 * (frame % 16) + i

theorem sweepWord_eq (frame block i : Nat) (at_ : Serve × Bool) :
    sweepWord frame block i at_ =
      let a := testedWord frame block i
      let w := at_.1.writeWord none a (sweepPattern frame)
      let r := w.access a none
      if r.1 then (r.2, at_.2 || r.2.device.shows a != sweepPattern frame) else (r.2, at_.2) := by
  have place : block * Config.wordsPerBlock + frame % 16 * 64 + i = testedWord frame block i := by
    show block * 1024 + frame % 16 * 64 + i = 1024 * block + 64 * (frame % 16) + i
    omega
  unfold sweepWord
  rw [place]

theorem sweepPattern_eq (frame : Nat) : sweepPattern frame = encodeWord (if frame < 16 then 0xFFFFFF else 0) := by
  unfold sweepPattern
  rw [apply_ite encodeWord]

theorem testedWord_rank {frame block i : Nat} {r : Rank} (inRank : block / 4096 = r.val) (h : i < 64) :
    rankOfWord (testedWord frame block i) = r := by
  refine Fin.ext ?_
  show (1024 * block + 64 * (frame % 16) + i) / 4194304 % 4 = r.val
  omega

theorem testedWord_block {frame block i : Nat} (h : i < 64) : blockOfWord (testedWord frame block i) = block := by
  show (1024 * block + 64 * (frame % 16) + i) / 1024 = block
  omega

/-! ### A rank that answers -/

/-- The words of a frame of the sweep. -/
def testedRow (frame block : Nat) (l : List Nat) : List (Nat × MemWord) :=
  l.map fun i => (testedWord frame block i, sweepPattern frame)

theorem xor_eq_self_iff (x d : MemWord) : x ^^^ d = x ↔ d = 0 := by
  have same := BitVec.xor_right_inj (x := d) (y := 0#31) x
  rwa [BitVec.xor_zero] at same

section

variable {v : Serve} {frame block : Nat}

/-- One word of an answering rank, written and read back: it fails where it has failing cells. -/
theorem sweepWord_answered {i : Nat} {r : Rank} (rank : rankOfWord (testedWord frame block i) = r)
    (here : v.present[r] = true) (life : v.device.life[r] = none) (wf : Memory.wf v.device.words = true)
    (failed : Bool) :
    sweepWord frame block i (v, failed) =
      (v.withWords (storeAll v.present [(testedWord frame block i, sweepPattern frame)] v.device.words),
        failed || decide (v.device.defects.read (testedWord frame block i) ≠ 0)) := by
  subst rank
  have stored := read_storeAll_written (present := v.present) wf
    (ws := [(testedWord frame block i, sweepPattern frame)]) (List.nodup_singleton _) List.mem_cons_self here
  rw [sweepWord_eq]
  dsimp only
  rw [writeWord_answered here life]
  generalize storeAll v.present [(testedWord frame block i, sweepPattern frame)] v.device.words = words at *
  have answered := access_answered (v := v.withWords words) here none life
  have shows_ : (v.withWords words).device.shows (testedWord frame block i) =
      sweepPattern frame ^^^ v.device.defects.read (testedWord frame block i) :=
    congrArg (· ^^^ v.device.defects.read (testedWord frame block i)) stored
  have shown : ((v.withWords words).device.shows (testedWord frame block i) != sweepPattern frame) =
      decide (v.device.defects.read (testedWord frame block i) ≠ 0) := by
    rw [shows_, Bool.eq_iff_iff, bne_iff_ne, decide_eq_true_iff]
    exact not_congr (xor_eq_self_iff _ _)
  rw [answered]
  dsimp only
  rw [shown]
  rfl

theorem foldSweep_answered {l : List Nat} {r : Rank} (inRank : block / 4096 = r.val) (below : ∀ i ∈ l, i < 64)
    (here : v.present[r] = true) (life : v.device.life[r] = none) (wf : Memory.wf v.device.words = true)
    (failed : Bool) :
    l.foldl (fun at_ i => sweepWord frame block i at_) (v, failed) =
      (v.withWords (storeAll v.present (testedRow frame block l) v.device.words),
        failed || l.any fun i => decide (v.device.defects.read (testedWord frame block i) ≠ 0)) := by
  induction l generalizing v failed with
  | nil => exact Prod.ext rfl (Bool.or_false failed).symm
  | cons i l ih =>
    have later : ∀ j ∈ l, j < 64 := fun j hj => below j (List.mem_cons_of_mem i hj)
    rw [List.foldl_cons, sweepWord_answered (testedWord_rank inRank (below i List.mem_cons_self)) here life wf failed,
      ih (v := v.withWords (storeAll v.present [(testedWord frame block i, sweepPattern frame)] v.device.words)) later here
        life (storeAll_wf _ wf), List.any_cons, ← Bool.or_assoc]
    rfl

/-- The words of a frame of the sweep in a rank that answers. -/
theorem sweepWords_answered {r : Rank} (inRank : block / 4096 = r.val) (here : v.present[r] = true)
    (life : v.device.life[r] = none) (wf : Memory.wf v.device.words = true) :
    sweepWords frame block v =
      (v.withWords (storeAll v.present (testedRow frame block (List.range 64)) v.device.words),
        (List.range 64).any fun i => decide (v.device.defects.read (testedWord frame block i) ≠ 0)) :=
  foldSweep_answered inRank (fun _ => List.mem_range.mp) here life wf false

theorem testedRow_once (frame block : Nat) : ((testedRow frame block (List.range 64)).map Prod.fst).Nodup := by
  unfold testedRow
  rw [List.map_map]
  refine List.nodup_range.map fun i j e => ?_
  have same : 1024 * block + 64 * (frame % 16) + i = 1024 * block + 64 * (frame % 16) + j := e
  omega

theorem mem_testedRow {frame block : Nat} {x : Nat × MemWord} :
    x ∈ testedRow frame block (List.range 64) ↔ ∃ i < 64, x = (testedWord frame block i, sweepPattern frame) := by
  unfold testedRow
  simp only [List.mem_map, List.mem_range, eq_comm]

/-! ### A rank that fails -/

theorem sweepWord_absent {i : Nat} (failed : Bool)
    (absent : v.present[rankOfWord (testedWord frame block i)] = false) :
    sweepWord frame block i (v, failed) = (v, failed) := by
  rw [sweepWord_eq]
  dsimp only
  rw [writeWord_absent absent, access_absent none absent]
  rfl

theorem foldSweep_absent {l : List Nat} (failed : Bool)
    (absent : ∀ i ∈ l, v.present[rankOfWord (testedWord frame block i)] = false) :
    l.foldl (fun at_ i => sweepWord frame block i at_) (v, failed) = (v, failed) := by
  induction l with
  | nil => rfl
  | cons i l ih =>
    rw [List.foldl_cons, sweepWord_absent failed (absent i List.mem_cons_self)]
    exact ih fun j hj => absent j (List.mem_cons_of_mem i hj)

theorem rankFails_absent (v : Serve) (r : Rank) (b : Nat) (line : Option Line) :
    (v.rankFails r b line).present[r] = false := Vector.getElem_set_self r.isLt

theorem sweepWord_fails {i : Nat} {r : Rank} (rank : rankOfWord (testedWord frame block i) = r)
    (here : v.present[r] = true) (dead : v.device.life[r] = some 0) :
    sweepWord frame block i (v, false) = (v.rankFails r (blockOfWord (testedWord frame block i)) none, false) := by
  subst rank
  have failed := access_fails here none dead
  have written : v.writeWord none (testedWord frame block i) (sweepPattern frame) =
      v.rankFails (rankOfWord (testedWord frame block i)) (blockOfWord (testedWord frame block i)) none := by
    unfold Serve.writeWord
    dsimp only
    rw [failed]
    rfl
  have denied := access_absent
    (v := v.rankFails (rankOfWord (testedWord frame block i)) (blockOfWord (testedWord frame block i)) none) none
    (rankFails_absent _ _ _ _)
  rw [sweepWord_eq]
  dsimp only
  rw [written, denied]
  rfl

theorem sweepWords_fails {r : Rank} (inRank : block / 4096 = r.val) (here : v.present[r] = true)
    (dead : v.device.life[r] = some 0) : sweepWords frame block v = (v.rankFails r block none, false) := by
  have first := sweepWord_fails (frame := frame) (testedWord_rank inRank (by decide : 0 < 64)) here dead
  have words : List.range 64 = 0 :: (List.range 63).map Nat.succ := List.range_succ_eq_map
  rw [testedWord_block (by decide)] at first
  unfold sweepWords
  rw [words, List.foldl_cons, first]
  refine foldSweep_absent false fun i hi => ?_
  obtain ⟨j, hj, rfl⟩ := List.mem_map.mp hi
  have rank : rankOfWord (testedWord frame block j.succ) = r :=
    testedWord_rank inRank (Nat.succ_lt_succ (List.mem_range.mp hj))
  simp only [rank]
  exact rankFails_absent v r block none

end

/-! ### Where the sweep goes on -/

/-- The next PRESENT rank above one, or none. -/
def Follows (present : Vector Bool 4) (r : Rank) : Option Rank → Prop
  | some q => r < q ∧ present[q] = true ∧ ∀ k : Rank, r < k → k < q → present[k] = false
  | none => ∀ k : Rank, r < k → present[k] = false

theorem rankAfter_none (m : MemCtl) : m.rankAfter = none ↔ Follows m.present m.sweep.rank none := by
  unfold MemCtl.rankAfter nextPresent Follows allRanks
  rw [List.find?_eq_none]
  refine ⟨fun h k above => ?_, fun h k _ there => ?_⟩
  · have none_ := h k (List.mem_finRange k)
    rw [Bool.and_eq_true, decide_eq_true_iff, not_and] at none_
    exact Bool.eq_false_iff.mpr (none_ above)
  · rw [Bool.and_eq_true, decide_eq_true_iff] at there
    obtain ⟨above, present⟩ := there
    rw [h k above] at present
    exact nomatch present

theorem rankAfter_follows {m : MemCtl} {next : Option Rank} (h : Follows m.present m.sweep.rank next) :
    m.rankAfter = next := by
  cases next with
  | none => exact (rankAfter_none m).mpr h
  | some q =>
    obtain ⟨above, present, between⟩ := h
    exact rankAfter_some above present between

theorem firstBlock_eq (r : Rank) : firstBlock r = 4096 * r.val := Nat.mul_comm _ _

theorem sweepOn_some {m : MemCtl} {q : Rank} (h : m.rankAfter = some q) :
    m.sweepOn =
      { m with
        sweep := { m.sweep with rank := q, block := 4096 * q.val }, sweepFrame := 0, sweepFailed := false } := by
  unfold MemCtl.sweepOn MemCtl.sweepTo
  rw [h, ← firstBlock_eq]

theorem sweepOn_none {m : MemCtl} (h : m.rankAfter = none) :
    m.sweepOn = { m with sweepFrame := 0, sweepFailed := false, sweepEnded := true } := by
  unfold MemCtl.sweepOn MemCtl.sweepTo
  rw [h]

end Sys2Proof.Machine
end

section
/-! SUPPORT. A frame of the sweep as a whole: its block tested, its rank lost, or no rank to test (R4, R19 to R22). -/

namespace Sys2Proof.Machine

/-! ### The sweep record after a block -/

theorem sweepOn_keeps (m : MemCtl) :
    m.sweepOn.badBlocks = m.badBlocks ∧ m.sweepOn.sweepFrame = 0 ∧ m.sweepOn.sweepFailed = false ∧
      m.sweepOn.sweep.outcome = m.sweep.outcome ∧ m.sweepOn.sweep.added = m.sweep.added ∧
      m.sweepOn.present = m.present := by
  unfold MemCtl.sweepOn MemCtl.sweepTo
  split
  · exact ⟨rfl, rfl, rfl, rfl, rfl, rfl⟩
  · exact ⟨rfl, rfl, rfl, rfl, rfl, rfl⟩

theorem blockTested_within {m : MemCtl} (h : m.sweep.block + 1 < 4096 * (m.sweep.rank.val + 1)) :
    m.blockTested =
      { m.markTested with
        sweep := { m.markTested.sweep with block := m.sweep.block + 1 }, sweepFrame := 0, sweepFailed := false } := by
  obtain ⟨-, -, block, rank⟩ := markTested_keeps m
  have within : m.markTested.sweep.block + 1 < firstBlock m.markTested.sweep.rank + Config.blocksPerRank := by
    show m.markTested.sweep.block + 1 < m.markTested.sweep.rank.val * 4096 + 4096
    rw [block, rank]
    omega
  unfold MemCtl.blockTested
  rw [← block]
  exact if_pos within

theorem blockTested_ends {m : MemCtl} (h : 4096 * (m.sweep.rank.val + 1) ≤ m.sweep.block + 1) :
    m.blockTested = m.markTested.sweepOn := by
  obtain ⟨-, -, block, rank⟩ := markTested_keeps m
  have ends : ¬m.markTested.sweep.block + 1 < firstBlock m.markTested.sweep.rank + Config.blocksPerRank := by
    show ¬m.markTested.sweep.block + 1 < m.markTested.sweep.rank.val * 4096 + 4096
    rw [block, rank]
    omega
  exact if_neg ends

/-- What the end of a block's second pass makes of the map and the record, whichever block comes next (R19, R21). -/
theorem blockTested_eq (m : MemCtl) :
    (∀ k : Nat, k ∈ m.blockTested.badBlocks ↔ k ∈ m.badBlocks ∨ (m.sweepFailed = true ∧ k = m.sweep.block)) ∧
      m.blockTested.sweepFrame = 0 ∧ m.blockTested.sweepFailed = false ∧
      m.blockTested.sweep.outcome = m.sweep.outcome ∧
      m.blockTested.sweep.added =
        (if m.sweepFailed = true ∧ m.sweep.block ∉ m.badBlocks then m.sweep.added + 1 else m.sweep.added) ∧
      m.blockTested.present = m.present := by
  have marked := markTested_badBlocks m
  have record := markTested_sweep m
  obtain ⟨-, present, -, -⟩ := markTested_keeps m
  by_cases within : m.sweep.block + 1 < 4096 * (m.sweep.rank.val + 1)
  · rw [blockTested_within within]
    exact ⟨marked, rfl, rfl, by rw [record], by rw [record], present⟩
  · obtain ⟨bad, frame, failed, outcome, added, ranks⟩ := sweepOn_keeps m.markTested
    rw [blockTested_ends (Nat.not_lt.mp within)]
    exact ⟨fun k => by rw [bad]; exact marked k, frame, failed, by rw [outcome, record], by rw [added, record],
      ranks.trans present⟩

theorem markTested_rankAfter (m : MemCtl) : m.markTested.rankAfter = m.rankAfter := by
  obtain ⟨-, present, -, rank⟩ := markTested_keeps m
  unfold MemCtl.rankAfter
  rw [present, rank]

/-! ### The three kinds of frame -/

theorem commitServe_quiet {v : Serve} (gone : v.gone = []) (checks : v.checks = []) (s : State) :
    commitServe v s =
      { s with device := v.device, mem := { s.mem with present := v.present, corrected := v.corrected } } := by
  unfold commitServe
  rw [gone, checks]
  rfl

theorem makeFaulted_badBlocks (ns : List Line) (s : State) : (makeFaulted ns s).mem.badBlocks = s.mem.badBlocks := by
  unfold makeFaulted
  rw [raiseFault_mem]
  rfl

theorem ranksGone_badBlocks (rs : List Rank) (s : State) : (ranksGone rs s).mem.badBlocks = s.mem.badBlocks := by
  induction rs generalizing s with
  | nil => rfl
  | cons r rs ih => exact (ih _).trans (makeFaulted_badBlocks _ s)

theorem commitServe_badBlocks (v : Serve) (s : State) : (commitServe v s).mem.badBlocks = s.mem.badBlocks := by
  unfold commitServe
  rw [ranksGone_comm, (recordChecks_checked _ _).mem]
  exact ranksGone_badBlocks _ _

/-- The rank under test fails: it is ABSENT, with its check, and the block is not marked (R4, R21). -/
structure RankLost (b e : State) (seq : Seq) : Prop where
  words : e.device.words = b.device.words
  present : e.mem.present = b.mem.present.set b.mem.sweep.rank false
  sweep : e.mem.sweep = b.mem.sweep
  badBlocks : e.mem.badBlocks = b.mem.badBlocks
  frame : e.mem.sweepFrame = 0
  failed : e.mem.sweepFailed = false
  ended : e.mem.sweepEnded = true ↔ Follows e.mem.present b.mem.sweep.rank none
  checks : e.checks =
    (recordCheck b
      { kind := .absent, rank := b.mem.sweep.rank, block := b.mem.sweep.block, line := none, bit := none, seq }).checks

section

variable {b : State} (sweep : b.node.state = .sweep) (goesOn : b.mem.sweepEnded = false)
include sweep goesOn

theorem engineStep_sweep (seq : Seq) (inputs : Vector Int 24) :
    engineStep seq inputs b =
      if b.mem.present[b.mem.sweep.rank] = true then
        overMem (MemCtl.sweepResult (sweepServed seq b).2) (commitServe (sweepServed seq b).1 b)
      else overMem MemCtl.sweepOn b := by
  have idle : ¬engineRuns b.node.state = true := by
    rw [sweep]
    exact nofun
  have more : ¬b.mem.sweepEnded = true := by
    rw [goesOn]
    exact nofun
  have swept : engineStep seq inputs b = sweepStep seq b := (if_neg idle).trans (if_pos sweep)
  rw [swept]
  exact if_neg more

/-- A word of the block under test has failing cells in a frame of the sweep (R21). -/
def failsInFrame (b : State) : Bool :=
  (List.range 64).any fun i =>
    decide (b.device.defects.read (testedWord b.mem.sweepFrame b.mem.sweep.block i) ≠ 0)

omit sweep goesOn in
theorem failsInFrame_iff (b : State) :
    failsInFrame b = true ↔
      ∃ i < 64, b.device.defects.read (testedWord b.mem.sweepFrame b.mem.sweep.block i) ≠ 0 := by
  unfold failsInFrame
  simp only [List.any_eq_true, List.mem_range, decide_eq_true_iff]

variable (inRank : b.mem.sweep.block / 4096 = b.mem.sweep.rank.val)
include inRank

/-- The rank under test answers: 64 words written, and one frame of the block done. -/
theorem engineStep_tested (wf : Memory.wf b.device.words = true) (present : b.mem.present[b.mem.sweep.rank] = true)
    (life : b.device.life[b.mem.sweep.rank] = none) (seq : Seq) (inputs : Vector Int 24) :
    engineStep seq inputs b =
      { b with
        device :=
          { b.device with
            words :=
              storeAll b.mem.present (testedRow b.mem.sweepFrame b.mem.sweep.block (List.range 64)) b.device.words }
        mem := b.mem.frameTested (failsInFrame b) } := by
  have served := sweepWords_answered (v := Serve.begin_ b seq) (frame := b.mem.sweepFrame) inRank present life wf
  rw [engineStep_sweep sweep goesOn, if_pos present]
  unfold sweepServed
  rw [served, commitServe_quiet rfl rfl]
  have result : b.mem.sweepResult (failsInFrame b) = b.mem.frameTested (failsInFrame b) := if_pos present
  rw [← result]
  rfl

theorem engineStep_rankLost (present : b.mem.present[b.mem.sweep.rank] = true)
    (dead : b.device.life[b.mem.sweep.rank] = some 0) (seq : Seq) (inputs : Vector Int 24) :
    RankLost b (engineStep seq inputs b) seq := by
  have served := sweepWords_fails (v := Serve.begin_ b seq) (frame := b.mem.sweepFrame) inRank present dead
  rw [engineStep_sweep sweep goesOn, if_pos present]
  unfold sweepServed
  rw [served]
  obtain ⟨device, ranks, -, checks, -, -⟩ :=
    commitServe_eq ((Serve.begin_ b seq).rankFails b.mem.sweep.rank b.mem.sweep.block none) b
  obtain ⟨-, record, -⟩ :=
    commitServe_keeps ((Serve.begin_ b seq).rankFails b.mem.sweep.rank b.mem.sweep.block none) b
  have marks := commitServe_badBlocks ((Serve.begin_ b seq).rankFails b.mem.sweep.rank b.mem.sweep.block none) b
  generalize commitServe ((Serve.begin_ b seq).rankFails b.mem.sweep.rank b.mem.sweep.block none) b = u at *
  have absent : u.mem.present[u.mem.sweep.rank] = false := by
    simp only [ranks, record]
    exact rankFails_absent _ _ _ _
  have lost : u.mem.sweepResult false = u.mem.rankLost := if_neg (by rw [absent]; exact nofun)
  have mem : (overMem (MemCtl.sweepResult false) u).mem = u.mem.rankLost := lost
  refine ⟨congrArg Device.words device, ?_, ?_, ?_, ?_, ?_, ?_, checks⟩
  · rw [mem]
    exact ranks
  · rw [mem]
    exact record
  · rw [mem]
    exact marks
  · rw [mem]
    rfl
  · rw [mem]
    rfl
  · rw [mem, ← record]
    show u.mem.rankAfter.isNone = true ↔ _
    rw [Option.isNone_iff_eq_none]
    exact rankAfter_none u.mem

omit inRank in
/-- The record's rank is not PRESENT: nothing is tested (R20, R22). -/
theorem engineStep_untested (absent : b.mem.present[b.mem.sweep.rank] = false) (seq : Seq) (inputs : Vector Int 24) :
    engineStep seq inputs b = { b with mem := b.mem.sweepOn } := by
  rw [engineStep_sweep sweep goesOn]
  exact if_neg (by rw [absent]; exact nofun)

end

end Sys2Proof.Machine
end

section
/-! SUPPORT. A frame of the sweep in the terms of the statement about the delay memory's writes (R19 to R22). -/

namespace Sys2Proof.Machine

/-- The end of a block's second pass, and where the sweep goes on, the ranks given as a later state has them (R19, R21). -/
theorem blockTested_goesOn {m : MemCtl} {next : Option Rank} (present : Vector Bool 4) (same : present = m.present)
    (ends : 4096 * (m.sweep.rank.val + 1) ≤ m.sweep.block + 1) (follows : Follows present m.sweep.rank next) :
    match next with
    | some q => m.blockTested.sweep.rank = q ∧ m.blockTested.sweep.block = 4096 * q.val ∧
        m.blockTested.sweepEnded = m.sweepEnded
    | none => m.blockTested.sweep.rank = m.sweep.rank ∧ m.blockTested.sweep.block = m.sweep.block ∧
        m.blockTested.sweepEnded = true := by
  subst same
  have after : m.markTested.rankAfter = next := (markTested_rankAfter m).trans (rankAfter_follows follows)
  obtain ⟨-, -, block, rank⟩ := markTested_keeps m
  rw [blockTested_ends ends]
  cases next with
  | none =>
    rw [sweepOn_none after]
    exact ⟨rank, block, rfl⟩
  | some q =>
    rw [sweepOn_some after, markTested_rest]
    exact ⟨rfl, rfl, rfl⟩

theorem blockTested_stays {m : MemCtl} (within : m.sweep.block + 1 < 4096 * (m.sweep.rank.val + 1)) :
    m.blockTested.sweep.rank = m.sweep.rank ∧ m.blockTested.sweep.block = m.sweep.block + 1 ∧
      m.blockTested.sweepEnded = m.sweepEnded := by
  obtain ⟨-, -, -, rank⟩ := markTested_keeps m
  rw [blockTested_within within, markTested_rest]
  exact ⟨rank, rfl, rfl⟩

/-- A frame of the sweep: the block under test, the rank that fails, the rank that is not PRESENT (R4, R19 to R22). -/
theorem sweepFrame_writes (b : State) (seq : Seq) (inputs : Vector Int 24) (sweep : b.node.state = .sweep)
    (memory : MemoryLaw b) :
    let m := b.mem
    let r := m.sweep.rank
    let e := engineStep seq inputs b
    m.sweep.block / 4096 = r.val → m.sweepEnded = false → m.sweepFrame ≤ 31 →
    let written : MemWord := encodeWord (if m.sweepFrame < 16 then 0xFFFFFF else 0)
    let place (i : Nat) : Nat := 1024 * m.sweep.block + 64 * (m.sweepFrame % 16) + i
    let follows (next : Option Rank) : Prop :=
      match next with
      | some q => r < q ∧ e.mem.present[q] = true ∧ ∀ k : Rank, r < k → k < q → e.mem.present[k] = false
      | none => ∀ k : Rank, r < k → e.mem.present[k] = false
    (m.present[r] = true → b.device.life[r] = none →
      ∃ failed : Bool,
        (failed = true ↔ m.sweepFailed = true ∨ ∃ i < 64, b.device.defects.read (place i) ≠ 0) ∧
          (∀ i < 64, e.device.words.read (place i) = written) ∧
          (∀ a : Nat, (∀ i < 64, a ≠ place i) → e.device.words.read a = b.device.words.read a) ∧
          e.mem.present = m.present ∧ e.checks = b.checks ∧
          (m.sweepFrame < 31 →
            e.mem = { m with sweepFrame := m.sweepFrame + 1, sweepFailed := failed }) ∧
          (m.sweepFrame = 31 →
            (∀ k : Nat, k ∈ e.mem.badBlocks ↔ k ∈ m.badBlocks ∨ (failed = true ∧ k = m.sweep.block)) ∧
              e.mem.sweepFrame = 0 ∧ e.mem.sweepFailed = false ∧ e.mem.sweep.outcome = m.sweep.outcome ∧
              e.mem.sweep.added =
                (if failed = true ∧ m.sweep.block ∉ m.badBlocks then m.sweep.added + 1 else m.sweep.added) ∧
              (m.sweep.block + 1 < 4096 * (r.val + 1) →
                e.mem.sweep.rank = r ∧ e.mem.sweep.block = m.sweep.block + 1 ∧ e.mem.sweepEnded = false) ∧
              (4096 * (r.val + 1) ≤ m.sweep.block + 1 → ∀ next : Option Rank, follows next →
                match next with
                | some q => e.mem.sweep.rank = q ∧ e.mem.sweep.block = 4096 * q.val ∧ e.mem.sweepEnded = false
                | none => e.mem.sweep.rank = r ∧ e.mem.sweep.block = m.sweep.block ∧ e.mem.sweepEnded = true))) ∧
    (m.present[r] = true → b.device.life[r] = some 0 →
      e.device.words = b.device.words ∧ e.mem.present = m.present.set r false ∧ e.mem.sweep = m.sweep ∧
        e.mem.badBlocks = m.badBlocks ∧
        e.mem.sweepFrame = 0 ∧ e.mem.sweepFailed = false ∧ (e.mem.sweepEnded = true ↔ follows none) ∧
        e.checks =
          (recordCheck b { kind := .absent, rank := r, block := m.sweep.block, line := none, bit := none, seq }).checks) ∧
    (m.present[r] = false → ∀ next : Option Rank, follows next →
      e =
        { b with
          mem :=
            match next with
            | some q =>
              { m with
                sweep := { m.sweep with rank := q, block := 4096 * q.val }, sweepFrame := 0, sweepFailed := false }
            | none => { m with sweepFrame := 0, sweepFailed := false, sweepEnded := true } }) := by
  obtain ⟨wf, -⟩ := memory
  intro m r e inRank goesOn _ written place follows
  have follows_iff (next : Option Rank) : follows next ↔ Follows e.mem.present r next := by
    cases next with
    | none => exact Iff.rfl
    | some q => exact Iff.rfl
  refine ⟨fun present life => ?_, fun present dead => ?_, fun absent next h => ?_⟩
  · have step : e = _ := engineStep_tested sweep goesOn inRank wf present life seq inputs
    have words : e.device.words =
        storeAll m.present (testedRow m.sweepFrame m.sweep.block (List.range 64)) b.device.words := by rw [step]
    have pattern : written = sweepPattern m.sweepFrame := (sweepPattern_eq _).symm
    have mem : e.mem = m.frameTested (failsInFrame b) := by rw [step]
    refine ⟨m.sweepFailed || failsInFrame b, ?_, fun i hi => ?_, fun a other => ?_, ?_, by rw [step], fun more => ?_,
      fun last => ?_⟩
    · rw [Bool.or_eq_true, failsInFrame_iff] <;> rfl
    · rw [words, pattern]
      refine read_storeAll_written (w := (place i, sweepPattern m.sweepFrame)) wf (testedRow_once _ _)
        (mem_testedRow.mpr ⟨i, hi, rfl⟩) ?_
      have rank : rankOfWord (place i) = r := testedWord_rank inRank hi
      simpa only [rank] using present
    · rw [words]
      refine read_storeAll_other wf fun _ w hw => ?_
      obtain ⟨i, hi, rfl⟩ := mem_testedRow.mp hw
      exact other i hi
    · rw [mem]
      unfold MemCtl.frameTested
      split
      · obtain ⟨-, -, -, -, -, ranks⟩ := blockTested_eq { m with sweepFailed := m.sweepFailed || failsInFrame b }
        exact ranks
      · rfl
    · rw [mem]
      exact if_neg (Nat.ne_of_lt more)
    · have tested : e.mem = MemCtl.blockTested { m with sweepFailed := m.sweepFailed || failsInFrame b } :=
        mem.trans (if_pos last)
      obtain ⟨marks, frame, failed, outcome, added, ranks⟩ :=
        blockTested_eq { m with sweepFailed := m.sweepFailed || failsInFrame b }
      rw [tested]
      refine ⟨marks, frame, failed, outcome, added, fun within => ?_, fun ends next h => ?_⟩
      · obtain ⟨rank, block, ended⟩ :=
          blockTested_stays (m := { m with sweepFailed := m.sweepFailed || failsInFrame b }) within
        exact ⟨rank, block, ended.trans goesOn⟩
      · have after := (follows_iff next).mp h
        have goes := blockTested_goesOn (m := { m with sweepFailed := m.sweepFailed || failsInFrame b }) e.mem.present
          (by rw [tested]; exact ranks) ends after
        cases next with
        | none => exact goes
        | some q =>
          obtain ⟨rank, block, ended⟩ := goes
          exact ⟨rank, block, ended.trans goesOn⟩
  · have lost := engineStep_rankLost sweep goesOn inRank present dead seq inputs
    exact ⟨lost.words, lost.present, lost.sweep, lost.badBlocks, lost.frame, lost.failed,
      lost.ended.trans (follows_iff none).symm, lost.checks⟩
  · have step : e = { b with mem := m.sweepOn } := engineStep_untested sweep goesOn absent seq inputs
    have ranks : e.mem.present = m.present := by
      obtain ⟨-, -, -, -, -, same⟩ := sweepOn_keeps m
      rw [step]
      exact same
    have after : m.rankAfter = next := rankAfter_follows (ranks ▸ (follows_iff next).mp h)
    rw [step]
    cases next with
    | none => rw [sweepOn_none after]
    | some q => rw [sweepOn_some after]

end Sys2Proof.Machine
end

section
/-! SUPPORT. Words that a frame period leaves alone, whichever ranks answer: reads write nothing, and each write stays in its
window or in the block under test (R8, R11, R17, R21). -/

namespace Sys2Proof.Machine

/-! ### A write spares every other word -/

theorem Store.get_put_ne {α : Type} {a b : Nat} (other : b ≠ a) (l : List (Nat × α)) (x : Option α) :
    Store.get (Store.put l a x) b = Store.get l b := by
  have skip (k : List (Nat × α)) (w : α) : Store.get ((a, w) :: k) b = Store.get k b := if_neg other
  induction l with
  | nil =>
    cases x with
    | none => rfl
    | some w => exact skip [] w
  | cons c l ih =>
    obtain ⟨k, v⟩ := c
    unfold Store.put
    split
    · cases x with
      | none => rfl
      | some w => exact skip _ w
    · split
      · next here =>
        subst here
        cases x with
        | none => exact (skip l v).symm
        | some w => exact (skip l w).trans (skip l v).symm
      · show (if b = k then some v else Store.get (Store.put l a x) b) = if b = k then some v else Store.get l b
        rw [ih]

theorem Memory.read_write_ne {a b : Nat} (other : b ≠ a) (m : Memory) (w : MemWord) : (m.write a w).read b = m.read b := by
  unfold Memory.read Memory.write
  rw [Store.get_put_ne other]

/-! ### Reads write nothing -/

theorem access_words (v : Serve) (a : Nat) (line : Option Line) : (v.access a line).2.device.words = v.device.words := by
  unfold Serve.access
  dsimp only
  split
  · rfl
  · split
    · exact Device.access_words _ _
    · exact Device.access_words _ _

theorem readWord_words (v : Serve) (n : Line) (a : Nat) : (v.readWord n a).2.device.words = v.device.words := by
  have accessed := access_words v a (some n)
  unfold Serve.readWord
  dsimp only
  split
  · split
    · exact accessed
    · exact accessed
    · exact accessed
  · exact accessed

theorem readLine_words (lines : Vector LineRec 64) (v : Serve) (n : Line) (d : Nat) :
    (v.readLine lines n d).2.device.words = v.device.words := by
  unfold Serve.readLine
  dsimp only
  split
  · exact readWord_words _ _ _
  · rfl

theorem feedSum_words (lines : Vector LineRec 64) (inputs : Vector Int 24) (ts : List Term) (v : Serve) :
    (feedSum lines inputs ts v).2.device.words = v.device.words := by
  induction ts generalizing v with
  | nil => rfl
  | cons t ts ih =>
    cases t with
    | input c g => exact ih v
    | line n d g => exact (ih _).trans (readLine_words lines v n d)

theorem feeds_words (lines : Vector LineRec 64) (inputs : Vector Int 24) (ns : List Line) (v : Serve) :
    (feeds lines inputs ns v).2.device.words = v.device.words := by
  induction ns generalizing v with
  | nil => rfl
  | cons n ns ih =>
    unfold feeds
    split
    · exact (ih _).trans (feedSum_words lines inputs _ v)
    · exact ih v

theorem tapSample_words (lines : Vector LineRec 64) (t : Tap) (phase : Nat) (v : Serve) :
    (tapSample lines t phase v).2.device.words = v.device.words := by
  unfold tapSample
  dsimp only
  split
  · exact readLine_words _ _ _ _
  · exact (readLine_words _ _ _ _).trans (readLine_words _ _ _ _)

theorem tapProducts_words (lines : Vector LineRec 64) (ts : List Tap) (phases : List Nat) (v : Serve) :
    (tapProducts lines ts phases v).2.device.words = v.device.words := by
  induction ts generalizing phases v with
  | nil => rfl
  | cons t ts ih => exact (ih _ _).trans (tapSample_words lines t _ v)

theorem products_words (lines : Vector LineRec 64) (b : BankSlot) (v : Serve) :
    (b.products lines v).2.device.words = v.device.words := by
  unfold BankSlot.products
  split
  · exact tapProducts_words _ _ _ _
  · rfl

theorem frameReads_words (s : State) (inputs : Vector Int 24) (seq : Seq) :
    (frameReads s inputs seq).served.device.words = s.device.words :=
  (products_words _ _ _).trans ((products_words _ _ _).trans (feeds_words _ _ _ _))

theorem feeds_on {lines : Vector LineRec 64} {inputs : Vector Int 24} {ns : List Line} {v : Serve} {w : Line × Sample}
    (h : w ∈ (feeds lines inputs ns v).1) : (lines[w.1]).state ≠ .off := by
  induction ns generalizing v with
  | nil => exact nomatch h
  | cons n ns ih =>
    unfold feeds at h
    split at h
    · next on =>
      obtain rfl | later := List.mem_cons.mp h
      · intro off
        have silent : (lines[n]).feeds = false := by
          unfold LineRec.feeds
          rw [show (lines[n]).state = .off from off]
          rfl
        exact absurd on (by rw [silent]; exact nofun)
      · exact ih later
    · exact ih h

/-! ### What a row of writes spares -/

theorem writeWord_spares {a x : Nat} (other : a ≠ x) (v : Serve) (line : Option Line) (w : MemWord) :
    (v.writeWord line x w).device.words.read a = v.device.words.read a := by
  have accessed := congrArg (Memory.read · a) (access_words v x line)
  unfold Serve.writeWord
  dsimp only
  split
  · exact (Memory.read_write_ne other _ w).trans accessed
  · exact accessed

theorem foldServe_spares {α : Type} {step : Serve → α → Serve} {a : Nat} {l : List α}
    (h : ∀ v, ∀ x ∈ l, (step v x).device.words.read a = v.device.words.read a) (v : Serve) :
    (l.foldl step v).device.words.read a = v.device.words.read a := by
  induction l generalizing v with
  | nil => rfl
  | cons x l ih => exact (ih (fun v y hy => h v y (List.mem_cons_of_mem x hy)) _).trans (h v x List.mem_cons_self)

/-- A word outside a line's window. -/
def OutOfWindow (a : Nat) (l : LineRec) : Prop := a / 1024 < l.base ∨ l.base + l.length ≤ a / 1024

theorem OutOfWindow.ne {a p : Nat} {l : LineRec} (h : OutOfWindow a l) (inside : p < 1024 * l.length) : a ≠ wordAt l p := by
  unfold OutOfWindow at h
  unfold wordAt
  omega

theorem writeFeeds_spares {lines : Vector LineRec 64} {ws : List (Line × Sample)} {a : Nat}
    (h : ∀ w ∈ ws, OutOfWindow a lines[w.1]) (v : Serve) :
    (writeFeeds lines ws v).device.words.read a = v.device.words.read a := by
  refine foldServe_spares (fun v w hw => ?_) v
  unfold writeFeed
  rw [samples_eq, address_eq]
  split
  · next inside => exact writeWord_spares ((h w hw).ne inside) _ _ _
  · rfl

theorem clearingWrites_spares {l : LineRec} {a : Nat} (h : OutOfWindow a l) (n : Line) (zeroed : Nat) (v : Serve) :
    (clearingWrites l n zeroed v).device.words.read a = v.device.words.read a := by
  unfold clearingWrites
  rw [samples_eq]
  refine foldServe_spares (fun v i hi => ?_) v
  have within := List.mem_range.mp hi
  rw [address_eq]
  exact writeWord_spares (h.ne (by omega)) _ _ _

theorem sweepWord_spares {frame block i a : Nat} (other : a ≠ testedWord frame block i) (at_ : Serve × Bool) :
    (sweepWord frame block i at_).1.device.words.read a = at_.1.device.words.read a := by
  have written := writeWord_spares other at_.1 none (sweepPattern frame)
  have accessed := congrArg (Memory.read · a)
    (access_words (at_.1.writeWord none (testedWord frame block i) (sweepPattern frame)) (testedWord frame block i) none)
  rw [sweepWord_eq]
  dsimp only
  split
  · exact accessed.trans written
  · exact accessed.trans written

theorem foldSweep_spares {frame block a : Nat} (other : a / 1024 ≠ block) {l : List Nat} (below : ∀ i ∈ l, i < 64)
    (at_ : Serve × Bool) :
    (l.foldl (fun at_ i => sweepWord frame block i at_) at_).1.device.words.read a = at_.1.device.words.read a := by
  induction l generalizing at_ with
  | nil => rfl
  | cons i l ih =>
    have inBlock : blockOfWord (testedWord frame block i) = block := testedWord_block (below i List.mem_cons_self)
    have elsewhere : a ≠ testedWord frame block i := fun e => other (e ▸ inBlock)
    exact (ih (fun j hj => below j (List.mem_cons_of_mem i hj)) _).trans (sweepWord_spares elsewhere at_)

/-! ### What the engine spares -/

/-- A word outside the windows of lines that are not OFF or wait for clearing and, in SWEEP, outside the block under test. -/
structure Spared (a : Nat) (s : State) : Prop where
  windows : ∀ n : Line, (lineOf s n).state ≠ .off ∨ n ∈ s.mem.clearing → OutOfWindow a (lineOf s n)
  block : s.node.state = .sweep → a / 1024 ≠ s.mem.sweep.block

theorem clearingStep_spares {a : Nat} {u : State} (h : ∀ n ∈ u.mem.clearing, OutOfWindow a (lineOf u n)) (head : Option Line)
    (seq : Seq) : (clearingStep head seq u).device.words.read a = u.device.words.read a := by
  unfold clearingStep
  split
  · next n rest clearing =>
    split
    · have outside := h n (by rw [clearing]; exact List.mem_cons_self)
      obtain ⟨device, -⟩ := commitServe_eq (clearingWrites u.lines[n] n u.mem.zeroed (Serve.begin_ u seq))
        { u with mem := { u.mem with zeroed := u.mem.zeroed + 64 } }
      rw [device]
      exact clearingWrites_spares outside n _ _
    · rfl
  · rfl

/-- What was served put back leaves every window where it was. -/
theorem commitServe_window (v : Serve) (s : State) (n : Line) :
    (lineOf (commitServe v s) n).base = (lineOf s n).base ∧ (lineOf (commitServe v s) n).length = (lineOf s n).length := by
  obtain ⟨-, -, -, -, lines, -⟩ := commitServe_eq v s
  obtain ⟨gone, kept, -, -⟩ := lines n
  by_cases lost : Lost s v.gone n
  · rw [gone lost]
    exact ⟨rfl, rfl⟩
  · rw [kept lost]
    exact ⟨rfl, rfl⟩

theorem commitServe_words (v : Serve) (s : State) (a : Nat) :
    (commitServe v s).device.words.read a = v.device.words.read a := by
  obtain ⟨device, -⟩ := commitServe_eq v s
  rw [device]

theorem sweepServed_spares {a : Nat} {s : State} (other : a / 1024 ≠ s.mem.sweep.block) (seq : Seq) :
    (sweepServed seq s).1.device.words.read a = s.device.words.read a := by
  have below : ∀ i ∈ List.range 64, i < 64 := fun _ => List.mem_range.mp
  unfold sweepServed sweepWords
  rw [foldSweep_spares other below]
  rfl

theorem overMem_device (f : MemCtl → MemCtl) (s : State) : (overMem f s).device = s.device := rfl

theorem engineStep_spares {a : Nat} {s : State} (h : Spared a s) (seq : Seq) (inputs : Vector Int 24) :
    (engineStep seq inputs s).device.words.read a = s.device.words.read a := by
  by_cases runs : engineRuns s.node.state = true
  · have step : engineStep seq inputs s = afterReads s seq (frameReads s inputs seq) := if_pos runs
    have on : ∀ w ∈ (frameReads s inputs seq).feeds, OutOfWindow a s.lines[w.1] := fun w hw =>
      h.windows w.1 (Or.inl (feeds_on hw))
    have reads_ := frameReads_words s inputs seq
    rw [step]
    unfold afterReads
    generalize frameReads s inputs seq = r at *
    refine (clearingStep_spares (fun n hn => ?_) _ seq).trans ?_
    · obtain ⟨-, -, -, -, lines, -⟩ := commitServe_eq (writeFeeds s.lines r.feeds r.served)
        { s with
          lines := linesFed s.lines r.feeds
          scenes := s.scenes.advance
          guard := if countsForGuard s then guardMeasured s r else s.guard }
      obtain ⟨-, -, clearing, -⟩ := lines n
      obtain ⟨base, length⟩ := commitServe_window (writeFeeds s.lines r.feeds r.served)
        { s with
          lines := linesFed s.lines r.feeds
          scenes := s.scenes.advance
          guard := if countsForGuard s then guardMeasured s r else s.guard } n
      obtain ⟨fedBase, fedLength⟩ := linesFed_window s.lines r.feeds n
      obtain ⟨listed, -⟩ := clearing.mp hn
      have outside := h.windows n (Or.inr listed)
      unfold OutOfWindow at outside ⊢
      rw [base, length]
      unfold lineOf at outside ⊢
      rw [fedBase, fedLength]
      exact outside
    · obtain ⟨device, -⟩ := commitServe_eq (writeFeeds s.lines r.feeds r.served)
        { s with
          lines := linesFed s.lines r.feeds
          scenes := s.scenes.advance
          guard := if countsForGuard s then guardMeasured s r else s.guard }
      rw [device, writeFeeds_spares on, reads_]
  · by_cases sweep : s.node.state = .sweep
    · have step : engineStep seq inputs s = sweepStep seq s := (if_neg runs).trans (if_pos sweep)
      rw [step]
      unfold sweepStep
      split
      · rfl
      · split
        · rw [overMem_device, commitServe_words, sweepServed_spares (h.block sweep)]
        · rfl
    · have step : engineStep seq inputs s = s := (if_neg runs).trans (if_neg sweep)
      rw [step]

end Sys2Proof.Machine
end

section
/-! O51. What the frame periods write in the delay memory: nowhere but in the windows and in the block under test; in a
processed frame; in a frame of the sweep (R8, R11, R17, R19 to R22). -/

namespace Sys2Proof.Machine

/-! ### The receiver's settlement leaves the memory aside -/

/-- An operation that leaves the devices, the line records, the clearing and the sweep alone, and begins no sweep. -/
structure MemoryAside (s t : State) : Prop where
  device : t.device = s.device
  lines : t.lines = s.lines
  clearing : t.mem.clearing = s.mem.clearing
  sweep : t.mem.sweep = s.mem.sweep
  node : t.node.state = .sweep → s.node.state = .sweep

theorem MemoryAside.none (s : State) : MemoryAside s s := ⟨rfl, rfl, rfl, rfl, id⟩

theorem MemoryAside.after {s t u : State} (b : MemoryAside t u) (a : MemoryAside s t) : MemoryAside s u :=
  ⟨b.device.trans a.device, b.lines.trans a.lines, b.clearing.trans a.clearing, b.sweep.trans a.sweep, a.node ∘ b.node⟩

theorem MemoryAside.ifThen {c : Prop} [Decidable c] {s t : State} (h : c → MemoryAside s t) :
    MemoryAside s (if c then t else s) := by
  split
  · exact h ‹_›
  · exact .none s

theorem MemoryAside.spared {s t : State} {a : Nat} (h : MemoryAside s t) (spared : Spared a s) : Spared a t := by
  refine ⟨fun n hn => ?_, fun sweep => ?_⟩
  · unfold lineOf at hn ⊢
    rw [h.lines] at hn ⊢
    rw [h.clearing] at hn
    exact spared.windows n hn
  · rw [h.sweep]
    exact spared.block (h.node sweep)

theorem beginPeriod_memoryAside (seq : Seq) (g : Bool) (s : State) : MemoryAside s (beginPeriod seq g [] s) :=
  ⟨rfl, rfl, rfl, rfl, id⟩

theorem causesChanged_memoryAside (s : State) : MemoryAside s (causesChanged s) := by
  unfold causesChanged
  split
  · exact ⟨rfl, rfl, rfl, rfl, nofun⟩
  · exact .ifThen fun _ => ⟨rfl, rfl, rfl, rfl, nofun⟩

theorem linkEvent_memoryAside (s : State) : MemoryAside s (linkEvent s) := .ifThen fun _ => ⟨rfl, rfl, rfl, rfl, id⟩

theorem offerSequence_memoryAside (seq : Seq) (s : State) : MemoryAside s (offerSequence seq s) := by
  unfold offerSequence fire
  refine .ifThen fun _ => ?_
  split
  · exact ⟨rfl, rfl, rfl, rfl, id⟩
  · exact ⟨rfl, rfl, rfl, rfl, id⟩

theorem offered_memoryAside (seq : Seq) (s : State) : MemoryAside s (offerToCapture seq (settle seq s)) :=
  ⟨rfl, rfl, rfl, rfl, id⟩

theorem expectedSettled_memoryAside (seq : Seq) (s : State) : MemoryAside s (expectedSettled seq s) :=
  (offerSequence_memoryAside _ _).after (offered_memoryAside seq s)

theorem linkSet_memoryAside (s : State) : MemoryAside s (linkSet s) :=
  (causesChanged_memoryAside _).after ((linkEvent_memoryAside _).after ⟨rfl, rfl, rfl, rfl, id⟩)

theorem lostSet_memoryAside (s : State) : MemoryAside s (lostSet s) :=
  (causesChanged_memoryAside _).after ((linkEvent_memoryAside _).after ⟨rfl, rfl, rfl, rfl, id⟩)

theorem errorCounted_memoryAside (s : State) : MemoryAside s (errorCounted s) := by
  unfold errorCounted
  dsimp only
  split
  · exact (linkSet_memoryAside _).after ⟨rfl, rfl, rfl, rfl, id⟩
  · exact ⟨rfl, rfl, rfl, rfl, id⟩

theorem errorForgiven_memoryAside (s : State) : MemoryAside s (errorForgiven s) := by
  unfold errorForgiven
  dsimp only
  split
  · exact (causesChanged_memoryAside _).after ⟨rfl, rfl, rfl, rfl, id⟩
  · exact ⟨rfl, rfl, rfl, rfl, id⟩

theorem lostCleared_memoryAside (s : State) : MemoryAside s (lostCleared s) :=
  .ifThen fun _ => (causesChanged_memoryAside _).after ⟨rfl, rfl, rfl, rfl, id⟩

theorem goodCounted_memoryAside (s : State) : MemoryAside s (goodCounted s) := ⟨rfl, rfl, rfl, rfl, id⟩

theorem badCounted_memoryAside (n : Nat) (s : State) : MemoryAside s (badCounted n s) := ⟨rfl, rfl, rfl, rfl, id⟩

theorem searchEntered_memoryAside (s : State) : MemoryAside s (searchEntered s) := ⟨rfl, rfl, rfl, rfl, id⟩

theorem jumpTaken_memoryAside (s : State) : MemoryAside s (jumpTaken s) :=
  (errorCounted_memoryAside _).after ((linkEvent_memoryAside _).after ⟨rfl, rfl, rfl, rfl, id⟩)

theorem goodSettled_memoryAside (jump : Bool) (seq : Seq) (s : State) : MemoryAside s (goodSettled jump seq s) := by
  unfold goodSettled
  split
  · exact (jumpTaken_memoryAside _).after ((goodCounted_memoryAside _).after
      ((lostCleared_memoryAside _).after (offered_memoryAside seq s)))
  · exact (errorForgiven_memoryAside _).after ((goodCounted_memoryAside _).after
      ((lostCleared_memoryAside _).after ((offerSequence_memoryAside _ _).after (offered_memoryAside seq s))))

/-! ### The frame periods -/

/-- A frame period's handling spares a word where it handles a state that leaves the memory aside. -/
def Spares (handling : State → State) : Prop :=
  ∀ (t : State) (a : Nat), Spared a t → (handling t).device.words.read a = t.device.words.read a

theorem engineTaken_spares {s t : State} (h : MemoryAside s t) {a : Nat} (spared : Spared a s) (seq : Seq)
    (inputs : Vector Int 24) : (engineTaken seq inputs t).device.words.read a = s.device.words.read a := by
  have engine := engineStep_spares (h.spared spared) seq inputs
  rw [h.device] at engine
  exact engine

theorem handle_device (w : Bool) (seq : Seq) (inputs : Vector Int 24) (slots : Vector Word 64) (damaged : Bool)
    (service : Service) (t : State) :
    (handle w seq inputs slots damaged service t).device = (engineTaken seq inputs t).device := by
  unfold handle linkRestored
  split
  · rfl
  · rfl

theorem handle_spares {s t : State} (h : MemoryAside s t) {a : Nat} (spared : Spared a s) (w : Bool) (seq : Seq)
    (inputs : Vector Int 24) (slots : Vector Word 64) (damaged : Bool) (service : Service) :
    (handle w seq inputs slots damaged service t).device.words.read a = s.device.words.read a := by
  rw [handle_device]
  exact engineTaken_spares h spared seq inputs

theorem goodFrame_spares (f : Frame) : Spares (goodFrame f []) := fun t _ spared =>
  handle_spares ((goodSettled_memoryAside _ _ _).after (beginPeriod_memoryAside f.seq true t)) spared _ _ _ _ _ _

theorem badFrame_spares (f : Frame) : Spares (badFrame f []) := fun t _ spared =>
  handle_spares
    ((errorCounted_memoryAside _).after ((badCounted_memoryAside _ _).after ((lostCleared_memoryAside _).after
      ((expectedSettled_memoryAside _ _).after (beginPeriod_memoryAside t.link.expected false t)))))
    spared _ _ _ _ _ _

theorem missingFrame_spares : Spares (missingFrame []) := fun t _ spared =>
  handle_spares
    ((errorCounted_memoryAside _).after ((badCounted_memoryAside _ _).after
      ((expectedSettled_memoryAside _ _).after (beginPeriod_memoryAside t.link.expected false t))))
    spared _ _ _ _ _ _

theorem lostFrame_spares : Spares (lostFrame []) := fun t _ spared =>
  handle_spares
    ((lostSet_memoryAside _).after ((searchEntered_memoryAside _).after
      ((expectedSettled_memoryAside _ _).after (beginPeriod_memoryAside t.link.expected false t))))
    spared _ _ _ _ _ _

theorem localFrame_spares (arrivals : List Frame) : Spares (localFrame arrivals []) := fun t _ spared =>
  handle_spares ((expectedSettled_memoryAside _ _).after (beginPeriod_memoryAside t.link.expected false t)) spared _ _ _ _ _ _

theorem searchPeriod_spares (arrivals : List Frame) : Spares (searchPeriod arrivals []) := fun t _ spared =>
  engineTaken_spares (beginPeriod_memoryAside t.link.expected false t) spared _ _

theorem Spares.ifThen {f g : State → State} (hf : Spares f) (hg : Spares g) (c : State → Prop) [DecidablePred c] :
    Spares fun t => if c t then f t else g t := by
  intro t a spared
  dsimp only
  split
  · exact hf t a spared
  · exact hg t a spared

/-- The outcome of a frame-period command: it does not come about, or its handling behind the period's end. -/
theorem framePeriod_outcome {condition : State → Bool} {handling : State → State} {s u : State}
    (h : framePeriod condition handling s = .next u) : u = s ∨ u = handling (endPeriod s) := by
  unfold framePeriod at h
  split at h
  · injection h with same
    exact Or.inl same.symm
  · split at h
    · exact nomatch h
    · injection h with same
      exact Or.inr same.symm

theorem framePeriodCommand_spares {c : Instr} (h : framePeriodCommand c = true) (quiet : c.disturbances = []) :
    ∃ condition handling, Spares handling ∧ ∀ s, exec c s = framePeriod condition handling s := by
  cases c
  case startUpSearchPeriod arrivals memory =>
    obtain rfl : memory = [] := quiet
    exact ⟨fun t => t.link.startUp && !isLocked t, _, searchPeriod_spares arrivals, fun _ => rfl⟩
  case goodFrame f memory =>
    obtain rfl : memory = [] := quiet
    exact ⟨fun t => isLocked t && f.syncGood && f.checkGood && asBegun f t, _, goodFrame_spares f, fun _ => rfl⟩
  case badFrame f memory =>
    obtain rfl : memory = [] := quiet
    exact ⟨fun t => isLocked t && f.syncGood && !f.checkGood, _, badFrame_spares f, fun _ => rfl⟩
  case missingFramePeriod memory =>
    obtain rfl : memory = [] := quiet
    exact ⟨isLocked, _, missingFrame_spares.ifThen lostFrame_spares fun t => t.link.missing < 3, fun _ => rfl⟩
  case linkLost memory =>
    obtain rfl : memory = [] := quiet
    exact ⟨fun t => isLocked t && decide (3 ≤ t.link.missing), _, lostFrame_spares, fun _ => rfl⟩
  case localFrame arrivals memory =>
    obtain rfl : memory = [] := quiet
    exact ⟨fun t => t.link.lost && !isLocked t && !t.link.startUp, _, localFrame_spares arrivals, fun _ => rfl⟩
  case resumptionFrame f memory =>
    obtain rfl : memory = [] := quiet
    exact ⟨fun t => isLocked t && t.link.lost && f.syncGood && (asBegun f t || !f.checkGood), _,
      (goodFrame_spares f).ifThen (badFrame_spares f) fun _ => f.checkGood = true, fun _ => rfl⟩
  all_goals exact nomatch h

/-- Settles O51: a frame period spares what lies outside windows and block under test, and the writes of a processed frame and
of a frame of the sweep are the rows that the memory controller serves. -/
theorem framesWriteOnlyWindowsAndTheBlockUnderTest : Obligations.FramesWriteOnlyWindowsAndTheBlockUnderTest := by
  refine ⟨fun s u c address => ?_, fun b seq inputs runs answering memory placement =>
    processedFrame_writes seq inputs runs answering memory placement, fun b seq inputs sweep memory _ =>
    sweepFrame_writes b seq inputs sweep memory⟩
  intro t command quiet next windows block
  obtain ⟨condition, handling, spares, same⟩ := framePeriodCommand_spares command quiet
  rw [same] at next
  obtain rfl | rfl := framePeriod_outcome next
  · exact Or.inr rfl
  · exact Or.inl (spares t address ⟨windows, block⟩)

end Sys2Proof.Machine
end
